-- ==== Sys2Proof/Word.lean ====
section
/-! DEFINITION. The word and byte types (R8: every register-port word and host-interface word is 32 bits,
bit 0 the least significant). -/

namespace Sys2Proof

/-- A register-port or host-interface word (R8). -/
abbrev Word := BitVec 32

/-- A byte lane of the host bus (R63). -/
abbrev Byte := BitVec 8

end Sys2Proof
end

