-- ==== Sys2Proof/Config.lean ====
section
/-! DEFINITION. What an implementation fixes: the names of the LCDC registers and fields, the parameters of
R6 as one record, and the free values (draws) of the environment. The tables of default numbers (`CapsTI`)
stand in Machine/Caps.lean. -/

namespace Sys2Proof

/-- The two hardware revisions of the LCDC (R2). -/
inductive Rev where
  | v1
  | v2
deriving DecidableEq, Repr, Inhabited

/-- The LCDC registers the block uses (R44). -/
inductive LReg where
  | id | ctrl | stat | rasterCtrl | timing0 | timing1 | timing2 | dmaCtrl
  | fb0Base | fb0Ceil | fb1Base | fb1Ceil
  | rawStat | maskedStat | intEnSet | intEnClr | eoi | clkEn | clkReset
deriving DecidableEq, Repr, Inhabited

/-- The LCDC register fields whose position `Caps` gives (R91 to R102, and R105 for `CLK_EN`). The names are the spec's. -/
inductive Fld where
  -- CTRL (R91)
  | clkdiv | rasterMode
  -- status words and INT_EN_SET, INT_EN_CLR (R92, R99)
  | frameDone | syncLost | fifoUfl | plDone | eof0 | eof1
  -- RASTER_CTRL (R93)
  | rasterEn | mono | mono8 | tft | tftAlt | stn565 | rasterOrder | tft24 | tft24Unpack | v1PlIntEn | v1UflIntEn
  -- TIMING_0 (R94)
  | hbpLo | hfpLo | hswLo | pplLo | pplHi
  -- TIMING_1 (R95)
  | vbpLo | vfpLo | vswLo | lppLo
  -- TIMING_2 (R96)
  | hbpHi | hfpHi | hswHi | vbpHi | vfpHi | vswHi | lppHi | invHs | invVs | acb | acbI
  -- DMA_CTRL (R97)
  | dualFb | v1EofIntEn
  -- CLK_EN (R105: `CORE`, `LIDD` and `DMA`, used by no command, R101)
  | clkCore | clkLidd | clkDma
  -- CLK_RESET (R102)
  | mainReset
deriving DecidableEq, Repr, Inhabited

/-- Which value lands in the V2 field `HBP_HI` (R172). -/
inductive HbpHiSrc where
  | bp
  | fp
  | bpOrFp
deriving DecidableEq, Repr, Inhabited

/-- The capability table of one revision (R6 `Caps`, R90, R104): byte offsets of registers, bit ranges
`(hi, lo)` of fields, and the bits of non-status registers that the LCDC itself drives (R45). A register or
field that is not listed is `absent` (R10). -/
structure RevCaps where
  offs : List (LReg × Nat)
  pos  : List (Fld × (Nat × Nat))
  hw   : List (LReg × Word)
deriving DecidableEq, Repr, Inhabited

/-- The parameters of R6 that the source leaves OPEN, as one record. -/
structure Params where
  /-- `Caps.V1`. -/
  v1 : RevCaps
  /-- `Caps.V2`. -/
  v2 : RevCaps
  /-- Byte length of the LCDC register block. -/
  regSpan : Nat
  /-- The map from identification values to revisions. -/
  knownIds : List (Word × Rev)
  /-- `log2(pixelsPerWord)`: `P` is a power of two (R175). -/
  pplLog2 : Nat
  /-- Width of the low pulse-width fields. -/
  pwLoBits : Nat
  /-- Width of the V2 horizontal high pulse-width field. -/
  hswHiBits : Nat
  /-- Width of the V2 vertical high pulse-width field. -/
  vswHiBits : Nat
  /-- The V2 `HBP_HI` choice (R172). -/
  hbpHiSrc : HbpHiSrc
  /-- Default palette-wait bound in ms. -/
  paletteTimeoutMs : Nat
  /-- The value the LCDC's `ID` register returns (R45). -/
  lcdcId : Word
  /-- System-bus base address of the host interface (R120). -/
  seqBase : Word
deriving DecidableEq, Repr, Inhabited

/-- A vram region (R36): natural base address and size in bytes. -/
structure Vram where
  base : Nat
  size : Nat
deriving DecidableEq, Repr, Inhabited

/-- One answer of the environment. A primitive step that asks the environment reads the component it needs
(R45, R23, R25, R262) and uses the record up. -/
structure Draw where
  /-- The value a drawn register read returns (R45). -/
  word : Word
  /-- The rate `ClkRate()` returns (R23). -/
  rate : Nat
  /-- The answer to `ClkRequest`: the achieved rate, or none for `Reject` (R23). -/
  clk : Option Nat
  /-- The answer to `VramAlloc`: a region, or none for `Fail` (R25). -/
  vram : Option Vram
  /-- Whether a test step of `Block` that finds its flag 0 returns `TimedOut` (R262). -/
  timeout : Bool
deriving DecidableEq, Repr, Inhabited

/-- One move of the agents of R20, each taken between two primitive steps. -/
inductive Move where
  /-- `SEQ` takes up to `n` primitive steps with no other agent between them. -/
  | seq (n : Nat)
  /-- `IRQD` takes up to `n` primitive steps with no other agent between them. -/
  | irqd (n : Nat)
  /-- The LCDC drives its interrupt line to this level (R311). -/
  | line (level : Bool)
  /-- `HOST` writes `v` in an access of `size` bytes at system-bus address `addr` (R120). -/
  | busWrite (addr : Word) (size : Nat) (v : Word)
  /-- `HOST` reads `size` bytes at system-bus address `addr` (R120). -/
  | busRead (addr : Word) (size : Nat)
  /-- The reset input is asserted (R351). -/
  | rst
deriving DecidableEq, Repr, Inhabited

/-- DESIGN CHOICE (log 4): the free answers of the environment, one for each question asked after the listed
answers of a state are used up. It has no body, so nothing can be proved of a value of it. -/
opaque Config.freeDraw : Nat → Draw

/-- DESIGN CHOICE (log 5): the free order of the agents' moves, one for each step taken after the listed
moves of a state are used up. -/
opaque Config.freeMove : Nat → Move

/-- DESIGN CHOICE (log 2): the platform constant `lcdcId` of the machine after reset (R6: OPEN). -/
opaque Config.platformLcdcId : Word

end Sys2Proof
end

