-- ==== Sys2Proof/Machine/Caps.lean ====
section
/-! DEFINITION. Reading a capability table (R10, R90, R144), the informative default table `CapsTI` (R105)
and the default parameters (R6), and the well-formedness of a table (R104). -/

namespace Sys2Proof

/-- The capability table of a revision (R144). -/
def Params.caps (p : Params) : Rev → RevCaps
  | .v1 => p.v1
  | .v2 => p.v2

/-- `Caps.off(R)` of a revision; none when the revision has no such register (R44). -/
def Params.off? (p : Params) (r : Rev) (g : LReg) : Option Nat := (p.caps r).offs.lookup g

/-- `Caps.off(R)` as the port sees it. R44: the block never accesses a register its revision lacks. -/
def Params.off (p : Params) (r : Rev) (g : LReg) : Nat := (p.off? r g).getD 0

/-- The register of the current revision at a byte offset, if any (R140, R141). -/
def Params.regAt (p : Params) (r : Rev) (o : Nat) : Option LReg :=
  ((p.caps r).offs.find? fun e => e.2 == o).map (·.1)

/-- `Caps.pos(F)` of a revision; none when `absent` (R10). -/
def Params.pos (p : Params) (r : Rev) (f : Fld) : Option (Nat × Nat) := (p.caps r).pos.lookup f

/-- The bits of a register that the LCDC drives (R45). -/
def Params.hwMask (p : Params) (r : Rev) (g : LReg) : Word := ((p.caps r).hw.lookup g).getD 0#32

/-- `pplBits(rev) = widthMaskBits(rev) - log2(P)` (R94), with `widthMaskBits` 10 on V1 and 11 on V2 (R6). -/
def widthMaskBits : Rev → Nat
  | .v1 => 10
  | .v2 => 11

/-- `pplBits(rev)` (R94, R175). -/
def Params.pplBits (p : Params) (r : Rev) : Nat := widthMaskBits r - p.pplLog2

/-! ## Which registers and fields a revision has -/

/-- All registers of R44. -/
def LReg.all : List LReg :=
  [.id, .ctrl, .stat, .rasterCtrl, .timing0, .timing1, .timing2, .dmaCtrl, .fb0Base, .fb0Ceil, .fb1Base, .fb1Ceil,
   .rawStat, .maskedStat, .intEnSet, .intEnClr, .eoi, .clkEn, .clkReset]

/-- The "revisions" column of R44. -/
def LReg.onRev : LReg → Rev → Bool
  | .stat, .v2 => false
  | .rawStat, .v1 | .maskedStat, .v1 | .intEnSet, .v1 | .intEnClr, .v1 | .eoi, .v1 | .clkEn, .v1 | .clkReset, .v1 => false
  | _, _ => true

/-- All fields of R91 to R102, and those that R105 places in `CLK_EN`. -/
def Fld.all : List Fld :=
  [.clkdiv, .rasterMode, .frameDone, .syncLost, .fifoUfl, .plDone, .eof0, .eof1, .rasterEn, .mono, .mono8, .tft, .tftAlt,
   .stn565, .rasterOrder, .tft24, .tft24Unpack, .v1PlIntEn, .v1UflIntEn, .hbpLo, .hfpLo, .hswLo, .pplLo, .pplHi, .vbpLo,
   .vfpLo, .vswLo, .lppLo, .hbpHi, .hfpHi, .hswHi, .vbpHi, .vfpHi, .vswHi, .lppHi, .invHs, .invVs, .acb, .acbI, .dualFb,
   .v1EofIntEn, .clkCore, .clkLidd, .clkDma, .mainReset]

/-- The register that holds a field (R91 to R102, R105). A status bit has one position for `STAT`, `MASKED_STAT`,
`INT_EN_SET` and `INT_EN_CLR` (R104); they stand under `stat`. The V1 enables lie outside `STAT` (R93, R97). -/
def Fld.home : Fld → LReg
  | .clkdiv | .rasterMode => .ctrl
  | .frameDone | .syncLost | .fifoUfl | .plDone | .eof0 | .eof1 => .stat
  | .rasterEn | .mono | .mono8 | .tft | .tftAlt | .stn565 | .rasterOrder | .tft24 | .tft24Unpack | .v1PlIntEn
  | .v1UflIntEn => .rasterCtrl
  | .hbpLo | .hfpLo | .hswLo | .pplLo | .pplHi => .timing0
  | .vbpLo | .vfpLo | .vswLo | .lppLo => .timing1
  | .hbpHi | .hfpHi | .hswHi | .vbpHi | .vfpHi | .vswHi | .lppHi | .invHs | .invVs | .acb | .acbI => .timing2
  | .dualFb | .v1EofIntEn => .dmaCtrl
  | .clkCore | .clkLidd | .clkDma => .clkEn
  | .mainReset => .clkReset

/-- The "rev" columns of R93 to R102, and of R105 for the fields of `CLK_EN`. -/
def Fld.onRev : Fld → Rev → Bool
  | .tft24, .v1 | .tft24Unpack, .v1 | .pplHi, .v1 | .hbpHi, .v1 | .hfpHi, .v1 | .hswHi, .v1 | .vbpHi, .v1 | .vfpHi, .v1
  | .vswHi, .v1 | .lppHi, .v1 | .clkCore, .v1 | .clkLidd, .v1 | .clkDma, .v1 | .mainReset, .v1 => false
  | .v1PlIntEn, .v2 | .v1UflIntEn, .v2 | .v1EofIntEn, .v2 => false
  | _, _ => true

/-- The width of a field (R91 to R102; R105 for the fields of `CLK_EN`). -/
def Params.width (p : Params) : Fld → Nat
  | .clkdiv | .hbpLo | .hfpLo | .vbpLo | .vfpLo | .acb => 8
  | .hswLo | .vswLo => p.pwLoBits
  | .pplLo => p.pplBits .v1
  | .pplHi => p.pplBits .v2 - p.pplBits .v1
  | .lppLo => 10
  | .hbpHi | .hfpHi | .vbpHi | .vfpHi => 2
  | .hswHi => p.hswHiBits
  | .vswHi => p.vswHiBits
  | .acbI => 4
  | _ => 1

/-- A table may leave these fields of its revision without a location: the V2 vertical porch high fields (R6 `v2VertHi`,
D29), and the fields of `CLK_EN`, which R91 to R103 do not name and no command uses (R101, R105). -/
def Fld.optional : Fld → Bool
  | .vbpHi | .vfpHi | .clkCore | .clkLidd | .clkDma => true
  | _ => false

/-! ## Well-formedness of a table (R104) -/

/-- Every register the revision has gets an offset that is a multiple of 4 below `regSpan`, and no register
it lacks has one. R104 says the latter of the V2-only registers in the V1 table. DESIGN CHOICE (log 28): a V2 table that
gives `STAT` an offset is ill formed too; R44 says only that the block uses `STAT` on V1. -/
def offsetsInRange (p : Params) (r : Rev) : Bool :=
  LReg.all.all fun g =>
    match p.off? r g with
    | some o => g.onRev r && o % 4 == 0 && o < p.regSpan
    | none => !g.onRev r

/-- The offsets of a revision are distinct, and each register is listed once. -/
def offsetsDistinct (p : Params) (r : Rev) : Bool :=
  ((p.caps r).offs.map (·.2)).Nodup && ((p.caps r).offs.map (·.1)).Nodup

/-- Every field the revision has gets a range of exactly its width inside bits 31..0; a field of width 0 or
one the revision lacks is absent (R90). R104 counts the latter among its items for the V2-only fields in the V1 table.
DESIGN CHOICE (log 28): a V2 table that gives a V1-only field a position is ill formed too. -/
def fieldsFit (p : Params) (r : Rev) : Bool :=
  Fld.all.all fun f =>
    match p.pos r f with
    | some (hi, lo) => f.onRev r && lo ≤ hi && hi ≤ 31 && hi - lo + 1 == p.width f
    | none => !f.onRev r || p.width f == 0 || f.optional

/-- The bits of a field range as a natural mask. -/
def rangeMask : Option (Nat × Nat) → Nat
  | none => 0
  | some (hi, lo) => (2 ^ (hi - lo + 1) - 1) * 2 ^ lo

/-- The masks of a list are pairwise disjoint: each new one misses all bits taken so far. -/
def masksDisjoint : Nat → List Nat → Bool
  | _, [] => true
  | taken, m :: ms => (taken &&& m) == 0 && masksDisjoint (taken ||| m) ms

/-- The bit ranges of a register's fields. -/
def Params.fieldMasks (p : Params) (r : Rev) (g : LReg) : List Nat :=
  (Fld.all.filter fun f => f.home == g).map fun f => rangeMask (p.pos r f)

/-- No two fields of one register overlap. -/
def fieldsDisjoint (p : Params) (r : Rev) : Bool :=
  LReg.all.all fun g => masksDisjoint 0 (p.fieldMasks r g)

/-- DESIGN CHOICE (log 9): the LCDC drives no bit of a field that a table gives a position, and no bit of a slot register
(R45, R98). -/
def hwBitsApart (p : Params) (r : Rev) : Bool :=
  LReg.all.all fun g =>
    match g with
    | .fb0Base | .fb0Ceil | .fb1Base | .fb1Ceil => p.hwMask r g == 0#32
    | _ => (p.fieldMasks r g).all fun m => ((p.hwMask r g).toNat &&& m) == 0

/-- `Caps.off(ID)` is the same in both tables. -/
def idOffsetShared (p : Params) : Bool := p.off? .v1 .id == p.off? .v2 .id

/-- The status bits of R92. -/
def statusBits : List Fld := [.frameDone, .syncLost, .fifoUfl, .plDone, .eof0, .eof1]

/-- The status bits have the same positions in `STAT` (the V1 table) as in `MASKED_STAT`, `INT_EN_SET` and `INT_EN_CLR`
(the V2 table, which gives those three one position each, R92). -/
def statusShared (p : Params) : Bool := statusBits.all fun f => p.pos .v1 f == p.pos .v2 f

/-- `P` is a power of two with `log2(P) < 10` (R175; a power of two by its representation). -/
def wordSizeOk (p : Params) : Bool := p.pplLog2 < 10

/-- A well-formed parameter record (R104, R175). A model refuses any other. -/
def capsOk (p : Params) : Bool :=
  offsetsInRange p .v1 && offsetsInRange p .v2 && offsetsDistinct p .v1 && offsetsDistinct p .v2
    && fieldsFit p .v1 && fieldsFit p .v2 && fieldsDisjoint p .v1 && fieldsDisjoint p .v2
    && hwBitsApart p .v1 && hwBitsApart p .v2 && idOffsetShared p && statusShared p && wordSizeOk p

/-! ## The default table `CapsTI` (R105) -/

/-- PRESUMED (log 1): offsets both revisions share. -/
def capsTIOffsBoth : List (LReg × Nat) :=
  [(.id, 0x00), (.ctrl, 0x04), (.rasterCtrl, 0x28), (.timing0, 0x2C), (.timing1, 0x30), (.timing2, 0x34),
   (.dmaCtrl, 0x40), (.fb0Base, 0x44), (.fb0Ceil, 0x48), (.fb1Base, 0x4C), (.fb1Ceil, 0x50)]

/-- PRESUMED (log 1): field positions both revisions share. -/
def capsTIPosBoth : List (Fld × (Nat × Nat)) :=
  [(.rasterMode, (0, 0)), (.clkdiv, (15, 8)), (.frameDone, (0, 0)), (.syncLost, (2, 2)), (.fifoUfl, (5, 5)),
   (.plDone, (6, 6)), (.eof0, (8, 8)), (.eof1, (9, 9)), (.rasterEn, (0, 0)), (.mono, (1, 1)), (.tft, (7, 7)),
   (.rasterOrder, (8, 8)), (.mono8, (9, 9)), (.tftAlt, (23, 23)), (.stn565, (24, 24)), (.hbpLo, (31, 24)),
   (.hfpLo, (23, 16)), (.hswLo, (15, 10)), (.pplLo, (9, 4)), (.vbpLo, (31, 24)), (.vfpLo, (23, 16)),
   (.vswLo, (15, 10)), (.lppLo, (9, 0)), (.acb, (15, 8)), (.acbI, (19, 16)), (.invVs, (20, 20)), (.invHs, (21, 21)),
   (.dualFb, (0, 0))]

/-- PRESUMED (log 1): `CapsTI.V1` (R105). -/
def capsTI1 : RevCaps where
  offs := capsTIOffsBoth ++ [(.stat, 0x08)]
  pos := capsTIPosBoth ++ [(.v1PlIntEn, (4, 4)), (.v1UflIntEn, (6, 6)), (.v1EofIntEn, (2, 2))]
  hw := []

/-- PRESUMED (log 1): `CapsTI.V2` (R105). `VBP_HI`, `VFP_HI` and `VSW_HI` are absent. -/
def capsTI2 : RevCaps where
  offs := capsTIOffsBoth ++ [(.rawStat, 0x58), (.maskedStat, 0x5C), (.intEnSet, 0x60), (.intEnClr, 0x64), (.eoi, 0x68),
    (.clkEn, 0x6C), (.clkReset, 0x70)]
  pos := capsTIPosBoth ++ [(.tft24, (25, 25)), (.tft24Unpack, (26, 26)), (.pplHi, (3, 3)), (.hfpHi, (1, 0)),
    (.hbpHi, (5, 4)), (.lppHi, (26, 26)), (.hswHi, (30, 27)), (.clkCore, (0, 0)), (.clkLidd, (1, 1)), (.clkDma, (2, 2)),
    (.mainReset, (3, 3))]
  hw := []

/-- PRESUMED (log 1): the defaults of R6. DESIGN CHOICE: `seqBase` is 0 (log 3), the LCDC drives no bit of a
register the block writes (log 9), `lcdcId` is a constant without a value (log 2). -/
def Params.default : Params where
  v1 := capsTI1
  v2 := capsTI2
  regSpan := 0x74
  knownIds := [(0x4C100102#32, .v1), (0x4F200800#32, .v2), (0x4F201000#32, .v2)]
  pplLog2 := 4
  pwLoBits := 6
  hswHiBits := 4
  vswHiBits := 0
  hbpHiSrc := .bp
  paletteTimeoutMs := 200
  lcdcId := Config.platformLcdcId
  seqBase := 0#32

/-- `vsyncTimeoutMs` (R6). -/
def vsyncTimeoutMs : Nat := 200

/-- `frameDoneTimeoutMs` (R6). -/
def frameDoneTimeoutMs : Nat := 50

/-- `resetDelayMs` (R6). -/
def resetDelayMs : Nat := 1

/-- `divMin` (R6, R160). -/
def divMin : Nat := 2

/-- `divMax` (R6, R160). -/
def divMax : Nat := 255

end Sys2Proof
end

