-- ==== Sys2Proof/Syntax.lean ====
section
/-! DEFINITION. The host commands: one constructor per row of the opcode map R126. A command word holds no
operand (R122); the operands are the latched argument registers (R33, R128). -/

namespace Sys2Proof

/-- The 21 host commands (R126). -/
inductive Instr where
  | attach | detach | regRead | regWrite
  | setClock
  | programHsync | programVsync | programFrameGeometry | programDisplayMode | programAcBias
  | modeSet | setWindow | pan
  | enable | disable
  | waitVsync | waitPalette | registerCb | unregisterCb
  | suspend | resume
deriving DecidableEq, Repr, Inhabited

end Sys2Proof
end

