-- ==== Sys2Proof/WellFormed.lean ====
section
/-! DEFINITION. Well-formedness: of a command word (R122, R127), of a command (it carries no operand), and of the
parameters (R104, whose checks stand in Machine/Caps.lean). -/

namespace Sys2Proof

/-- R122: the bits `RSV = v[31:8]` of a command word are 0. -/
def rsvClear (w : Word) : Bool := w.toNat / 256 == 0

/-- R126: the opcodes that are assigned. -/
def opcodeAssigned (opc : Nat) : Bool :=
  [0x01, 0x02, 0x08, 0x09, 0x10, 0x11, 0x12, 0x13, 0x14, 0x15, 0x20, 0x21, 0x22, 0x30, 0x31, 0x40, 0x41, 0x50, 0x51,
   0x60, 0x61].contains opc

/-- A word that names a command (R127: every other word is illegal). -/
def wordWellFormed (w : Word) : Bool := rsvClear w && opcodeAssigned (w.toNat % 256)

/-- Every command is well formed: it holds no operand that could be out of range (R122). -/
def Instr.wellFormed (_ : Instr) : Bool := true

/-- R104, R175: the parameters a model accepts. -/
def Params.wellFormed (p : Params) : Bool := capsOk p

end Sys2Proof
end

