-- ==== Sys2Proof/Decode.lean ====
section
/-! DEFINITION. The decoder (R122, R126, R127, R132) and the encoder (R130). A command is one 32-bit word; on a bus
with byte lanes it is little-endian (R63). -/

namespace Sys2Proof

/-- Why a word or a byte string names no command. -/
inductive DecodeError where
  /-- R122, R127: a bit of `RSV = v[31:8]` is 1. -/
  | reservedBits
  /-- R127: `OPC` is not in the opcode map. -/
  | unassignedOpcode
  /-- R63, R122: not exactly the four bytes of one word. -/
  | notOneWord
deriving DecidableEq, Repr

/-- The opcode map R126. -/
def decodeOpcode (opc : Nat) : Option Instr :=
  match opc with
  | 0x01 => some .attach
  | 0x02 => some .detach
  | 0x08 => some .regRead
  | 0x09 => some .regWrite
  | 0x10 => some .setClock
  | 0x11 => some .programHsync
  | 0x12 => some .programVsync
  | 0x13 => some .programFrameGeometry
  | 0x14 => some .programDisplayMode
  | 0x15 => some .programAcBias
  | 0x20 => some .modeSet
  | 0x21 => some .setWindow
  | 0x22 => some .pan
  | 0x30 => some .enable
  | 0x31 => some .disable
  | 0x40 => some .waitVsync
  | 0x41 => some .waitPalette
  | 0x50 => some .registerCb
  | 0x51 => some .unregisterCb
  | 0x60 => some .suspend
  | 0x61 => some .resume
  | _ => none

/-- `decode(v)` of R121 and R132, with the reason an illegal word is illegal. -/
def decodeWord (v : Word) : Except DecodeError Instr :=
  if v.toNat / 256 ≠ 0 then .error .reservedBits
  else
    match decodeOpcode (v.toNat % 256) with
    | some i => .ok i
    | none => .error .unassignedOpcode

/-- `decode(v)`: the command, or none for the pseudo-command `ILLEGAL` (R121). -/
def decode? (v : Word) : Option Instr := (decodeWord v).toOption

/-- The word held by four bytes in the order of their addresses, lowest first (R63: little-endian lanes). -/
def wordOfBytes (b0 b1 b2 b3 : Byte) : Word :=
  BitVec.ofNat 32 (b0.toNat + 256 * b1.toNat + 65536 * b2.toNat + 16777216 * b3.toNat)

/-- The bytes of a word in the order of their addresses, lowest first (R63). -/
def bytesOfWord (w : Word) : List Byte :=
  [BitVec.ofNat 8 w.toNat, BitVec.ofNat 8 (w.toNat / 256), BitVec.ofNat 8 (w.toNat / 65536),
   BitVec.ofNat 8 (w.toNat / 16777216)]

/-- Decoding from bytes: total, refusing by name. -/
def decodeBytes : List Byte → Except DecodeError Instr
  | [b0, b1, b2, b3] => decodeWord (wordOfBytes b0 b1 b2 b3)
  | _ => .error .notOneWord

/-- The opcode of a command (R126). -/
def opcodeOf : Instr → Nat
  | .attach => 0x01
  | .detach => 0x02
  | .regRead => 0x08
  | .regWrite => 0x09
  | .setClock => 0x10
  | .programHsync => 0x11
  | .programVsync => 0x12
  | .programFrameGeometry => 0x13
  | .programDisplayMode => 0x14
  | .programAcBias => 0x15
  | .modeSet => 0x20
  | .setWindow => 0x21
  | .pan => 0x22
  | .enable => 0x30
  | .disable => 0x31
  | .waitVsync => 0x40
  | .waitPalette => 0x41
  | .registerCb => 0x50
  | .unregisterCb => 0x51
  | .suspend => 0x60
  | .resume => 0x61

/-- The command word `zext_32(OPC)` (R122, R130). -/
def encode (i : Instr) : Word := BitVec.ofNat 32 (opcodeOf i)

/-- The bytes of the command word as a bus with byte lanes carries them (R63). -/
def encodeBytes (i : Instr) : List Byte := bytesOfWord (encode i)

/-- The command word whose low `nbits` bits are `w` and whose other bits are 0. -/
def tableWord (nbits w : Nat) : Word := BitVec.ofNat 32 (w % 2 ^ nbits)

/-- What the decoder reads from the table word `w` of `nbits` bits, laid out as the hardware stores it. -/
def decodeTableWord (nbits w : Nat) : Option Instr := (decodeBytes (bytesOfWord (tableWord nbits w))).toOption

end Sys2Proof
end

