-- ==== Sys2Proof/Machine/State.lean ====
section
/-! DEFINITION. The machine's state as plain data (R26 to R49): the block, its two agents' step pointers and locals,
what the block has written to the LCDC, the environment's coming answers and moves, and the record of the register
port. `State.reset` is the power-on state of R49 and R350. -/

namespace Sys2Proof.Machine

/-- The block's two agents that take primitive steps (R20). -/
inductive Agent where
  | seq
  | irqd
deriving DecidableEq, Repr, Inhabited

/-- `blk.rstate` (R29). -/
inductive RState where
  | disabled
  | enabling
  | enabled
  | disablingWaitFrame
deriving DecidableEq, Repr, Inhabited

/-- `blk.lastDone` (R31). -/
inductive LastDone where
  | s0
  | s1
  | unknown
deriving DecidableEq, Repr, Inhabited

/-- `blk.lock` (R42). -/
inductive Lock where
  | free
  | seq
  | irqd
deriving DecidableEq, Repr, Inhabited

/-- The three event flags a wait can block on (R30, R262). -/
inductive WaitEvent where
  | vsync
  | frameDone
  | palDone
deriving DecidableEq, Repr, Inhabited

/-- The shade classes (R34). -/
inductive Shade where
  | mono
  | tft
  | stn
deriving DecidableEq, Repr, Inhabited

/-- The outcomes of a command (R310). Codes 11 to 15 are reserved and never produced. -/
inductive Code where
  | ok
  | unsupportedFormat
  | invalidGeometry
  | clockError
  | timeout
  | alreadyRegistered
  | notFound
  | resourceExhausted
  | illegalCommand
  | notAttached
  | suspended
deriving DecidableEq, Repr, Inhabited

/-- The events of `blk.out` (R40). -/
inductive Event where
  /-- The registered callback is invoked (R267). -/
  | vsyncCallback (fn ctx : Word)
  /-- `Log(UnknownId(id))` (R142). -/
  | logUnknownId (id : Word)
  /-- `Log(DisableTimeout)` (R225). -/
  | logDisableTimeout
  /-- `Done(opc, code)`, the end of a command (R313). -/
  | done (opc : Byte) (code : BitVec 4)
deriving DecidableEq, Repr, Inhabited

/-- `blk.fmt`, the programmed pixel format (R34). -/
structure Fmt where
  bpp : Nat
  shade : Shade
  mono8 : Bool
  tftAlt : Bool
  stn565 : Bool
  rasterOrder : Bool
  hsyncActiveHigh : Bool
  vsyncActiveHigh : Bool
deriving DecidableEq, Repr, Inhabited

/-- `blk.geo`, the mode geometry (R35). -/
structure Geo where
  xres : Nat
  yres : Nat
  xresV : Nat
  yresV : Nat
  lineLen : Nat
deriving DecidableEq, Repr, Inhabited

/-- A DMA window: the byte addresses of a frame's first and last byte (R41). -/
structure Window where
  start : Word
  last : Word
deriving DecidableEq, Repr, Inhabited

/-- The block's state (R27 to R43). -/
structure Blk where
  attached : Bool
  rev : Rev
  rstate : RState
  vsyncFlag : Bool
  frameDoneFlag : Bool
  palDoneFlag : Bool
  lastDone : LastDone
  busy : Bool
  err : BitVec 4
  res0 : Word
  res1 : Word
  cmdword : Word
  argreg : Vector Word 16
  arg : Vector Word 16
  fmt : Fmt
  geo : Geo
  haveMode : Bool
  vram : Vram
  cb : Option (Word × Word)
  divider : BitVec 8
  srcRate : Nat
  palCount : Nat
  panelPower : Bool
  clkRun : Bool
  suspended : Bool
  out : List Event
  win : Option Window
  xoff : Nat
  yoff : Nat
  lock : Lock
  irqActive : Bool
deriving DecidableEq, Repr

/-- `blk.seqpc` (R26): idle, or the running command (none is the pseudo-command `ILLEGAL`, R121) and the index of its
next step. -/
inductive SeqPc where
  | idle
  | run (cmd : Option Instr) (step : Nat)
deriving DecidableEq, Repr, Inhabited

/-- The values a command holds between two of its steps: the names its pseudocode binds. -/
structure Locals where
  /-- The word between the read and the write of an RMW (R12), and the value of REG_READ. -/
  t : Word
  /-- `id`, `r` and `a` of ATTACH (R143). -/
  id : Word
  newRev : Rev
  alloc : Option Vram
  /-- `src`, `d`, `clamped`, the answer to the re-request and `a` of NEGOTIATE (R163). -/
  src : Nat
  d : Nat
  clamped : Bool
  ans : Option Nat
  a : Nat
  /-- `T` and `r` of a wait (R260, R262). -/
  bound : Nat
  timedOut : Bool
  /-- `x`, `y`, `s` and `e` of PAN (R205). -/
  px : Nat
  py : Nat
  ws : Nat
  we : Nat
deriving DecidableEq, Repr, Inhabited

/-- The agent `SEQ`. -/
structure Seq where
  pc : SeqPc
  loc : Locals
  /-- The model's own: how many primitive steps `SEQ` may take in the present step of the machine (log 5). -/
  turn : Nat
deriving DecidableEq, Repr

/-- `IRQD`'s own step pointer (R317): idle, or the body chosen at entry (R281) and the index of its next step. -/
inductive IrqPc where
  | idle
  | run (body : Rev) (step : Nat)
deriving DecidableEq, Repr, Inhabited

/-- The agent `IRQD`: its step pointer and the names its pseudocode binds. -/
structure Irqd where
  pc : IrqPc
  /-- The status word read (R282, R287). -/
  s : Word
  /-- The word between the read and the write of an RMW (R12). -/
  t : Word
  /-- The window bound by `if blk.win = some(s, e)` of RELATCH (R285). -/
  w : Option Window
deriving DecidableEq, Repr

/-- The word last written to each LCDC register since power-on; none before the first write (R45). The status
registers and `ID` hold no such word: a status read is a draw and `ID` is a constant (log 8). -/
structure LcdcRegs where
  ctrl : Option Word
  rasterCtrl : Option Word
  timing0 : Option Word
  timing1 : Option Word
  timing2 : Option Word
  dmaCtrl : Option Word
  fb0Base : Option Word
  fb0Ceil : Option Word
  fb1Base : Option Word
  fb1Ceil : Option Word
  intEnSet : Option Word
  intEnClr : Option Word
  eoi : Option Word
  clkEn : Option Word
  clkReset : Option Word
deriving DecidableEq, Repr

/-- The LCDC as the block acts on it (R21): the words written, the V2 interrupt-enable mask (R47), the interrupt
line (R311). -/
structure Lcdc where
  regs : LcdcRegs
  intEn : Word
  irq : Bool
deriving DecidableEq, Repr

/-- The environment (the model's own, log 4 and log 5): the coming moves and answers, the counters that the free
values are applied to when a list is used up, and the clock source's rate as last exchanged (R23; log 26). -/
structure Env where
  sched : List Move
  nMove : Nat
  draws : List Draw
  nDraw : Nat
  clkRate : Nat
deriving DecidableEq, Repr

/-- One entry of the record of the block's outside actions (the model's own, log 21), in the one total order of R68. -/
inductive PortEvent where
  /-- A register-port read at a byte offset, and the value returned (R60). -/
  | read (a : Agent) (off : Nat) (v : Word)
  /-- A register-port write at a byte offset (R60). -/
  | write (a : Agent) (off : Nat) (v : Word)
  /-- `Delay(ms)`: the agent's steps before and after lie at least `ms` milliseconds apart (R356). -/
  | delay (a : Agent) (ms : Nat)
  /-- `ClkRate()` and its answer (R23). -/
  | clkRate (hz : Nat)
  /-- `ClkRequest(hz)` and its answer (R23). -/
  | clkRequest (hz : Nat) (ans : Option Nat)
  /-- `VramAlloc()` and its answer (R25). -/
  | vramAlloc (ans : Option Vram)
  /-- `VramFree()` of a region (R25). -/
  | vramFree (v : Vram)
  /-- A `Block` returned; `ms` is its bound (R262). -/
  | waited (e : WaitEvent) (ms : Nat) (woken : Bool)
deriving DecidableEq, Repr, Inhabited

/-- The whole machine. It holds no system memory: the block never accesses it (R61; log 23). -/
structure State where
  cfg : Params
  blk : Blk
  seq : Seq
  irqd : Irqd
  lcdc : Lcdc
  env : Env
  port : List PortEvent
  /-- The data the last host read returned (R120; log 22). -/
  busData : Word
deriving DecidableEq, Repr

/-- Why the machine stops with a fault. No rule of the spec does so. -/
inductive Fault where
  /-- Raised by a move of `SEQ` or `IRQD` whose step pointer lies past the end of its pseudocode, which R26 and
  R292 rule out in every state the block can reach. Safe: the model stops (log 20). -/
  | stepPointerOutOfRange
deriving DecidableEq, Repr

/-- Why a step has no meaning. -/
inductive Refusal where
  /-- Raised by an arm of `exec` for a command without a meaning. Safe. No arm raises it. -/
  | notModelled (mnemonic : String)
  /-- Raised by a host access that is not a 32-bit aligned access within 0x00 to 0x4F; R64 and R326: "A model
  refuses such an access". Safe (log 15). -/
  | badHostAccess
  /-- Raised by every step of a machine whose parameters are ill formed; R104: "A model must refuse an ill-formed
  `Caps`". Safe (log 16). -/
  | illFormedCaps
deriving DecidableEq, Repr

/-! ## Reset -/

/-- DESIGN CHOICE (log 12): `blk.fmt` after power-on; R49: unspecified, never read while `haveMode` is false. -/
def Fmt.reset : Fmt := ⟨1, .mono, false, false, false, false, false, false⟩

/-- DESIGN CHOICE (log 12): `blk.geo` after power-on; R49: unspecified, never read while `haveMode` is false. -/
def Geo.reset : Geo := ⟨0, 0, 0, 0, 0⟩

/-- The block after power-on (R49, R350). -/
def Blk.reset : Blk where
  attached := false
  rev := .v1
  rstate := .disabled
  vsyncFlag := false
  frameDoneFlag := false
  palDoneFlag := false
  lastDone := .unknown
  busy := false
  err := 0#4
  res0 := 0#32
  res1 := 0#32
  cmdword := 0#32
  argreg := Vector.replicate 16 0#32
  arg := Vector.replicate 16 0#32
  fmt := Fmt.reset
  geo := Geo.reset
  haveMode := false
  vram := ⟨0, 0⟩
  cb := none
  divider := 0#8
  srcRate := 0
  palCount := 32
  panelPower := false
  clkRun := false
  suspended := false
  out := []
  win := none
  xoff := 0
  yoff := 0
  lock := .free
  irqActive := false

/-- DESIGN CHOICE (log 13): the locals before any command bound one. -/
def Locals.reset : Locals := ⟨0#32, 0#32, .v1, none, 0, 0, false, none, 0, 0, false, 0, 0, 0, 0⟩

/-- `SEQ` after power-on: `Idle` (R49). -/
def Seq.reset : Seq := ⟨.idle, Locals.reset, 0⟩

/-- `IRQD` after power-on: no activation runs (R49). -/
def Irqd.reset : Irqd := ⟨.idle, 0#32, 0#32, none⟩

/-- No register is written yet (R45, R49). -/
def LcdcRegs.reset : LcdcRegs :=
  ⟨none, none, none, none, none, none, none, none, none, none, none, none, none, none, none⟩

/-- The LCDC at power-on. DESIGN CHOICE: the mask is 0 (log 10), the line is low (log 11). -/
def Lcdc.reset : Lcdc := ⟨LcdcRegs.reset, 0#32, false⟩

/-- The environment at power-on: no listed answer and no listed move, so the free values decide (log 4, log 5). -/
def Env.reset : Env := ⟨[], 0, [], 0, 0⟩

/-- The machine right after reset (R49, R350), with the default parameters (log 1). -/
def State.reset : State where
  cfg := Params.default
  blk := Blk.reset
  seq := Seq.reset
  irqd := Irqd.reset
  lcdc := Lcdc.reset
  env := Env.reset
  port := []
  busData := 0#32

end Sys2Proof.Machine
end

