-- ==== Sys2Proof/Machine/Ops.lean ====
section
/-! DEFINITION. The shared operations: bit fields (R8 to R10), the register port (R45, R60), the environment's answers,
the primitive steps of R12 as acts, ending a command (R313) and running a sequence of acts. -/

namespace Sys2Proof.Machine

/-! ## Bit fields -/

/-- `v[lo+n-1:lo]`, the unsigned value of `n` bits from bit `lo` (R8). -/
def bitsAt (v : Word) (lo n : Nat) : Nat := v.toNat / 2 ^ lo % 2 ^ n

/-- The word with the bits of a range set. -/
def rangeWord (hi lo : Nat) : Word := BitVec.ofNat 32 (rangeMask (some (hi, lo)))

/-- `ins(w, F, v)` (R10): the bits `hi..lo` replaced by `trunc_(hi-lo+1)(v)`; `w` when `F` is absent. -/
def ins (w : Word) (pos : Option (Nat × Nat)) (v : Nat) : Word :=
  match pos with
  | none => w
  | some (hi, lo) => (w &&& ~~~(rangeWord hi lo)) ||| BitVec.ofNat 32 (v % 2 ^ (hi - lo + 1) * 2 ^ lo)

/-- `ext(w, F)` (R10): `w[hi:lo]`; 0 when `F` is absent. -/
def ext (w : Word) (pos : Option (Nat × Nat)) : Nat :=
  match pos with
  | none => 0
  | some (hi, lo) => bitsAt w lo (hi - lo + 1)

/-- `ins(w, F1, v1, F2, v2, ...)` with the positions of one revision, left to right (R10). -/
def insFields (p : Params) (r : Rev) (w : Word) (edits : List (Fld × Nat)) : Word :=
  edits.foldl (fun u e => ins u (p.pos r e.1) e.2) w

/-- `bit(F) = ins(0, F, 1)` (R10), for several fields: `bit(F1) | bit(F2) | ...`. -/
def bitsOf (p : Params) (r : Rev) (fs : List Fld) : Word :=
  fs.foldl (fun u f => u ||| ins 0#32 (p.pos r f) 1) 0#32

/-- `sub32(v, 1)`, the offset-by-one encoding (R9, R170). -/
def enc (v : Word) : Word := v - 1#32

/-- A Boolean as the value of a one-bit field. -/
def bit01 (b : Bool) : Nat := if b then 1 else 0

/-! ## The register file -/

/-- The word last written to a register (R45). -/
def LcdcRegs.get (f : LcdcRegs) : LReg → Option Word
  | .ctrl => f.ctrl
  | .rasterCtrl => f.rasterCtrl
  | .timing0 => f.timing0
  | .timing1 => f.timing1
  | .timing2 => f.timing2
  | .dmaCtrl => f.dmaCtrl
  | .fb0Base => f.fb0Base
  | .fb0Ceil => f.fb0Ceil
  | .fb1Base => f.fb1Base
  | .fb1Ceil => f.fb1Ceil
  | .intEnSet => f.intEnSet
  | .intEnClr => f.intEnClr
  | .eoi => f.eoi
  | .clkEn => f.clkEn
  | .clkReset => f.clkReset
  | .id | .stat | .rawStat | .maskedStat => none

/-- Record the word written to a register. A write of `ID` has no modelled effect (R141); a write-back of a status
register clears bits that no read shows (R48). -/
def LcdcRegs.put (f : LcdcRegs) (g : LReg) (v : Word) : LcdcRegs :=
  match g with
  | .ctrl => { f with ctrl := some v }
  | .rasterCtrl => { f with rasterCtrl := some v }
  | .timing0 => { f with timing0 := some v }
  | .timing1 => { f with timing1 := some v }
  | .timing2 => { f with timing2 := some v }
  | .dmaCtrl => { f with dmaCtrl := some v }
  | .fb0Base => { f with fb0Base := some v }
  | .fb0Ceil => { f with fb0Ceil := some v }
  | .fb1Base => { f with fb1Base := some v }
  | .fb1Ceil => { f with fb1Ceil := some v }
  | .intEnSet => { f with intEnSet := some v }
  | .intEnClr => { f with intEnClr := some v }
  | .eoi => { f with eoi := some v }
  | .clkEn => { f with clkEn := some v }
  | .clkReset => { f with clkReset := some v }
  | .id | .stat | .rawStat | .maskedStat => f

/-- The V2 interrupt-enable mask after a register write: `INT_EN_SET` sets the bits that are 1, `INT_EN_CLR` clears
them (R47). -/
def intEnAfter (m : Word) (g : LReg) (v : Word) : Word :=
  match g with
  | .intEnSet => m ||| v
  | .intEnClr => m &&& ~~~v
  | _ => m

/-- The LCDC after a register write (R45, R47). -/
def Lcdc.write (l : Lcdc) (g : LReg) (v : Word) : Lcdc :=
  { l with regs := l.regs.put g v, intEn := intEnAfter l.intEn g v }

/-- The value a read of a register returns (R45), `w` being the draw: a draw for a status register and for a register
not yet written, `lcdcId` for `ID`, else the last written word with the hardware-owned bits drawn. -/
def regValue (p : Params) (r : Rev) (l : Lcdc) (g : LReg) (w : Word) : Word :=
  match g with
  | .stat | .rawStat | .maskedStat => w
  | .id => p.lcdcId
  | _ =>
    match l.regs.get g with
    | none => w
    | some v => (v &&& ~~~(p.hwMask r g)) ||| (w &&& p.hwMask r g)

/-! ## The environment's answers (log 4) -/

/-- The next answer: the first listed one, or the free value at the counter. -/
def Env.peek (e : Env) : Draw :=
  match e.draws with
  | d :: _ => d
  | [] => Config.freeDraw e.nDraw

/-- Use the next answer up. -/
def Env.drop (e : Env) : Env :=
  match e.draws with
  | _ :: ds => { e with draws := ds }
  | [] => { e with nDraw := e.nDraw + 1 }

/-- The next move: the first listed one, or the free value at the counter (log 5). -/
def Env.peekMove (e : Env) : Move :=
  match e.sched with
  | m :: _ => m
  | [] => Config.freeMove e.nMove

/-- Use the next move up. -/
def Env.dropMove (e : Env) : Env :=
  match e.sched with
  | _ :: ms => { e with sched := ms }
  | [] => { e with nMove := e.nMove + 1 }

/-- The allocator's answer, kept to R25: a region has `size >= 1` and `base + size <= 2^32`; anything else is `Fail`
(log 19). -/
def vramAnswer (d : Draw) : Option Vram :=
  match d.vram with
  | some v => if 1 ≤ v.size ∧ v.base + v.size ≤ 2 ^ 32 then some v else none
  | none => none

/-! ## Updates of the state -/

/-- Change the block. -/
def State.onBlk (s : State) (f : Blk → Blk) : State := { s with blk := f s.blk }

/-- Change the locals of `SEQ`. -/
def State.onLoc (s : State) (f : Locals → Locals) : State := { s with seq := { s.seq with loc := f s.seq.loc } }

/-- Add an entry to the record of outside actions (log 21). -/
def State.record (s : State) (e : PortEvent) : State := { s with port := s.port ++ [e] }

/-- Use the next answer of the environment up. -/
def State.dropDraw (s : State) : State := { s with env := s.env.drop }

/-- `Emit(ev)` (R12, R40). -/
def State.emit (s : State) (ev : Event) : State := s.onBlk fun b => { b with out := b.out ++ [ev] }

/-- The offset of a register of the current revision (R144). -/
def State.off (s : State) (g : LReg) : Nat := s.cfg.off s.blk.rev g

/-- The word an agent holds between the read and the write of an RMW. -/
def State.tmp (s : State) : Agent → Word
  | .seq => s.seq.loc.t
  | .irqd => s.irqd.t

/-- Set that word. -/
def State.setTmp (s : State) (a : Agent) (v : Word) : State :=
  match a with
  | .seq => s.onLoc fun l => { l with t := v }
  | .irqd => { s with irqd := { s.irqd with t := v } }

/-- The value `RegRead(R)` returns in this state (R45). -/
def State.readVal (s : State) (g : LReg) : Word := regValue s.cfg s.blk.rev s.lcdc g s.env.peek.word

/-- The state after `RegRead(R)`: the access is recorded and the environment's answer is used up (R60, R65). -/
def State.afterRead (s : State) (a : Agent) (g : LReg) : State :=
  (s.record (.read a (s.off g) (s.readVal g))).dropDraw

/-- `RegWrite(R, v)` (R60, R65). -/
def State.regWrite (s : State) (a : Agent) (g : LReg) (v : Word) : State :=
  { s with lcdc := s.lcdc.write g v }.record (.write a (s.off g) v)

/-- The value `RegReadAt(off)` returns: that of the register at `off`, else a draw (R140). -/
def State.readValAt (s : State) (o : Nat) : Word :=
  match s.cfg.regAt s.blk.rev o with
  | some g => s.readVal g
  | none => s.env.peek.word

/-- `RegReadAt(off)` (R140): the value goes to the local `t`. -/
def State.regReadAt (s : State) (o : Nat) : State :=
  ((s.record (.read .seq o (s.readValAt o))).dropDraw).setTmp .seq (s.readValAt o)

/-- `RegWriteAt(off, v)` (R141): a write of the register at `off`, else no modelled effect (log 24). -/
def State.regWriteAt (s : State) (o : Nat) (v : Word) : State :=
  match s.cfg.regAt s.blk.rev o with
  | some g => { s with lcdc := s.lcdc.write g v }.record (.write .seq o v)
  | none => s.record (.write .seq o v)

/-- The value of an event flag (R30). -/
def Blk.flag (b : Blk) : WaitEvent → Bool
  | .vsync => b.vsyncFlag
  | .frameDone => b.frameDoneFlag
  | .palDone => b.palDoneFlag

/-- Set an event flag (R30). -/
def Blk.setFlag (b : Blk) (e : WaitEvent) (v : Bool) : Blk :=
  match e with
  | .vsync => { b with vsyncFlag := v }
  | .frameDone => { b with frameDoneFlag := v }
  | .palDone => { b with palDoneFlag := v }

/-! ## Ending a command (R310, R313) -/

/-- The error codes (R310). -/
def Code.num : Code → BitVec 4
  | .ok => 0
  | .unsupportedFormat => 1
  | .invalidGeometry => 2
  | .clockError => 3
  | .timeout => 4
  | .alreadyRegistered => 5
  | .notFound => 6
  | .resourceExhausted => 7
  | .illegalCommand => 8
  | .notAttached => 9
  | .suspended => 10

/-- The block after `finish code` (R313). -/
def Blk.finish (b : Blk) (c : Code) : Blk :=
  { b with
    err := c.num
    res0 := if c = .ok then b.res0 else 0#32
    res1 := if c = .ok then b.res1 else 0#32
    busy := false
    out := b.out ++ [.done (BitVec.ofNat 8 b.cmdword.toNat) c.num] }

/-- `finish code`: one step that ends the command; `raise E` is `finish code(E)` (R313). This is the block's only
"taking an exception": there is no vector, no saved state and no mode (R317). -/
def State.finish (s : State) (c : Code) : State :=
  { s with blk := s.blk.finish c, seq := { s.seq with pc := .idle } }

/-! ## Acts: the steps a pseudocode line stands for (log 7) -/

/-- What one step of an agent does. -/
inductive Ret where
  /-- The step is taken and the agent goes on with its next line. -/
  | go (s : State)
  /-- The step is not enabled, or a `Block` stays blocked: the agent takes no further step in this turn. -/
  | stay (s : State)
  /-- The step ends the command or the activation. -/
  | stop (s : State)
deriving DecidableEq, Repr

/-- One line of pseudocode, as one atomic step. -/
abbrev Act := State → Ret

/-- A line that changes the state and goes on. -/
def assign (f : State → State) : Act := fun s => .go (f s)

/-- A line under `if c:`. When `c` is false the line has no effect. -/
def onlyIf (c : State → Bool) (a : Act) : Act := fun s => if c s then a s else .go s

/-- Several lines under one `if c:`. -/
def guarded (c : State → Bool) (l : List Act) : List Act := l.map (onlyIf c)

/-- `finish code` as the last line of a command (R313). -/
def finishWith (c : Code) : Act := fun s => .stop (s.finish c)

/-- `if c: raise E` (R313). -/
def raiseIf (c : State → Bool) (e : Code) : Act := fun s => if c s then .stop (s.finish e) else .go s

/-- `requireAttached` (R314). -/
def requireAttached : Act := raiseIf (fun s => !s.blk.attached) .notAttached

/-- `requireAwake` (R314). -/
def requireAwake : Act := raiseIf (fun s => s.blk.suspended) .suspended

/-- `requireAttached; requireAwake` (R314, R316). -/
def prologue : List Act := [requireAttached, requireAwake]

/-- `t <- RegRead(R)`. -/
def readTo (a : Agent) (g : LReg) : Act := fun s => .go ((s.afterRead a g).setTmp a (s.readVal g))

/-- `RegWrite(R, v)`. -/
def writeReg (a : Agent) (g : LReg) (v : State → Word) : Act := fun s => .go (s.regWrite a g (v s))

/-- `RegWrite(R, ins(t, F1, v1, ...))`, the second step of an RMW. -/
def writeEdited (a : Agent) (g : LReg) (edits : State → List (Fld × Nat)) : Act :=
  writeReg a g fun s => insFields s.cfg s.blk.rev (s.tmp a) (edits s)

/-- `RMW(R, F1, v1, ...)`: two steps (R12, R66). -/
def rmw (a : Agent) (g : LReg) (edits : State → List (Fld × Nat)) : List Act := [readTo a g, writeEdited a g edits]

/-- `Acquire(L)` by `SEQ`: enabled only when the lock is free (R42). -/
def acquire : Act := fun s =>
  if s.blk.lock = .free then .go (s.onBlk fun b => { b with lock := .seq }) else .stay s

/-- `Release(L)` (R42). -/
def release : Act := assign fun s => s.onBlk fun b => { b with lock := .free }

/-- `Delay(ms)`: block state is unchanged; the obligation is recorded (R356; log 17). -/
def delay (a : Agent) (ms : Nat) : Act := assign fun s => s.record (.delay a ms)

/-- One test step of `Block(E, T)` (R262): taken only when the lock is free; a flag of 1 wakes; a flag of 0 lets the
environment choose between `TimedOut` and staying blocked. -/
def blockTest (e : WaitEvent) (bound : State → Nat) : Act := fun s =>
  if s.blk.lock ≠ .free then .stay s
  else if s.blk.flag e then .go ((s.record (.waited e (bound s) true)).onLoc fun l => { l with timedOut := false })
  else if s.env.peek.timeout then
    .go ((s.dropDraw.record (.waited e (bound s) false)).onLoc fun l => { l with timedOut := true })
  else .stay s.dropDraw

/-- `Acquire(L); blk.E <- 0; Release(L)`, the arm of a wait (R263). -/
def arm (e : WaitEvent) : List Act := [acquire, assign fun s => s.onBlk fun b => b.setFlag e false, release]

/-! ## Running a sequence -/

/-- The agent's step pointer moves to the next line (R26). -/
def bump (a : Agent) (s : State) : State :=
  match a with
  | .seq =>
    match s.seq.pc with
    | .idle => s
    | .run c k => { s with seq := { s.seq with pc := .run c (k + 1) } }
  | .irqd =>
    match s.irqd.pc with
    | .idle => s
    | .run c k => { s with irqd := { s.irqd with pc := .run c (k + 1) } }

/-- An agent takes up to `n` steps of the lines before it. -/
def runActs (a : Agent) : List Act → Nat → State → State
  | [], _, s => s
  | _ :: _, 0, s => s
  | x :: xs, n + 1, s =>
    match x s with
    | .go s' => runActs a xs n (bump a s')
    | .stay s' => s'
    | .stop s' => s'

/-- `SEQ` takes a turn of up to `seq.turn` steps of a command's lines, from its step pointer. An idle sequencer takes
none (R26). -/
def seqTurn (lines : List Act) (s : State) : Host.Outcome State Fault Refusal :=
  match s.seq.pc with
  | .idle => .next s
  | .run _ k => if k < lines.length then .next (runActs .seq (lines.drop k) s.seq.turn s) else .fault .stepPointerOutOfRange

/-- The pseudo-command `ILLEGAL`: its only step is `raise IllegalCommand` (R121, R127). -/
def illegalLines : List Act := [finishWith .illegalCommand]

end Sys2Proof.Machine
end

