-- ==== Sys2Proof/Machine/Operands.lean ====
section
/-! DEFINITION. Operand assembly (R125, R128, R129) and the values the commands compute from their operands: timing
fields (R170 to R173), geometry (R175 to R179), shade bits (R185), line length (R199), pan clamp and window validity
(R201, R204), the clock divider (R160 to R162). -/

namespace Sys2Proof.Machine

/-! ## Arguments -/

/-- `arg[i]`, latched `SEQ_ARGi` (R33). -/
def State.arg (s : State) (i : Fin 16) : Word := s.blk.arg[i]

/-- `arg[i]` as an unsigned natural (R125). -/
def State.argN (s : State) (i : Fin 16) : Nat := (s.arg i).toNat

/-- `arg[i][j]`. -/
def State.argBit (s : State) (i : Fin 16) (j : Nat) : Bool := (s.arg i).getLsbD j

/-! ## Flag words (R129) -/

/-- The shade encoding: 0 Mono, 1 Tft, 2 Stn; 3 is reserved (R129). -/
def shadeOf (n : Nat) : Option Shade :=
  match n with
  | 0 => some .mono
  | 1 => some .tft
  | 2 => some .stn
  | _ => none

/-- The shade field `[1:0]` of a FMT or MODE word (R129). -/
def shadeCode (w : Word) : Nat := bitsAt w 0 2

/-- What DISPLAY_MODE_SEQ is called with (R186). -/
structure DisplayMode where
  shade : Shade
  mono8 : Bool
  tftAlt : Bool
  stn565 : Bool
  hHigh : Bool
  vHigh : Bool
deriving DecidableEq, Repr

/-- The FMT and SYNC words of PROGRAM_DISPLAY_MODE (R129). The lines that use it run only when the shade code is not 3. -/
def displayModeOfWords (fmt sync : Word) : DisplayMode where
  shade := (shadeOf (shadeCode fmt)).getD .mono
  mono8 := fmt.getLsbD 2
  tftAlt := fmt.getLsbD 3
  stn565 := fmt.getLsbD 4
  hHigh := sync.getLsbD 0
  vHigh := sync.getLsbD 1

/-- The MODE word of MODE_SET as the arguments of DISPLAY_MODE_SEQ (R129). -/
def displayModeOfMode (m : Word) : DisplayMode where
  shade := (shadeOf (shadeCode m)).getD .mono
  mono8 := m.getLsbD 2
  tftAlt := m.getLsbD 3
  stn565 := m.getLsbD 4
  hHigh := m.getLsbD 6
  vHigh := m.getLsbD 7

/-- `blk.fmt` of MODE_SET: the bpp and the MODE word (R34, R129, R240). -/
def fmtOf (bpp : Nat) (m : Word) : Fmt where
  bpp := bpp
  shade := (shadeOf (shadeCode m)).getD .mono
  mono8 := m.getLsbD 2
  tftAlt := m.getLsbD 3
  stn565 := m.getLsbD 4
  rasterOrder := m.getLsbD 5
  hsyncActiveHigh := m.getLsbD 6
  vsyncActiveHigh := m.getLsbD 7

/-! ## Clock (R160, R162) -/

/-- `q = ceil(src / req)` for `req > 0` (R9, R160). -/
def ceilDiv (src req : Nat) : Nat := (src + req - 1) / req

/-- `computeDivider(req, src) -> (d, clamped)` (R160). -/
def computeDivider (req src : Nat) : Nat × Bool :=
  let q := ceilDiv src req
  (min divMax (max divMin q), decide (q < divMin) || decide (q > divMax))

/-- `hz = 10^12 div ps` (R162). -/
def hzOfPs (ps : Nat) : Nat := 10 ^ 12 / ps

/-- `CTRL = ins(0, CLKDIV, d, RASTER_MODE, 1)` (R91, R164). -/
def ctrlWord (p : Params) (r : Rev) (d : Nat) : Word := insFields p r 0#32 [(.clkdiv, d), (.rasterMode, 1)]

/-! ## Revision detection (R142) -/

/-- `detect(id)`: the known revision, else `V1`. -/
def detect (p : Params) (id : Word) : Rev := (p.knownIds.lookup id).getD .v1

/-- Whether `id` is in the domain of `knownIds`. -/
def knownId (p : Params) (id : Word) : Bool := (p.knownIds.lookup id).isSome

/-! ## Sync timing (R170 to R173) -/

/-- `hbpHi(eb, ef)` (R172). -/
def hbpHi (src : HbpHiSrc) (eb ef : Word) : Nat :=
  match src with
  | .bp => bitsAt eb 8 2
  | .fp => bitsAt ef 8 2
  | .bpOrFp => bitsAt (eb ||| ef) 8 2

/-- The `TIMING_0` fields of HSYNC_SEQ (R171). -/
def hsyncLow (p : Params) (bp pw fp : Word) : List (Fld × Nat) :=
  [(.hbpLo, bitsAt (enc bp) 0 8), (.hfpLo, bitsAt (enc fp) 0 8), (.hswLo, bitsAt (enc pw) 0 p.pwLoBits)]

/-- The V2 `TIMING_2` fields of HSYNC_SEQ (R171, R172). -/
def hsyncHigh (p : Params) (bp pw fp : Word) : List (Fld × Nat) :=
  [(.hbpHi, hbpHi p.hbpHiSrc (enc bp) (enc fp)), (.hfpHi, bitsAt (enc fp) 8 2),
   (.hswHi, bitsAt (enc pw) p.pwLoBits p.hswHiBits)]

/-- The `TIMING_1` fields of VSYNC_SEQ (R173). -/
def vsyncLow (p : Params) (bp pw fp : Word) : List (Fld × Nat) :=
  [(.vbpLo, bitsAt (enc bp) 0 8), (.vfpLo, bitsAt (enc fp) 0 8), (.vswLo, bitsAt (enc pw) 0 p.pwLoBits)]

/-- The V2 `TIMING_2` fields of VSYNC_SEQ (R173). -/
def vsyncHigh (p : Params) (bp pw fp : Word) : List (Fld × Nat) :=
  [(.vbpHi, bitsAt (enc bp) 8 2), (.vfpHi, bitsAt (enc fp) 8 2), (.vswHi, bitsAt (enc pw) p.pwLoBits p.vswHiBits)]

/-- Whether `Caps.V2` gives any vertical high field a position (R173, R6 `v2VertHi`). -/
def v2VertHi (p : Params) : Bool :=
  (p.pos .v2 .vbpHi).isSome || (p.pos .v2 .vfpHi).isSome || (p.pos .v2 .vswHi).isSome

/-! ## Geometry (R175 to R179) -/

/-- `ppl(width, rev)` (R175): the word count minus one, masked to `pplBits(rev)` bits. -/
def ppl (p : Params) (r : Rev) (width : Word) : Nat :=
  (BitVec.ofNat 32 (width.toNat % 2 ^ widthMaskBits r / 2 ^ p.pplLog2) - 1#32).toNat % 2 ^ p.pplBits r

/-- The `TIMING_0` fields of GEOMETRY_SEQ (R175, R180). -/
def widthFields (p : Params) (r : Rev) (width : Word) : List (Fld × Nat) :=
  [(.pplLo, ppl p r width % 2 ^ p.pplBits .v1),
   (.pplHi, ppl p r width / 2 ^ p.pplBits .v1 % 2 ^ (p.pplBits .v2 - p.pplBits .v1))]

/-- The `TIMING_1` field of GEOMETRY_SEQ (R176): `sub32(height, 1)[9:0]`. -/
def heightLow (height : Word) : List (Fld × Nat) := [(.lppLo, bitsAt (enc height) 0 10)]

/-- The V2 `TIMING_2` field of GEOMETRY_SEQ (R176): `sub32(height, 1)[10]`. -/
def heightHigh (height : Word) : List (Fld × Nat) := [(.lppHi, bitsAt (enc height) 10 1)]

/-- The `RASTER_CTRL` fields of GEOMETRY_SEQ (R179). The TFT24 fields are absent on V1. -/
def formatFlags (bpp : Nat) (order : Bool) : List (Fld × Nat) :=
  [(.rasterOrder, bit01 order), (.tft24, bit01 (bpp == 24 || bpp == 32)), (.tft24Unpack, bit01 (bpp == 32))]

/-- `bppOk(bpp, rev)` (R177). -/
def bppOk (bpp : Nat) (r : Rev) : Bool := [1, 2, 4, 8, 16, 24, 32].contains bpp && !(r == .v1 && bpp > 16)

/-- `palCount(bpp)` (R178). -/
def palCount (bpp : Nat) : Nat := if bpp = 8 then 512 else 32

/-! ## Display mode (R185 to R190) -/

/-- The fields `shadeBits` inserts: all five class bits cleared, then the class's own (R185). -/
def shadeFields (m : DisplayMode) : List (Fld × Nat) :=
  [(.mono, 0), (.mono8, 0), (.tft, 0), (.tftAlt, 0), (.stn565, 0)] ++
    match m.shade with
    | .mono => [(.mono, 1), (.mono8, bit01 m.mono8)]
    | .tft => [(.tft, 1), (.tftAlt, bit01 m.tftAlt)]
    | .stn => [(.stn565, bit01 m.stn565)]

/-- The `RASTER_CTRL` fields of DISPLAY_MODE_SEQ: the shade bits, and on V1 the underflow enable (R186). -/
def displayFields (r : Rev) (m : DisplayMode) : List (Fld × Nat) :=
  shadeFields m ++ (if r = .v1 then [(.v1UflIntEn, 1)] else [])

/-- The `TIMING_2` polarity fields: the inverted sense of "active-high" (R187). -/
def polarityFields (m : DisplayMode) : List (Fld × Nat) := [(.invHs, bit01 !m.hHigh), (.invVs, bit01 !m.vHigh)]

/-- The `TIMING_2` fields of ACB_SEQ: `freq[7:0]`, `ipt[3:0]` (R190). -/
def acbFields (freq ipt : Word) : List (Fld × Nat) := [(.acb, bitsAt freq 0 8), (.acbI, bitsAt ipt 0 4)]

/-! ## Windows (R199, R201, R204, R205) -/

/-- `lineLen = (xresV * bpp) div 8` (R199). -/
def lineLen (xresV bpp : Nat) : Nat := xresV * bpp / 8

/-- `validWin(s, e)` (R201). Item 4's `e <= base + size - 1` is `e < base + size` on naturals. -/
def validWin (b : Blk) (s e : Nat) : Bool :=
  b.haveMode && decide (e > s) && decide (e - s + 1 = b.geo.yres * b.geo.lineLen)
    && decide (b.vram.base ≤ s) && decide (e < b.vram.base + b.vram.size)

/-- One axis of the pan clamp (R204): natural subtraction is the spec's `max(0, ...)`. -/
def clampAxis (x res resV : Nat) : Nat := if x + res > resV then resV - res else x

/-- `s` of PAN: `base + y * lineLen + (x * bpp) div 8` (R205). -/
def panStart (b : Blk) (x y : Nat) : Nat := b.vram.base + y * b.geo.lineLen + x * b.fmt.bpp / 8

/-- `e` of PAN: `s + yres * lineLen - 1` (R205). -/
def panLast (b : Blk) (s : Nat) : Nat := s + b.geo.yres * b.geo.lineLen - 1

/-- The window with these byte addresses, as two 32-bit words (R41). -/
def windowOf (s e : Nat) : Window := ⟨BitVec.ofNat 32 s, BitVec.ofNat 32 e⟩

end Sys2Proof.Machine
end

