-- ==== Sys2Proof/Machine/Flags.lean ====
section
/-! DEFINITION. The flag and status words: the decoding of an LCDC status word (R92, R282, R287, R293), the interrupt
enable words the block writes (R99), and the format of SEQ_STATUS (R123). -/

namespace Sys2Proof.Machine

/-! ## LCDC status words -/

/-- `s[F]` of a status word (R92, R282). -/
def statusBit (p : Params) (r : Rev) (w : Word) (f : Fld) : Bool := ext w (p.pos r f) == 1

/-- Which case an activation runs (R293). -/
inductive IrqCase where
  /-- Sync lost with underflow (R283, R288). -/
  | fault
  /-- Palette load done, V2 only (R289). -/
  | palette
  /-- Frame completion (R284, R290). -/
  | frame
deriving DecidableEq, Repr

/-- The case select of R282 (V1) and R287 (V2): both fault bits in the one word read, then on V2 `PL_DONE`, else the
frame case. -/
def irqCase (p : Params) (r body : Rev) (w : Word) : IrqCase :=
  if statusBit p r w .syncLost && statusBit p r w .fifoUfl then .fault
  else
    match body with
    | .v1 => .frame
    | .v2 => if statusBit p r w .plDone then .palette else .frame

/-! ## Interrupt enable words (R99) -/

/-- `bit(FIFO_UFL)`, written to `INT_EN_SET` by DISPLAY_MODE_SEQ. -/
def underflowEnable (p : Params) (r : Rev) : Word := bitsOf p r [.fifoUfl]

/-- `bit(EOF0) | bit(EOF1) | bit(FRAME_DONE) | bit(SYNC_LOST)`, written to `INT_EN_SET` by SETWIN_SEQ. -/
def frameEnables (p : Params) (r : Rev) : Word := bitsOf p r [.eof0, .eof1, .frameDone, .syncLost]

/-- `bit(PL_DONE)`, written to `INT_EN_CLR` by IRQD V2 case 2. -/
def paletteEnable (p : Params) (r : Rev) : Word := bitsOf p r [.plDone]

/-- `bit(MAIN_RESET)`, written to `CLK_RESET` (R102). -/
def mainResetWord (p : Params) (r : Rev) : Word := bitsOf p r [.mainReset]

/-! ## SEQ_STATUS (R123) -/

/-- `LAST_DONE` (R123). -/
def LastDone.num : LastDone → Nat
  | .s0 => 0
  | .s1 => 1
  | .unknown => 3

/-- `RSTATE` (R123). -/
def RState.num : RState → Nat
  | .disabled => 0
  | .enabling => 1
  | .enabled => 2
  | .disablingWaitFrame => 3

/-- The value of `SEQ_STATUS` (R123). -/
def seqStatus (b : Blk) : Word :=
  BitVec.ofNat 32
    (bit01 b.busy + b.err.toNat * 2 ^ 4 + b.lastDone.num * 2 ^ 8 + b.rstate.num * 2 ^ 10
      + bit01 (b.attached && b.rev == .v2) * 2 ^ 12 + bit01 b.attached * 2 ^ 13 + bit01 b.vsyncFlag * 2 ^ 14
      + bit01 b.frameDoneFlag * 2 ^ 15 + bit01 b.palDoneFlag * 2 ^ 16 + bit01 b.cb.isSome * 2 ^ 17
      + bit01 b.panelPower * 2 ^ 18 + bit01 b.clkRun * 2 ^ 19 + bit01 b.suspended * 2 ^ 20
      + bit01 b.irqActive * 2 ^ 21 + bit01 b.haveMode * 2 ^ 22 + bit01 b.win.isSome * 2 ^ 23
      + b.cmdword.toNat % 256 * 2 ^ 24)

end Sys2Proof.Machine
end

