-- ==== Sys2Proof/Machine/Raster.lean ====
section
/-! DEFINITION. The raster engine controller and the soft-reset generator: ENABLE (R220, R221), DISABLE (R225), and the
sequences other commands and the decoder run inline (R315). -/

namespace Sys2Proof.Machine

/-- Set `blk.rstate` (R227). -/
def setRState (r : RState) : Act := assign fun s => s.onBlk fun b => { b with rstate := r }

/-- Whether the LCDC is of revision V2 (R144: lines under `if blk.rev = V2`). -/
def isV2 (s : State) : Bool := s.blk.rev == .v2

/-- The clock-domain soft reset: assert, hold, deassert, hold (R221). -/
def softResetLines (a : Agent) : List Act :=
  [writeReg a .clkReset (fun s => mainResetWord s.cfg s.blk.rev), delay a resetDelayMs,
   writeReg a .clkReset (fun _ => 0#32), delay a resetDelayMs]

/-- `ENABLE_SEQ` (R220), run by `SEQ` or by the V2 decoder. -/
def enableSeq (a : Agent) : List Act :=
  [setRState .enabling] ++ guarded isV2 (softResetLines a) ++ rmw a .rasterCtrl (fun _ => [(.rasterEn, 1)])
    ++ [setRState .enabled]

/-- `DISABLE_SEQ(NoWait)` (R225), as the decoder runs it. -/
def disableNow (a : Agent) : List Act := rmw a .rasterCtrl (fun _ => [(.rasterEn, 0)]) ++ [setRState .disabled]

/-- The lines of `DISABLE_SEQ` under `p = WaitForFrame and blk.rev = V2` (R225). -/
def disableWaitLines : List Act :=
  [setRState .disablingWaitFrame] ++ arm .frameDone ++
    [blockTest .frameDone (fun _ => frameDoneTimeoutMs),
     onlyIf (fun s => s.seq.loc.timedOut) (assign fun s => s.emit .logDisableTimeout),
     onlyIf (fun s => s.blk.rstate == .disablingWaitFrame) (setRState .disabled)]

/-- `DISABLE_SEQ(p)` by `SEQ` (R225); `wait` says whether `p = WaitForFrame`. -/
def disableSeq (wait : State → Bool) : List Act :=
  rmw .seq .rasterCtrl (fun _ => [(.rasterEn, 0)])
    ++ guarded (fun s => wait s && isV2 s) disableWaitLines
    ++ guarded (fun s => !(wait s && isV2 s)) [setRState .disabled]

/-- ENABLE (R220). -/
def enableLines : List Act := prologue ++ enableSeq .seq ++ [finishWith .ok]

/-- DISABLE (R225): `arg[0][0]` is the wait policy. -/
def disableLines : List Act := prologue ++ disableSeq (fun s => s.argBit 0 0) ++ [finishWith .ok]

/-- ENABLE (R220). -/
def execEnable (s : State) : Host.Outcome State Fault Refusal := seqTurn enableLines s

/-- DISABLE (R225). -/
def execDisable (s : State) : Host.Outcome State Fault Refusal := seqTurn disableLines s

end Sys2Proof.Machine
end

