-- ==== Sys2Proof/Machine/Port.lean ====
section
/-! DEFINITION. The register port and the controller instance: REG_READ (R140), REG_WRITE (R141), ATTACH (R143),
DETACH (R145). -/

namespace Sys2Proof.Machine

/-- `off mod 4 ≠ 0 or off >= regSpan` (R140, R141). -/
def badOffset (s : State) : Bool := s.argN 0 % 4 != 0 || s.argN 0 ≥ s.cfg.regSpan

/-- REG_READ (R140). -/
def regReadLines : List Act :=
  prologue ++
    [raiseIf badOffset .illegalCommand, assign fun s => s.regReadAt (s.argN 0),
     assign fun s => s.onBlk fun b => { b with res0 := s.seq.loc.t }, finishWith .ok]

/-- REG_WRITE (R141). -/
def regWriteLines : List Act :=
  prologue ++
    [raiseIf badOffset .illegalCommand, assign fun s => s.regWriteAt (s.argN 0) (s.arg 1), finishWith .ok]

/-- `r <- detect(id)`, which may emit `Log(UnknownId(id))` (R142). -/
def detectLine : Act := assign fun s =>
  let s' := s.onLoc fun l => { l with newRev := detect s.cfg l.id }
  if knownId s.cfg s.seq.loc.id then s' else s'.emit (.logUnknownId s.seq.loc.id)

/-- `a <- VramAlloc()` (R25). -/
def vramAllocLine : Act := assign fun s =>
  (s.dropDraw.record (.vramAlloc (vramAnswer s.env.peek))).onLoc fun l => { l with alloc := vramAnswer s.env.peek }

/-- Whether the allocator answered `Fail`. -/
def allocFailed (s : State) : Bool := s.seq.loc.alloc.isNone

/-- ATTACH (R143). -/
def attachLines : List Act :=
  [raiseIf (fun s => s.blk.attached) .illegalCommand,
   assign fun s => s.onBlk fun b => { b with clkRun := true },
   assign fun s => (s.afterRead .seq .id).onLoc fun l => { l with id := s.readVal .id },
   detectLine,
   vramAllocLine,
   onlyIf allocFailed (assign fun s => s.onBlk fun b => { b with clkRun := false }),
   raiseIf allocFailed .resourceExhausted,
   assign fun s => s.onBlk fun b => { b with vram := s.seq.loc.alloc.getD b.vram },
   assign fun s => s.onBlk fun b => { b with rev := s.seq.loc.newRev },
   setRState .disabled,
   assign fun s => s.onBlk fun b => { b with vsyncFlag := false, frameDoneFlag := false, palDoneFlag := false },
   assign fun s => s.onBlk fun b => { b with lastDone := .unknown },
   assign fun s => s.onBlk fun b => { b with win := none, xoff := 0, yoff := 0 },
   assign fun s => s.onBlk fun b => { b with haveMode := false, suspended := false },
   assign fun s => s.onBlk fun b => { b with panelPower := true },
   assign fun s => s.onBlk fun b => { b with attached := true },
   assign fun s => s.onBlk fun b =>
     { b with res0 := s.seq.loc.id, res1 := if s.seq.loc.newRev = .v2 then 1#32 else 0#32 },
   finishWith .ok]

/-- DETACH (R145, R353). -/
def detachLines : List Act :=
  [requireAttached] ++ guarded (fun s => !s.blk.suspended) (disableSeq fun _ => true) ++
    [assign fun s => s.record (.vramFree s.blk.vram),
     assign fun s => s.onBlk fun b => { b with panelPower := false },
     assign fun s => s.onBlk fun b => { b with clkRun := false },
     assign fun s => s.onBlk fun b => { b with suspended := false },
     assign fun s => s.onBlk fun b => { b with attached := false },
     finishWith .ok]

/-- REG_READ (R140). -/
def execRegRead (s : State) : Host.Outcome State Fault Refusal := seqTurn regReadLines s

/-- REG_WRITE (R141). -/
def execRegWrite (s : State) : Host.Outcome State Fault Refusal := seqTurn regWriteLines s

/-- ATTACH (R143). -/
def execAttach (s : State) : Host.Outcome State Fault Refusal := seqTurn attachLines s

/-- DETACH (R145). -/
def execDetach (s : State) : Host.Outcome State Fault Refusal := seqTurn detachLines s

end Sys2Proof.Machine
end

