-- ==== Sys2Proof/Machine/Clock.lean ====
section
/-! DEFINITION. The clock-divider synthesizer: NEGOTIATE (R163) and SET_CLOCK (R164). -/

namespace Sys2Proof.Machine

/-- `src <- ClkRate()` (R23, R163). -/
def clkRateLine : Act := assign fun s =>
  let hz := s.env.peek.rate
  (({ s with env := { s.env.drop with clkRate := hz } }).record (.clkRate hz)).onLoc fun l => { l with src := hz }

/-- `(d, clamped) <- computeDivider(hz, src)` (R160). -/
def dividerLine (hz : State → Nat) : Act := assign fun s =>
  s.onLoc fun l => { l with d := (computeDivider (hz s) l.src).1, clamped := (computeDivider (hz s) l.src).2 }

/-- `r <- ClkRequest(hz * d)` (R23, R163): an accepted rate becomes the source's current rate (R165). -/
def clkRequestLine (hz : State → Nat) : Act := assign fun s =>
  let ans := s.env.peek.clk
  (({ s with env := { s.env.drop with clkRate := ans.getD s.env.clkRate } }).record
    (.clkRequest (hz s * s.seq.loc.d) ans)).onLoc fun l => { l with ans := ans }

/-- `NEGOTIATE(hz) -> (d, a)` (R163); `d` and `a` stay in the locals. -/
def negotiate (hz : State → Nat) : List Act :=
  [raiseIf (fun s => hz s == 0) .clockError,
   clkRateLine,
   dividerLine hz,
   onlyIf (fun s => s.seq.loc.clamped) (clkRequestLine hz),
   raiseIf (fun s => s.seq.loc.clamped && s.seq.loc.ans.isNone) .clockError,
   assign fun s => s.onLoc fun l => { l with a := if l.clamped then l.ans.getD l.src else l.src }]

/-- `RegWrite(CTRL, ins(0, CLKDIV, d, RASTER_MODE, 1))` (R164). -/
def ctrlLine : Act := writeReg .seq .ctrl fun s => ctrlWord s.cfg s.blk.rev s.seq.loc.d

/-- `blk.divider <- d; blk.srcRate <- a` (R164, R240). -/
def dividerRecordLine : Act := assign fun s =>
  s.onBlk fun b => { b with divider := BitVec.ofNat 8 s.seq.loc.d, srcRate := s.seq.loc.a }

/-- SET_CLOCK (R164): `arg[0]` is the pixel clock in Hz. -/
def setClockLines : List Act :=
  prologue ++ negotiate (fun s => s.argN 0) ++
    [ctrlLine, dividerRecordLine,
     assign fun s => s.onBlk fun b =>
       { b with res0 := BitVec.ofNat 32 s.seq.loc.d, res1 := BitVec.ofNat 32 s.seq.loc.a },
     finishWith .ok]

/-- SET_CLOCK (R164). -/
def execSetClock (s : State) : Host.Outcome State Fault Refusal := seqTurn setClockLines s

end Sys2Proof.Machine
end

