-- ==== Sys2Proof/Machine/Timing.lean ====
section
/-! DEFINITION. Timing, geometry and display mode: PROGRAM_HSYNC (R171), PROGRAM_VSYNC (R173), PROGRAM_FRAME_GEOMETRY
(R180), PROGRAM_DISPLAY_MODE (R186), PROGRAM_AC_BIAS (R190). No command here writes a field that its rule does not
name (R191). -/

namespace Sys2Proof.Machine

/-- `HSYNC_SEQ(bp, pw, fp)` (R171). -/
def hsyncSeq (bp pw fp : State → Word) : List Act :=
  rmw .seq .timing0 (fun s => hsyncLow s.cfg (bp s) (pw s) (fp s))
    ++ guarded isV2 (rmw .seq .timing2 fun s => hsyncHigh s.cfg (bp s) (pw s) (fp s))

/-- `VSYNC_SEQ(bp, pw, fp)` (R173). -/
def vsyncSeq (bp pw fp : State → Word) : List Act :=
  rmw .seq .timing1 (fun s => vsyncLow s.cfg (bp s) (pw s) (fp s))
    ++ guarded (fun s => isV2 s && v2VertHi s.cfg) (rmw .seq .timing2 fun s => vsyncHigh s.cfg (bp s) (pw s) (fp s))

/-- `GEOMETRY_SEQ(width, height, bpp, order)` (R180). -/
def geometrySeq (width height : State → Word) (bpp : State → Nat) (order : State → Bool) : List Act :=
  rmw .seq .timing0 (fun s => widthFields s.cfg s.blk.rev (width s))
    ++ rmw .seq .timing1 (fun s => heightLow (height s))
    ++ guarded isV2 (rmw .seq .timing2 fun s => heightHigh (height s))
    ++ rmw .seq .rasterCtrl (fun s => formatFlags (bpp s) (order s))
    ++ [assign fun s => s.onBlk fun b => { b with palCount := palCount (bpp s) }]

/-- `DISPLAY_MODE_SEQ(...)` (R186). -/
def displayModeSeq (m : State → DisplayMode) : List Act :=
  rmw .seq .rasterCtrl (fun s => displayFields s.blk.rev (m s))
    ++ guarded isV2 [writeReg .seq .intEnSet fun s => underflowEnable s.cfg s.blk.rev]
    ++ rmw .seq .timing2 (fun s => polarityFields (m s))

/-- `ACB_SEQ(freq, ipt)` (R190). -/
def acbSeq (freq ipt : State → Word) : List Act := rmw .seq .timing2 fun s => acbFields (freq s) (ipt s)

/-- PROGRAM_HSYNC (R171): `arg[0]` back porch, `arg[1]` pulse width, `arg[2]` front porch. -/
def programHsyncLines : List Act :=
  prologue ++ hsyncSeq (fun s => s.arg 0) (fun s => s.arg 1) (fun s => s.arg 2) ++ [finishWith .ok]

/-- PROGRAM_VSYNC (R173): `arg[0]` back porch, `arg[1]` pulse width, `arg[2]` front porch. -/
def programVsyncLines : List Act :=
  prologue ++ vsyncSeq (fun s => s.arg 0) (fun s => s.arg 1) (fun s => s.arg 2) ++ [finishWith .ok]

/-- PROGRAM_FRAME_GEOMETRY (R180): `arg[0]` width, `arg[1]` height, `arg[2]` bpp, `arg[3][0]` raster order. -/
def programFrameGeometryLines : List Act :=
  prologue ++ [raiseIf (fun s => !bppOk (s.argN 2) s.blk.rev) .unsupportedFormat]
    ++ geometrySeq (fun s => s.arg 0) (fun s => s.arg 1) (fun s => s.argN 2) (fun s => s.argBit 3 0)
    ++ [assign fun s => s.onBlk fun b => { b with res0 := BitVec.ofNat 32 (palCount (s.argN 2)) }, finishWith .ok]

/-- PROGRAM_DISPLAY_MODE (R186): `arg[0]` FMT word, `arg[1]` SYNC word. -/
def programDisplayModeLines : List Act :=
  prologue ++ [raiseIf (fun s => shadeCode (s.arg 0) == 3) .unsupportedFormat]
    ++ displayModeSeq (fun s => displayModeOfWords (s.arg 0) (s.arg 1)) ++ [finishWith .ok]

/-- PROGRAM_AC_BIAS (R190): `arg[0]` frequency, `arg[1]` transitions per interrupt. -/
def programAcBiasLines : List Act :=
  prologue ++ acbSeq (fun s => s.arg 0) (fun s => s.arg 1) ++ [finishWith .ok]

/-- PROGRAM_HSYNC (R171). -/
def execProgramHsync (s : State) : Host.Outcome State Fault Refusal := seqTurn programHsyncLines s

/-- PROGRAM_VSYNC (R173). -/
def execProgramVsync (s : State) : Host.Outcome State Fault Refusal := seqTurn programVsyncLines s

/-- PROGRAM_FRAME_GEOMETRY (R180). -/
def execProgramFrameGeometry (s : State) : Host.Outcome State Fault Refusal := seqTurn programFrameGeometryLines s

/-- PROGRAM_DISPLAY_MODE (R186). -/
def execProgramDisplayMode (s : State) : Host.Outcome State Fault Refusal := seqTurn programDisplayModeLines s

/-- PROGRAM_AC_BIAS (R190). -/
def execProgramAcBias (s : State) : Host.Outcome State Fault Refusal := seqTurn programAcBiasLines s

end Sys2Proof.Machine
end

