-- ==== Sys2Proof/Machine/Dma.lean ====
section
/-! DEFINITION. The frame-buffer DMA slot selector: SET_WINDOW (R200) and PAN (R205, R206). -/

namespace Sys2Proof.Machine

/-- `SETWIN_SEQ(s, e)` (R200): the window record and both slots under the lock, then dual-buffer mode and the frame
interrupt enables. `V1_EOF_INT_EN` is absent on V2. -/
def setWinSeq (first last : State → Nat) : List Act :=
  [acquire,
   assign fun s => s.onBlk fun b => { b with win := some (windowOf (first s) (last s)) },
   writeReg .seq .fb0Base fun s => BitVec.ofNat 32 (first s),
   writeReg .seq .fb0Ceil fun s => BitVec.ofNat 32 (last s),
   writeReg .seq .fb1Base fun s => BitVec.ofNat 32 (first s),
   writeReg .seq .fb1Ceil fun s => BitVec.ofNat 32 (last s),
   release]
    ++ rmw .seq .dmaCtrl (fun _ => [(.dualFb, 1), (.v1EofIntEn, 1)])
    ++ guarded isV2 [writeReg .seq .intEnSet fun s => frameEnables s.cfg s.blk.rev]

/-- SET_WINDOW (R200): `arg[0]` start, `arg[1]` end (inclusive). -/
def setWindowLines : List Act :=
  prologue ++ [raiseIf (fun s => !validWin s.blk (s.argN 0) (s.argN 1)) .invalidGeometry]
    ++ setWinSeq (fun s => s.argN 0) (fun s => s.argN 1) ++ [finishWith .ok]

/-- `(x, y) <- clamp(arg[0], arg[1])`, then `s` and `e` (R204, R205). -/
def panCompute : Act := assign fun s =>
  let x := clampAxis (s.argN 0) s.blk.geo.xres s.blk.geo.xresV
  let y := clampAxis (s.argN 1) s.blk.geo.yres s.blk.geo.yresV
  let first := panStart s.blk x y
  s.onLoc fun l => { l with px := x, py := y, ws := first, we := panLast s.blk first }

/-- `blk.win <- (s, e); blk.xoff <- x; blk.yoff <- y` (R205). -/
def panRecord : Act := assign fun s => s.onBlk fun b =>
  { b with win := some (windowOf s.seq.loc.ws s.seq.loc.we), xoff := s.seq.loc.px, yoff := s.seq.loc.py }

/-- A slot's pair written from PAN's `s` and `e`, base first (R205, R206). -/
def panSlot (base ceil : LReg) : List Act :=
  [writeReg .seq base fun s => BitVec.ofNat 32 s.seq.loc.ws, writeReg .seq ceil fun s => BitVec.ofNat 32 s.seq.loc.we]

/-- PAN (R205): `arg[0]` x-offset, `arg[1]` y-offset. -/
def panLines : List Act :=
  prologue ++
    [raiseIf (fun s => !s.blk.haveMode) .invalidGeometry,
     panCompute,
     raiseIf (fun s => !validWin s.blk s.seq.loc.ws s.seq.loc.we) .invalidGeometry,
     acquire,
     panRecord]
    ++ guarded (fun s => s.blk.lastDone == .s0) (panSlot .fb1Base .fb1Ceil)
    ++ guarded (fun s => s.blk.lastDone == .s1) (panSlot .fb0Base .fb0Ceil)
    ++ guarded (fun s => s.blk.lastDone == .unknown) (panSlot .fb0Base .fb0Ceil ++ panSlot .fb1Base .fb1Ceil)
    ++ [release,
     assign fun s => s.onBlk fun b =>
       { b with res0 := BitVec.ofNat 32 s.seq.loc.ws, res1 := BitVec.ofNat 32 s.seq.loc.we },
     finishWith .ok]

/-- SET_WINDOW (R200). -/
def execSetWindow (s : State) : Host.Outcome State Fault Refusal := seqTurn setWindowLines s

/-- PAN (R205). -/
def execPan (s : State) : Host.Outcome State Fault Refusal := seqTurn panLines s

end Sys2Proof.Machine
end

