-- ==== Sys2Proof/Machine/ModePower.lean ====
section
/-! DEFINITION. Mode-set and power: MODE_SET (R239 to R241), SUSPEND (R245), RESUME (R246). -/

namespace Sys2Proof.Machine

/-! ## The operands of MODE_SET (R128, R239) -/

/-- `xresV = arg[11]` if it is nonzero, else `width` (R239). -/
def modeXresV (s : State) : Nat := if s.argN 11 ≠ 0 then s.argN 11 else s.argN 0

/-- `yresV = arg[12]` if it is nonzero, else `height` (R239). -/
def modeYresV (s : State) : Nat := if s.argN 12 ≠ 0 then s.argN 12 else s.argN 1

/-- `lineLen = (xresV * bpp) div 8` of the requested mode (R239). -/
def modeLineLen (s : State) : Nat := lineLen (modeXresV s) (s.argN 2)

/-- Check 3 of R239. -/
def modeSizesOk (s : State) : Bool :=
  decide (s.argN 0 ≥ 1) && decide (s.argN 1 ≥ 1) && decide (modeXresV s ≥ s.argN 0) && decide (modeYresV s ≥ s.argN 1)

/-- Check 4 of R239. -/
def modeFrameOk (s : State) : Bool := decide (s.argN 1 * modeLineLen s ≥ 2)

/-- Check 5 of R239. -/
def modeFitsVram (s : State) : Bool := decide (modeYresV s * modeLineLen s ≤ s.blk.vram.size)

/-- The mode's geometry (R35, R240). -/
def modeGeo (s : State) : Geo := ⟨s.argN 0, s.argN 1, modeXresV s, modeYresV s, modeLineLen s⟩

/-- Phase 1: the checks of R239 in order; the clock is last. -/
def modeChecks : List Act :=
  [raiseIf (fun s => !bppOk (s.argN 2) s.blk.rev) .unsupportedFormat,
   raiseIf (fun s => shadeCode (s.arg 3) == 3) .unsupportedFormat,
   raiseIf (fun s => !modeSizesOk s) .invalidGeometry,
   raiseIf (fun s => !modeFrameOk s) .invalidGeometry,
   raiseIf (fun s => !modeFitsVram s) .invalidGeometry,
   raiseIf (fun s => s.argN 4 == 0) .clockError]
    ++ negotiate fun s => hzOfPs (s.argN 4)

/-- Phase 2: the block's record (R240). -/
def modeCommit : List Act :=
  [assign fun s => s.onBlk fun b => { b with fmt := fmtOf (s.argN 2) (s.arg 3) },
   assign fun s => s.onBlk fun b => { b with geo := modeGeo s },
   assign fun s => s.onBlk fun b => { b with haveMode := true },
   dividerRecordLine]

/-- Phase 3: the register sequence (R240, R241). -/
def modeProgram : List Act :=
  disableSeq (fun _ => true)
    ++ displayModeSeq (fun s => displayModeOfMode (s.arg 3))
    ++ guarded (fun s => shadeOf (shadeCode (s.arg 3)) == some .stn) (acbSeq (fun s => s.arg 13) (fun s => s.arg 14))
    ++ hsyncSeq (fun s => s.arg 5) (fun s => s.arg 6) (fun s => s.arg 7)
    ++ vsyncSeq (fun s => s.arg 8) (fun s => s.arg 9) (fun s => s.arg 10)
    ++ geometrySeq (fun s => s.arg 0) (fun s => s.arg 1) (fun s => s.argN 2) (fun s => s.argBit 3 5)
    ++ [ctrlLine]
    ++ setWinSeq (fun s => s.blk.vram.base) (fun s => s.blk.vram.base + s.argN 1 * modeLineLen s - 1)
    ++ [assign fun s => s.onBlk fun b => { b with xoff := 0, yoff := 0 }]
    ++ enableSeq .seq

/-- MODE_SET (R240). -/
def modeSetLines : List Act :=
  prologue ++ modeChecks ++ modeCommit ++ modeProgram ++
    [assign fun s => s.onBlk fun b =>
       { b with res0 := BitVec.ofNat 32 (palCount (s.argN 2)), res1 := BitVec.ofNat 32 s.seq.loc.d },
     finishWith .ok]

/-- `if c: finish OK` (R245, R246). -/
def finishIf (c : State → Bool) : Act := fun s => if c s then .stop (s.finish .ok) else .go s

/-- SUSPEND (R245). -/
def suspendLines : List Act :=
  [requireAttached, finishIf fun s => s.blk.suspended] ++ disableSeq (fun _ => true) ++
    [assign fun s => s.onBlk fun b => { b with panelPower := false },
     assign fun s => s.onBlk fun b => { b with clkRun := false },
     assign fun s => s.onBlk fun b => { b with suspended := true },
     finishWith .ok]

/-- RESUME (R246). -/
def resumeLines : List Act :=
  [requireAttached, finishIf fun s => !s.blk.suspended,
   assign fun s => s.onBlk fun b => { b with clkRun := true },
   assign fun s => s.onBlk fun b => { b with panelPower := true },
   assign fun s => s.onBlk fun b => { b with suspended := false }]
    ++ enableSeq .seq ++ [finishWith .ok]

/-- MODE_SET (R240). -/
def execModeSet (s : State) : Host.Outcome State Fault Refusal := seqTurn modeSetLines s

/-- SUSPEND (R245). -/
def execSuspend (s : State) : Host.Outcome State Fault Refusal := seqTurn suspendLines s

/-- RESUME (R246). -/
def execResume (s : State) : Host.Outcome State Fault Refusal := seqTurn resumeLines s

end Sys2Proof.Machine
end

