-- ==== Sys2Proof/Machine/Waits.lean ====
section
/-! DEFINITION. Bounded waits and the global vsync callback: WAIT_VSYNC (R260), WAIT_PALETTE (R261), REGISTER_CB (R265),
UNREGISTER_CB (R266). -/

namespace Sys2Proof.Machine

/-- `T <- arg[0] if arg[0] ≠ 0 else default` (R260, R261). -/
def boundLine (dflt : State → Nat) : Act := assign fun s =>
  s.onLoc fun l => { l with bound := if s.argN 0 ≠ 0 then s.argN 0 else dflt s }

/-- The lines of a wait command: attached, bound, arm, block, `Timeout` (R260, R261, R263). -/
def waitLines (e : WaitEvent) (dflt : State → Nat) : List Act :=
  [requireAttached, boundLine dflt] ++ arm e ++
    [blockTest e (fun s => s.seq.loc.bound), raiseIf (fun s => s.seq.loc.timedOut) .timeout, finishWith .ok]

/-- WAIT_VSYNC (R260). -/
def waitVsyncLines : List Act := waitLines .vsync fun _ => vsyncTimeoutMs

/-- WAIT_PALETTE (R261). -/
def waitPaletteLines : List Act := waitLines .palDone fun s => s.cfg.paletteTimeoutMs

/-- A section under the lock that ends in `Release(L); raise E` when `c` holds and else changes the block (R265,
R266). -/
def cbLines (c : State → Bool) (e : Code) (f : State → Blk → Blk) : List Act :=
  [acquire, onlyIf c release, raiseIf c e, assign fun s => s.onBlk (f s), release, finishWith .ok]

/-- REGISTER_CB (R265). -/
def registerCbLines : List Act :=
  cbLines (fun s => s.blk.cb.isSome) .alreadyRegistered fun s b => { b with cb := some (s.arg 0, s.arg 1) }

/-- UNREGISTER_CB (R266). -/
def unregisterCbLines : List Act :=
  cbLines (fun s => s.blk.cb != some (s.arg 0, s.arg 1)) .notFound fun _ b => { b with cb := none }

/-- WAIT_VSYNC (R260). -/
def execWaitVsync (s : State) : Host.Outcome State Fault Refusal := seqTurn waitVsyncLines s

/-- WAIT_PALETTE (R261). -/
def execWaitPalette (s : State) : Host.Outcome State Fault Refusal := seqTurn waitPaletteLines s

/-- REGISTER_CB (R265). -/
def execRegisterCb (s : State) : Host.Outcome State Fault Refusal := seqTurn registerCbLines s

/-- UNREGISTER_CB (R266). -/
def execUnregisterCb (s : State) : Host.Outcome State Fault Refusal := seqTurn unregisterCbLines s

end Sys2Proof.Machine
end

