-- ==== Sys2Proof/Machine/Decoder.lean ====
section
/-! DEFINITION. The vsync and frame-completion interrupt decoder `IRQD` (R280 to R293): entry, the V1 and V2 bodies,
exit. This is the block's only asynchronous exception: entry saves nothing and the exit restores nothing (R317, R318). -/

namespace Sys2Proof.Machine

/-- Whether an activation may start (R280). -/
def mayActivate (s : State) : Bool :=
  s.blk.attached && !s.blk.suspended && s.lcdc.irq && !s.blk.irqActive && s.blk.lock == .free

/-- The entry step: `irqActive` and the lock are taken atomically, and the body is that of the revision (R280, R281). -/
def activate (s : State) : State :=
  { s.onBlk fun b => { b with irqActive := true, lock := .irqd } with
    irqd := { s.irqd with pc := .run s.blk.rev 0 } }

/-- The exit step: the lock is freed and `irqActive` falls atomically (R292). -/
def exitLine : Act := fun s =>
  .stop { s.onBlk fun b => { b with irqActive := false, lock := .free } with irqd := { s.irqd with pc := .idle } }

/-- `s <- RegRead(STAT)` or `RegRead(MASKED_STAT)` (R282, R287). -/
def readStatus (g : LReg) : Act := assign fun s =>
  { s.afterRead .irqd g with irqd := { s.irqd with s := s.readVal g } }

/-- Clear status: write back the word read (R14, R48). -/
def clearStatus (g : LReg) : Act := writeReg .irqd g fun s => s.irqd.s

/-- The lines run in one case of a body (R293). -/
def inCase (body : Rev) (c : IrqCase) (l : List Act) : List Act :=
  guarded (fun s => irqCase s.cfg s.blk.rev body s.irqd.s == c) l

/-- The lines under `if s[F] = 1` (R284, R290). -/
def onStatus (f : Fld) (l : List Act) : List Act := guarded (fun s => statusBit s.cfg s.blk.rev s.irqd.s f) l

/-- `RELATCH(k)` (R285): the window is bound once (log 25); without one the slot writes are skipped. -/
def relatch (base ceil : LReg) (k : LastDone) : List Act :=
  [assign fun s => { s with irqd := { s.irqd with w := s.blk.win } }]
    ++ guarded (fun s => s.irqd.w.isSome)
        [writeReg .irqd base fun s => (s.irqd.w.map (·.start)).getD 0#32,
         writeReg .irqd ceil fun s => (s.irqd.w.map (·.last)).getD 0#32]
    ++ [assign fun s => s.onBlk fun b => { b with lastDone := k },
        assign fun s => s.onBlk fun b => { b with vsyncFlag := true }]

/-- `RELATCH(0)`. -/
def relatch0 : List Act := relatch .fb0Base .fb0Ceil .s0

/-- `RELATCH(1)`. -/
def relatch1 : List Act := relatch .fb1Base .fb1Ceil .s1

/-- `if blk.cb = some(fn, ctx): Emit(VsyncCallback(fn, ctx))` (R290, R267). -/
def callbackLine : Act := assign fun s =>
  match s.blk.cb with
  | some (fn, ctx) => s.emit (.vsyncCallback fn ctx)
  | none => s

/-- Mark palette-done (R283, R289). -/
def markPalDone : Act := assign fun s => s.onBlk fun b => { b with palDoneFlag := true }

/-- Mark frame-done (R290). -/
def markFrameDone : Act := assign fun s => s.onBlk fun b => { b with frameDoneFlag := true }

/-- V1 case 1, sync lost with underflow: the raster stays disabled (R283). -/
def v1Fault : List Act :=
  disableNow .irqd ++ [clearStatus .stat] ++ rmw .irqd .rasterCtrl (fun _ => [(.v1PlIntEn, 0)]) ++ [markPalDone]

/-- V1 case 2, frame completion (R284). -/
def v1Frame : List Act := [clearStatus .stat] ++ onStatus .eof0 relatch0 ++ onStatus .eof1 relatch1

/-- The V1 body (R282 to R286). -/
def v1Body : List Act :=
  [readStatus .stat] ++ inCase .v1 .fault v1Fault ++ inCase .v1 .frame v1Frame ++ [exitLine]

/-- V2 case 1, sync lost with underflow: automatic recovery by the full ENABLE_SEQ (R288). -/
def v2Fault : List Act := disableNow .irqd ++ [clearStatus .maskedStat] ++ enableSeq .irqd

/-- V2 case 2, palette load done (R289). -/
def v2Palette : List Act :=
  disableNow .irqd
    ++ [clearStatus .maskedStat, writeReg .irqd .intEnClr fun s => paletteEnable s.cfg s.blk.rev, markPalDone]
    ++ enableSeq .irqd

/-- V2 case 3, frame completion, callback and frame-done (R290). -/
def v2Frame : List Act :=
  [clearStatus .maskedStat] ++ onStatus .eof0 (relatch0 ++ [callbackLine]) ++ onStatus .eof1 (relatch1 ++ [callbackLine])
    ++ onStatus .frameDone [markFrameDone]

/-- The V2 body (R287 to R291): the last register access is `RegWrite(EOI, 0)`. -/
def v2Body : List Act :=
  [readStatus .maskedStat] ++ inCase .v2 .fault v2Fault ++ inCase .v2 .palette v2Palette ++ inCase .v2 .frame v2Frame
    ++ [writeReg .irqd .eoi (fun _ => 0#32), exitLine]

/-- The body of a revision (R281). -/
def irqBody : Rev → List Act
  | .v1 => v1Body
  | .v2 => v2Body

/-- A turn of up to `n` steps of a running activation, from its step pointer. -/
def irqdContinue (n : Nat) (s : State) : Host.Outcome State Fault Refusal :=
  match s.irqd.pc with
  | .idle => .next s
  | .run r k =>
    if k < (irqBody r).length then .next (runActs .irqd ((irqBody r).drop k) n s) else .fault .stepPointerOutOfRange

/-- A turn of `IRQD` of up to `n` steps: it goes on with a running activation, or starts one if R280 allows it (the
entry is the first of the `n` steps). An activation that may not start takes no step. -/
def irqdTurn (n : Nat) (s : State) : Host.Outcome State Fault Refusal :=
  match s.irqd.pc with
  | .run _ _ => irqdContinue n s
  | .idle =>
    match n with
    | 0 => .next s
    | m + 1 => if mayActivate s then irqdContinue m (activate s) else .next s

end Sys2Proof.Machine
end

