-- ==== Sys2Proof/Machine/HostBus.lean ====
section
/-! DEFINITION. The host interface: command acceptance (R121), the host register map (R120), refused accesses (R64, R326),
and the reset input (R351). -/

namespace Sys2Proof.Machine

/-- Command acceptance: one step (R121). The command comes from the decoder (R132). -/
def accept (s : State) (v : Word) : State :=
  { s with
    blk := { s.blk with cmdword := v, arg := s.blk.argreg, busy := true, err := 0#4, res0 := 0#32, res1 := 0#32 }
    seq := { s.seq with pc := .run (decode? v) 0 } }

/-- The block-relative offset of a host access at a system-bus address (R120, R322). -/
def hostOffset (s : State) (addr : Word) : Nat := (addr - s.cfg.seqBase).toNat

/-- A 32-bit aligned access within 0x00 to 0x4F (R64, R326). -/
def goodAccess (off size : Nat) : Bool := size == 4 && off % 4 == 0 && off < 0x50

/-- A host write of a word at an offset (R120): SEQ_CMD issues a command, or is ignored while BUSY (R121); a read-only
register ignores it; SEQ_ARGi takes it at any time (R33). -/
def hostWriteAt (s : State) (off : Nat) (v : Word) : State :=
  if off = 0 then (if s.blk.busy then s else accept s v)
  else if off < 0x10 then s
  else s.onBlk fun b => { b with argreg := b.argreg.setIfInBounds ((off - 0x10) / 4) v }

/-- The word a host read returns (R120). -/
def hostReadAt (s : State) (off : Nat) : Word :=
  if off = 0x00 then s.blk.cmdword
  else if off = 0x04 then seqStatus s.blk
  else if off = 0x08 then s.blk.res0
  else if off = 0x0C then s.blk.res1
  else s.blk.argreg.getD ((off - 0x10) / 4) 0#32

/-- A host write access (R120, R326). -/
def busWrite (s : State) (addr : Word) (size : Nat) (v : Word) : Host.Outcome State Fault Refusal :=
  if goodAccess (hostOffset s addr) size then .next (hostWriteAt s (hostOffset s addr) v) else .refused .badHostAccess

/-- A host read access (R120, R123, R326). -/
def busRead (s : State) (addr : Word) (size : Nat) : Host.Outcome State Fault Refusal :=
  if goodAccess (hostOffset s addr) size then .next { s with busData := hostReadAt s (hostOffset s addr) }
  else .refused .badHostAccess

/-- The reset input (R351): the power-on state of R350, but `blk.out` keeps its events; the LCDC, the environment and
the record of the port are not touched. DESIGN CHOICE (log 14): the fields R49 calls unspecified get their reset
values. -/
def assertReset (s : State) : State :=
  { s with blk := { Blk.reset with out := s.blk.out }, seq := Seq.reset, irqd := Irqd.reset }

end Sys2Proof.Machine
end

