-- ==== Sys2Proof/Machine/Dispatch.lean ====
section
/-! DEFINITION. One arm per command: a turn of the sequencer that runs this command. -/

namespace Sys2Proof.Machine

def exec (i : Instr) (s : State) : Host.Outcome State Fault Refusal :=
  match i with
  | .attach => Sys2Proof.Machine.execAttach s
  | .detach => Sys2Proof.Machine.execDetach s
  | .regRead => Sys2Proof.Machine.execRegRead s
  | .regWrite => Sys2Proof.Machine.execRegWrite s
  | .setClock => Sys2Proof.Machine.execSetClock s
  | .programHsync => Sys2Proof.Machine.execProgramHsync s
  | .programVsync => Sys2Proof.Machine.execProgramVsync s
  | .programFrameGeometry => Sys2Proof.Machine.execProgramFrameGeometry s
  | .programDisplayMode => Sys2Proof.Machine.execProgramDisplayMode s
  | .programAcBias => Sys2Proof.Machine.execProgramAcBias s
  | .modeSet => Sys2Proof.Machine.execModeSet s
  | .setWindow => Sys2Proof.Machine.execSetWindow s
  | .pan => Sys2Proof.Machine.execPan s
  | .enable => Sys2Proof.Machine.execEnable s
  | .disable => Sys2Proof.Machine.execDisable s
  | .waitVsync => Sys2Proof.Machine.execWaitVsync s
  | .waitPalette => Sys2Proof.Machine.execWaitPalette s
  | .registerCb => Sys2Proof.Machine.execRegisterCb s
  | .unregisterCb => Sys2Proof.Machine.execUnregisterCb s
  | .suspend => Sys2Proof.Machine.execSuspend s
  | .resume => Sys2Proof.Machine.execResume s

end Sys2Proof.Machine
end

