-- ==== Sys2Proof/Machine/Turn.lean ====
section
/-! DEFINITION. What each move of an agent does (R20, R316), and how a command word reaches the sequencer. -/

namespace Sys2Proof.Machine

/-- `SEQ` takes a turn of up to `n` primitive steps: those of the running command, or of `ILLEGAL` (R26, R121). -/
def seqMove (n : Nat) (s : State) : Host.Outcome State Fault Refusal :=
  let s' := { s with seq := { s.seq with turn := n } }
  match s.seq.pc with
  | .idle => .next s'
  | .run none _ => seqTurn illegalLines s'
  | .run (some i) _ => exec i s'

/-- One move (R20). -/
def applyMove (m : Move) (s : State) : Host.Outcome State Fault Refusal :=
  match m with
  | .seq n => seqMove n s
  | .irqd n => irqdTurn n s
  | .line b => .next { s with lcdc := { s.lcdc with irq := b } }
  | .busWrite a n v => busWrite s a n v
  | .busRead a n => busRead s a n
  | .rst => .next (assertReset s)

/-- One step of the machine: the next move of the agents, under well-formed parameters (R104). The fairness of R365 is a
property of a whole run, `WeaklyFair` in Safety.lean; one step admits every enabled move (R20; log 18). -/
def stepMove (s : State) : Host.Outcome State Fault Refusal :=
  if s.cfg.wellFormed then applyMove s.env.peekMove { s with env := s.env.dropMove } else .refused .illFormedCaps

/-- A turn long enough for every command (log 6). -/
def fullTurn : Nat := 200

/-- The state in which the word has just been accepted (R121) and the sequencer moves next, with a turn long enough to
run the command to its end or to its first wait (log 6). -/
def placeWord (s : State) (w : Word) : State :=
  let s' := accept s w
  { s' with
    seq := { s'.seq with turn := fullTurn }
    env := { s'.env with sched := .seq fullTurn :: s'.env.sched } }

end Sys2Proof.Machine
end

