-- ==== Sys2Proof/Machine/Step.lean ====
section
/-! DEFINITION. The step function, and the state whose next step runs a given command word. -/

namespace Sys2Proof.Machine

/-- One step of the machine: one move of one agent (R20, R316). -/
def step (s : State) : Host.Outcome State Fault Refusal := stepMove s

/-- The state in which the host has written the command word to SEQ_CMD and the sequencer moves next (log 6). -/
def State.withFetchWord (s : State) (nbits w : Nat) : State := placeWord s (tableWord nbits w)

end Sys2Proof.Machine
end

