-- ==== Sys2Proof/Safety.lean ====
section
/-! DEFINITION. The terms claims are stated in: where a command starts and how it ends, the words and the port record a
sequence leaves, which preconditions a command checks (R314), and the invariants of the lock (R42, R70, R280), of the
DMA window (R41) and of the quiescent state (R365), and which runs are weakly fair (R365). -/

namespace Sys2Proof.Machine

/-! ## Starting and ending -/

/-- The command has just been accepted (R121), and the sequencer's turn is long enough for every command. -/
def AtStart (i : Instr) (s : State) : Prop := s.seq.pc = .run (some i) 0 ∧ fullTurn ≤ s.seq.turn

/-- The sequencer stands before line `k` of the command, with a turn of at least `n` steps. -/
def AtLine (i : Instr) (k n : Nat) (s : State) : Prop := s.seq.pc = .run (some i) k ∧ n ≤ s.seq.turn

/-- Attached and not suspended: what `requireAttached; requireAwake` ask (R314). -/
def Awake (s : State) : Prop := s.blk.attached = true ∧ s.blk.suspended = false

/-- The state in which the host has written sixteen argument registers and then a command word to `SEQ_CMD` of a block
that is not busy (R33, R121), and the sequencer's turn is long enough for every command. -/
def State.issued (s : State) (i : Instr) (args : Vector Word 16) : State :=
  let u := accept (s.onBlk fun b => { b with argreg := args }) (encode i)
  { u with seq := { u.seq with turn := fullTurn } }

/-- The host's next access reads the register at `off` of the host interface and gets `v`; nothing else changes (R120). -/
def hostReads (s : State) (off : Nat) (v : Word) : Prop :=
  s.env.peekMove = .busRead (s.cfg.seqBase + BitVec.ofNat 32 off) 4 →
    step s = .next { s with env := s.env.dropMove, busData := v }

/-- The host's next access writes `v` at `off` of the host interface, which leaves `t` but for the move used up (R120). -/
def hostWrites (s : State) (off : Nat) (v : Word) (t : State) : Prop :=
  s.env.peekMove = .busWrite (s.cfg.seqBase + BitVec.ofNat 32 off) 4 v → step s = .next { t with env := t.env.dropMove }

/-- The power-on values of the block that R49 gives, but for `blk.out`. R49 leaves `fmt`, `geo` and `vram` unspecified. -/
structure PowerOnBlk (b : Blk) : Prop where
  attached : b.attached = false
  rev : b.rev = .v1
  rstate : b.rstate = .disabled
  flags : b.vsyncFlag = false ∧ b.frameDoneFlag = false ∧ b.palDoneFlag = false
  lastDone : b.lastDone = .unknown
  win : b.win = none
  offsets : b.xoff = 0 ∧ b.yoff = 0
  haveMode : b.haveMode = false
  cb : b.cb = none
  clock : b.divider = 0#8 ∧ b.srcRate = 0
  palCount : b.palCount = 32
  power : b.panelPower = false ∧ b.clkRun = false ∧ b.suspended = false
  lock : b.lock = .free
  irqActive : b.irqActive = false
  busy : b.busy = false
  results : b.err = 0#4 ∧ b.res0 = 0#32 ∧ b.res1 = 0#32
  cmdword : b.cmdword = 0#32
  args : ∀ i : Fin 16, b.argreg[i] = 0#32 ∧ b.arg[i] = 0#32

/-! ## Actions outside the block -/

/-- One action of an agent outside the block, as data: what the pseudocode of a command or of a decoder case lists. -/
inductive Access where
  /-- `RegRead(R)`. -/
  | read (g : LReg)
  /-- `RegWrite(R, v)`. -/
  | write (g : LReg) (v : Word)
  /-- `RegReadAt(off)` (R140). -/
  | readAt (o : Nat)
  /-- `RegWriteAt(off, v)` (R141). -/
  | writeAt (o : Nat) (v : Word)
  /-- `RMW(R, F1, v1, ...)`: a read and a write (R12). -/
  | rmw (g : LReg) (edits : List (Fld × Nat))
  /-- `Delay(ms)`. -/
  | hold (ms : Nat)
  /-- `ClkRate()`. -/
  | clkRate
  /-- `ClkRequest(hz)`. -/
  | clkRequest (hz : Nat)
  /-- `VramAlloc()`. -/
  | vramAlloc
  /-- `VramFree()`. -/
  | vramFree
  /-- A `Block` whose flag is 1. -/
  | wake (e : WaitEvent) (ms : Nat)
  /-- A `Block` that returns `TimedOut`. -/
  | expire (e : WaitEvent) (ms : Nat)
  /-- A test step of a `Block` at which the flag is 0 and the environment lets it stay blocked. -/
  | stayed
deriving DecidableEq, Repr

/-- The LCDC, the environment and the record of the port after one action. -/
def State.perform (a : Agent) (s : State) : Access → State
  | .read g => s.afterRead a g
  | .write g v => s.regWrite a g v
  | .readAt o => (s.record (.read a o (s.readValAt o))).dropDraw
  | .writeAt o v =>
    { s with lcdc := ((s.cfg.regAt s.blk.rev o).map fun g => s.lcdc.write g v).getD s.lcdc }.record (.write a o v)
  | .rmw g edits => (s.afterRead a g).regWrite a g (insFields s.cfg s.blk.rev (s.readVal g) edits)
  | .hold ms => s.record (.delay a ms)
  | .clkRate =>
    { s with env := { s.env.drop with clkRate := s.env.peek.rate } }.record (.clkRate s.env.peek.rate)
  | .clkRequest hz =>
    { s with env := { s.env.drop with clkRate := s.env.peek.clk.getD s.env.clkRate } }.record
      (.clkRequest hz s.env.peek.clk)
  | .vramAlloc => s.dropDraw.record (.vramAlloc (vramAnswer s.env.peek))
  | .vramFree => s.record (.vramFree s.blk.vram)
  | .wake e ms => s.record (.waited e ms true)
  | .expire e ms => s.dropDraw.record (.waited e ms false)
  | .stayed => s.dropDraw

/-- The same after a list of actions, in their order (R68). -/
def State.does (a : Agent) (s : State) : List Access → State
  | [] => s
  | x :: xs => (s.perform a x).does a xs

/-- `t` is a state in which a command that started in `s` has ended with `code`, having left the block as `b` before its
`finish` (R313) and having acted outside the block exactly by `l`, in this order. The sequencer is idle; the parameters,
the decoder and the host's read data have not changed. Only the dead locals and the used-up turn of the sequencer are left open. -/
structure Ended (s t : State) (b : Blk) (code : Code) (l : List Access) : Prop where
  blk : t.blk = b.finish code
  pc : t.seq.pc = .idle
  lcdc : t.lcdc = (s.does .seq l).lcdc
  port : t.port = (s.does .seq l).port
  env : t.env = (s.does .seq l).env
  cfg : t.cfg = s.cfg
  irqd : t.irqd = s.irqd
  busData : t.busData = s.busData

/-- `t` is a state in which a turn of command `i` that started in `s` has ended before line `k`, the command waiting there,
with the block as `b` and with exactly the actions `l` outside the block. -/
structure Stands (i : Instr) (k : Nat) (s t : State) (b : Blk) (l : List Access) : Prop where
  pc : t.seq.pc = .run (some i) k
  blk : t.blk = b
  lcdc : t.lcdc = (s.does .seq l).lcdc
  port : t.port = (s.does .seq l).port
  env : t.env = (s.does .seq l).env
  cfg : t.cfg = s.cfg
  irqd : t.irqd = s.irqd
  busData : t.busData = s.busData

/-- The state after one step of `i`'s line `k` that has left the block as `b` and changed nothing else. -/
def State.stepped (s : State) (i : Instr) (k : Nat) (b : Blk) : State :=
  { s with blk := b, seq := { s.seq with pc := .run (some i) (k + 1) } }

/-- `t` is a state in which a decoder activation that started in `s` has ended, having left the block as `b` (the lock
free and no activation running) and having acted outside the block exactly by `l`. The sequencer, the parameters and
the host's read data have not changed. -/
structure Served (s t : State) (b : Blk) (l : List Access) : Prop where
  blk : t.blk = b
  pc : t.irqd.pc = .idle
  lcdc : t.lcdc = (s.does .irqd l).lcdc
  port : t.port = (s.does .irqd l).port
  env : t.env = (s.does .irqd l).env
  cfg : t.cfg = s.cfg
  seq : t.seq = s.seq
  busData : t.busData = s.busData

/-! ## The called sequences as actions (R315)

Their words and fields are written out from the rules here, not through the functions of Operands.lean and Flags.lean that
the commands use; Laws/Sequences.lean proves that they agree. -/

/-- Actions taken only under a condition. -/
def whenB (c : Bool) (l : List Access) : List Access := if c then l else []

/-- The V2 soft reset (R221): `bit(MAIN_RESET)`, then 0, each held for 1 ms (R102). -/
def softResetAccesses (s : State) : List Access :=
  [.write .clkReset (ins 0#32 (s.cfg.pos s.blk.rev .mainReset) 1), .hold 1, .write .clkReset 0#32, .hold 1]

/-- `ENABLE_SEQ` (R220). -/
def enableAccesses (s : State) : List Access :=
  whenB (isV2 s) (softResetAccesses s) ++ [.rmw .rasterCtrl [(.rasterEn, 1)]]

/-- The `RASTER_EN` update of `DISABLE_SEQ` (R225). -/
def disableAccesses : List Access := [.rmw .rasterCtrl [(.rasterEn, 0)]]

/-- Whether `DISABLE_SEQ` waits for a frame: `p = WaitForFrame and blk.rev = V2` (R225). -/
def waits (s : State) (wait : Bool) : Bool := wait && isV2 s

/-- `DISABLE_SEQ(p)` whose wait, if there is one, times out (R225). -/
def disableTimedOut (s : State) (wait : Bool) : List Access :=
  disableAccesses ++ whenB (waits s wait) [.expire .frameDone frameDoneTimeoutMs]

/-- What lets a `DISABLE_SEQ` that comes after the actions `l` run through in one turn: if it waits, the lock is free and
the environment lets the wait time out (R262). -/
def disableRuns (s : State) (wait : Bool) (l : List Access) : Prop :=
  waits s wait = true → s.blk.lock = .free ∧ (s.does .seq (l ++ disableAccesses)).env.peek.timeout = true

/-- What makes a `DISABLE_SEQ` that comes after the actions `l` arm its wait and stay blocked at the test step (R262). -/
def disableBlocks (s : State) (l : List Access) : Prop :=
  s.blk.lock = .free ∧ (s.does .seq (l ++ disableAccesses)).env.peek.timeout = false

/-- The commands that run `ENABLE_SEQ` and where its first line stands (R220, R240, R246). Its last line is 7 lines on. -/
def enableSeqs : List (Instr × Nat) := [(.enable, 2), (.resume, 5), (.modeSet, 64)]

/-- The commands that run `DISABLE_SEQ`, where its first line stands, and whether `p = WaitForFrame` (R225, R145, R240,
R245). From that line on: the `RASTER_EN` update, 2 lines; `DisablingWaitFrame`; the arm, 3 lines; the test step; the log of
a timeout; `Disabled` after the wait; `Disabled` without one. DETACH of a suspended block skips the sequence. -/
def disableSeqs (s : State) : List (Instr × Nat × Bool) :=
  [(.disable, 2, s.argBit 0 0), (.suspend, 2, true), (.detach, 1, true), (.modeSet, 18, true)]

/-- Whether a line of a command stands in a sequence that the command skips (R145). -/
def skipsDisable (i : Instr) (s : State) : Bool := i == .detach && s.blk.suspended

/-- The block after such a `DISABLE_SEQ` (R225): the wait arms the flag, times out and is logged. -/
def disabledBlk (s : State) (wait : Bool) : Blk :=
  if waits s wait then
    { s.blk with rstate := .disabled, frameDoneFlag := false, out := s.blk.out ++ [.logDisableTimeout] }
  else { s.blk with rstate := .disabled }

/-- The test step at which the `Block` of a `DISABLE_SEQ` stands returns: frame-done has come, or the environment lets the
wait time out (R262). -/
def testReturns (s : State) : Prop := s.blk.frameDoneFlag = true ∨ s.env.peek.timeout = true

/-- What that test step does outside the block (R225, R262): with the flag 1 it can only wake. -/
def testAccesses (s : State) : List Access :=
  if s.blk.frameDoneFlag = true then [.wake .frameDone frameDoneTimeoutMs] else [.expire .frameDone frameDoneTimeoutMs]

/-- The block after the rest of that `DISABLE_SEQ` (R225): a timeout is logged, and the raster state becomes `Disabled`
unless a decoder activation has moved it. -/
def testedBlk (s : State) : Blk :=
  { s.blk with
    rstate := if s.blk.rstate = .disablingWaitFrame then .disabled else s.blk.rstate
    out := if s.blk.frameDoneFlag = true then s.blk.out else s.blk.out ++ [.logDisableTimeout] }

/-- `HSYNC_SEQ` (R170, R171, R172), with `v - 1` the `sub32(v, 1)` of R9. -/
def hsyncAccesses (s : State) (bp pw fp : Word) : List Access :=
  let eb := (bp - 1#32).toNat
  let ep := (pw - 1#32).toNat
  let ef := (fp - 1#32).toNat
  let bpHi := match s.cfg.hbpHiSrc with
    | .bp => eb / 2 ^ 8 % 4
    | .fp => ef / 2 ^ 8 % 4
    | .bpOrFp => (eb / 2 ^ 8 % 4) ||| (ef / 2 ^ 8 % 4)
  [.rmw .timing0 [(.hbpLo, eb % 2 ^ 8), (.hfpLo, ef % 2 ^ 8), (.hswLo, ep % 2 ^ s.cfg.pwLoBits)]]
    ++ whenB (isV2 s)
      [.rmw .timing2 [(.hbpHi, bpHi), (.hfpHi, ef / 2 ^ 8 % 4), (.hswHi, ep / 2 ^ s.cfg.pwLoBits % 2 ^ s.cfg.hswHiBits)]]

/-- V2 with a position for some vertical high field (R173). -/
def hasVertHi (s : State) : Bool :=
  isV2 s && !decide (s.cfg.pos .v2 .vbpHi = none ∧ s.cfg.pos .v2 .vfpHi = none ∧ s.cfg.pos .v2 .vswHi = none)

/-- `VSYNC_SEQ` (R170, R173). -/
def vsyncAccesses (s : State) (bp pw fp : Word) : List Access :=
  let eb := (bp - 1#32).toNat
  let ep := (pw - 1#32).toNat
  let ef := (fp - 1#32).toNat
  [.rmw .timing1 [(.vbpLo, eb % 2 ^ 8), (.vfpLo, ef % 2 ^ 8), (.vswLo, ep % 2 ^ s.cfg.pwLoBits)]]
    ++ whenB (hasVertHi s)
      [.rmw .timing2 [(.vbpHi, eb / 2 ^ 8 % 4), (.vfpHi, ef / 2 ^ 8 % 4),
        (.vswHi, ep / 2 ^ s.cfg.pwLoBits % 2 ^ s.cfg.vswHiBits)]]

/-- `ppl(width, rev)` (R175), with `W` 10 on V1 and 11 on V2 and `P` the pixels per word. -/
def encodedWidth (s : State) (width : Word) : Nat :=
  let w := match s.blk.rev with
    | .v1 => 10
    | .v2 => 11
  (BitVec.ofNat 32 (width.toNat % 2 ^ w / 2 ^ s.cfg.pplLog2) - 1#32).toNat % 2 ^ (w - s.cfg.pplLog2)

/-- `GEOMETRY_SEQ` (R175, R176, R179, R180). -/
def geometryAccesses (s : State) (width height : Word) (bpp : Nat) (order : Bool) : List Access :=
  let p := encodedWidth s width
  let l := (height - 1#32).toNat
  let lo := 10 - s.cfg.pplLog2
  let hi := 11 - s.cfg.pplLog2
  [.rmw .timing0 [(.pplLo, p % 2 ^ lo), (.pplHi, p / 2 ^ lo % 2 ^ (hi - lo))], .rmw .timing1 [(.lppLo, l % 2 ^ 10)]]
    ++ whenB (isV2 s) [.rmw .timing2 [(.lppHi, l / 2 ^ 10 % 2)]]
    ++ [.rmw .rasterCtrl
      [(.rasterOrder, if order then 1 else 0), (.tft24, if bpp = 24 ∨ bpp = 32 then 1 else 0),
        (.tft24Unpack, if bpp = 32 then 1 else 0)]]

/-- `DISPLAY_MODE_SEQ` (R185, R186, R187). -/
def displayAccesses (s : State) (m : DisplayMode) : List Access :=
  [.rmw .rasterCtrl
    ([(.mono, 0), (.mono8, 0), (.tft, 0), (.tftAlt, 0), (.stn565, 0)]
      ++ (match m.shade with
        | .mono => [(.mono, 1), (.mono8, if m.mono8 then 1 else 0)]
        | .tft => [(.tft, 1), (.tftAlt, if m.tftAlt then 1 else 0)]
        | .stn => [(.stn565, if m.stn565 then 1 else 0)])
      ++ if s.blk.rev = .v1 then [(.v1UflIntEn, 1)] else [])]
    ++ whenB (isV2 s) [.write .intEnSet (ins 0#32 (s.cfg.pos s.blk.rev .fifoUfl) 1)]
    ++ [.rmw .timing2 [(.invHs, if m.hHigh then 0 else 1), (.invVs, if m.vHigh then 0 else 1)]]

/-- `ACB_SEQ` (R190). -/
def acbAccesses (freq ipt : Word) : List Access :=
  [.rmw .timing2 [(.acb, freq.toNat % 2 ^ 8), (.acbI, ipt.toNat % 2 ^ 4)]]

/-- The word of R99 with the bits of `EOF0`, `EOF1`, `FRAME_DONE` and `SYNC_LOST`. -/
def frameEnableWord (p : Params) (r : Rev) : Word :=
  ins 0#32 (p.pos r .eof0) 1 ||| ins 0#32 (p.pos r .eof1) 1 ||| ins 0#32 (p.pos r .frameDone) 1
    ||| ins 0#32 (p.pos r .syncLost) 1

/-- `SETWIN_SEQ` (R200). -/
def setWinAccesses (s : State) (first last : Word) : List Access :=
  [.write .fb0Base first, .write .fb0Ceil last, .write .fb1Base first, .write .fb1Ceil last,
   .rmw .dmaCtrl [(.dualFb, 1), (.v1EofIntEn, 1)]]
    ++ whenB (isV2 s) [.write .intEnSet (frameEnableWord s.cfg s.blk.rev)]

/-! ## Preconditions (R314) -/

/-- The `requireAttached` column of R314. -/
def needsAttached : Instr → Bool
  | .attach | .registerCb | .unregisterCb => false
  | _ => true

/-- The `requireAwake` column of R314. -/
def needsAwake : Instr → Bool
  | .attach | .registerCb | .unregisterCb | .detach | .suspend | .resume | .waitVsync | .waitPalette => false
  | _ => true

/-! ## MODE_SET (R239, R240)

The numbers a MODE_SET asks for, written out from R162 and R239, not through the functions of Machine that it uses. -/

/-- `xresV` (R239). -/
def askedXresV (s : State) : Nat := if s.argN 11 ≠ 0 then s.argN 11 else s.argN 0

/-- `yresV` (R239). -/
def askedYresV (s : State) : Nat := if s.argN 12 ≠ 0 then s.argN 12 else s.argN 1

/-- `lineLen` (R239). -/
def askedLineLen (s : State) : Nat := askedXresV s * s.argN 2 / 8

/-- The requested pixel clock in hertz (R162). -/
def askedHz (s : State) : Nat := 10 ^ 12 / s.argN 4

/-- The rate the clock source answers with (R163). -/
def firstRate (s : State) : Nat := s.env.peek.rate

/-- The clock source's answer to a re-request (R163). -/
def rerequestAnswer (s : State) : Option Nat := s.env.drop.peek.clk

/-- NEGOTIATE succeeds: the request is not zero, and a clamped request is accepted (R163). -/
def negotiates (s : State) (hz : Nat) : Prop :=
  hz ≠ 0 ∧ ((computeDivider hz (firstRate s)).2 = true → (rerequestAnswer s).isSome = true)

/-- The achieved source clock of NEGOTIATE (R163). -/
def achieved (s : State) (hz : Nat) : Nat :=
  if (computeDivider hz (firstRate s)).2 then (rerequestAnswer s).getD (firstRate s) else firstRate s

/-- The exchanges of NEGOTIATE for a request that is not zero (R163). -/
def negotiateAccesses (s : State) (hz : Nat) : List Access :=
  [.clkRate] ++
    whenB (computeDivider hz (firstRate s)).2 [.clkRequest (hz * (computeDivider hz (firstRate s)).1)]

/-- The six checks of R239 hold. -/
structure ModeValid (s : State) : Prop where
  /-- Check 1 (R177). -/
  bpp : s.argN 2 ∈ [1, 2, 4, 8, 16, 24, 32] ∧ ¬(s.blk.rev = .v1 ∧ 16 < s.argN 2)
  /-- Check 2. -/
  shade : bitsAt (s.arg 3) 0 2 ≠ 3
  /-- Check 3. -/
  sizes : 1 ≤ s.argN 0 ∧ 1 ≤ s.argN 1 ∧ s.argN 0 ≤ askedXresV s ∧ s.argN 1 ≤ askedYresV s
  /-- Check 4. -/
  frame : 2 ≤ s.argN 1 * askedLineLen s
  /-- Check 5. -/
  vram : askedYresV s * askedLineLen s ≤ s.blk.vram.size
  /-- Check 6. -/
  clock : s.argN 4 ≠ 0 ∧ negotiates s (askedHz s)

/-- A register-port access without its value: whether it writes, and the byte offset. -/
def access? : PortEvent → Option (Bool × Nat)
  | .read _ o _ => some (false, o)
  | .write _ o _ => some (true, o)
  | _ => none

/-- A read and a write of a register. -/
def rmwShape (s : State) (g : LReg) : List (Bool × Nat) := [(false, s.off g), (true, s.off g)]

/-- A write of a register. -/
def writeShape (s : State) (g : LReg) : List (Bool × Nat) := [(true, s.off g)]

/-- Accesses made only under a condition. -/
def shapeIf (c : Bool) (l : List (Bool × Nat)) : List (Bool × Nat) := if c then l else []

/-- The accesses of MODE_SET's phase 3, in the order of R241. -/
def modeShape (s : State) : List (Bool × Nat) :=
  let v2 := s.blk.rev == .v2
  let stn := bitsAt (s.arg 3) 0 2 == 2
  rmwShape s .rasterCtrl
    ++ rmwShape s .rasterCtrl ++ shapeIf v2 (writeShape s .intEnSet) ++ rmwShape s .timing2
    ++ shapeIf stn (rmwShape s .timing2)
    ++ rmwShape s .timing0 ++ shapeIf v2 (rmwShape s .timing2)
    ++ rmwShape s .timing1 ++ shapeIf (hasVertHi s) (rmwShape s .timing2)
    ++ rmwShape s .timing0 ++ rmwShape s .timing1 ++ shapeIf v2 (rmwShape s .timing2) ++ rmwShape s .rasterCtrl
    ++ writeShape s .ctrl
    ++ writeShape s .fb0Base ++ writeShape s .fb0Ceil ++ writeShape s .fb1Base ++ writeShape s .fb1Ceil
    ++ rmwShape s .dmaCtrl ++ shapeIf v2 (writeShape s .intEnSet)
    ++ shapeIf v2 (writeShape s .clkReset ++ writeShape s .clkReset) ++ rmwShape s .rasterCtrl

/-! ## The decoder -/

/-- The status word the next read of a status register returns: a draw (R45). -/
def nextStatus (s : State) : Word := s.env.peek.word

/-- A bit of that status word (R92). -/
def nextBit (s : State) (f : Fld) : Bool := ext (nextStatus s) (s.cfg.pos s.blk.rev f) == 1

/-- The writes of `RELATCH(k)` (R285): the current window goes into that slot, nothing without one. -/
def relatchAccesses (b : Blk) (base ceil : LReg) : List Access :=
  match b.win with
  | some w => [.write base w.start, .write ceil w.last]
  | none => []

/-- The callback event of one EOF bit (R290). -/
def callbackEvents (b : Blk) : List Event :=
  match b.cb with
  | some (fn, ctx) => [.vsyncCallback fn ctx]
  | none => []

/-- The slot recorded after the EOF bits of a word: slot 1 after slot 0 (R284). -/
def lastDoneAfter (e0 e1 : Bool) (d : LastDone) : LastDone := if e1 then .s1 else if e0 then .s0 else d

/-- The slot writes for the EOF bits of the next status word (R284, R290). -/
def frameAccesses (s : State) : List Access :=
  whenB (nextBit s .eof0) (relatchAccesses s.blk .fb0Base .fb0Ceil)
    ++ whenB (nextBit s .eof1) (relatchAccesses s.blk .fb1Base .fb1Ceil)

/-! ## Invariants -/

/-- Whether `SEQ` holds the lock before line `k` of a command: the sections of R70. -/
def holdsLock (i : Instr) (s : State) (k : Nat) : Bool :=
  match i with
  | .waitVsync | .waitPalette => k == 3 || k == 4
  | .registerCb => k == 1 || (k == 2 && s.blk.cb.isNone) || k == 3 || k == 4
  | .unregisterCb => k == 1 || (k == 2 && s.blk.cb == some (s.arg 0, s.arg 1)) || k == 3 || k == 4
  | .setWindow => 4 ≤ k && k ≤ 9
  | .pan => 6 ≤ k && k ≤ 15
  | .disable => (k == 6 || k == 7) && s.argBit 0 0 && isV2 s
  | .suspend => (k == 6 || k == 7) && isV2 s
  | .detach => (k == 5 || k == 6) && !s.blk.suspended && isV2 s
  | .modeSet => ((k == 22 || k == 23) && isV2 s) || (54 ≤ k && k ≤ 59)
  | _ => false

/-- Whether `SEQ` holds the lock at its step pointer. -/
def seqHolds (s : State) : Bool :=
  match s.seq.pc with
  | .run (some i) k => holdsLock i s k
  | _ => false

/-- The lock discipline (R42, R70, R280, R292) and the meaning of BUSY and the step pointer (R26, R121, R313): the lock is
the decoder's exactly while an activation runs, it is the sequencer's exactly inside a section of R70, `BUSY` holds
exactly while a command runs, and the running command is the one its command word decodes to. -/
structure LockInv (s : State) : Prop where
  irqd : s.blk.lock = .irqd ↔ s.blk.irqActive = true
  active : s.blk.irqActive = true ↔ s.irqd.pc ≠ .idle
  seq : s.blk.lock = .seq ↔ seqHolds s = true
  busy : s.blk.busy = true ↔ s.seq.pc ≠ .idle
  cmd : ∀ c k, s.seq.pc = .run c k → c = decode? s.blk.cmdword

/-- A window inside the vram region (R41, R201): more than one byte, both ends inside. -/
def winInVram (v : Vram) (w : Window) : Prop :=
  w.start.toNat < w.last.toNat ∧ v.base ≤ w.start.toNat ∧ w.last.toNat < v.base + v.size

/-- A region the allocator may hand out, or the empty region of power-on (R25). -/
def vramOk (v : Vram) : Prop := v.base + v.size ≤ 2 ^ 32

/-- The lines of a command, none being the pseudo-command `ILLEGAL` (R121). -/
def linesOf : Option Instr → List Act
  | none => illegalLines
  | some .attach => attachLines
  | some .detach => detachLines
  | some .regRead => regReadLines
  | some .regWrite => regWriteLines
  | some .setClock => setClockLines
  | some .programHsync => programHsyncLines
  | some .programVsync => programVsyncLines
  | some .programFrameGeometry => programFrameGeometryLines
  | some .programDisplayMode => programDisplayModeLines
  | some .programAcBias => programAcBiasLines
  | some .modeSet => modeSetLines
  | some .setWindow => setWindowLines
  | some .pan => panLines
  | some .enable => enableLines
  | some .disable => disableLines
  | some .waitVsync => waitVsyncLines
  | some .waitPalette => waitPaletteLines
  | some .registerCb => registerCbLines
  | some .unregisterCb => unregisterCbLines
  | some .suspend => suspendLines
  | some .resume => resumeLines

/-- Both step pointers point to a line (R26: a command returns to `Idle` when it ends; R292). -/
structure PcInv (s : State) : Prop where
  seq : ∀ c k, s.seq.pc = .run c k → k < (linesOf c).length
  irqd : ∀ r k, s.irqd.pc = .run r k → k < (irqBody r).length

/-- What the lines a command has passed have established, which the window it will store rests on (R200, R205, R239,
R143). -/
def windowFacts (s : State) : Prop :=
  match s.seq.pc with
  | .run (some .setWindow) k => 2 < k → validWin s.blk (s.argN 0) (s.argN 1) = true
  | .run (some .pan) k => 4 < k → validWin s.blk s.seq.loc.ws s.seq.loc.we = true
  | .run (some .modeSet) k =>
    (4 < k → modeSizesOk s = true) ∧ (5 < k → modeFrameOk s = true) ∧ (6 < k → modeFitsVram s = true)
  | .run (some .attach) k => (0 < k → k ≤ 15 → s.blk.attached = false) ∧ (12 < k → s.blk.win = none)
  | _ => True

/-- R41: while attached, the current window lies inside the vram region. -/
structure WindowInv (s : State) : Prop where
  vram : vramOk s.blk.vram
  alloc : ∀ v, s.seq.loc.alloc = some v → vramOk v
  facts : windowFacts s
  win : s.blk.attached = true → ∀ w, s.blk.win = some w → winInVram s.blk.vram w

/-- The quiescent state of R365. -/
def Quiescent (s : State) : Prop :=
  s.blk.busy = false ∧ s.blk.irqActive = false ∧ s.blk.lock = .free ∧ s.lcdc.irq = false

/-! ## Runs and fairness (R365) -/

/-- The state with `m` as its next move, before the moves it lists (log 5). -/
def State.withMove (s : State) (m : Move) : State := { s with env := { s.env with sched := m :: s.env.sched } }

/-- `r` is a run of the machine in which the agents make the moves `mv`, in this order (R20, R68). -/
def Run (r : Nat → State) (mv : Nat → Move) : Prop := ∀ n, step ((r n).withMove (mv n)) = .next (r (n + 1))

/-- The lines that are an `Acquire(L)` of `SEQ` (R70). Those inside `DISABLE_SEQ` are skipped when it does not wait. -/
def acquireLines : List (Instr × Nat) :=
  [(.registerCb, 0), (.unregisterCb, 0), (.waitVsync, 2), (.waitPalette, 2), (.setWindow, 3), (.pan, 5), (.modeSet, 53),
   (.disable, 5), (.suspend, 5), (.detach, 4), (.modeSet, 21)]

/-- The lines that are a `Block` of `SEQ`, with the flag it waits on (R225, R260, R261). -/
def blockLines : List (Instr × Nat × WaitEvent) :=
  [(.waitVsync, 5, .vsync), (.waitPalette, 5, .palDone), (.disable, 8, .frameDone), (.suspend, 8, .frameDone),
   (.detach, 7, .frameDone), (.modeSet, 24, .frameDone)]

/-- `SEQ` stands before an `Acquire(L)`. -/
def atAcquire (s : State) : Prop := ∃ e ∈ acquireLines, s.seq.pc = .run (some e.1) e.2

/-- `SEQ` stands before a `Block` on `e`. -/
def atBlock (s : State) (e : WaitEvent) : Prop := ∃ i k, (i, k, e) ∈ blockLines ∧ s.seq.pc = .run (some i) k

/-- `SEQ` has a step to take: a command runs, and its next line is neither an `Acquire` nor a `Block`, or the lock is free
and, for a `Block`, its flag is 1 (R42, R262). -/
def seqEnabled (s : State) : Prop :=
  s.seq.pc ≠ .idle ∧ (atAcquire s → s.blk.lock = .free) ∧
    ∀ e, atBlock s e → s.blk.lock = .free ∧ s.blk.flag e = true

/-- The order of the moves is weakly fair, as R365 says. `HOST` need not move. A `Delay` is a line whose step is always
enabled, so it ends by `seqStep` and `irqdStep`. DEDUCED (log 18): a `Block` whose flag is 1 returns although its test
step also waits for the lock. -/
structure WeaklyFair (r : Nat → State) (mv : Nat → Move) : Prop where
  /-- A step of `SEQ` that stays enabled is eventually taken. -/
  seqStep : ∀ n, (∀ m, n ≤ m → seqEnabled (r m)) → ∃ m k, n ≤ m ∧ mv m = .seq (k + 1)
  /-- A step of `IRQD` that stays enabled is eventually taken: no line of an activation waits (R292). -/
  irqdStep : ∀ n, (∀ m, n ≤ m → (r m).irqd.pc ≠ .idle) → ∃ m k, n ≤ m ∧ mv m = .irqd (k + 1)
  /-- An activation that stays enabled (R280) eventually starts. -/
  activation : ∀ n, (∀ m, n ≤ m → mayActivate (r m) = true) → ∃ m k, n ≤ m ∧ mv m = .irqd (k + 1)
  /-- An `Acquire` of `SEQ` eventually succeeds. -/
  acquired : ∀ n, atAcquire (r n) → ∃ m, n ≤ m ∧ (r m).seq.pc ≠ (r n).seq.pc
  /-- A `Block` whose flag stays 0 eventually returns. -/
  timedOut : ∀ n e, atBlock (r n) e → (∀ m, n ≤ m → (r m).blk.flag e = false) →
    ∃ m, n ≤ m ∧ (r m).seq.pc ≠ (r n).seq.pc
  /-- A `Block` whose flag is 1 eventually returns. -/
  woken : ∀ n e, atBlock (r n) e → (r n).blk.flag e = true → ∃ m, n ≤ m ∧ (r m).seq.pc ≠ (r n).seq.pc

end Sys2Proof.Machine
end

