-- ==== Sys2Proof/Certificates/Slice0/Obligations.lean ====
section
/-! DEFINITION. The statements for the provers. Each docstring names the rule it formalises; a statement that rests on a
choice of the model says so and names the log entry. `AtStart i s` starts a command in a turn long enough to run it to
its end or to its first wait; a turn is a run of one agent's steps with no other agent between them, which is one of the
interleavings of R20 (log 5, log 7). `Ended` and `Served` say what the whole state is afterwards, so they are the frame
too. -/

open Sys2Proof Sys2Proof.Machine

/-! ## Encoding -/

/-- R122, R126, R63: a word decodes to a command exactly when it is that command's word, and a byte string exactly when
it is the four little-endian bytes of that word. So the decoder is total, drops no bit and confuses no two words. -/
def Obligations.DecodeAndEncodeAgree : Prop :=
  ∀ i : Instr, i.wellFormed = true →
    (∀ w : Word, decodeWord w = .ok i ↔ w = encode i) ∧ (∀ bs : List Byte, decodeBytes bs = .ok i ↔ bs = encodeBytes i)

/-- R126: some words of the opcode map, written out, decode to the commands they stand for; R127: neighbours do not. -/
def Obligations.SpecWordsDecode : Prop :=
  decodeWord 0x00000001#32 = .ok .attach ∧ decodeWord 0x00000002#32 = .ok .detach ∧
  decodeWord 0x00000009#32 = .ok .regWrite ∧ decodeWord 0x00000010#32 = .ok .setClock ∧
  decodeWord 0x00000013#32 = .ok .programFrameGeometry ∧ decodeWord 0x00000020#32 = .ok .modeSet ∧
  decodeWord 0x00000022#32 = .ok .pan ∧ decodeWord 0x00000031#32 = .ok .disable ∧
  decodeWord 0x00000041#32 = .ok .waitPalette ∧ decodeWord 0x00000050#32 = .ok .registerCb ∧
  decodeWord 0x00000061#32 = .ok .resume ∧ decodeWord 0x00000003#32 = .error .unassignedOpcode ∧
  decodeWord 0x00000101#32 = .error .reservedBits ∧ decodeWord 0x80000001#32 = .error .reservedBits

/-- R127: exactly the words with `RSV ≠ 0` and those with an unlisted opcode are illegal, and an accepted illegal word
ends at once with code 8 and no other effect. -/
def Obligations.IllegalWordsEndWithIllegalCommand : Prop :=
  (∀ w : Word, decode? w = none ↔
    (w.toNat / 256 ≠ 0 ∨ w.toNat % 256 = 0x00 ∨ (0x03 ≤ w.toNat % 256 ∧ w.toNat % 256 ≤ 0x07) ∨
      (0x0A ≤ w.toNat % 256 ∧ w.toNat % 256 ≤ 0x0F) ∨ (0x16 ≤ w.toNat % 256 ∧ w.toNat % 256 ≤ 0x1F) ∨
      (0x23 ≤ w.toNat % 256 ∧ w.toNat % 256 ≤ 0x2F) ∨ (0x32 ≤ w.toNat % 256 ∧ w.toNat % 256 ≤ 0x3F) ∨
      (0x42 ≤ w.toNat % 256 ∧ w.toNat % 256 ≤ 0x4F) ∨ (0x52 ≤ w.toNat % 256 ∧ w.toNat % 256 ≤ 0x5F) ∨
      0x62 ≤ w.toNat % 256)) ∧
  (∀ s v, decode? v = none → (accept s v).seq.pc = .run none 0 ∧ (accept s v).blk.busy = true) ∧
  ∀ s n, s.cfg.wellFormed = true → s.env.peekMove = .seq (n + 1) → s.seq.pc = .run none 0 →
    step s = .next ({ s with env := s.env.dropMove, seq := { s.seq with turn := n + 1 } }.finish .illegalCommand)
      ∧ Code.num .illegalCommand = 8#4

/-! ## The step -/

/-- R20, R26, R121: when the sequencer moves and the accepted word decoded to a well-formed command, the step is `exec` of
that command, at the state with the move used up and the length of the turn noted (log 5). -/
def Obligations.StepRunsTheDecodedCommand : Prop :=
  (∀ s v i, decodeWord v = .ok i → (accept s v).seq.pc = .run (some i) 0) ∧
  ∀ s i k n, s.cfg.wellFormed = true → i.wellFormed = true → s.env.peekMove = .seq n → s.seq.pc = .run (some i) k →
    step s = exec i { s with env := s.env.dropMove, seq := { s.seq with turn := n } }

/-- Log 6 (the model's own choice): after `withFetchWord` the next step runs the command of that word, as accepted by
R121, in a turn long enough for every command. -/
def Obligations.FetchWordRunsItsCommand : Prop :=
  ∀ s nbits w i, s.cfg.wellFormed = true → decodeTableWord nbits w = some i →
    ∃ u, AtStart i u ∧ step (s.withFetchWord nbits w) = exec i u ∧ u.blk = (accept s (tableWord nbits w)).blk ∧
      u.cfg = s.cfg ∧ u.lcdc = s.lcdc ∧ u.irqd = s.irqd ∧ u.env = s.env ∧ u.port = s.port

/-- R121: acceptance is one step with exactly these effects, a write of `SEQ_CMD` while BUSY is ignored, and `decode` is
the opcode map on words with `RSV = 0`, else the pseudo-command whose only step is `raise IllegalCommand`. -/
def Obligations.CommandAcceptance : Prop :=
  (∀ s v, s.cfg.wellFormed = true →
    hostWrites s 0 v
      (if s.blk.busy then s
       else { s with
          blk := { s.blk with
            cmdword := v, arg := s.blk.argreg, busy := true, err := 0#4, res0 := 0#32, res1 := 0#32 }
          seq := { s.seq with pc := .run (decode? v) 0 } })) ∧
  (∀ w i, decode? w = some i ↔ w.toNat / 256 = 0 ∧ w.toNat % 256 = opcodeOf i) ∧
  ∀ s n, s.seq.pc = .run none 0 →
    seqMove (n + 1) s = .next ({ s with seq := { s.seq with turn := n + 1 } }.finish .illegalCommand)

/-- R120: what a host read of each register returns and what a host write of each does. -/
def Obligations.HostRegisterMap : Prop :=
  ∀ s, s.cfg.wellFormed = true →
    hostReads s 0x00 s.blk.cmdword ∧ hostReads s 0x04 (seqStatus s.blk) ∧ hostReads s 0x08 s.blk.res0 ∧
    hostReads s 0x0C s.blk.res1 ∧ (∀ i : Fin 16, hostReads s (0x10 + 4 * i.val) s.blk.argreg[i]) ∧
    ∀ v, hostWrites s 0x00 v (if s.blk.busy then s else accept s v) ∧ hostWrites s 0x04 v s ∧ hostWrites s 0x08 v s ∧
      hostWrites s 0x0C v s ∧
      ∀ i : Fin 16, hostWrites s (0x10 + 4 * i.val) v (s.onBlk fun b => { b with argreg := b.argreg.set i v })

/-- R123: a read of `SEQ_STATUS` returns the current block state in one step, in exactly these fields. -/
def Obligations.SeqStatusFields : Prop :=
  (∀ s, s.cfg.wellFormed = true → hostReads s 0x04 (seqStatus s.blk)) ∧
  ∀ b : Blk,
    bitsAt (seqStatus b) 0 1 = bit01 b.busy ∧ bitsAt (seqStatus b) 1 3 = 0 ∧ bitsAt (seqStatus b) 4 4 = b.err.toNat ∧
    bitsAt (seqStatus b) 8 2 = (match b.lastDone with | .s0 => 0 | .s1 => 1 | .unknown => 3) ∧
    bitsAt (seqStatus b) 10 2 =
      (match b.rstate with | .disabled => 0 | .enabling => 1 | .enabled => 2 | .disablingWaitFrame => 3) ∧
    bitsAt (seqStatus b) 12 1 = (if b.attached then (match b.rev with | .v1 => 0 | .v2 => 1) else 0) ∧
    bitsAt (seqStatus b) 13 1 = bit01 b.attached ∧ bitsAt (seqStatus b) 14 1 = bit01 b.vsyncFlag ∧
    bitsAt (seqStatus b) 15 1 = bit01 b.frameDoneFlag ∧ bitsAt (seqStatus b) 16 1 = bit01 b.palDoneFlag ∧
    bitsAt (seqStatus b) 17 1 = bit01 b.cb.isSome ∧ bitsAt (seqStatus b) 18 1 = bit01 b.panelPower ∧
    bitsAt (seqStatus b) 19 1 = bit01 b.clkRun ∧ bitsAt (seqStatus b) 20 1 = bit01 b.suspended ∧
    bitsAt (seqStatus b) 21 1 = bit01 b.irqActive ∧ bitsAt (seqStatus b) 22 1 = bit01 b.haveMode ∧
    bitsAt (seqStatus b) 23 1 = bit01 b.win.isSome ∧ bitsAt (seqStatus b) 24 8 = bitsAt b.cmdword 0 8

/-- R64, R326, R104: a host access that is not a 32-bit aligned access within 0x00 to 0x4F is refused, and so is every step
under an ill-formed `Caps`. That the step is what refuses such parameters is the model's reading of R104 (log 16), and the
model's own conditions that the LCDC drives no bit of a field with a position (log 9) and that a V2 table has no V1-only
register or field (log 28) are part of well-formedness. -/
def Obligations.BadAccessAndBadCapsAreRefused : Prop :=
  (∀ s addr size v, s.cfg.wellFormed = true → (size ≠ 4 ∨ (addr - s.cfg.seqBase).toNat % 4 ≠ 0 ∨ 0x50 ≤ (addr - s.cfg.seqBase).toNat) →
    s.env.peekMove = .busRead addr size ∨ s.env.peekMove = .busWrite addr size v → step s = .refused .badHostAccess) ∧
  ∀ s, s.cfg.wellFormed = false → step s = .refused .illFormedCaps

/-- R350: the power-on state, also as the host sees it. -/
def Obligations.PowerOnState : Prop :=
  PowerOnBlk State.reset.blk ∧ State.reset.blk.out = [] ∧ State.reset.seq.pc = .idle ∧
  hostReadAt State.reset 0x00 = 0x00000000#32 ∧ hostReadAt State.reset 0x04 = 0x00000300#32 ∧
  hostReadAt State.reset 0x08 = 0x00000000#32 ∧ hostReadAt State.reset 0x0C = 0x00000000#32 ∧
  (∀ i : Fin 16, hostReadAt State.reset (0x10 + 4 * i.val) = 0x00000000#32) ∧
  (∀ s : State, s.blk = State.reset.blk → mayActivate s = false) ∧
  ∀ r g w, g ≠ .id → regValue State.reset.cfg r State.reset.lcdc g w = w

/-- R351: the reset input, taken at any step. -/
def Obligations.ResetInput : Prop :=
  ∀ s, s.cfg.wellFormed = true → s.env.peekMove = .rst →
    ∃ t, step s = .next t ∧ PowerOnBlk t.blk ∧ t.blk.out = s.blk.out ∧ t.seq.pc = .idle ∧ t.irqd.pc = .idle ∧
      t.lcdc = s.lcdc ∧ t.port = s.port ∧ t.cfg = s.cfg ∧ t.busData = s.busData ∧ t.env = s.env.dropMove

/-! ## Fields and register values -/

/-- R10: what `ins` and `ext` do to each bit, on an absent field, and for several fields. -/
def Obligations.FieldInsertAndExtract : Prop :=
  (∀ w hi lo v j, lo ≤ hi → hi ≤ 31 → j < 32 →
    (ins w (some (hi, lo)) v).getLsbD j = if lo ≤ j ∧ j ≤ hi then v.testBit (j - lo) else w.getLsbD j) ∧
  (∀ w hi lo j, lo ≤ hi → hi ≤ 31 →
    (ext w (some (hi, lo))).testBit j = (decide (j ≤ hi - lo) && w.getLsbD (lo + j))) ∧
  (∀ w v, ins w none v = w ∧ ext w none = 0) ∧
  (∀ p r w f v es, insFields p r w [] = w ∧ insFields p r w ((f, v) :: es) = insFields p r (ins w (p.pos r f) v) es) ∧
  ∀ p r f, bitsOf p r [f] = ins 0#32 (p.pos r f) 1

/-- R104, R90: under a well-formed `Caps` each field with a position is one that the revision has, with exactly its width
inside bits 31..0, and two fields of one register do not overlap. That a field the revision lacks has no position is R104 for
a V2-only field in a V1 table. For `V1_PL_INT_EN`, `V1_UFL_INT_EN` and `V1_EOF_INT_EN` in a V2 table R90 with the rev columns
of R93 and R97 says that they are absent; that a table which gives them a position is ill formed is the model's choice
(DESIGN CHOICE, log 28). The width and the revision of the fields of `CLK_EN` are R105's (PRESUMED, log 1). -/
def Obligations.FieldsOfOneRegisterAreApart : Prop :=
  ∀ (p : Params) (r : Rev) (f : Fld) (hi lo : Nat), p.wellFormed = true → p.pos r f = some (hi, lo) →
    (lo ≤ hi ∧ hi ≤ 31 ∧ hi - lo + 1 = p.width f ∧ f.onRev r = true) ∧
    ∀ (g : Fld) (hi' lo' : Nat), f ≠ g → f.home = g.home → p.pos r g = some (hi', lo') → hi < lo' ∨ hi' < lo

/-- R10, R12, R104, R191: the word an RMW writes holds in each named field the last value given for it, cut to the field's
width, in every other field of that register what was read, and no bit outside the named fields changes. -/
def Obligations.RmwWritesItsFieldsAlone : Prop :=
  ∀ (p : Params) (r : Rev) (w : Word) (edits : List (Fld × Nat)) (f : Fld), p.wellFormed = true →
    (∀ e ∈ edits, e.1.home = f.home) →
    ext (insFields p r w edits) (p.pos r f) =
        (match edits.reverse.lookup f, p.pos r f with
         | some v, some (hi, lo) => v % 2 ^ (hi - lo + 1)
         | some _, none => 0
         | none, _ => ext w (p.pos r f)) ∧
      ∀ j, (∀ e ∈ edits, ∀ hi lo, p.pos r e.1 = some (hi, lo) → j < lo ∨ hi < j) →
        (insFields p r w edits).getLsbD j = w.getLsbD j

/-- R45, R47: what a `RegRead` returns in every case, and what a `RegWrite` does to the V2 interrupt-enable mask. The last
clause, that a field the block writes reads back whole, rests on the model's choice that the LCDC drives no bit of such
a field (log 9). -/
def Obligations.RegisterReadValues : Prop :=
  ∀ (p : Params) (r : Rev) (l : Lcdc) (w : Word),
    regValue p r l .stat w = w ∧ regValue p r l .rawStat w = w ∧ regValue p r l .maskedStat w = w ∧
    regValue p r l .id w = p.lcdcId ∧
    (∀ g v, (l.write g v).intEn =
      if g = .intEnSet then l.intEn ||| v else if g = .intEnClr then l.intEn &&& ~~~v else l.intEn) ∧
    ∀ g, g ≠ .stat → g ≠ .rawStat → g ≠ .maskedStat → g ≠ .id →
      (l.regs.get g = none → regValue p r l g w = w) ∧
      (∀ v j, j < 32 → (regValue p r (l.write g v) g w).getLsbD j =
        if (p.hwMask r g).getLsbD j then w.getLsbD j else v.getLsbD j) ∧
      (∀ g' v, g' ≠ g → regValue p r (l.write g' v) g w = regValue p r l g w) ∧
      (p.wellFormed = true → ∀ f hi lo v, f.home = g → p.pos r f = some (hi, lo) →
        ext (regValue p r (l.write g v) g w) (some (hi, lo)) = ext v (some (hi, lo)))

/-! ## Computed values -/

/-- R161: the properties of `computeDivider`. -/
def Obligations.DividerProperties : Prop :=
  ∀ req src : Nat, 0 < req →
    (2 ≤ (computeDivider req src).1 ∧ (computeDivider req src).1 ≤ 255) ∧
    (255 * req < src → (computeDivider req src).1 = 255 ∧ (computeDivider req src).2 = true) ∧
    (src < 2 * req → (computeDivider req src).1 = 2 ∧ ((computeDivider req src).2 = true ↔ src ≤ req)) ∧
    (¬255 * req < src → ¬src < 2 * req →
      (computeDivider req src).1 = (src + req - 1) / req ∧ (computeDivider req src).2 = false)

/-- R175, R94: the width fields hold the word count minus one of the masked width, split where V1 ends. -/
def Obligations.WidthFieldsHoldTheWordCount : Prop :=
  ∀ (p : Params) (r : Rev) (width : Word), p.wellFormed = true →
    (ppl p r width + 1) % 2 ^ p.pplBits r = width.toNat % 2 ^ widthMaskBits r / 2 ^ p.pplLog2 % 2 ^ p.pplBits r ∧
    ppl p r width < 2 ^ p.pplBits r ∧
    ∃ lo hi, widthFields p r width = [(.pplLo, lo), (.pplHi, hi)] ∧ lo < 2 ^ p.pplBits .v1 ∧
      lo + hi * 2 ^ p.pplBits .v1 = ppl p r width

/-! ## Preconditions and errors -/

/-- R314: the preconditions of every command, checked before anything else. -/
def Obligations.PreconditionsComeFirst : Prop :=
  ∀ i s, s.seq.pc = .run (some i) 0 → 2 ≤ s.seq.turn →
    (needsAttached i = true → s.blk.attached = false → exec i s = .next (s.finish .notAttached)) ∧
    (needsAttached i = true → needsAwake i = true → s.blk.attached = true → s.blk.suspended = true →
      exec i s = .next (s.finish .suspended)) ∧
    (i = .attach → s.blk.attached = true → exec i s = .next (s.finish .illegalCommand)) ∧
    (needsAttached i = false → ∀ t, exec i s = .next t → t.blk.err = Code.num .notAttached → s.blk.err = Code.num .notAttached) ∧
    (needsAwake i = false → ∀ t, exec i s = .next t → t.blk.err = Code.num .suspended → s.blk.err = Code.num .suspended)

/-- R313, R310: a command that ends with an error has written no LCDC register, and its results are 0. `finish`, field by
field, and the eleven codes. -/
def Obligations.ErrorsWriteNoRegister : Prop :=
  (∀ b c, Blk.finish b c =
    { b with
      err := Code.num c
      res0 := if c = .ok then b.res0 else 0#32
      res1 := if c = .ok then b.res1 else 0#32
      busy := false
      out := b.out ++ [.done (b.cmdword.extractLsb' 0 8) (Code.num c)] }) ∧
  (∀ s c, State.finish s c = { s with blk := s.blk.finish c, seq := { s.seq with pc := .idle } }) ∧
  (Code.num .ok = 0#4 ∧ Code.num .unsupportedFormat = 1#4 ∧ Code.num .invalidGeometry = 2#4 ∧
    Code.num .clockError = 3#4 ∧ Code.num .timeout = 4#4 ∧ Code.num .alreadyRegistered = 5#4 ∧ Code.num .notFound = 6#4 ∧
    Code.num .resourceExhausted = 7#4 ∧ Code.num .illegalCommand = 8#4 ∧ Code.num .notAttached = 9#4 ∧
    Code.num .suspended = 10#4) ∧
  ∀ i s t, AtStart i s → exec i s = .next t → t.seq.pc = .idle → t.blk.err ≠ 0#4 →
    t.lcdc = s.lcdc ∧ t.blk.res0 = 0#32 ∧ t.blk.res1 = 0#32 ∧ t.blk.busy = false ∧
      ∃ c, t.blk.err = Code.num c ∧ ∃ evs, t.blk.out = s.blk.out ++ evs ++ [.done (BitVec.ofNat 8 s.blk.cmdword.toNat) (Code.num c)]

/-! ## Register port, attach and detach -/

/-- R140, R141, R144: REG_READ and REG_WRITE with a bad offset end with `IllegalCommand` and make no access; with a good
one they make one access at that offset, and only REG_READ's result or the written register changes. Under a
well-formed `Caps` the offset of a register of the revision reaches exactly that register: a read there returns the
register's value (R45), at any other offset a draw. That an access at an offset
without a register reads a draw and leaves the LCDC as it is, and that a write of `ID` changes nothing that a read shows, is
what log 24 deduces from R140 and R141. -/
def Obligations.RawRegisterAccess : Prop :=
  (∀ s, AtStart .regRead s → Awake s →
    if s.argN 0 % 4 ≠ 0 ∨ s.cfg.regSpan ≤ s.argN 0 then exec .regRead s = .next (s.finish .illegalCommand)
    else ∃ t v, exec .regRead s = .next t ∧ Ended s t { s.blk with res0 := v } .ok [.readAt (s.argN 0)] ∧
      t.lcdc = s.lcdc ∧ t.port = s.port ++ [.read .seq (s.argN 0) v] ∧
      (s.cfg.wellFormed = true →
        (∀ g, s.cfg.off? s.blk.rev g = some (s.argN 0) → v = regValue s.cfg s.blk.rev s.lcdc g s.env.peek.word) ∧
        ((∀ g, s.cfg.off? s.blk.rev g ≠ some (s.argN 0)) → v = s.env.peek.word))) ∧
  (∀ s, AtStart .regWrite s → Awake s →
    if s.argN 0 % 4 ≠ 0 ∨ s.cfg.regSpan ≤ s.argN 0 then exec .regWrite s = .next (s.finish .illegalCommand)
    else ∃ t, exec .regWrite s = .next t ∧ Ended s t s.blk .ok [.writeAt (s.argN 0) (s.arg 1)] ∧
      t.port = s.port ++ [.write .seq (s.argN 0) (s.arg 1)] ∧
      (s.cfg.wellFormed = true →
        (∀ g, s.cfg.off? s.blk.rev g = some (s.argN 0) → t.lcdc = s.lcdc.write g (s.arg 1)) ∧
        ((∀ g, s.cfg.off? s.blk.rev g ≠ some (s.argN 0)) → t.lcdc = s.lcdc))) ∧
  ∀ (p : Params) (r : Rev) (o : Nat) (g : LReg), p.wellFormed = true → (p.regAt r o = some g ↔ p.off? r g = some o)

/-- R142, R143: the three outcomes of ATTACH. An identification value that `knownIds` does not list is logged and taken as
V1. R25 gives a region at least one byte and puts it below 2^32; that any other answer of the environment counts as `Fail`
is the model's choice (log 19). -/
def Obligations.AttachOutcomes : Prop :=
  ∀ s, AtStart .attach s →
    let known := s.cfg.knownIds.lookup s.cfg.lcdcId
    let rev := match known with
      | some r => r
      | none => .v1
    let log := if known = none then [Event.logUnknownId s.cfg.lcdcId] else []
    let answer := s.env.drop.peek.vram
    (s.blk.attached = true → exec .attach s = .next (s.finish .illegalCommand)) ∧
    (s.blk.attached = false → (∀ v, answer = some v → ¬(1 ≤ v.size ∧ v.base + v.size ≤ 2 ^ 32)) →
      ∃ t, exec .attach s = .next t ∧
        Ended s t { s.blk with clkRun := false, out := s.blk.out ++ log } .resourceExhausted [.read .id, .vramAlloc]) ∧
    (∀ v, s.blk.attached = false → answer = some v → 1 ≤ v.size → v.base + v.size ≤ 2 ^ 32 →
      ∃ t, exec .attach s = .next t ∧
        Ended s t
          { s.blk with
            clkRun := true, out := s.blk.out ++ log, vram := v, rev := rev, rstate := .disabled
            vsyncFlag := false, frameDoneFlag := false, palDoneFlag := false, lastDone := .unknown, win := none
            xoff := 0, yoff := 0, haveMode := false, suspended := false, panelPower := true, attached := true
            res0 := s.cfg.lcdcId, res1 := if rev = .v2 then 1#32 else 0#32 }
          .ok [.read .id, .vramAlloc])

/-- R145, R353: DETACH from the suspended state skips the disable; otherwise it disables with wait, then frees the vram
region and drops the power outputs. The second clause is a disable that does not wait, or whose wait times out in the
first turn; the last is the wait at its test step in any later turn, woken by a frame-done or timed out. Before it, the
first turn of a wait that stays blocked ends at the test step, and with the lock held at the arm. -/
def Obligations.DetachTearsDown : Prop :=
  (∀ s, AtStart .detach s → s.blk.attached = true →
    (s.blk.suspended = true →
      ∃ t, exec .detach s = .next t ∧
        Ended s t { s.blk with panelPower := false, clkRun := false, suspended := false, attached := false } .ok
          [.vramFree]) ∧
    (s.blk.suspended = false → disableRuns s true [] →
      ∃ t, exec .detach s = .next t ∧
        Ended s t { disabledBlk s true with panelPower := false, clkRun := false, suspended := false, attached := false }
          .ok (disableTimedOut s true ++ [.vramFree])) ∧
    (s.blk.suspended = false → s.blk.rev = .v2 →
      (disableBlocks s [] →
        ∃ t, exec .detach s = .next t ∧
          Stands .detach 7 s t { s.blk with rstate := .disablingWaitFrame, frameDoneFlag := false }
            [.rmw .rasterCtrl [(.rasterEn, 0)], .stayed]) ∧
      (s.blk.lock ≠ .free →
        ∃ t, exec .detach s = .next t ∧
          Stands .detach 4 s t { s.blk with rstate := .disablingWaitFrame } [.rmw .rasterCtrl [(.rasterEn, 0)]]))) ∧
  ∀ s, AtLine .detach 7 fullTurn s → s.blk.suspended = false → s.blk.rev = .v2 → s.blk.lock = .free → testReturns s →
    ∃ t, exec .detach s = .next t ∧
      Ended s t { testedBlk s with panelPower := false, clkRun := false, suspended := false, attached := false } .ok
        (testAccesses s ++ [.vramFree])

/-! ## Clock -/

/-- R163, R164, R91: SET_CLOCK. A request of 0 and a rejected re-request end with `ClockError` and change no register and no
record; otherwise `CTRL` is written whole and the divider and the achieved rate are recorded and returned. Under a
well-formed `Caps` the word written holds the divider and 1 in the two fields of `CTRL`. -/
def Obligations.SetClockResult : Prop :=
  ∀ s, AtStart .setClock s → Awake s →
    let d := (computeDivider (s.argN 0) (firstRate s)).1
    (s.argN 0 = 0 → exec .setClock s = .next (s.finish .clockError)) ∧
    (s.argN 0 ≠ 0 → ¬negotiates s (s.argN 0) →
      ∃ t, exec .setClock s = .next t ∧ Ended s t s.blk .clockError (negotiateAccesses s (s.argN 0))) ∧
    (negotiates s (s.argN 0) →
      ∃ t, exec .setClock s = .next t ∧
        Ended s t
          { s.blk with
            divider := BitVec.ofNat 8 d, srcRate := achieved s (s.argN 0)
            res0 := BitVec.ofNat 32 d, res1 := BitVec.ofNat 32 (achieved s (s.argN 0)) }
          .ok
          (negotiateAccesses s (s.argN 0) ++
            [.write .ctrl (ins (ins 0#32 (s.cfg.pos s.blk.rev .clkdiv) d) (s.cfg.pos s.blk.rev .rasterMode) 1)]) ∧
        (s.cfg.wellFormed = true →
          ∃ w, t.lcdc.regs.ctrl = some w ∧ ext w (s.cfg.pos s.blk.rev .clkdiv) = d ∧
            ext w (s.cfg.pos s.blk.rev .rasterMode) = 1))

/-! ## Timing -/

/-- R170, R171, R172, R94, R96: PROGRAM_HSYNC. Each field gets its part of `sub32(v, 1)` of its argument `v` (R9): the low part
in `TIMING_0`, and on V2 the high part in `TIMING_2`, with `HBP_HI` as `hbpHiSrc` chooses. The block is unchanged. Under a
well-formed `Caps` the fields of the words written hold these values; one of width 0 is absent and reads 0. -/
def Obligations.ProgramHsyncResult : Prop :=
  ∀ s, AtStart .programHsync s → Awake s →
    let eb := (s.arg 0 - 1#32).toNat
    let ep := (s.arg 1 - 1#32).toNat
    let ef := (s.arg 2 - 1#32).toNat
    let swLo := ep % 2 ^ s.cfg.pwLoBits
    let swHi := ep / 2 ^ s.cfg.pwLoBits % 2 ^ s.cfg.hswHiBits
    let bpHi := match s.cfg.hbpHiSrc with
      | .bp => eb / 2 ^ 8 % 4
      | .fp => ef / 2 ^ 8 % 4
      | .bpOrFp => (eb / 2 ^ 8 % 4) ||| (ef / 2 ^ 8 % 4)
    ∃ t, exec .programHsync s = .next t ∧
      Ended s t s.blk .ok
        ([.rmw .timing0 [(.hbpLo, eb % 2 ^ 8), (.hfpLo, ef % 2 ^ 8), (.hswLo, swLo)]] ++
          if s.blk.rev = .v2 then [.rmw .timing2 [(.hbpHi, bpHi), (.hfpHi, ef / 2 ^ 8 % 4), (.hswHi, swHi)]] else []) ∧
      (s.cfg.wellFormed = true →
        (∃ w, t.lcdc.regs.timing0 = some w ∧ ext w (s.cfg.pos s.blk.rev .hbpLo) = eb % 2 ^ 8 ∧
          ext w (s.cfg.pos s.blk.rev .hfpLo) = ef % 2 ^ 8 ∧ ext w (s.cfg.pos s.blk.rev .hswLo) = swLo) ∧
        (s.blk.rev = .v2 →
          ∃ w, t.lcdc.regs.timing2 = some w ∧ ext w (s.cfg.pos .v2 .hbpHi) = bpHi ∧
            ext w (s.cfg.pos .v2 .hfpHi) = ef / 2 ^ 8 % 4 ∧ ext w (s.cfg.pos .v2 .hswHi) = swHi))

/-- R170, R173, R95, R96: PROGRAM_VSYNC. Each field gets its part of `sub32(v, 1)` of its argument `v` (R9): the low part in
`TIMING_1`, and the high part in `TIMING_2` on V2 if any vertical high field has a position. The block is unchanged. Under
a well-formed `Caps` the fields of the words written hold these values; an absent one reads 0. -/
def Obligations.ProgramVsyncResult : Prop :=
  ∀ s, AtStart .programVsync s → Awake s →
    let eb := (s.arg 0 - 1#32).toNat
    let ep := (s.arg 1 - 1#32).toNat
    let ef := (s.arg 2 - 1#32).toNat
    let swLo := ep % 2 ^ s.cfg.pwLoBits
    let swHi := ep / 2 ^ s.cfg.pwLoBits % 2 ^ s.cfg.vswHiBits
    let high := s.blk.rev = .v2 ∧
      ¬(s.cfg.pos .v2 .vbpHi = none ∧ s.cfg.pos .v2 .vfpHi = none ∧ s.cfg.pos .v2 .vswHi = none)
    ∃ t, exec .programVsync s = .next t ∧
      Ended s t s.blk .ok
        ([.rmw .timing1 [(.vbpLo, eb % 2 ^ 8), (.vfpLo, ef % 2 ^ 8), (.vswLo, swLo)]] ++
          if high then [.rmw .timing2 [(.vbpHi, eb / 2 ^ 8 % 4), (.vfpHi, ef / 2 ^ 8 % 4), (.vswHi, swHi)]] else []) ∧
      (s.cfg.wellFormed = true →
        (∃ w, t.lcdc.regs.timing1 = some w ∧ ext w (s.cfg.pos s.blk.rev .vbpLo) = eb % 2 ^ 8 ∧
          ext w (s.cfg.pos s.blk.rev .vfpLo) = ef % 2 ^ 8 ∧ ext w (s.cfg.pos s.blk.rev .vswLo) = swLo) ∧
        (high →
          ∃ w, t.lcdc.regs.timing2 = some w ∧
            ext w (s.cfg.pos .v2 .vbpHi) = (if s.cfg.pos .v2 .vbpHi = none then 0 else eb / 2 ^ 8 % 4) ∧
            ext w (s.cfg.pos .v2 .vfpHi) = (if s.cfg.pos .v2 .vfpHi = none then 0 else ef / 2 ^ 8 % 4) ∧
            ext w (s.cfg.pos .v2 .vswHi) = swHi))

/-- R175 to R180, R94 to R96: PROGRAM_FRAME_GEOMETRY. A bpp that the revision does not have makes no access; else the word
count minus one of the masked width (R175), `sub32(height, 1)` (R176) and the format flags (R179) are written and the palette
entry count is recorded and returned: 512 for 8 bpp, 32 otherwise. Under a well-formed `Caps` the fields of the words written
hold these values. -/
def Obligations.FrameGeometryResult : Prop :=
  ∀ s, AtStart .programFrameGeometry s → Awake s →
    let bpp := s.argN 2
    let w := match s.blk.rev with
      | .v1 => 10
      | .v2 => 11
    let lo := 10 - s.cfg.pplLog2
    let hi := 11 - s.cfg.pplLog2
    let p := (BitVec.ofNat 32 (s.argN 0 % 2 ^ w / 2 ^ s.cfg.pplLog2) - 1#32).toNat % 2 ^ (w - s.cfg.pplLog2)
    let l := (s.arg 1 - 1#32).toNat
    let order := bitsAt (s.arg 3) 0 1
    let tft24 := if bpp = 24 ∨ bpp = 32 then 1 else 0
    let unpack := if bpp = 32 then 1 else 0
    let n := if bpp = 8 then 512 else 32
    if (bpp = 1 ∨ bpp = 2 ∨ bpp = 4 ∨ bpp = 8 ∨ bpp = 16 ∨ bpp = 24 ∨ bpp = 32) ∧ ¬(s.blk.rev = .v1 ∧ 16 < bpp) then
      ∃ t, exec .programFrameGeometry s = .next t ∧
        Ended s t { s.blk with palCount := n, res0 := BitVec.ofNat 32 n } .ok
          ([.rmw .timing0 [(.pplLo, p % 2 ^ lo), (.pplHi, p / 2 ^ lo % 2 ^ (hi - lo))],
            .rmw .timing1 [(.lppLo, l % 2 ^ 10)]]
            ++ (if s.blk.rev = .v2 then [.rmw .timing2 [(.lppHi, l / 2 ^ 10 % 2)]] else [])
            ++ [.rmw .rasterCtrl [(.rasterOrder, order), (.tft24, tft24), (.tft24Unpack, unpack)]]) ∧
        (s.cfg.wellFormed = true →
          (∃ v, t.lcdc.regs.timing0 = some v ∧ ext v (s.cfg.pos s.blk.rev .pplLo) = p % 2 ^ lo ∧
            (s.blk.rev = .v2 → ext v (s.cfg.pos .v2 .pplHi) = p / 2 ^ lo % 2 ^ (hi - lo))) ∧
          (∃ v, t.lcdc.regs.timing1 = some v ∧ ext v (s.cfg.pos s.blk.rev .lppLo) = l % 2 ^ 10) ∧
          (s.blk.rev = .v2 → ∃ v, t.lcdc.regs.timing2 = some v ∧ ext v (s.cfg.pos .v2 .lppHi) = l / 2 ^ 10 % 2) ∧
          ∃ v, t.lcdc.regs.rasterCtrl = some v ∧ ext v (s.cfg.pos s.blk.rev .rasterOrder) = order ∧
            (s.blk.rev = .v2 → ext v (s.cfg.pos .v2 .tft24) = tft24 ∧ ext v (s.cfg.pos .v2 .tft24Unpack) = unpack))
    else exec .programFrameGeometry s = .next (s.finish .unsupportedFormat)

/-- R185, R186, R187, R99: PROGRAM_DISPLAY_MODE. Shade code 3 makes no access. Else all five class bits are cleared and those
of the requested class inserted, the underflow enable is set where the revision has it, and the polarity bits are the
inverse of "active-high"; the block is unchanged. Under a well-formed `Caps` the words written hold exactly the requested
class, the V1 enable, the raster enable as read, and the inverted polarity. -/
def Obligations.DisplayModeResult : Prop :=
  ∀ s, AtStart .programDisplayMode s → Awake s →
    let shade := bitsAt (s.arg 0) 0 2
    let mono8 := bitsAt (s.arg 0) 2 1
    let tftAlt := bitsAt (s.arg 0) 3 1
    let stn565 := bitsAt (s.arg 0) 4 1
    let hHigh := bitsAt (s.arg 1) 0 1
    let vHigh := bitsAt (s.arg 1) 1 1
    if shade = 3 then exec .programDisplayMode s = .next (s.finish .unsupportedFormat)
    else ∃ t, exec .programDisplayMode s = .next t ∧
      Ended s t s.blk .ok
        ([.rmw .rasterCtrl
            ([(.mono, 0), (.mono8, 0), (.tft, 0), (.tftAlt, 0), (.stn565, 0)]
              ++ (if shade = 0 then [(.mono, 1), (.mono8, mono8)] else if shade = 1 then [(.tft, 1), (.tftAlt, tftAlt)]
                else [(.stn565, stn565)])
              ++ if s.blk.rev = .v1 then [(.v1UflIntEn, 1)] else [])]
          ++ (if s.blk.rev = .v2 then [.write .intEnSet (ins 0#32 (s.cfg.pos .v2 .fifoUfl) 1)] else [])
          ++ [.rmw .timing2 [(.invHs, 1 - hHigh), (.invVs, 1 - vHigh)]]) ∧
      (s.cfg.wellFormed = true →
        (∃ w, t.lcdc.regs.rasterCtrl = some w ∧
          ext w (s.cfg.pos s.blk.rev .mono) = (if shade = 0 then 1 else 0) ∧
          ext w (s.cfg.pos s.blk.rev .mono8) = (if shade = 0 then mono8 else 0) ∧
          ext w (s.cfg.pos s.blk.rev .tft) = (if shade = 1 then 1 else 0) ∧
          ext w (s.cfg.pos s.blk.rev .tftAlt) = (if shade = 1 then tftAlt else 0) ∧
          ext w (s.cfg.pos s.blk.rev .stn565) = (if shade = 2 then stn565 else 0) ∧
          (s.blk.rev = .v1 → ext w (s.cfg.pos .v1 .v1UflIntEn) = 1) ∧
          ext w (s.cfg.pos s.blk.rev .rasterEn) = ext (s.readVal .rasterCtrl) (s.cfg.pos s.blk.rev .rasterEn)) ∧
        ∃ w, t.lcdc.regs.timing2 = some w ∧ ext w (s.cfg.pos s.blk.rev .invHs) = 1 - hHigh ∧
          ext w (s.cfg.pos s.blk.rev .invVs) = 1 - vHigh)

/-- R190: PROGRAM_AC_BIAS completes and writes `freq[7:0]` and `ipt[3:0]`, no offset-by-one; the block is unchanged. Under a
well-formed `Caps` the two fields of the word written hold these values. -/
def Obligations.ProgramAcBiasResult : Prop :=
  ∀ s, AtStart .programAcBias s → Awake s →
    ∃ t, exec .programAcBias s = .next t ∧
      Ended s t s.blk .ok [.rmw .timing2 [(.acb, s.argN 0 % 2 ^ 8), (.acbI, s.argN 1 % 2 ^ 4)]] ∧
      (s.cfg.wellFormed = true →
        ∃ w, t.lcdc.regs.timing2 = some w ∧ ext w (s.cfg.pos s.blk.rev .acb) = s.argN 0 % 2 ^ 8 ∧
          ext w (s.cfg.pos s.blk.rev .acbI) = s.argN 1 % 2 ^ 4)

/-! ## Mode-set -/

/-- R239, R162, R163, R177: the checks of MODE_SET in their order. The first failing one gives the error; no register is
accessed, and only the last check, the clock, exchanges anything. -/
def Obligations.ModeSetErrorOrder : Prop :=
  ∀ s, AtStart .modeSet s → Awake s →
    let width := s.argN 0
    let height := s.argN 1
    let bpp := s.argN 2
    let ps := s.argN 4
    let xresV := if s.argN 11 ≠ 0 then s.argN 11 else width
    let yresV := if s.argN 12 ≠ 0 then s.argN 12 else height
    let lineLen := xresV * bpp / 8
    let hz := 10 ^ 12 / ps
    let q := (s.env.peek.rate + hz - 1) / hz
    let d := min 255 (max 2 q)
    let check1 := (bpp = 1 ∨ bpp = 2 ∨ bpp = 4 ∨ bpp = 8 ∨ bpp = 16 ∨ bpp = 24 ∨ bpp = 32) ∧
      ¬(s.blk.rev = .v1 ∧ 16 < bpp)
    let check2 := bitsAt (s.arg 3) 0 2 ≠ 3
    let check3 := width ≥ 1 ∧ height ≥ 1 ∧ xresV ≥ width ∧ yresV ≥ height
    let check4 := height * lineLen ≥ 2
    let check5 := yresV * lineLen ≤ s.blk.vram.size
    let endsWith := fun c l => ∃ t, exec .modeSet s = .next t ∧ Ended s t s.blk c l
    (¬check1 → endsWith .unsupportedFormat []) ∧
    (check1 → ¬check2 → endsWith .unsupportedFormat []) ∧
    (check1 → check2 → ¬check3 → endsWith .invalidGeometry []) ∧
    (check1 → check2 → check3 → ¬check4 → endsWith .invalidGeometry []) ∧
    (check1 → check2 → check3 → check4 → ¬check5 → endsWith .invalidGeometry []) ∧
    (check1 → check2 → check3 → check4 → check5 → ps = 0 ∨ hz = 0 → endsWith .clockError []) ∧
    (check1 → check2 → check3 → check4 → check5 → ps ≠ 0 → hz ≠ 0 → q < 2 ∨ 255 < q → s.env.drop.peek.clk = none →
      endsWith .clockError [.clkRate, .clkRequest (hz * d)])

/-- R240, R241, R129: a MODE_SET that passes validation, with the lock free and its disable-wait (V2) timing out in the first
turn, ends OK with exactly this block and exactly these actions in this order; the format and geometry records hold the bits
of the MODE word and the numbers that R239 and R240 name. On V2 the first turn of a disable-wait that stays blocked ends at
the test step, and with the lock held at the arm, the commit done and no register accessed but for the `RASTER_EN` update.
The last clause is the disable-wait at its test step in any later turn, woken by a frame-done or timed out: phase 3 goes on
from there, with the divider that the clock exchange left; a shade code of 3 does not pass validation, so none comes there. -/
def Obligations.ModeSetResult : Prop :=
  ∀ s,
    let m := s.arg 3
    let bpp := s.argN 2
    let shade := if bitsAt m 0 2 = 0 then Shade.mono else if bitsAt m 0 2 = 1 then .tft else .stn
    let xresV := if s.argN 11 ≠ 0 then s.argN 11 else s.argN 0
    let yresV := if s.argN 12 ≠ 0 then s.argN 12 else s.argN 1
    let lineLen := xresV * bpp / 8
    let hz := 10 ^ 12 / s.argN 4
    let d := (computeDivider hz (firstRate s)).1
    let first := s.blk.vram.base
    let last := first + s.argN 1 * lineLen - 1
    let n := if bpp = 8 then 512 else 32
    let fmt : Fmt :=
      { bpp := bpp, shade := shade
        mono8 := m.getLsbD 2, tftAlt := m.getLsbD 3, stn565 := m.getLsbD 4, rasterOrder := m.getLsbD 5
        hsyncActiveHigh := m.getLsbD 6, vsyncActiveHigh := m.getLsbD 7 }
    let geo : Geo := { xres := s.argN 0, yres := s.argN 1, xresV := xresV, yresV := yresV, lineLen := lineLen }
    let committed : Blk :=
      { s.blk with
        fmt := fmt, geo := geo, haveMode := true, divider := BitVec.ofNat 8 d, srcRate := achieved s hz
        rstate := .disablingWaitFrame }
    let program := fun div =>
      displayAccesses s
          { shade := shade
            mono8 := m.getLsbD 2, tftAlt := m.getLsbD 3, stn565 := m.getLsbD 4
            hHigh := m.getLsbD 6, vHigh := m.getLsbD 7 }
        ++ (if shade = .stn then [.rmw .timing2 [(.acb, s.argN 13 % 2 ^ 8), (.acbI, s.argN 14 % 2 ^ 4)]] else [])
        ++ hsyncAccesses s (s.arg 5) (s.arg 6) (s.arg 7) ++ vsyncAccesses s (s.arg 8) (s.arg 9) (s.arg 10)
        ++ geometryAccesses s (s.arg 0) (s.arg 1) bpp (m.getLsbD 5)
        ++ [.write .ctrl (ins (ins 0#32 (s.cfg.pos s.blk.rev .clkdiv) div) (s.cfg.pos s.blk.rev .rasterMode) 1)]
        ++ setWinAccesses s (BitVec.ofNat 32 first) (BitVec.ofNat 32 last) ++ enableAccesses s
    (AtStart .modeSet s → Awake s → ModeValid s → s.blk.lock = .free → disableRuns s true (negotiateAccesses s hz) →
      ∃ t, exec .modeSet s = .next t ∧
        Ended s t
          { disabledBlk s true with
            fmt := fmt
            geo := geo
            haveMode := true
            divider := BitVec.ofNat 8 d
            srcRate := achieved s hz
            rstate := .enabled
            palCount := n
            win := some ⟨BitVec.ofNat 32 first, BitVec.ofNat 32 last⟩
            xoff := 0
            yoff := 0
            res0 := BitVec.ofNat 32 n
            res1 := BitVec.ofNat 32 d } .ok
          (negotiateAccesses s hz ++ disableTimedOut s true ++ program d)) ∧
    (AtStart .modeSet s → Awake s → ModeValid s → s.blk.rev = .v2 →
      (disableBlocks s (negotiateAccesses s hz) →
        ∃ t, exec .modeSet s = .next t ∧ t.seq.loc.d = d ∧
          Stands .modeSet 24 s t { committed with frameDoneFlag := false }
            (negotiateAccesses s hz ++ [.rmw .rasterCtrl [(.rasterEn, 0)], .stayed])) ∧
      (s.blk.lock ≠ .free →
        ∃ t, exec .modeSet s = .next t ∧ t.seq.loc.d = d ∧
          Stands .modeSet 21 s t committed (negotiateAccesses s hz ++ [.rmw .rasterCtrl [(.rasterEn, 0)]]))) ∧
    (AtLine .modeSet 24 fullTurn s → bitsAt m 0 2 ≠ 3 → s.blk.rev = .v2 → s.blk.lock = .free → testReturns s →
      ∃ t, exec .modeSet s = .next t ∧
        Ended s t
          { testedBlk s with
            rstate := .enabled
            palCount := n
            win := some ⟨BitVec.ofNat 32 first, BitVec.ofNat 32 last⟩
            xoff := 0
            yoff := 0
            res0 := BitVec.ofNat 32 n
            res1 := BitVec.ofNat 32 s.seq.loc.d } .ok
          (testAccesses s ++ program s.seq.loc.d))

/-- R241: the register accesses of such a MODE_SET, as the port sees them: a read or a write and an offset each. -/
def Obligations.ModeSetAccessOrder : Prop :=
  ∀ s t, AtStart .modeSet s → Awake s → ModeValid s → s.blk.lock = .free →
    disableRuns s true (negotiateAccesses s (askedHz s)) → exec .modeSet s = .next t →
    ∃ evs, t.port = s.port ++ evs ∧ evs.filterMap access? = modeShape s

/-- R242.2: such a MODE_SET leaves both slots holding the window of the whole visible frame, `RASTER_EN` last written 1,
and `CTRL` holding the divider. -/
def Obligations.ModeSetLeavesTheRasterRunning : Prop :=
  ∀ s t, AtStart .modeSet s → Awake s → s.cfg.wellFormed = true → ModeValid s → s.blk.lock = .free →
    disableRuns s true (negotiateAccesses s (askedHz s)) → exec .modeSet s = .next t →
    let xresV := if s.argN 11 ≠ 0 then s.argN 11 else s.argN 0
    let first := BitVec.ofNat 32 s.blk.vram.base
    let last := BitVec.ofNat 32 (s.blk.vram.base + s.argN 1 * (xresV * s.argN 2 / 8) - 1)
    t.blk.rstate = .enabled ∧ t.blk.win = some ⟨first, last⟩ ∧
    t.lcdc.regs.fb0Base = some first ∧ t.lcdc.regs.fb1Base = some first ∧
    t.lcdc.regs.fb0Ceil = some last ∧ t.lcdc.regs.fb1Ceil = some last ∧
    (∃ w, t.lcdc.regs.rasterCtrl = some w ∧ ext w (s.cfg.pos s.blk.rev .rasterEn) = 1) ∧
    ∃ w, t.lcdc.regs.ctrl = some w ∧
      ext w (s.cfg.pos s.blk.rev .clkdiv) = (computeDivider (10 ^ 12 / s.argN 4) (firstRate s)).1 ∧
      ext w (s.cfg.pos s.blk.rev .rasterMode) = 1

/-! ## Slots -/

/-- R200, R201, R99: SET_WINDOW. A window that fails any of the four items of R201 changes nothing; one that meets them all
is recorded and written into both slots, then dual-buffer mode and the frame interrupts are enabled. -/
def Obligations.SetWindowResult : Prop :=
  ∀ s, AtStart .setWindow s → Awake s →
    let valid := s.blk.haveMode = true ∧ s.argN 1 > s.argN 0 ∧
      s.argN 1 - s.argN 0 + 1 = s.blk.geo.yres * s.blk.geo.lineLen ∧
      (s.blk.vram.base ≤ s.argN 0 ∧ s.argN 1 ≤ s.blk.vram.base + s.blk.vram.size - 1)
    (¬valid → exec .setWindow s = .next (s.finish .invalidGeometry)) ∧
    (valid → s.blk.lock = .free →
      ∃ t, exec .setWindow s = .next t ∧
        Ended s t { s.blk with win := some ⟨s.arg 0, s.arg 1⟩ } .ok
          ([.write .fb0Base (s.arg 0), .write .fb0Ceil (s.arg 1), .write .fb1Base (s.arg 0), .write .fb1Ceil (s.arg 1),
            .rmw .dmaCtrl [(.dualFb, 1), (.v1EofIntEn, 1)]] ++
            if s.blk.rev = .v2 then
              [.write .intEnSet
                (ins 0#32 (s.cfg.pos .v2 .eof0) 1 ||| ins 0#32 (s.cfg.pos .v2 .eof1) 1
                  ||| ins 0#32 (s.cfg.pos .v2 .frameDone) 1 ||| ins 0#32 (s.cfg.pos .v2 .syncLost) 1)]
             else []))

/-- R207.1: after SET_WINDOW a read of either slot's pair returns the window. It rests on the model's choice that the LCDC
drives no bit of a slot register (log 9). -/
def Obligations.SetWindowReadsBack : Prop :=
  ∀ s t, AtStart .setWindow s → Awake s → s.cfg.wellFormed = true → s.blk.haveMode = true → s.argN 1 > s.argN 0 →
    s.argN 1 - s.argN 0 + 1 = s.blk.geo.yres * s.blk.geo.lineLen → s.blk.vram.base ≤ s.argN 0 →
    s.argN 1 ≤ s.blk.vram.base + s.blk.vram.size - 1 → s.blk.lock = .free → exec .setWindow s = .next t →
    t.readVal .fb0Base = s.arg 0 ∧ t.readVal .fb0Ceil = s.arg 1 ∧ t.readVal .fb1Base = s.arg 0 ∧
      t.readVal .fb1Ceil = s.arg 1

/-- R204, R205, R206, R201: PAN. An offset in range is kept and one out of range becomes `xresV - xres`, never negative; a
window that fails an item of R201 writes nothing; and a valid one is recorded, returned and written into the slots that
`lastDone` alone selects, each pair base first. -/
def Obligations.PanResult : Prop :=
  ∀ s, AtStart .pan s → Awake s →
    let g := s.blk.geo
    let x := if s.argN 0 + g.xres > g.xresV then max 0 ((g.xresV : Int) - g.xres) else (s.argN 0 : Int)
    let y := if s.argN 1 + g.yres > g.yresV then max 0 ((g.yresV : Int) - g.yres) else (s.argN 1 : Int)
    let first := s.blk.vram.base + y.toNat * g.lineLen + x.toNat * s.blk.fmt.bpp / 8
    let last := first + g.yres * g.lineLen - 1
    let valid := last > first ∧ last - first + 1 = g.yres * g.lineLen ∧
      (s.blk.vram.base ≤ first ∧ last ≤ s.blk.vram.base + s.blk.vram.size - 1)
    (s.blk.haveMode = false → exec .pan s = .next (s.finish .invalidGeometry)) ∧
    (s.blk.haveMode = true → ¬valid → ∃ t, exec .pan s = .next t ∧ Ended s t s.blk .invalidGeometry []) ∧
    (s.blk.haveMode = true → valid → s.blk.lock = .free →
      ∃ t, exec .pan s = .next t ∧
        Ended s t
          { s.blk with
            win := some ⟨BitVec.ofNat 32 first, BitVec.ofNat 32 last⟩, xoff := x.toNat, yoff := y.toNat
            res0 := BitVec.ofNat 32 first, res1 := BitVec.ofNat 32 last }
          .ok
          (match s.blk.lastDone with
           | .s0 => [.write .fb1Base (BitVec.ofNat 32 first), .write .fb1Ceil (BitVec.ofNat 32 last)]
           | .s1 => [.write .fb0Base (BitVec.ofNat 32 first), .write .fb0Ceil (BitVec.ofNat 32 last)]
           | .unknown =>
             [.write .fb0Base (BitVec.ofNat 32 first), .write .fb0Ceil (BitVec.ofNat 32 last),
              .write .fb1Base (BitVec.ofNat 32 first), .write .fb1Ceil (BitVec.ofNat 32 last)])) ∧
    (g.xres ≤ g.xresV → x.toNat + g.xres ≤ g.xresV) ∧ (g.yres ≤ g.yresV → y.toNat + g.yres ≤ g.yresV)

/-! ## Raster and power -/

/-- R220, R221, R102: ENABLE completes, with the soft reset on V2 alone, and writes `RASTER_EN` and nothing else. R227,
rows 1 and 2: wherever `SEQ` or the V2 decoder (R288, R289) runs `ENABLE_SEQ`, its first step enters `Enabling` and its last
`Enabled`, each from any state and changing nothing else. -/
def Obligations.EnableResult : Prop :=
  (∀ s, AtStart .enable s → Awake s →
    ∃ t, exec .enable s = .next t ∧
      Ended s t { s.blk with rstate := .enabled } .ok
        (if s.blk.rev = .v2 then
          [.write .clkReset (ins 0#32 (s.cfg.pos .v2 .mainReset) 1), .hold 1, .write .clkReset 0#32, .hold 1,
           .rmw .rasterCtrl [(.rasterEn, 1)]]
         else [.rmw .rasterCtrl [(.rasterEn, 1)]])) ∧
  (∀ s i k, (i, k) ∈ enableSeqs → s.seq.turn = 1 →
    (s.seq.pc = .run (some i) k → exec i s = .next (s.stepped i k { s.blk with rstate := .enabling })) ∧
    (s.seq.pc = .run (some i) (k + 7) → exec i s = .next (s.stepped i (k + 7) { s.blk with rstate := .enabled }))) ∧
  ∀ s k, s.blk.rev = .v2 →
    let bit := fun f => ext s.irqd.s (s.cfg.pos .v2 f) = 1
    let fault := bit .syncLost ∧ bit .fifoUfl
    k = 5 ∧ fault ∨ k = 19 ∧ ¬fault ∧ bit .plDone →
    (s.irqd.pc = .run .v2 k →
      irqdTurn 1 s = .next
        { s with blk := { s.blk with rstate := .enabling }, irqd := { s.irqd with pc := .run .v2 (k + 1) } }) ∧
    (s.irqd.pc = .run .v2 (k + 7) →
      irqdTurn 1 s = .next
        { s with blk := { s.blk with rstate := .enabled }, irqd := { s.irqd with pc := .run .v2 (k + 8) } })

/-- R225, R227, R262: DISABLE. Without a wait, and with a wait that times out in the first turn, it ends OK. The first turn of
a wait that stays blocked ends at the test step with the wait armed, and with the lock held at the arm. At its test step
in any later turn, a wait that finds the flag 1 ends OK without a log, one that times out is logged, and both leave a
raster state that a decoder activation has moved. The last clauses are every disable-wait: with the flag 0 and no timeout,
the command stays blocked at its test step; the arm, run on its own, clears the flag and nothing else; and rows 3 to 6 of
R227, wherever `SEQ` runs `DISABLE_SEQ`. -/
def Obligations.DisableResult : Prop :=
  (∀ s, AtStart .disable s → Awake s → disableRuns s (s.argBit 0 0) [] →
    ∃ t, exec .disable s = .next t ∧
      Ended s t (disabledBlk s (s.argBit 0 0)) .ok (disableTimedOut s (s.argBit 0 0))) ∧
  (∀ s, AtStart .disable s → Awake s → s.argBit 0 0 = true → s.blk.rev = .v2 →
    (disableBlocks s [] →
      ∃ t, exec .disable s = .next t ∧
        Stands .disable 8 s t { s.blk with rstate := .disablingWaitFrame, frameDoneFlag := false }
          [.rmw .rasterCtrl [(.rasterEn, 0)], .stayed]) ∧
    (s.blk.lock ≠ .free →
      ∃ t, exec .disable s = .next t ∧
        Stands .disable 5 s t { s.blk with rstate := .disablingWaitFrame } [.rmw .rasterCtrl [(.rasterEn, 0)]])) ∧
  (∀ s, AtLine .disable 8 fullTurn s → s.argBit 0 0 = true → s.blk.rev = .v2 → s.blk.lock = .free →
    let r := if s.blk.rstate = .disablingWaitFrame then .disabled else s.blk.rstate
    (s.blk.frameDoneFlag = true →
      ∃ t, exec .disable s = .next t ∧ Ended s t { s.blk with rstate := r } .ok [.wake .frameDone 50]) ∧
    (s.blk.frameDoneFlag = false → s.env.peek.timeout = true →
      ∃ t, exec .disable s = .next t ∧
        Ended s t { s.blk with rstate := r, out := s.blk.out ++ [.logDisableTimeout] } .ok [.expire .frameDone 50])) ∧
  (∀ s i k w, (i, k, w) ∈ [(Instr.disable, 8, s.argBit 0 0), (.suspend, 8, true), (.detach, 7, !s.blk.suspended),
      (.modeSet, 24, true)] →
    waits s w = true → AtLine i k 1 s → s.blk.lock = .free → s.blk.frameDoneFlag = false → s.env.peek.timeout = false →
    exec i s = .next s.dropDraw) ∧
  ∀ s i k w, (i, k, w) ∈ disableSeqs s → skipsDisable i s = false →
    (waits s w = true →
      (s.seq.pc = .run (some i) (k + 2) → s.seq.turn = 1 →
        exec i s = .next (s.stepped i (k + 2) { s.blk with rstate := .disablingWaitFrame })) ∧
      (s.seq.pc = .run (some i) (k + 3) → s.seq.turn = 3 → s.blk.lock = .free →
        exec i s = .next (s.stepped i (k + 5) { s.blk with frameDoneFlag := false })) ∧
      (s.seq.pc = .run (some i) (k + 8) → s.seq.turn = 1 →
        exec i s = .next
          (s.stepped i (k + 8)
            { s.blk with
              rstate := if s.blk.rstate = .disablingWaitFrame then .disabled else s.blk.rstate }))) ∧
    (waits s w = false → s.seq.pc = .run (some i) (k + 9) → s.seq.turn = 1 →
      exec i s = .next (s.stepped i (k + 9) { s.blk with rstate := .disabled }))

/-- R245: SUSPEND does nothing when suspended; else it disables with wait and drops both power outputs. The last clause is
the wait at its test step in any later turn, woken by a frame-done or timed out. Before it, the first turn of a wait that
stays blocked ends at the test step, and with the lock held at the arm. -/
def Obligations.SuspendResult : Prop :=
  (∀ s, AtStart .suspend s → s.blk.attached = true →
    (s.blk.suspended = true → exec .suspend s = .next (s.finish .ok)) ∧
    (s.blk.suspended = false → disableRuns s true [] →
      ∃ t, exec .suspend s = .next t ∧
        Ended s t { disabledBlk s true with panelPower := false, clkRun := false, suspended := true } .ok
          (disableTimedOut s true)) ∧
    (s.blk.suspended = false → s.blk.rev = .v2 →
      (disableBlocks s [] →
        ∃ t, exec .suspend s = .next t ∧
          Stands .suspend 8 s t { s.blk with rstate := .disablingWaitFrame, frameDoneFlag := false }
            [.rmw .rasterCtrl [(.rasterEn, 0)], .stayed]) ∧
      (s.blk.lock ≠ .free →
        ∃ t, exec .suspend s = .next t ∧
          Stands .suspend 5 s t { s.blk with rstate := .disablingWaitFrame } [.rmw .rasterCtrl [(.rasterEn, 0)]]))) ∧
  ∀ s, AtLine .suspend 8 fullTurn s → s.blk.rev = .v2 → s.blk.lock = .free → testReturns s →
    ∃ t, exec .suspend s = .next t ∧
      Ended s t { testedBlk s with panelPower := false, clkRun := false, suspended := true } .ok (testAccesses s)

/-- R246: RESUME does nothing when not suspended; else it raises both power outputs and enables the raster. -/
def Obligations.ResumeResult : Prop :=
  ∀ s, AtStart .resume s → s.blk.attached = true →
    (s.blk.suspended = false → exec .resume s = .next (s.finish .ok)) ∧
    (s.blk.suspended = true →
      ∃ t, exec .resume s = .next t ∧
        Ended s t { s.blk with clkRun := true, panelPower := true, suspended := false, rstate := .enabled } .ok
          (enableAccesses s))

/-- R247: SUSPEND then RESUME, from an attached and awake state, raises both power outputs, is not suspended and leaves
`RASTER_EN` last written 1; a second SUSPEND and a second RESUME make no access and change the block only by accepting
and ending the command. -/
def Obligations.PowerIsSymmetricAndIdempotent : Prop :=
  ∀ s args, s.cfg.wellFormed = true → Awake s → disableRuns s true [] →
    ∃ t1 t2 t3 t4, exec .suspend (s.issued .suspend args) = .next t1 ∧
      exec .suspend (t1.issued .suspend args) = .next t2 ∧ exec .resume (t2.issued .resume args) = .next t3 ∧
      exec .resume (t3.issued .resume args) = .next t4 ∧
      Ended (t1.issued .suspend args) t2 (t1.issued .suspend args).blk .ok [] ∧
      Ended (t3.issued .resume args) t4 (t3.issued .resume args).blk .ok [] ∧
      t3.blk.panelPower = true ∧ t3.blk.clkRun = true ∧ t3.blk.suspended = false ∧
      ∃ w, t3.lcdc.regs.rasterCtrl = some w ∧ ext w (s.cfg.pos s.blk.rev .rasterEn) = 1

/-! ## Waits and callback -/

/-- R260, R261, R262, R263: a wait arms its flag under the lock; with the flag 0 it ends with `Timeout` when the bound
expires and else stays blocked at its test step, in the first turn and in any later one; with the flag 1 it wakes and ends
OK; while the lock is held it waits. -/
def Obligations.WaitsAreArmedAndSingleShot : Prop :=
  ∀ s i e dflt, (i, e, dflt) = (Instr.waitVsync, WaitEvent.vsync, 200) ∨
      (i, e, dflt) = (Instr.waitPalette, WaitEvent.palDone, s.cfg.paletteTimeoutMs) →
    (AtStart i s → s.blk.attached = true → s.blk.lock = .free → s.env.peek.timeout = true →
      ∃ t, exec i s = .next t ∧
        Ended s t (s.blk.setFlag e false) .timeout [.expire e (if s.argN 0 = 0 then dflt else s.argN 0)]) ∧
    (AtStart i s → s.blk.attached = true → s.blk.lock = .free → s.env.peek.timeout = false →
      ∃ t, exec i s = .next t ∧ t.seq.pc = .run (some i) 5 ∧ t.blk = s.blk.setFlag e false ∧ t.lcdc = s.lcdc ∧
        t.port = s.port ∧ t.env = s.env.drop ∧ t.irqd = s.irqd ∧ t.cfg = s.cfg ∧ t.busData = s.busData ∧
        t.seq.loc.bound = if s.argN 0 = 0 then dflt else s.argN 0) ∧
    (AtLine i 5 fullTurn s → s.blk.lock = .free → s.blk.flag e = true →
      ∃ t, exec i s = .next t ∧ Ended s t s.blk .ok [.wake e s.seq.loc.bound]) ∧
    (AtLine i 5 fullTurn s → s.blk.lock = .free → s.blk.flag e = false →
      (s.env.peek.timeout = true → ∃ t, exec i s = .next t ∧ Ended s t s.blk .timeout [.expire e s.seq.loc.bound]) ∧
      (s.env.peek.timeout = false → exec i s = .next s.dropDraw)) ∧
    (AtLine i 5 fullTurn s → s.blk.lock ≠ .free → exec i s = .next s)

/-- R265, R266: the callback slot. -/
def Obligations.CallbackSlotResult : Prop :=
  (∀ s, AtStart .registerCb s → s.blk.lock = .free →
    ∃ t, exec .registerCb s = .next t ∧
      if s.blk.cb = none then Ended s t { s.blk with cb := some (s.arg 0, s.arg 1) } .ok []
      else Ended s t s.blk .alreadyRegistered []) ∧
  ∀ s, AtStart .unregisterCb s → s.blk.lock = .free →
    ∃ t, exec .unregisterCb s = .next t ∧
      if s.blk.cb = some (s.arg 0, s.arg 1) then Ended s t { s.blk with cb := none } .ok [] else Ended s t s.blk .notFound []

/-- R268: the callback properties, over commands issued one after the other. `p` and `q` are argument registers whose
first two words are the pairs. A second registration is rejected whatever the slot held before the first. -/
def Obligations.CallbackProperties : Prop :=
  ∀ (s : State) (p q : Vector Word 16), s.blk.lock = .free →
    (∃ t1 t2, exec .registerCb (s.issued .registerCb p) = .next t1 ∧
      exec .registerCb (t1.issued .registerCb q) = .next t2 ∧ t2.blk.err = Code.num .alreadyRegistered ∧
      t2.blk.cb = t1.blk.cb ∧ (s.blk.cb = none → t1.blk.err = 0#4 ∧ t1.blk.cb = some (p[0], p[1]))) ∧
    (s.blk.cb = none →
      ∃ t1 t2 t3, exec .registerCb (s.issued .registerCb p) = .next t1 ∧ t1.blk.err = 0#4 ∧
        exec .unregisterCb (t1.issued .unregisterCb p) = .next t2 ∧ t2.blk.err = 0#4 ∧
        exec .registerCb (t2.issued .registerCb q) = .next t3 ∧ t3.blk.err = 0#4 ∧ t3.blk.cb = some (q[0], q[1])) ∧
    (s.blk.cb = none →
      ∃ t1, exec .unregisterCb (s.issued .unregisterCb p) = .next t1 ∧ t1.blk.err = Code.num .notFound)

/-- R42, R70, R262, R316: at each `Acquire(L)`, and at each test step of a `Block`, the sequencer takes no step while the
lock is held. The second list is the arm and the test step inside `DISABLE_SEQ`, at which the sequencer stands only if the
sequence waits (R225). -/
def Obligations.SectionsWaitForTheLock : Prop :=
  (∀ s i k n, (i, k) ∈ [(Instr.registerCb, 0), (.unregisterCb, 0), (.waitVsync, 2), (.waitVsync, 5), (.waitPalette, 2),
      (.waitPalette, 5), (.setWindow, 3), (.pan, 5), (.modeSet, 53)] →
    AtLine i k n s → s.blk.lock ≠ .free → exec i s = .next s) ∧
  ∀ s i k n w, (i, k, w) ∈ [(Instr.disable, 5, s.argBit 0 0), (.disable, 8, s.argBit 0 0), (.suspend, 5, true),
      (.suspend, 8, true), (.detach, 4, !s.blk.suspended), (.detach, 7, !s.blk.suspended), (.modeSet, 21, true),
      (.modeSet, 24, true)] →
    waits s w = true → AtLine i k n s → s.blk.lock ≠ .free → exec i s = .next s

/-! ## The interrupt decoder -/

/-- R280, R281: an activation starts exactly when all five conditions hold; its entry takes `irqActive` and the lock in one
step, changes nothing else, and goes to the body of the revision; the lock and `irqActive` stay until the exit. R20, R316:
when the decoder moves, the step of the machine is such a turn, at the state with the move used up; the other statements
about `irqdTurn` reach a run through that. -/
def Obligations.ActivationEntry : Prop :=
  (∀ s n, s.irqd.pc = .idle →
    ¬(s.blk.attached = true ∧ s.blk.suspended = false ∧ s.lcdc.irq = true ∧ s.blk.irqActive = false ∧ s.blk.lock = .free) →
    irqdTurn n s = .next s) ∧
  (∀ s, s.irqd.pc = .idle → s.blk.attached = true → s.blk.suspended = false → s.lcdc.irq = true →
    s.blk.irqActive = false → s.blk.lock = .free →
    irqdTurn 1 s = .next
      { s with
        blk := { s.blk with irqActive := true, lock := .irqd }
        irqd := { s.irqd with pc := .run s.blk.rev 0 } }) ∧
  (∀ s n t, s.irqd.pc ≠ .idle → s.blk.irqActive = true → s.blk.lock = .irqd → irqdTurn n s = .next t →
    t.irqd.pc ≠ .idle → t.blk.irqActive = true ∧ t.blk.lock = .irqd) ∧
  ∀ s n, s.cfg.wellFormed = true → s.env.peekMove = .irqd n → step s = irqdTurn n { s with env := s.env.dropMove }

/-- R282, R283, R284, R285, R286: a whole V1 activation in each of its two cases. -/
def Obligations.V1Activation : Prop :=
  ∀ s, mayActivate s = true → s.irqd.pc = .idle → s.blk.rev = .v1 →
    (nextBit s .syncLost = true ∧ nextBit s .fifoUfl = true →
      ∃ t, irqdTurn fullTurn s = .next t ∧
        Served s t { s.blk with rstate := .disabled, palDoneFlag := true }
          [.read .stat, .rmw .rasterCtrl [(.rasterEn, 0)], .write .stat (nextStatus s), .rmw .rasterCtrl [(.v1PlIntEn, 0)]]) ∧
    (¬(nextBit s .syncLost = true ∧ nextBit s .fifoUfl = true) →
      ∃ t, irqdTurn fullTurn s = .next t ∧
        Served s t
          { s.blk with
            lastDone := lastDoneAfter (nextBit s .eof0) (nextBit s .eof1) s.blk.lastDone
            vsyncFlag := s.blk.vsyncFlag || nextBit s .eof0 || nextBit s .eof1 }
          ([.read .stat, .write .stat (nextStatus s)] ++ frameAccesses s))

/-- R287, R288: a whole V2 activation in case 1, sync lost with underflow: automatic recovery, no flag written. -/
def Obligations.V2FaultRecovery : Prop :=
  ∀ s, mayActivate s = true → s.irqd.pc = .idle → s.blk.rev = .v2 →
    nextBit s .syncLost = true → nextBit s .fifoUfl = true →
    ∃ t, irqdTurn fullTurn s = .next t ∧
      Served s t { s.blk with rstate := .enabled }
        [.read .maskedStat, .rmw .rasterCtrl [(.rasterEn, 0)], .write .maskedStat (nextStatus s),
         .write .clkReset (ins 0#32 (s.cfg.pos .v2 .mainReset) 1), .hold 1, .write .clkReset 0#32, .hold 1,
         .rmw .rasterCtrl [(.rasterEn, 1)], .write .eoi 0#32]

/-- R287, R289: a whole V2 activation in case 2, palette load done. -/
def Obligations.V2PaletteDone : Prop :=
  ∀ s, mayActivate s = true → s.irqd.pc = .idle → s.blk.rev = .v2 →
    ¬(nextBit s .syncLost = true ∧ nextBit s .fifoUfl = true) → nextBit s .plDone = true →
    ∃ t, irqdTurn fullTurn s = .next t ∧
      Served s t { s.blk with rstate := .enabled, palDoneFlag := true }
        [.read .maskedStat, .rmw .rasterCtrl [(.rasterEn, 0)], .write .maskedStat (nextStatus s),
         .write .intEnClr (ins 0#32 (s.cfg.pos .v2 .plDone) 1),
         .write .clkReset (ins 0#32 (s.cfg.pos .v2 .mainReset) 1), .hold 1,
         .write .clkReset 0#32, .hold 1, .rmw .rasterCtrl [(.rasterEn, 1)], .write .eoi 0#32]

/-- R287, R290, R285, R267: a whole V2 activation in case 3: relatch, callback once per EOF bit, frame-done. -/
def Obligations.V2FrameCompletion : Prop :=
  ∀ s, mayActivate s = true → s.irqd.pc = .idle → s.blk.rev = .v2 →
    ¬(nextBit s .syncLost = true ∧ nextBit s .fifoUfl = true) → nextBit s .plDone = false →
    ∃ t, irqdTurn fullTurn s = .next t ∧
      Served s t
        { s.blk with
          lastDone := lastDoneAfter (nextBit s .eof0) (nextBit s .eof1) s.blk.lastDone
          vsyncFlag := s.blk.vsyncFlag || nextBit s .eof0 || nextBit s .eof1
          frameDoneFlag := s.blk.frameDoneFlag || nextBit s .frameDone
          out := s.blk.out ++ (if nextBit s .eof0 then callbackEvents s.blk else [])
            ++ (if nextBit s .eof1 then callbackEvents s.blk else []) }
        ([.read .maskedStat, .write .maskedStat (nextStatus s)] ++ frameAccesses s ++ [.write .eoi 0#32])

/-- R291: every V2 activation, whichever case runs, writes 0 to `EOI` as its last register access. -/
def Obligations.V2EndsWithEoi : Prop :=
  ∀ s, mayActivate s = true → s.irqd.pc = .idle → s.blk.rev = .v2 →
    ∃ t evs, irqdTurn fullTurn s = .next t ∧ t.irqd.pc = .idle ∧
      t.port = s.port ++ evs ++ [.write .irqd (s.off .eoi) 0#32]

/-- R292: from any point of an activation, a turn that is long enough reaches its exit: no line of a body can block. A
turn of any length ends either inside the activation, with the lock and `irqActive` still taken, or after the exit,
with both free; then a new activation may start at once if the line is still asserted. -/
def Obligations.EveryActivationReachesItsExit : Prop :=
  (∀ s r k, s.irqd.pc = .run r k → k < (irqBody r).length →
    ∃ t, irqdTurn fullTurn s = .next t ∧ t.irqd.pc = .idle ∧ t.blk.lock = .free ∧ t.blk.irqActive = false) ∧
  ∀ n s t, s.irqd.pc ≠ .idle → s.blk.irqActive = true → s.blk.lock = .irqd → irqdTurn n s = .next t →
    (t.irqd.pc ≠ .idle ∧ t.blk.irqActive = true ∧ t.blk.lock = .irqd) ∨
    (t.irqd.pc = .idle ∧ t.blk.irqActive = false ∧ t.blk.lock = .free ∧
      (t.blk.attached = true → t.blk.suspended = false → t.lcdc.irq = true → mayActivate t = true))

/-- R295, R312, R317, R361.7, R31: what no turn of the decoder changes, of whatever length and from whatever point. It
raises flags and never clears one, and it adds to the output only callback events. R227, R283, R288, R289: one of its steps
moves the raster state only at the `DISABLE_SEQ` and `ENABLE_SEQ` steps of the cases, and only as the table says. -/
def Obligations.DecoderTouchesOnlyItsOwn : Prop :=
  (∀ s t, irqdTurn 1 s = .next t → t.blk.rstate ≠ s.blk.rstate →
    (s.irqd.pc, t.blk.rstate) ∈ [(.run .v1 3, .disabled), (.run .v2 3, .disabled), (.run .v2 5, .enabling),
      (.run .v2 12, .enabled), (.run .v2 15, .disabled), (.run .v2 19, .enabling), (.run .v2 26, .enabled)]) ∧
  ∀ n s t, irqdTurn n s = .next t →
    t.seq = s.seq ∧ t.cfg = s.cfg ∧ t.busData = s.busData ∧
    t.blk.err = s.blk.err ∧ t.blk.busy = s.blk.busy ∧ t.blk.res0 = s.blk.res0 ∧ t.blk.res1 = s.blk.res1 ∧
    t.blk.cmdword = s.blk.cmdword ∧ t.blk.argreg = s.blk.argreg ∧ t.blk.arg = s.blk.arg ∧
    t.blk.attached = s.blk.attached ∧ t.blk.rev = s.blk.rev ∧ t.blk.fmt = s.blk.fmt ∧ t.blk.geo = s.blk.geo ∧
    t.blk.haveMode = s.blk.haveMode ∧ t.blk.vram = s.blk.vram ∧ t.blk.cb = s.blk.cb ∧ t.blk.divider = s.blk.divider ∧
    t.blk.srcRate = s.blk.srcRate ∧ t.blk.palCount = s.blk.palCount ∧ t.blk.panelPower = s.blk.panelPower ∧
    t.blk.clkRun = s.blk.clkRun ∧ t.blk.suspended = s.blk.suspended ∧ t.blk.win = s.blk.win ∧
    t.blk.xoff = s.blk.xoff ∧ t.blk.yoff = s.blk.yoff ∧
    (∀ e, s.blk.flag e = true → t.blk.flag e = true) ∧
    (∃ evs, t.blk.out = s.blk.out ++ evs ∧ ∀ ev ∈ evs, ∃ fn ctx, ev = .vsyncCallback fn ctx) ∧
    t.lcdc.regs.ctrl = s.lcdc.regs.ctrl ∧ t.lcdc.regs.timing0 = s.lcdc.regs.timing0 ∧
    t.lcdc.regs.timing1 = s.lcdc.regs.timing1 ∧ t.lcdc.regs.timing2 = s.lcdc.regs.timing2 ∧
    t.lcdc.regs.dmaCtrl = s.lcdc.regs.dmaCtrl ∧ t.lcdc.regs.intEnSet = s.lcdc.regs.intEnSet ∧
    t.lcdc.regs.clkEn = s.lcdc.regs.clkEn ∧ t.lcdc.irq = s.lcdc.irq

/-! ## Whole-machine rules -/

/-- R27 to R41: each record has its writers. Whatever part of a command a turn of the sequencer runs, a record changes
only under the commands that the rules name for it; the latch, the argument registers, the command word, the decoder
and the parameters never; a flag is only cleared, and only by the commands whose arm R225, R260 and R261 name, or by
ATTACH (R143); and the output only grows. R227: one step of a command moves the raster state only where the table has a row
for it, and only as the row says; that ATTACH sets it too is R143. -/
def Obligations.EachRecordHasItsWriters : Prop :=
  ∀ i s t, exec i s = .next t →
    (t.blk.attached ≠ s.blk.attached → i = .attach ∨ i = .detach) ∧
    (t.blk.rev ≠ s.blk.rev → i = .attach) ∧
    (t.blk.vram ≠ s.blk.vram → i = .attach) ∧
    (t.blk.lastDone ≠ s.blk.lastDone → i = .attach) ∧
    (t.blk.fmt ≠ s.blk.fmt → i = .modeSet) ∧
    (t.blk.geo ≠ s.blk.geo → i = .modeSet) ∧
    (t.blk.haveMode ≠ s.blk.haveMode → i = .modeSet ∨ i = .attach) ∧
    (t.blk.divider ≠ s.blk.divider ∨ t.blk.srcRate ≠ s.blk.srcRate → i = .setClock ∨ i = .modeSet) ∧
    (t.blk.palCount ≠ s.blk.palCount → i = .programFrameGeometry ∨ i = .modeSet) ∧
    (t.blk.cb ≠ s.blk.cb → i = .registerCb ∨ i = .unregisterCb) ∧
    (t.blk.panelPower ≠ s.blk.panelPower ∨ t.blk.clkRun ≠ s.blk.clkRun ∨ t.blk.suspended ≠ s.blk.suspended →
      i = .attach ∨ i = .detach ∨ i = .suspend ∨ i = .resume) ∧
    (t.blk.win ≠ s.blk.win → i = .setWindow ∨ i = .pan ∨ i = .modeSet ∨ i = .attach) ∧
    (t.blk.xoff ≠ s.blk.xoff ∨ t.blk.yoff ≠ s.blk.yoff → i = .pan ∨ i = .modeSet ∨ i = .attach) ∧
    (t.blk.rstate ≠ s.blk.rstate →
      i = .enable ∨ i = .disable ∨ i = .modeSet ∨ i = .suspend ∨ i = .resume ∨ i = .attach ∨ i = .detach) ∧
    (t.blk.rstate ≠ s.blk.rstate → s.seq.turn = 1 →
      i = .attach ∨ ∃ c k, s.seq.pc = .run c k ∧
        ((∃ a, (i, a) ∈ enableSeqs ∧
            (k = a ∧ t.blk.rstate = .enabling ∨ k = a + 7 ∧ t.blk.rstate = .enabled)) ∨
          ∃ a w, (i, a, w) ∈ disableSeqs s ∧ skipsDisable i s = false ∧
            (k = a + 2 ∧ waits s w = true ∧ t.blk.rstate = .disablingWaitFrame ∨
              k = a + 8 ∧ waits s w = true ∧ s.blk.rstate = .disablingWaitFrame ∧ t.blk.rstate = .disabled ∨
              k = a + 9 ∧ waits s w = false ∧ t.blk.rstate = .disabled))) ∧
    t.blk.argreg = s.blk.argreg ∧ t.blk.arg = s.blk.arg ∧ t.blk.cmdword = s.blk.cmdword ∧
    t.blk.irqActive = s.blk.irqActive ∧ t.irqd = s.irqd ∧ t.cfg = s.cfg ∧ t.lcdc.irq = s.lcdc.irq ∧
    (∀ e, t.blk.flag e = true → s.blk.flag e = true) ∧
    (t.blk.vsyncFlag ≠ s.blk.vsyncFlag → i = .waitVsync ∨ i = .attach) ∧
    (t.blk.palDoneFlag ≠ s.blk.palDoneFlag → i = .waitPalette ∨ i = .attach) ∧
    (t.blk.frameDoneFlag ≠ s.blk.frameDoneFlag →
      (i = .disable ∧ s.argBit 0 0 = true ∨ i = .suspend ∨ i = .detach ∨ i = .modeSet) ∧ s.blk.rev = .v2 ∨ i = .attach) ∧
    (∃ evs, t.blk.out = s.blk.out ++ evs) ∧ ∃ evs, t.port = s.port ++ evs

/-- R361.1: the lost update. The write half of PROGRAM_DISPLAY_MODE's `RASTER_CTRL` update depends on the word that its read
half got alone, whatever the register holds by then; so a raster enable that a decoder activation wrote in between is
lost. -/
def Obligations.RasterCtrlUpdateCanBeLost : Prop :=
  ∀ s, AtLine .programDisplayMode 4 1 s → s.seq.turn = 1 → s.cfg.wellFormed = true →
    ∃ t w, exec .programDisplayMode s = .next t ∧ t.lcdc.regs.rasterCtrl = some w ∧ t.blk = s.blk ∧
      w = insFields s.cfg s.blk.rev s.seq.loc.t (displayFields s.blk.rev (displayModeOfWords (s.arg 0) (s.arg 1))) ∧
      ext w (s.cfg.pos s.blk.rev .rasterEn) = ext s.seq.loc.t (s.cfg.pos s.blk.rev .rasterEn)

/-- R365: in a quiescent state no block state changes until a host access, an assertion of the line, or a reset. The
premise `LockInv` rules out states in which `BUSY` is low while a command runs. -/
def Obligations.QuiescentStatesStay : Prop :=
  ∀ s, s.cfg.wellFormed = true → LockInv s → Quiescent s →
    (∃ n, s.env.peekMove = .seq n) ∨ (∃ n, s.env.peekMove = .irqd n) ∨ s.env.peekMove = .line false →
    ∃ t, step s = .next t ∧ t.blk = s.blk ∧ t.lcdc = s.lcdc ∧ t.port = s.port ∧ t.irqd = s.irqd ∧ t.seq.pc = s.seq.pc

/-- R365: every command ends, and so does every activation. First for one turn: with the decoder idle and every listed
answer letting a wait time out, a turn that is long enough takes a command from any of its lines to its end. Then for whole
runs: in a run whose moves are weakly fair, whatever the other agents do, the sequencer and the decoder become idle again
and again. That a `Block` with its flag 1 returns, though its test step waits for the lock, is the model's reading of R365
(log 18). The premise `LockInv` is the invariant of `LockDisciplineIsKept`; it rules out states in which `BUSY` is low while
a command runs. -/
def Obligations.EveryCommandEnds : Prop :=
  (∀ i k s, s.seq.pc = .run (some i) k → k < (linesOf (some i)).length → fullTurn ≤ s.seq.turn → LockInv s →
    s.blk.lock ≠ .irqd → fullTurn ≤ s.env.draws.length → (∀ d ∈ s.env.draws, d.timeout = true) →
    ∃ t c, exec i s = .next t ∧ t.seq.pc = .idle ∧ t.blk.busy = false ∧ t.blk.err = Code.num c ∧
      ∃ evs, t.blk.out = s.blk.out ++ evs ++ [.done (BitVec.ofNat 8 s.blk.cmdword.toNat) (Code.num c)]) ∧
  ∀ (r : Nat → State) (mv : Nat → Move), Run r mv → WeaklyFair r mv → (∀ n, LockInv (r n)) →
    ∀ n, (∃ m, n ≤ m ∧ (r m).seq.pc = .idle ∧ (r m).blk.busy = false) ∧
      ∃ m, n ≤ m ∧ (r m).irqd.pc = .idle ∧ (r m).blk.irqActive = false

/-- R26, R292: every step keeps both step pointers on a line, and with them there no step faults. -/
def Obligations.StepPointersStayInRange : Prop :=
  (∀ s t, PcInv s → step s = .next t → PcInv t) ∧ ∀ s f, PcInv s → step s ≠ .fault f

/-- R42, R70, R280, R292, R313: every step keeps the lock discipline. -/
def Obligations.LockDisciplineIsKept : Prop :=
  ∀ s t, LockInv s → step s = .next t → LockInv t

/-- R41, R200, R205, R240: every step keeps the DMA window of an attached block inside its vram region. -/
def Obligations.WindowStaysInVram : Prop :=
  ∀ s t, WindowInv s → step s = .next t → WindowInv t

/-- The three invariants hold at reset, and the parameters of reset are well formed. The parameters are the model's choice
(log 1, PRESUMED: the default table), and so are the vram record and the locals that the invariant of the window speaks of
(log 12, log 13). -/
def Obligations.InvariantsHoldAtReset : Prop :=
  PcInv State.reset ∧ LockInv State.reset ∧ WindowInv State.reset ∧ capsOk State.reset.cfg = true
end

