-- ==== Sys2Proof/Laws/State.lean ====
section
/-! SUPPORT. One lemma per field of the state for each named update, true by rfl, so that no proof unfolds a record
update; and what the values read from a state depend on. -/

namespace Sys2Proof.Machine

/-! ### onBlk -/

@[simp] theorem onBlk_cfg (s : State) (f : Blk → Blk) : (s.onBlk f).cfg = s.cfg := rfl
@[simp] theorem onBlk_blk (s : State) (f : Blk → Blk) : (s.onBlk f).blk = f s.blk := rfl
@[simp] theorem onBlk_seq (s : State) (f : Blk → Blk) : (s.onBlk f).seq = s.seq := rfl
@[simp] theorem onBlk_irqd (s : State) (f : Blk → Blk) : (s.onBlk f).irqd = s.irqd := rfl
@[simp] theorem onBlk_lcdc (s : State) (f : Blk → Blk) : (s.onBlk f).lcdc = s.lcdc := rfl
@[simp] theorem onBlk_env (s : State) (f : Blk → Blk) : (s.onBlk f).env = s.env := rfl
@[simp] theorem onBlk_port (s : State) (f : Blk → Blk) : (s.onBlk f).port = s.port := rfl
@[simp] theorem onBlk_busData (s : State) (f : Blk → Blk) : (s.onBlk f).busData = s.busData := rfl

/-! ### onLoc -/

@[simp] theorem onLoc_cfg (s : State) (f : Locals → Locals) : (s.onLoc f).cfg = s.cfg := rfl
@[simp] theorem onLoc_blk (s : State) (f : Locals → Locals) : (s.onLoc f).blk = s.blk := rfl
@[simp] theorem onLoc_seq (s : State) (f : Locals → Locals) : (s.onLoc f).seq = { s.seq with loc := f s.seq.loc } := rfl
@[simp] theorem onLoc_irqd (s : State) (f : Locals → Locals) : (s.onLoc f).irqd = s.irqd := rfl
@[simp] theorem onLoc_lcdc (s : State) (f : Locals → Locals) : (s.onLoc f).lcdc = s.lcdc := rfl
@[simp] theorem onLoc_env (s : State) (f : Locals → Locals) : (s.onLoc f).env = s.env := rfl
@[simp] theorem onLoc_port (s : State) (f : Locals → Locals) : (s.onLoc f).port = s.port := rfl
@[simp] theorem onLoc_busData (s : State) (f : Locals → Locals) : (s.onLoc f).busData = s.busData := rfl

/-! ### record -/

@[simp] theorem record_cfg (s : State) (e : PortEvent) : (s.record e).cfg = s.cfg := rfl
@[simp] theorem record_blk (s : State) (e : PortEvent) : (s.record e).blk = s.blk := rfl
@[simp] theorem record_seq (s : State) (e : PortEvent) : (s.record e).seq = s.seq := rfl
@[simp] theorem record_irqd (s : State) (e : PortEvent) : (s.record e).irqd = s.irqd := rfl
@[simp] theorem record_lcdc (s : State) (e : PortEvent) : (s.record e).lcdc = s.lcdc := rfl
@[simp] theorem record_env (s : State) (e : PortEvent) : (s.record e).env = s.env := rfl
@[simp] theorem record_port (s : State) (e : PortEvent) : (s.record e).port = s.port ++ [e] := rfl
@[simp] theorem record_busData (s : State) (e : PortEvent) : (s.record e).busData = s.busData := rfl

/-! ### dropDraw -/

@[simp] theorem dropDraw_cfg (s : State) : (s.dropDraw).cfg = s.cfg := rfl
@[simp] theorem dropDraw_blk (s : State) : (s.dropDraw).blk = s.blk := rfl
@[simp] theorem dropDraw_seq (s : State) : (s.dropDraw).seq = s.seq := rfl
@[simp] theorem dropDraw_irqd (s : State) : (s.dropDraw).irqd = s.irqd := rfl
@[simp] theorem dropDraw_lcdc (s : State) : (s.dropDraw).lcdc = s.lcdc := rfl
@[simp] theorem dropDraw_env (s : State) : (s.dropDraw).env = s.env.drop := rfl
@[simp] theorem dropDraw_port (s : State) : (s.dropDraw).port = s.port := rfl
@[simp] theorem dropDraw_busData (s : State) : (s.dropDraw).busData = s.busData := rfl

/-! ### emit -/

@[simp] theorem emit_cfg (s : State) (e : Event) : (s.emit e).cfg = s.cfg := rfl
@[simp] theorem emit_blk (s : State) (e : Event) : (s.emit e).blk = { s.blk with out := s.blk.out ++ [e] } := rfl
@[simp] theorem emit_seq (s : State) (e : Event) : (s.emit e).seq = s.seq := rfl
@[simp] theorem emit_irqd (s : State) (e : Event) : (s.emit e).irqd = s.irqd := rfl
@[simp] theorem emit_lcdc (s : State) (e : Event) : (s.emit e).lcdc = s.lcdc := rfl
@[simp] theorem emit_env (s : State) (e : Event) : (s.emit e).env = s.env := rfl
@[simp] theorem emit_port (s : State) (e : Event) : (s.emit e).port = s.port := rfl
@[simp] theorem emit_busData (s : State) (e : Event) : (s.emit e).busData = s.busData := rfl

/-! ### setTmp_seq -/

@[simp] theorem setTmp_seq_cfg (s : State) (v : Word) : (s.setTmp .seq v).cfg = s.cfg := rfl
@[simp] theorem setTmp_seq_blk (s : State) (v : Word) : (s.setTmp .seq v).blk = s.blk := rfl
@[simp] theorem setTmp_seq_seq (s : State) (v : Word) : (s.setTmp .seq v).seq = { s.seq with loc := { s.seq.loc with t := v } } := rfl
@[simp] theorem setTmp_seq_irqd (s : State) (v : Word) : (s.setTmp .seq v).irqd = s.irqd := rfl
@[simp] theorem setTmp_seq_lcdc (s : State) (v : Word) : (s.setTmp .seq v).lcdc = s.lcdc := rfl
@[simp] theorem setTmp_seq_env (s : State) (v : Word) : (s.setTmp .seq v).env = s.env := rfl
@[simp] theorem setTmp_seq_port (s : State) (v : Word) : (s.setTmp .seq v).port = s.port := rfl
@[simp] theorem setTmp_seq_busData (s : State) (v : Word) : (s.setTmp .seq v).busData = s.busData := rfl

/-! ### setTmp_irqd -/

@[simp] theorem setTmp_irqd_cfg (s : State) (v : Word) : (s.setTmp .irqd v).cfg = s.cfg := rfl
@[simp] theorem setTmp_irqd_blk (s : State) (v : Word) : (s.setTmp .irqd v).blk = s.blk := rfl
@[simp] theorem setTmp_irqd_seq (s : State) (v : Word) : (s.setTmp .irqd v).seq = s.seq := rfl
@[simp] theorem setTmp_irqd_irqd (s : State) (v : Word) : (s.setTmp .irqd v).irqd = { s.irqd with t := v } := rfl
@[simp] theorem setTmp_irqd_lcdc (s : State) (v : Word) : (s.setTmp .irqd v).lcdc = s.lcdc := rfl
@[simp] theorem setTmp_irqd_env (s : State) (v : Word) : (s.setTmp .irqd v).env = s.env := rfl
@[simp] theorem setTmp_irqd_port (s : State) (v : Word) : (s.setTmp .irqd v).port = s.port := rfl
@[simp] theorem setTmp_irqd_busData (s : State) (v : Word) : (s.setTmp .irqd v).busData = s.busData := rfl

/-! ### afterRead -/

@[simp] theorem afterRead_cfg (s : State) (a : Agent) (g : LReg) : (s.afterRead a g).cfg = s.cfg := rfl
@[simp] theorem afterRead_blk (s : State) (a : Agent) (g : LReg) : (s.afterRead a g).blk = s.blk := rfl
@[simp] theorem afterRead_seq (s : State) (a : Agent) (g : LReg) : (s.afterRead a g).seq = s.seq := rfl
@[simp] theorem afterRead_irqd (s : State) (a : Agent) (g : LReg) : (s.afterRead a g).irqd = s.irqd := rfl
@[simp] theorem afterRead_lcdc (s : State) (a : Agent) (g : LReg) : (s.afterRead a g).lcdc = s.lcdc := rfl
@[simp] theorem afterRead_env (s : State) (a : Agent) (g : LReg) : (s.afterRead a g).env = s.env.drop := rfl
@[simp] theorem afterRead_port (s : State) (a : Agent) (g : LReg) : (s.afterRead a g).port = s.port ++ [.read a (s.off g) (s.readVal g)] := rfl
@[simp] theorem afterRead_busData (s : State) (a : Agent) (g : LReg) : (s.afterRead a g).busData = s.busData := rfl

/-! ### regWrite -/

@[simp] theorem regWrite_cfg (s : State) (a : Agent) (g : LReg) (v : Word) : (s.regWrite a g v).cfg = s.cfg := rfl
@[simp] theorem regWrite_blk (s : State) (a : Agent) (g : LReg) (v : Word) : (s.regWrite a g v).blk = s.blk := rfl
@[simp] theorem regWrite_seq (s : State) (a : Agent) (g : LReg) (v : Word) : (s.regWrite a g v).seq = s.seq := rfl
@[simp] theorem regWrite_irqd (s : State) (a : Agent) (g : LReg) (v : Word) : (s.regWrite a g v).irqd = s.irqd := rfl
@[simp] theorem regWrite_lcdc (s : State) (a : Agent) (g : LReg) (v : Word) : (s.regWrite a g v).lcdc = s.lcdc.write g v := rfl
@[simp] theorem regWrite_env (s : State) (a : Agent) (g : LReg) (v : Word) : (s.regWrite a g v).env = s.env := rfl
@[simp] theorem regWrite_port (s : State) (a : Agent) (g : LReg) (v : Word) : (s.regWrite a g v).port = s.port ++ [.write a (s.off g) v] := rfl
@[simp] theorem regWrite_busData (s : State) (a : Agent) (g : LReg) (v : Word) : (s.regWrite a g v).busData = s.busData := rfl

/-! ### finish -/

@[simp] theorem finish_cfg (s : State) (c : Code) : (s.finish c).cfg = s.cfg := rfl
@[simp] theorem finish_blk (s : State) (c : Code) : (s.finish c).blk = s.blk.finish c := rfl
@[simp] theorem finish_seq (s : State) (c : Code) : (s.finish c).seq = { s.seq with pc := .idle } := rfl
@[simp] theorem finish_irqd (s : State) (c : Code) : (s.finish c).irqd = s.irqd := rfl
@[simp] theorem finish_lcdc (s : State) (c : Code) : (s.finish c).lcdc = s.lcdc := rfl
@[simp] theorem finish_env (s : State) (c : Code) : (s.finish c).env = s.env := rfl
@[simp] theorem finish_port (s : State) (c : Code) : (s.finish c).port = s.port := rfl
@[simp] theorem finish_busData (s : State) (c : Code) : (s.finish c).busData = s.busData := rfl

/-! ### bump: the step pointer of one agent moves, nothing else -/

@[simp] theorem bump_cfg (a : Agent) (s : State) : (bump a s).cfg = s.cfg := by cases a <;> simp only [bump] <;> split <;> rfl
@[simp] theorem bump_blk (a : Agent) (s : State) : (bump a s).blk = s.blk := by cases a <;> simp only [bump] <;> split <;> rfl
@[simp] theorem bump_lcdc (a : Agent) (s : State) : (bump a s).lcdc = s.lcdc := by cases a <;> simp only [bump] <;> split <;> rfl
@[simp] theorem bump_env (a : Agent) (s : State) : (bump a s).env = s.env := by cases a <;> simp only [bump] <;> split <;> rfl
@[simp] theorem bump_port (a : Agent) (s : State) : (bump a s).port = s.port := by cases a <;> simp only [bump] <;> split <;> rfl
@[simp] theorem bump_busData (a : Agent) (s : State) : (bump a s).busData = s.busData := by
  cases a <;> simp only [bump] <;> split <;> rfl
@[simp] theorem bump_seq_irqd (s : State) : (bump .seq s).irqd = s.irqd := by simp only [bump]; split <;> rfl
@[simp] theorem bump_irqd_seq (s : State) : (bump .irqd s).seq = s.seq := by simp only [bump]; split <;> rfl
@[simp] theorem bump_seq_loc (a : Agent) (s : State) : (bump a s).seq.loc = s.seq.loc := by
  cases a <;> simp only [bump] <;> split <;> rfl
@[simp] theorem bump_seq_turn (a : Agent) (s : State) : (bump a s).seq.turn = s.seq.turn := by
  cases a <;> simp only [bump] <;> split <;> rfl
@[simp] theorem bump_irqd_s (a : Agent) (s : State) : (bump a s).irqd.s = s.irqd.s := by
  cases a <;> simp only [bump] <;> split <;> rfl
@[simp] theorem bump_irqd_t (a : Agent) (s : State) : (bump a s).irqd.t = s.irqd.t := by
  cases a <;> simp only [bump] <;> split <;> rfl
@[simp] theorem bump_irqd_w (a : Agent) (s : State) : (bump a s).irqd.w = s.irqd.w := by
  cases a <;> simp only [bump] <;> split <;> rfl
theorem bump_seq_pc {s : State} {c : Option Instr} {k : Nat} (h : s.seq.pc = .run c k) :
    (bump .seq s).seq.pc = .run c (k + 1) := by simp only [bump, h]
theorem bump_irqd_pc {s : State} {r : Rev} {k : Nat} (h : s.irqd.pc = .run r k) :
    (bump .irqd s).irqd.pc = .run r (k + 1) := by simp only [bump, h]

/-! ### what the values read from a state depend on -/

@[simp] theorem tmp_seq (s : State) : s.tmp .seq = s.seq.loc.t := rfl
@[simp] theorem tmp_irqd (s : State) : s.tmp .irqd = s.irqd.t := rfl

/-- An argument is a field of the block. -/
theorem arg_eq (s : State) (i : Fin 16) : s.arg i = s.blk.arg[i] := rfl

/-- The offset of a register depends on the parameters and the revision. -/
theorem off_eq (s : State) (g : LReg) : s.off g = s.cfg.off s.blk.rev g := rfl

/-- A read value depends on the parameters, the revision, the words written and the next answer (R45). -/
theorem readVal_eq (s : State) (g : LReg) : s.readVal g = regValue s.cfg s.blk.rev s.lcdc g s.env.peek.word := rfl

/-! ### the LCDC after a register write -/

@[simp] theorem lcdc_write_regs (l : Lcdc) (g : LReg) (v : Word) : (l.write g v).regs = l.regs.put g v := rfl
@[simp] theorem lcdc_write_intEn (l : Lcdc) (g : LReg) (v : Word) : (l.write g v).intEn = intEnAfter l.intEn g v := rfl
@[simp] theorem lcdc_write_irq (l : Lcdc) (g : LReg) (v : Word) : (l.write g v).irq = l.irq := rfl

/-- A register that holds a word: not `ID` and not a status register (R45). -/
def LReg.holdsWord : LReg → Bool
  | .id | .stat | .rawStat | .maskedStat => false
  | _ => true

/-- Reading a register after writing it (R45). -/
theorem get_put_same (f : LcdcRegs) {g : LReg} (v : Word) (h : LReg.holdsWord g = true) :
    (f.put g v).get g = some v := by cases g <;> simp_all [LReg.holdsWord, LcdcRegs.put, LcdcRegs.get]

/-- A write leaves every other register (R45). -/
theorem get_put_other (f : LcdcRegs) {g g' : LReg} (v : Word) (h : g' ≠ g) : (f.put g v).get g' = f.get g' := by
  cases g <;> cases g' <;> first | rfl | exact absurd rfl h

/-- The value read after a write of another register is the value read before it. -/
theorem regValue_write_other (p : Params) (r : Rev) (l : Lcdc) {g g' : LReg} (v w : Word) (h : g' ≠ g) :
    regValue p r (l.write g v) g' w = regValue p r l g' w := by
  unfold regValue
  simp only [lcdc_write_regs, get_put_other _ _ h]

/-! ### the block's records -/

@[simp] theorem finish_err (b : Blk) (c : Code) : (b.finish c).err = c.num := rfl
@[simp] theorem finish_busy (b : Blk) (c : Code) : (b.finish c).busy = false := rfl
@[simp] theorem finish_out (b : Blk) (c : Code) :
    (b.finish c).out = b.out ++ [.done (BitVec.ofNat 8 b.cmdword.toNat) c.num] := rfl
@[simp] theorem finish_lock (b : Blk) (c : Code) : (b.finish c).lock = b.lock := rfl
@[simp] theorem finish_rev (b : Blk) (c : Code) : (b.finish c).rev = b.rev := rfl
@[simp] theorem finish_res0_ok (b : Blk) : (b.finish .ok).res0 = b.res0 := rfl
@[simp] theorem finish_res1_ok (b : Blk) : (b.finish .ok).res1 = b.res1 := rfl
@[simp] theorem setFlag_flag (b : Blk) (e : WaitEvent) (v : Bool) : (b.setFlag e v).flag e = v := by cases e <;> rfl
@[simp] theorem setFlag_lock (b : Blk) (e : WaitEvent) (v : Bool) : (b.setFlag e v).lock = b.lock := by cases e <;> rfl
@[simp] theorem setFlag_rev (b : Blk) (e : WaitEvent) (v : Bool) : (b.setFlag e v).rev = b.rev := by cases e <;> rfl
@[simp] theorem setFlag_arg (b : Blk) (e : WaitEvent) (v : Bool) : (b.setFlag e v).arg = b.arg := by cases e <;> rfl

end Sys2Proof.Machine
end

