-- ==== Sys2Proof/Laws/Run.lean ====
section
/-! SUPPORT. What a turn of an agent can do: running lines without a step count, one lemma per kind of line, and the
preservation lemmas that every invariant proof cites. -/

namespace Sys2Proof.Machine

/-- Running all lines, as a turn that is long enough does. -/
def runAll (a : Agent) : List Act → State → State
  | [], s => s
  | x :: xs, s =>
    match x s with
    | .go s' => runAll a xs (bump a s')
    | .stay s' => s'
    | .stop s' => s'

/-- A turn at least as long as the lines runs them all. -/
theorem runActs_eq_runAll (a : Agent) (l : List Act) : ∀ (n : Nat) (s : State), l.length ≤ n → runActs a l n s = runAll a l s := by
  induction l with
  | nil => intro n s _; cases n <;> rfl
  | cons x xs ih =>
    intro n s h
    cases n with
    | zero => simp at h
    | succ n =>
      simp only [runActs, runAll]
      cases x s with
      | go s' => exact ih n _ (by simpa using h)
      | stay s' => rfl
      | stop s' => rfl

/-- A turn of no step changes nothing. -/
@[simp] theorem runActs_zero (a : Agent) (l : List Act) (s : State) : runActs a l 0 s = s := by cases l <;> rfl

@[simp] theorem runActs_nil (a : Agent) (n : Nat) (s : State) : runActs a [] n s = s := by cases n <;> rfl

/-- A turn whose first line goes on. -/
theorem runActs_go {a : Agent} {x : Act} {xs : List Act} {n : Nat} {s s' : State} (h : x s = .go s') :
    runActs a (x :: xs) (n + 1) s = runActs a xs n (bump a s') := by simp only [runActs, h]

/-- A turn whose first line is not enabled, or stays blocked. -/
theorem runActs_stay {a : Agent} {x : Act} {xs : List Act} {n : Nat} {s s' : State} (h : x s = .stay s') :
    runActs a (x :: xs) (n + 1) s = s' := by simp only [runActs, h]

/-- A turn whose first line ends the command or the activation. -/
theorem runActs_stop {a : Agent} {x : Act} {xs : List Act} {n : Nat} {s s' : State} (h : x s = .stop s') :
    runActs a (x :: xs) (n + 1) s = s' := by simp only [runActs, h]

/-! ## One lemma per kind of line -/

section
variable (a : Agent) (xs : List Act) (s : State)

@[simp] theorem runAll_nil : runAll a [] s = s := rfl
@[simp] theorem runAll_assign (f : State → State) : runAll a (assign f :: xs) s = runAll a xs (bump a (f s)) := rfl
@[simp] theorem runAll_finishWith (c : Code) : runAll a (finishWith c :: xs) s = s.finish c := rfl
@[simp] theorem runAll_readTo (b : Agent) (g : LReg) :
    runAll a (readTo b g :: xs) s = runAll a xs (bump a ((s.afterRead b g).setTmp b (s.readVal g))) := rfl
@[simp] theorem runAll_writeReg (b : Agent) (g : LReg) (v : State → Word) :
    runAll a (writeReg b g v :: xs) s = runAll a xs (bump a (s.regWrite b g (v s))) := rfl
@[simp] theorem runAll_writeEdited (b : Agent) (g : LReg) (e : State → List (Fld × Nat)) :
    runAll a (writeEdited b g e :: xs) s =
      runAll a xs (bump a (s.regWrite b g (insFields s.cfg s.blk.rev (s.tmp b) (e s)))) := rfl
@[simp] theorem runAll_release :
    runAll a (release :: xs) s = runAll a xs (bump a (s.onBlk fun b => { b with lock := .free })) := rfl
@[simp] theorem runAll_delay (b : Agent) (ms : Nat) :
    runAll a (delay b ms :: xs) s = runAll a xs (bump a (s.record (.delay b ms))) := rfl
@[simp] theorem runAll_setRState (r : RState) :
    runAll a (setRState r :: xs) s = runAll a xs (bump a (s.onBlk fun b => { b with rstate := r })) := rfl
theorem runAll_exitLine :
    runAll a (exitLine :: xs) s =
      { s.onBlk fun b => { b with irqActive := false, lock := .free } with irqd := { s.irqd with pc := .idle } } := rfl

theorem runAll_raiseIf (c : State → Bool) (e : Code) :
    runAll a (raiseIf c e :: xs) s = if c s then s.finish e else runAll a xs (bump a s) := by
  cases h : c s <;> simp [runAll, raiseIf, h]

theorem runAll_finishIf (c : State → Bool) :
    runAll a (finishIf c :: xs) s = if c s then s.finish .ok else runAll a xs (bump a s) := by
  cases h : c s <;> simp [runAll, finishIf, h]

theorem runAll_onlyIf (c : State → Bool) (x : Act) :
    runAll a (onlyIf c x :: xs) s = if c s then runAll a (x :: xs) s else runAll a xs (bump a s) := by
  cases h : c s <;> simp [runAll, onlyIf, h]

theorem runAll_acquire :
    runAll a (acquire :: xs) s =
      if s.blk.lock = .free then runAll a xs (bump a (s.onBlk fun b => { b with lock := .seq })) else s := by
  by_cases h : s.blk.lock = .free <;> simp [runAll, acquire, h]

theorem runAll_blockTest (e : WaitEvent) (bound : State → Nat) :
    runAll a (blockTest e bound :: xs) s =
      if s.blk.lock ≠ .free then s
      else if s.blk.flag e then
        runAll a xs (bump a ((s.record (.waited e (bound s) true)).onLoc fun l => { l with timedOut := false }))
      else if s.env.peek.timeout then
        runAll a xs (bump a ((s.dropDraw.record (.waited e (bound s) false)).onLoc fun l => { l with timedOut := true }))
      else s.dropDraw := by
  by_cases h : s.blk.lock = .free <;> cases hf : s.blk.flag e <;> cases ht : s.env.peek.timeout <;>
    simp [runAll, blockTest, h, hf, ht]

end

/-! ## Preservation -/

/-- The state a line leaves, whichever way it goes on; `bump` moves the step pointer after a line that goes on. -/
def after (a : Agent) : Ret → State
  | .go s => bump a s
  | .stay s => s
  | .stop s => s

/-- A property that every line keeps is kept by a turn of any length. -/
theorem runActs_keeps {a : Agent} {P : State → Prop} {l : List Act} (h : ∀ x ∈ l, ∀ s, P s → P (after a (x s))) :
    ∀ (n : Nat) (s : State), P s → P (runActs a l n s) := by
  induction l with
  | nil => intro n s hs; cases n <;> exact hs
  | cons x xs ih =>
    intro n s hs
    cases n with
    | zero => exact hs
    | succ n =>
      have hx := h x (by simp) s hs
      simp only [runActs]
      cases hr : x s with
      | go s' => rw [hr] at hx; exact ih (fun y hy => h y (by simp [hy])) n _ hx
      | stay s' => rw [hr] at hx; exact hx
      | stop s' => rw [hr] at hx; exact hx

/-- The same, for a property `P k` that speaks of the index `k` of the next line, and a property `Q` for the states in
which the turn ends at a line that stays or stops. -/
theorem runActs_keeps_indexed {a : Agent} {P : Nat → State → Prop} {Q : State → Prop} {l : List Act} {k0 : Nat}
    (hgo : ∀ k x s s', l[k]? = some x → P (k0 + k) s → x s = .go s' → P (k0 + k + 1) (bump a s'))
    (hstay : ∀ k x s s', l[k]? = some x → P (k0 + k) s → x s = .stay s' → Q s')
    (hstop : ∀ k x s s', l[k]? = some x → P (k0 + k) s → x s = .stop s' → Q s')
    (hrest : ∀ k s, P k s → Q s) : ∀ (n : Nat) (s : State), P k0 s → Q (runActs a l n s) := by
  induction l generalizing k0 with
  | nil => intro n s hs; cases n <;> exact hrest _ _ hs
  | cons x xs ih =>
    intro n s hs
    cases n with
    | zero => exact hrest _ _ hs
    | succ n =>
      simp only [runActs]
      cases hr : x s with
      | go s' =>
        refine ih (k0 := k0 + 1) ?_ ?_ ?_ n _ (hgo 0 x s s' rfl hs hr)
        · intro k y t t' hk hp ht
          have h := hgo (k + 1) y t t' (by simpa using hk) (by rwa [show k0 + (k + 1) = k0 + 1 + k by omega]) ht
          rwa [show k0 + (k + 1) + 1 = k0 + 1 + k + 1 by omega] at h
        · intro k y t t' hk hp ht
          exact hstay (k + 1) y t t' (by simpa using hk) (by rwa [show k0 + (k + 1) = k0 + 1 + k by omega]) ht
        · intro k y t t' hk hp ht
          exact hstop (k + 1) y t t' (by simpa using hk) (by rwa [show k0 + (k + 1) = k0 + 1 + k by omega]) ht
      | stay s' => exact hstay 0 x s s' rfl hs hr
      | stop s' => exact hstop 0 x s s' rfl hs hr

/-! ## Turns of the two agents -/

/-- What a turn of a command can answer: nothing at idle, the lines run from the step pointer, or the fault of a pointer
past the last line. -/
theorem seqTurn_cases (lines : List Act) (s : State) :
    (s.seq.pc = .idle ∧ seqTurn lines s = .next s) ∨
    (∃ c k, s.seq.pc = .run c k ∧ k < lines.length ∧ seqTurn lines s = .next (runActs .seq (lines.drop k) s.seq.turn s)) ∨
    (∃ c k, s.seq.pc = .run c k ∧ lines.length ≤ k ∧ seqTurn lines s = .fault .stepPointerOutOfRange) := by
  unfold seqTurn
  split
  · exact .inl ⟨by assumption, rfl⟩
  · rename_i c k h
    split
    · exact .inr (.inl ⟨c, k, h, by assumption, rfl⟩)
    · exact .inr (.inr ⟨c, k, h, by omega, rfl⟩)

/-- A turn from the first line of a command that is long enough runs all its lines. -/
theorem seqTurn_start {lines : List Act} {s : State} {c : Option Instr} (hpc : s.seq.pc = .run c 0)
    (hpos : 0 < lines.length) (hturn : lines.length ≤ s.seq.turn) : seqTurn lines s = .next (runAll .seq lines s) := by
  simp only [seqTurn, hpc, if_pos hpos, List.drop_zero, runActs_eq_runAll _ _ _ _ hturn]

/-- Lines that a whole turn runs one after the other: the second list is run when every line of the first goes on. -/
theorem runAll_append_go {a : Agent} {xs ys : List Act} {s : State} :
    runAll a (xs ++ ys) s =
      match xs with
      | [] => runAll a ys s
      | x :: xs' =>
        match x s with
        | .go s' => runAll a (xs' ++ ys) (bump a s')
        | .stay s' => s'
        | .stop s' => s' := by
  cases xs <;> rfl

end Sys2Proof.Machine
end

