-- ==== Sys2Proof/Laws/Sequences.lean ====
section
/-! SUPPORT. One spec lemma for each called sequence (R315): the lines of the sequence run through, and what they leave
is the list of actions that `Safety.lean` gives for it. Later proofs cite these and do not unfold a sequence. -/

namespace Sys2Proof.Machine

/-! ## Actions -/

@[simp] theorem does_nil (a : Agent) (s : State) : s.does a [] = s := rfl
@[simp] theorem does_cons (a : Agent) (s : State) (x : Access) (xs : List Access) :
    s.does a (x :: xs) = (s.perform a x).does a xs := rfl

/-- Actions one after the other (R68). -/
theorem does_append (a : Agent) (l m : List Access) : ∀ s : State, s.does a (l ++ m) = (s.does a l).does a m := by
  induction l with
  | nil => intro s; rfl
  | cons x xs ih => intro s; exact ih _

@[simp] theorem perform_cfg (a : Agent) (s : State) (x : Access) : (s.perform a x).cfg = s.cfg := by cases x <;> rfl
@[simp] theorem perform_blk (a : Agent) (s : State) (x : Access) : (s.perform a x).blk = s.blk := by cases x <;> rfl
@[simp] theorem perform_seq (a : Agent) (s : State) (x : Access) : (s.perform a x).seq = s.seq := by cases x <;> rfl
@[simp] theorem perform_irqd (a : Agent) (s : State) (x : Access) : (s.perform a x).irqd = s.irqd := by cases x <;> rfl
@[simp] theorem perform_busData (a : Agent) (s : State) (x : Access) : (s.perform a x).busData = s.busData := by
  cases x <;> rfl

/-- Actions change the LCDC, the environment and the record of the port, nothing else. -/
theorem does_frame (a : Agent) (l : List Access) : ∀ s : State,
    (s.does a l).cfg = s.cfg ∧ (s.does a l).blk = s.blk ∧ (s.does a l).seq = s.seq ∧ (s.does a l).irqd = s.irqd
      ∧ (s.does a l).busData = s.busData := by
  induction l with
  | nil => intro s; simp
  | cons x xs ih => intro s; simpa using ih (s.perform a x)

@[simp] theorem does_cfg (a : Agent) (s : State) (l : List Access) : (s.does a l).cfg = s.cfg := (does_frame a l s).1
@[simp] theorem does_blk (a : Agent) (s : State) (l : List Access) : (s.does a l).blk = s.blk := (does_frame a l s).2.1

@[simp] theorem whenB_true (l : List Access) : whenB true l = l := rfl
@[simp] theorem whenB_false (l : List Access) : whenB false l = [] := rfl

/-! ## A run of lines and the actions it makes -/

/-- `s` is what `s0` has become after the agent `a` has acted by `l`, the block being `b` and the locals `L` (but for the
word of an RMW and the result of a wait). -/
structure Went (a : Agent) (s0 s : State) (b : Blk) (L : Locals) (l : List Access) : Prop where
  blk : s.blk = b
  lcdc : s.lcdc = (s0.does a l).lcdc
  port : s.port = (s0.does a l).port
  env : s.env = (s0.does a l).env
  cfg : s.cfg = s0.cfg
  busData : s.busData = s0.busData
  rev : b.rev = s0.blk.rev
  arg : b.arg = s0.blk.arg
  vram : b.vram = s0.blk.vram
  loc : s.seq.loc = { L with t := s.seq.loc.t, timedOut := s.seq.loc.timedOut }
  seqKept : a = .irqd → s.seq = s0.seq
  irqdKept : a = .seq → s.irqd = s0.irqd
  status : s.irqd.s = s0.irqd.s

variable {a : Agent} {s0 s : State} {b : Blk} {L : Locals} {l : List Access} {xs : List Act}

/-- Nothing has happened yet. -/
theorem went_start (a : Agent) (s : State) : Went a s s s.blk s.seq.loc [] :=
  ⟨rfl, rfl, rfl, rfl, rfl, rfl, rfl, rfl, rfl, rfl, fun _ => rfl, fun _ => rfl, rfl⟩

/-- What a line reads is what the start of the run gives it. -/
theorem Went.arg_eq (h : Went a s0 s b L l) (i : Fin 16) : s.arg i = s0.arg i := by
  rw [Sys2Proof.Machine.arg_eq, Sys2Proof.Machine.arg_eq, h.blk, h.arg]

theorem Went.argN_eq (h : Went a s0 s b L l) (i : Fin 16) : s.argN i = s0.argN i := by
  unfold State.argN; rw [h.arg_eq]

theorem Went.argBit_eq (h : Went a s0 s b L l) (i : Fin 16) (j : Nat) : s.argBit i j = s0.argBit i j := by
  unfold State.argBit; rw [h.arg_eq]

theorem Went.rev_eq (h : Went a s0 s b L l) : s.blk.rev = s0.blk.rev := by rw [h.blk, h.rev]

theorem Went.isV2_eq (h : Went a s0 s b L l) : isV2 s = isV2 s0 := by unfold isV2; rw [h.rev_eq]

theorem Went.off_eq (h : Went a s0 s b L l) (g : LReg) : s.off g = (s0.does a l).off g := by
  rw [Sys2Proof.Machine.off_eq, Sys2Proof.Machine.off_eq, h.cfg, h.rev_eq, does_cfg, does_blk]

theorem Went.readVal_eq (h : Went a s0 s b L l) (g : LReg) : s.readVal g = (s0.does a l).readVal g := by
  rw [Sys2Proof.Machine.readVal_eq, Sys2Proof.Machine.readVal_eq, h.cfg, h.rev_eq, h.lcdc, h.env, does_cfg, does_blk]

/-- The agent's step pointer plays no part. -/
theorem Went.bump (h : Went a s0 s b L l) : Went a s0 (bump a s) b L l where
  blk := by simpa using h.blk
  lcdc := by simpa using h.lcdc
  port := by simpa using h.port
  env := by simpa using h.env
  cfg := by simpa using h.cfg
  busData := by simpa using h.busData
  rev := h.rev
  arg := h.arg
  vram := h.vram
  loc := by simpa using h.loc
  seqKept := by rintro rfl; simpa using h.seqKept rfl
  irqdKept := by rintro rfl; simpa using h.irqdKept rfl
  status := by simpa using h.status

/-- A change of the block that keeps the revision, the arguments and the vram region. -/
theorem Went.onBlk (h : Went a s0 s b L l) (f : Blk → Blk) (hr : (f b).rev = b.rev) (ha : (f b).arg = b.arg)
    (hv : (f b).vram = b.vram) : Went a s0 (s.onBlk f) (f b) L l where
  blk := by rw [onBlk_blk, h.blk]
  lcdc := h.lcdc
  port := h.port
  env := h.env
  cfg := h.cfg
  busData := h.busData
  rev := hr.trans h.rev
  arg := ha.trans h.arg
  vram := hv.trans h.vram
  loc := h.loc
  seqKept := h.seqKept
  irqdKept := h.irqdKept
  status := h.status

/-- `RegWrite(R, v)`. -/
theorem Went.regWrite (h : Went a s0 s b L l) (g : LReg) (v : Word) :
    Went a s0 (s.regWrite a g v) b L (l ++ [.write g v]) where
  blk := h.blk
  lcdc := by rw [does_append]; simp [State.perform, h.lcdc]
  port := by rw [does_append]; simp [State.perform, h.port, h.off_eq]
  env := by rw [does_append]; simp [State.perform, h.env]
  cfg := h.cfg
  busData := h.busData
  rev := h.rev
  arg := h.arg
  vram := h.vram
  loc := h.loc
  seqKept := h.seqKept
  irqdKept := h.irqdKept
  status := h.status

/-- An RMW, its two steps together. -/
theorem Went.rmw (h : Went a s0 s b L l) (g : LReg) (e : List (Fld × Nat)) :
    Went a s0 (((s.afterRead a g).setTmp a (s.readVal g)).regWrite a g (insFields s0.cfg s0.blk.rev (s.readVal g) e)) b L
      (l ++ [.rmw g e]) where
  blk := by cases a <;> exact h.blk
  lcdc := by rw [does_append]; cases a <;> simp [State.perform, h.lcdc, h.readVal_eq]
  port := by
    rw [does_append]
    cases a <;> simp [State.perform, h.port, h.readVal_eq, Sys2Proof.Machine.off_eq, h.cfg, h.rev_eq]
  env := by rw [does_append]; cases a <;> simp [State.perform, h.env]
  cfg := by cases a <;> exact h.cfg
  busData := by cases a <;> exact h.busData
  rev := h.rev
  arg := h.arg
  vram := h.vram
  loc := by
    cases a
    · exact congrArg (fun x : Locals => { x with t := s.readVal g }) h.loc
    · exact h.loc
  seqKept := by rintro rfl; exact h.seqKept rfl
  irqdKept := by rintro rfl; exact h.irqdKept rfl
  status := by cases a <;> exact h.status

/-- An entry in the record of the port, with a change of the environment. -/
theorem Went.record (h : Went a s0 s b L l) (x : Access) (e : PortEvent) (f : Env → Env)
    (hp : (s0.does a l).perform a x = { s0.does a l with env := f (s0.does a l).env }.record e) :
    Went a s0 ({ s with env := f s.env }.record e) b L (l ++ [x]) where
  blk := h.blk
  lcdc := by rw [does_append]; simp [hp, h.lcdc]
  port := by rw [does_append]; simp [hp, h.port]
  env := by rw [does_append]; simp [hp, h.env]
  cfg := h.cfg
  busData := h.busData
  rev := h.rev
  arg := h.arg
  vram := h.vram
  loc := h.loc
  seqKept := h.seqKept
  irqdKept := h.irqdKept
  status := h.status

/-! ## One lemma per line -/

theorem run_setRState (h : Went a s0 s b L l) (r : RState) :
    ∃ s', runAll a (setRState r :: xs) s = runAll a xs s' ∧ Went a s0 s' { b with rstate := r } L l :=
  ⟨_, rfl, (h.onBlk (fun b => { b with rstate := r }) rfl rfl rfl).bump⟩

/-- A line that changes the block by a function of the block. -/
theorem run_onBlk (h : Went a s0 s b L l) (f : State → Blk → Blk) (hr : (f s b).rev = b.rev)
    (ha : (f s b).arg = b.arg) (hv : (f s b).vram = b.vram) :
    ∃ s', runAll a (assign (fun s => s.onBlk (f s)) :: xs) s = runAll a xs s' ∧ Went a s0 s' (f s b) L l :=
  ⟨_, rfl, (h.onBlk (f s) hr ha hv).bump⟩

theorem run_writeReg (h : Went a s0 s b L l) (g : LReg) (v : State → Word) :
    ∃ s', runAll a (writeReg a g v :: xs) s = runAll a xs s' ∧ Went a s0 s' b L (l ++ [.write g (v s)]) :=
  ⟨_, rfl, (h.regWrite g (v s)).bump⟩

theorem run_delay (h : Went a s0 s b L l) (ms : Nat) :
    ∃ s', runAll a (delay a ms :: xs) s = runAll a xs s' ∧ Went a s0 s' b L (l ++ [.hold ms]) :=
  ⟨_, rfl, (h.record (.hold ms) (.delay a ms) id rfl).bump⟩

/-- An RMW whose edits do not depend on what its own read changes. -/
theorem run_rmw (h : Went a s0 s b L l) (g : LReg) (e : State → List (Fld × Nat)) (e0 : List (Fld × Nat))
    (he : e (bump a ((s.afterRead a g).setTmp a (s.readVal g))) = e0) :
    ∃ s', runAll a (rmw a g e ++ xs) s = runAll a xs s' ∧ Went a s0 s' b L (l ++ [.rmw g e0]) := by
  refine ⟨bump a ((bump a ((s.afterRead a g).setTmp a (s.readVal g))).regWrite a g
      (insFields s0.cfg s0.blk.rev (s.readVal g) e0)), ?_, ?_⟩
  · rw [rmw, List.cons_append, runAll_readTo, List.cons_append, runAll_writeEdited, he]
    have ht : (bump a ((s.afterRead a g).setTmp a (s.readVal g))).tmp a = s.readVal g := by cases a <;> simp
    have hc : (bump a ((s.afterRead a g).setTmp a (s.readVal g))).cfg = s0.cfg := by cases a <;> simp [h.cfg]
    have hr : (bump a ((s.afterRead a g).setTmp a (s.readVal g))).blk.rev = s0.blk.rev := by
      cases a <;> simp [h.rev_eq]
    rw [ht, hc, hr]; rfl
  · have := h.rmw g e0
    refine Went.bump ⟨?_, ?_, ?_, ?_, ?_, ?_, h.rev, h.arg, h.vram, ?_, ?_, ?_, ?_⟩
    · simpa using this.blk
    · simpa using this.lcdc
    · have hp := this.port; simpa [Sys2Proof.Machine.off_eq] using hp
    · simpa using this.env
    · simpa using this.cfg
    · simpa using this.busData
    · simpa using this.loc
    · rintro rfl; simpa using this.seqKept rfl
    · rintro rfl; simpa using this.irqdKept rfl
    · simpa using this.status

/-- Lines under a condition that holds, and stays so, run as they are; under one that fails they do nothing. -/
theorem run_guarded_false (c : State → Bool) (hc : ∀ u : State, u.blk = s.blk → c u = false) (ys : List Act) :
    Went a s0 s b L l → ∃ s', runAll a (guarded c ys ++ xs) s = runAll a xs s' ∧ Went a s0 s' b L l := by
  induction ys generalizing s with
  | nil => intro h; exact ⟨s, rfl, h⟩
  | cons y ys ih =>
    intro h
    obtain ⟨s', h1, h2⟩ := ih (s := Sys2Proof.Machine.bump a s) (fun u hu => hc u (by simpa using hu)) h.bump
    refine ⟨s', ?_, h2⟩
    rw [← h1]
    simp only [guarded, List.map_cons, List.cons_append, runAll_onlyIf, hc s rfl, Bool.false_eq_true, if_false]

/-- Lines under a condition that holds, and that no line of them ends, run as they are. -/
theorem runAll_guarded_true {a : Agent} {xs : List Act} {c : State → Bool} {I : State → Prop} (hc : ∀ u, I u → c u = true)
    {ys : List Act} (hk : ∀ y ∈ ys, ∀ u u', I u → y u = .go u' → I (bump a u')) :
    ∀ {s : State}, I s → runAll a (guarded c ys ++ xs) s = runAll a (ys ++ xs) s := by
  induction ys with
  | nil => intro s _; rfl
  | cons y ys ih =>
    intro s hs
    have hcs := hc s hs
    simp only [guarded, List.map_cons, List.cons_append, runAll_onlyIf, hcs, if_true]
    simp only [runAll]
    cases hy : y s with
    | go s' => exact ih (fun y' hy' => hk y' (by simp [hy'])) (hk y (by simp) s s' hs hy)
    | stay s' => rfl
    | stop s' => rfl

/-- Lines under `if blk.rev = V2`, on V2. -/
theorem runAll_guarded_isV2 {a : Agent} {xs ys : List Act} {s : State} (hs : isV2 s = true)
    (hk : ∀ y ∈ ys, ∀ u u', y u = .go u' → u'.blk.rev = u.blk.rev) :
    runAll a (guarded isV2 ys ++ xs) s = runAll a (ys ++ xs) s :=
  runAll_guarded_true (I := fun u => isV2 u = true) (fun _ hu => hu)
    (fun y hy u u' hu hgo => by
      have := hk y hy u u' hgo
      simp only [isV2, bump_blk] at hu ⊢; rw [this]; exact hu) hs

/-! ## What single lines keep -/

theorem writeReg_rev {a : Agent} {g : LReg} {v : State → Word} {u u' : State} (h : writeReg a g v u = .go u') :
    u'.blk.rev = u.blk.rev := by cases h; rfl

theorem delay_rev {a : Agent} {ms : Nat} {u u' : State} (h : delay a ms u = .go u') : u'.blk.rev = u.blk.rev := by
  cases h; rfl

theorem rmw_rev {a : Agent} {g : LReg} {e : State → List (Fld × Nat)} {y : Act} (hy : y ∈ rmw a g e) {u u' : State}
    (h : y u = .go u') : u'.blk.rev = u.blk.rev := by
  simp only [rmw, List.mem_cons, List.not_mem_nil, or_false] at hy
  rcases hy with rfl | rfl
  · cases h; cases a <;> rfl
  · cases h; rfl

/-! ## The words of Safety.lean are those that the commands compute -/

@[simp] theorem bitsOf_one (p : Params) (r : Rev) (f : Fld) : bitsOf p r [f] = ins 0#32 (p.pos r f) 1 := by simp [bitsOf]

theorem bitsAt_or (a b : Word) (lo n : Nat) : bitsAt (a ||| b) lo n = bitsAt a lo n ||| bitsAt b lo n := by
  apply Nat.eq_of_testBit_eq
  intro j
  simp only [bitsAt, BitVec.toNat_or, Nat.testBit_or, Nat.testBit_mod_two_pow, Nat.testBit_div_two_pow]
  cases decide (j < n) <;> simp

theorem softResetAccesses_eq (s : State) :
    softResetAccesses s =
      [.write .clkReset (mainResetWord s.cfg s.blk.rev), .hold resetDelayMs, .write .clkReset 0#32, .hold resetDelayMs] := by
  simp [softResetAccesses, mainResetWord, resetDelayMs]

theorem hsyncAccesses_eq (s : State) (bp pw fp : Word) :
    hsyncAccesses s bp pw fp =
      [.rmw .timing0 (hsyncLow s.cfg bp pw fp)] ++ whenB (isV2 s) [.rmw .timing2 (hsyncHigh s.cfg bp pw fp)] := by
  simp only [hsyncAccesses, hsyncLow, hsyncHigh, hbpHi, bitsAt_or]
  simp only [bitsAt, enc, pow_zero, Nat.div_one]
  rfl

theorem hasVertHi_eq (s : State) : hasVertHi s = (isV2 s && v2VertHi s.cfg) := by
  simp only [hasVertHi, v2VertHi]
  cases s.cfg.pos .v2 .vbpHi <;> cases s.cfg.pos .v2 .vfpHi <;> cases s.cfg.pos .v2 .vswHi <;> simp

theorem vsyncAccesses_eq (s : State) (bp pw fp : Word) :
    vsyncAccesses s bp pw fp =
      [.rmw .timing1 (vsyncLow s.cfg bp pw fp)] ++
        whenB (isV2 s && v2VertHi s.cfg) [.rmw .timing2 (vsyncHigh s.cfg bp pw fp)] := by
  simp only [vsyncAccesses, vsyncLow, vsyncHigh, hasVertHi_eq, bitsAt, enc, pow_zero, Nat.div_one]
  rfl

theorem encodedWidth_eq (s : State) (width : Word) : encodedWidth s width = ppl s.cfg s.blk.rev width := by
  unfold encodedWidth ppl
  cases s.blk.rev <;> rfl

theorem geometryAccesses_eq (s : State) (width height : Word) (bpp : Nat) (order : Bool) :
    geometryAccesses s width height bpp order =
      [.rmw .timing0 (widthFields s.cfg s.blk.rev width), .rmw .timing1 (heightLow height)]
        ++ whenB (isV2 s) [.rmw .timing2 (heightHigh height)] ++ [.rmw .rasterCtrl (formatFlags bpp order)] := by
  simp [geometryAccesses, encodedWidth_eq, widthFields, heightLow, heightHigh, formatFlags, bitsAt, enc, bit01,
    Params.pplBits, widthMaskBits]

theorem displayAccesses_eq (s : State) (m : DisplayMode) :
    displayAccesses s m =
      [.rmw .rasterCtrl (displayFields s.blk.rev m)]
        ++ whenB (isV2 s) [.write .intEnSet (underflowEnable s.cfg s.blk.rev)] ++ [.rmw .timing2 (polarityFields m)] := by
  obtain ⟨sh, a, b, c, h, v⟩ := m
  cases sh <;> cases h <;> cases v <;> simp [displayAccesses, displayFields, shadeFields, polarityFields, underflowEnable, bit01]

theorem acbAccesses_eq (freq ipt : Word) : acbAccesses freq ipt = [.rmw .timing2 (acbFields freq ipt)] := by
  simp [acbAccesses, acbFields, bitsAt]

theorem frameEnableWord_eq (p : Params) (r : Rev) : frameEnableWord p r = frameEnables p r := by
  simp [frameEnableWord, frameEnables, bitsOf]

theorem setWinAccesses_eq (s : State) (first last : Word) :
    setWinAccesses s first last =
      [.write .fb0Base first, .write .fb0Ceil last, .write .fb1Base first, .write .fb1Ceil last,
       .rmw .dmaCtrl [(.dualFb, 1), (.v1EofIntEn, 1)]]
        ++ whenB (isV2 s) [.write .intEnSet (frameEnables s.cfg s.blk.rev)] := by
  rw [setWinAccesses, frameEnableWord_eq]

/-- `ins(0, CLKDIV, d, RASTER_MODE, 1)` (R91). -/
theorem ctrlWord_eq (p : Params) (r : Rev) (d : Nat) :
    ctrlWord p r d = ins (ins 0#32 (p.pos r .clkdiv) d) (p.pos r .rasterMode) 1 := rfl

/-- The MODE word as DISPLAY_MODE_SEQ gets it (R129, R240). -/
theorem displayModeOfMode_eq {m : Word} (h : bitsAt m 0 2 ≠ 3) :
    displayModeOfMode m =
      ⟨if bitsAt m 0 2 = 0 then .mono else if bitsAt m 0 2 = 1 then .tft else .stn,
        m.getLsbD 2, m.getLsbD 3, m.getLsbD 4, m.getLsbD 6, m.getLsbD 7⟩ := by
  have hlt : bitsAt m 0 2 < 4 := Nat.mod_lt _ (by decide)
  unfold displayModeOfMode shadeCode
  generalize bitsAt m 0 2 = q at *
  obtain rfl | rfl | rfl : q = 0 ∨ q = 1 ∨ q = 2 := by omega
  all_goals rfl

/-! ## The called sequences -/

/-- The V2 soft reset (R221). -/
theorem run_softReset (h : Went a s0 s b L l) :
    ∃ s', runAll a (softResetLines a ++ xs) s = runAll a xs s' ∧ Went a s0 s' b L (l ++ softResetAccesses s0) := by
  obtain ⟨s1, e1, h1⟩ := run_writeReg (xs := [delay a resetDelayMs, writeReg a .clkReset (fun _ => 0#32),
    delay a resetDelayMs] ++ xs) h .clkReset (fun s => mainResetWord s.cfg s.blk.rev)
  obtain ⟨s2, e2, h2⟩ := run_delay (xs := [writeReg a .clkReset (fun _ => 0#32), delay a resetDelayMs] ++ xs) h1 resetDelayMs
  obtain ⟨s3, e3, h3⟩ := run_writeReg (xs := [delay a resetDelayMs] ++ xs) h2 .clkReset (fun _ => 0#32)
  obtain ⟨s4, e4, h4⟩ := run_delay (xs := xs) h3 resetDelayMs
  refine ⟨s4, (e1.trans (e2.trans (e3.trans e4))), ?_⟩
  simpa [softResetAccesses_eq, h.cfg, h.rev_eq] using h4

/-- `if blk.rev = V2: <one RMW>`. -/
theorem run_rmwV2 (h : Went a s0 s b L l) (g : LReg) (e : State → List (Fld × Nat)) (e0 : List (Fld × Nat))
    (he : e (bump a ((s.afterRead a g).setTmp a (s.readVal g))) = e0) :
    ∃ s', runAll a (guarded isV2 (rmw a g e) ++ xs) s = runAll a xs s' ∧
      Went a s0 s' b L (l ++ whenB (isV2 s0) [.rmw g e0]) := by
  cases hv : isV2 s0 with
  | true =>
    rw [runAll_guarded_isV2 (h.isV2_eq.trans hv) (fun y hy u u' => rmw_rev hy)]
    exact run_rmw h g e e0 he
  | false =>
    have := run_guarded_false (xs := xs) isV2 (fun u hu => by rw [isV2, hu]; exact (h.isV2_eq.trans hv)) (rmw a g e) h
    simpa using this

/-- `if blk.rev = V2: RegWrite(R, v)`. -/
theorem run_writeV2 (h : Went a s0 s b L l) (g : LReg) (v : State → Word) :
    ∃ s', runAll a (guarded isV2 [writeReg a g v] ++ xs) s = runAll a xs s' ∧
      Went a s0 s' b L (l ++ whenB (isV2 s0) [.write g (v s)]) := by
  cases hv : isV2 s0 with
  | true =>
    rw [runAll_guarded_isV2 (h.isV2_eq.trans hv)
      (fun y hy u u' hu => by simp only [List.mem_singleton] at hy; subst hy; exact writeReg_rev hu)]
    exact run_writeReg h g v
  | false =>
    have := run_guarded_false (xs := xs) isV2 (fun u hu => by rw [isV2, hu]; exact (h.isV2_eq.trans hv)) [writeReg a g v] h
    simpa using this

/-- `ENABLE_SEQ` (R220) runs through, by either agent. -/
theorem run_enableSeq (h : Went a s0 s b L l) :
    ∃ s', runAll a (enableSeq a ++ xs) s = runAll a xs s' ∧
      Went a s0 s' { b with rstate := .enabled } L (l ++ enableAccesses s0) := by
  simp only [enableSeq, List.append_assoc, List.cons_append, List.nil_append]
  obtain ⟨s1, e1, h1⟩ := run_setRState (xs := guarded isV2 (softResetLines a) ++ (rmw a .rasterCtrl (fun _ => [(.rasterEn, 1)])
    ++ (setRState .enabled :: xs))) h .enabling
  rw [e1]
  have key : ∃ s2, runAll a (guarded isV2 (softResetLines a) ++ (rmw a .rasterCtrl (fun _ => [(.rasterEn, 1)])
      ++ (setRState .enabled :: xs))) s1 = runAll a (rmw a .rasterCtrl (fun _ => [(.rasterEn, 1)])
      ++ (setRState .enabled :: xs)) s2
      ∧ Went a s0 s2 { b with rstate := .enabling } L (l ++ whenB (isV2 s0) (softResetAccesses s0)) := by
    cases hv : isV2 s0 with
    | true =>
      rw [runAll_guarded_isV2 (h1.isV2_eq.trans hv)]
      · exact run_softReset h1
      · intro y hy u u' hu
        simp only [softResetLines, List.mem_cons, List.not_mem_nil, or_false] at hy
        rcases hy with rfl | rfl | rfl | rfl
        · exact writeReg_rev hu
        · exact delay_rev hu
        · exact writeReg_rev hu
        · exact delay_rev hu
    | false =>
      have := run_guarded_false (xs := rmw a .rasterCtrl (fun _ => [(.rasterEn, 1)]) ++ (setRState .enabled :: xs)) isV2
        (fun u hu => by rw [isV2, hu]; exact (h1.isV2_eq.trans hv)) (softResetLines a) h1
      simpa using this
  obtain ⟨s2, e2, h2⟩ := key
  obtain ⟨s3, e3, h3⟩ := run_rmw (xs := setRState .enabled :: xs) h2 .rasterCtrl (fun _ => [(.rasterEn, 1)]) _ rfl
  obtain ⟨s4, e4, h4⟩ := run_setRState (xs := xs) h3 .enabled
  exact ⟨s4, e2.trans (e3.trans e4), by simpa [enableAccesses] using h4⟩

/-- `DISABLE_SEQ(NoWait)` as the decoder runs it (R225). -/
theorem run_disableNow (h : Went a s0 s b L l) :
    ∃ s', runAll a (disableNow a ++ xs) s = runAll a xs s' ∧
      Went a s0 s' { b with rstate := .disabled } L (l ++ disableAccesses) := by
  simp only [disableNow, List.append_assoc, List.cons_append, List.nil_append]
  obtain ⟨s1, e1, h1⟩ := run_rmw (xs := setRState .disabled :: xs) h .rasterCtrl (fun _ => [(.rasterEn, 0)]) _ rfl
  obtain ⟨s2, e2, h2⟩ := run_setRState (xs := xs) h1 .disabled
  exact ⟨s2, e1.trans e2, h2⟩

/-- `HSYNC_SEQ` (R171). -/
theorem run_hsyncSeq (h : Went .seq s0 s b L l) (i j k : Fin 16) :
    ∃ s', runAll .seq (hsyncSeq (fun s => s.arg i) (fun s => s.arg j) (fun s => s.arg k) ++ xs) s = runAll .seq xs s' ∧
      Went .seq s0 s' b L (l ++ hsyncAccesses s0 (s0.arg i) (s0.arg j) (s0.arg k)) := by
  simp only [hsyncSeq, List.append_assoc]
  obtain ⟨s1, e1, h1⟩ := run_rmw (xs := guarded isV2 (rmw .seq .timing2 fun s => hsyncHigh s.cfg (s.arg i) (s.arg j) (s.arg k))
    ++ xs) h .timing0 (fun s => hsyncLow s.cfg (s.arg i) (s.arg j) (s.arg k))
    (hsyncLow s0.cfg (s0.arg i) (s0.arg j) (s0.arg k)) (by simp [h.cfg, ← h.arg_eq, arg_eq])
  obtain ⟨s2, e2, h2⟩ := run_rmwV2 (xs := xs) h1 .timing2 (fun s => hsyncHigh s.cfg (s.arg i) (s.arg j) (s.arg k))
    (hsyncHigh s0.cfg (s0.arg i) (s0.arg j) (s0.arg k)) (by simp [h1.cfg, ← h1.arg_eq, arg_eq])
  exact ⟨s2, e1.trans e2, by simpa [hsyncAccesses_eq] using h2⟩

/-- `VSYNC_SEQ` (R173). -/
theorem run_vsyncSeq (h : Went .seq s0 s b L l) (i j k : Fin 16) :
    ∃ s', runAll .seq (vsyncSeq (fun s => s.arg i) (fun s => s.arg j) (fun s => s.arg k) ++ xs) s = runAll .seq xs s' ∧
      Went .seq s0 s' b L (l ++ vsyncAccesses s0 (s0.arg i) (s0.arg j) (s0.arg k)) := by
  simp only [vsyncSeq, List.append_assoc]
  obtain ⟨s1, e1, h1⟩ := run_rmw (xs := guarded (fun s => isV2 s && v2VertHi s.cfg)
    (rmw .seq .timing2 fun s => vsyncHigh s.cfg (s.arg i) (s.arg j) (s.arg k)) ++ xs) h .timing1
    (fun s => vsyncLow s.cfg (s.arg i) (s.arg j) (s.arg k))
    (vsyncLow s0.cfg (s0.arg i) (s0.arg j) (s0.arg k)) (by simp [h.cfg, ← h.arg_eq, arg_eq])
  rw [e1]
  cases hv : (isV2 s0 && v2VertHi s0.cfg) with
  | true =>
    rw [runAll_guarded_true (I := fun u => isV2 u = true ∧ v2VertHi u.cfg = true) (fun u hu => by simp [hu.1, hu.2])]
    · obtain ⟨s2, e2, h2⟩ := run_rmw (xs := xs) h1 .timing2 (fun s => vsyncHigh s.cfg (s.arg i) (s.arg j) (s.arg k))
        (vsyncHigh s0.cfg (s0.arg i) (s0.arg j) (s0.arg k)) (by simp [h1.cfg, ← h1.arg_eq, arg_eq])
      exact ⟨s2, e2, by simpa [vsyncAccesses_eq, hv] using h2⟩
    · intro y hy u u' hu hgo
      have hr := rmw_rev hy hgo
      have hc : u'.cfg = u.cfg := by
        simp only [rmw, List.mem_cons, List.not_mem_nil, or_false] at hy
        rcases hy with rfl | rfl <;> cases hgo <;> rfl
      simpa only [isV2, bump_blk, bump_cfg, hr, hc] using hu
    · simp only [Bool.and_eq_true] at hv
      rw [h1.isV2_eq, h1.cfg]; exact hv
  | false =>
    have hg : ∀ ys : List Act, ∀ u : State, Went .seq s0 u b L
        (l ++ [.rmw .timing1 (vsyncLow s0.cfg (s0.arg i) (s0.arg j) (s0.arg k))]) →
        ∃ s', runAll .seq (guarded (fun s => isV2 s && v2VertHi s.cfg) ys ++ xs) u = runAll .seq xs s' ∧
          Went .seq s0 s' b L (l ++ [.rmw .timing1 (vsyncLow s0.cfg (s0.arg i) (s0.arg j) (s0.arg k))]) := by
      intro ys
      induction ys with
      | nil => intro u hu; exact ⟨u, rfl, hu⟩
      | cons y ys ih =>
        intro u hu
        obtain ⟨s', e, hs'⟩ := ih _ hu.bump
        refine ⟨s', ?_, hs'⟩
        rw [← e]
        simp only [guarded, List.map_cons, List.cons_append, runAll_onlyIf, hu.isV2_eq, hu.cfg, hv, Bool.false_eq_true,
          if_false]
    obtain ⟨s2, e2, h2⟩ := hg _ _ h1
    exact ⟨s2, e2, by simpa [vsyncAccesses_eq, hv] using h2⟩

/-- `GEOMETRY_SEQ` (R180). -/
theorem run_geometrySeq (h : Went .seq s0 s b L l) (i j k m : Fin 16) (n : Nat) :
    ∃ s', runAll .seq (geometrySeq (fun s => s.arg i) (fun s => s.arg j) (fun s => s.argN k) (fun s => s.argBit m n) ++ xs) s
        = runAll .seq xs s' ∧
      Went .seq s0 s' { b with palCount := palCount (s0.argN k) } L
        (l ++ geometryAccesses s0 (s0.arg i) (s0.arg j) (s0.argN k) (s0.argBit m n)) := by
  simp only [geometrySeq, List.append_assoc]
  obtain ⟨s1, e1, h1⟩ := run_rmw (xs := _) h .timing0 (fun s => widthFields s.cfg s.blk.rev (s.arg i))
    (widthFields s0.cfg s0.blk.rev (s0.arg i)) (by simp [h.cfg, ← h.arg_eq, arg_eq, ← h.rev_eq])
  obtain ⟨s2, e2, h2⟩ := run_rmw (xs := _) h1 .timing1 (fun s => heightLow (s.arg j))
    (heightLow (s0.arg j)) (by simp [← h1.arg_eq, arg_eq])
  obtain ⟨s3, e3, h3⟩ := run_rmwV2 (xs := _) h2 .timing2 (fun s => heightHigh (s.arg j))
    (heightHigh (s0.arg j)) (by simp [← h2.arg_eq, arg_eq])
  obtain ⟨s4, e4, h4⟩ := run_rmw (xs := _) h3 .rasterCtrl (fun s => formatFlags (s.argN k) (s.argBit m n))
    (formatFlags (s0.argN k) (s0.argBit m n)) (by simp [State.argN, State.argBit, ← h3.arg_eq, arg_eq])
  obtain ⟨s5, e5, h5⟩ := run_onBlk (xs := xs) h4 (fun s b => { b with palCount := palCount (s.argN k) }) rfl rfl rfl
  refine ⟨s5, e1.trans (e2.trans (e3.trans (e4.trans e5))), ?_⟩
  simpa [geometryAccesses_eq, h4.argN_eq] using h5

/-- `DISPLAY_MODE_SEQ` (R186). -/
theorem run_displayModeSeq (h : Went .seq s0 s b L l) (f : Vector Word 16 → DisplayMode) :
    ∃ s', runAll .seq (displayModeSeq (fun s => f s.blk.arg) ++ xs) s = runAll .seq xs s' ∧
      Went .seq s0 s' b L (l ++ displayAccesses s0 (f s0.blk.arg)) := by
  have ha : ∀ {b' l' u}, Went .seq s0 u b' L l' → u.blk.arg = s0.blk.arg := fun hu => by rw [hu.blk, hu.arg]
  simp only [displayModeSeq, List.append_assoc]
  obtain ⟨s1, e1, h1⟩ := run_rmw (xs := _) h .rasterCtrl (fun s => displayFields s.blk.rev (f s.blk.arg))
    (displayFields s0.blk.rev (f s0.blk.arg)) (by simp [h.rev_eq, ha h])
  obtain ⟨s2, e2, h2⟩ := run_writeV2 (xs := _) h1 .intEnSet (fun s => underflowEnable s.cfg s.blk.rev)
  obtain ⟨s3, e3, h3⟩ := run_rmw (xs := xs) h2 .timing2 (fun s => polarityFields (f s.blk.arg))
    (polarityFields (f s0.blk.arg)) (by simp [ha h2])
  refine ⟨s3, e1.trans (e2.trans e3), ?_⟩
  simpa [displayAccesses_eq, h1.cfg, h1.rev_eq] using h3

/-- `ACB_SEQ` (R190). -/
theorem run_acbSeq (h : Went .seq s0 s b L l) (i j : Fin 16) :
    ∃ s', runAll .seq (acbSeq (fun s => s.arg i) (fun s => s.arg j) ++ xs) s = runAll .seq xs s' ∧
      Went .seq s0 s' b L (l ++ acbAccesses (s0.arg i) (s0.arg j)) := by
  rw [acbAccesses_eq]
  exact run_rmw h .timing2 (fun s => acbFields (s.arg i) (s.arg j)) _ (by simp [← h.arg_eq, arg_eq])

/-- `Acquire(L)` by `SEQ` of a free lock (R42). -/
theorem run_acquire (h : Went .seq s0 s b L l) (hf : b.lock = .free) :
    ∃ s', runAll .seq (acquire :: xs) s = runAll .seq xs s' ∧ Went .seq s0 s' { b with lock := .seq } L l := by
  refine ⟨_, ?_, (h.onBlk (fun b => { b with lock := .seq }) rfl rfl rfl).bump⟩
  rw [runAll_acquire, if_pos (by rw [h.blk, hf])]

/-- `Release(L)` (R42). -/
theorem run_release (h : Went a s0 s b L l) :
    ∃ s', runAll a (release :: xs) s = runAll a xs s' ∧ Went a s0 s' { b with lock := .free } L l :=
  ⟨_, rfl, (h.onBlk (fun b => { b with lock := .free }) rfl rfl rfl).bump⟩

/-- The arm of a wait (R263) leaves its flag 0 and the lock free. -/
theorem run_arm (h : Went .seq s0 s b L l) (e : WaitEvent) (hf : b.lock = .free) :
    ∃ s', runAll .seq (arm e ++ xs) s = runAll .seq xs s' ∧ Went .seq s0 s' (b.setFlag e false) L l := by
  obtain ⟨s1, e1, h1⟩ := run_acquire (xs := [assign fun s => s.onBlk fun b => b.setFlag e false, release] ++ xs) h hf
  obtain ⟨s2, e2, h2⟩ := run_onBlk (xs := release :: xs) h1 (fun _ b => b.setFlag e false) (setFlag_rev _ _ _)
    (setFlag_arg _ _ _) (by cases e <;> rfl)
  obtain ⟨s3, e3, h3⟩ := run_release (xs := xs) h2
  refine ⟨s3, e1.trans (e2.trans e3), ?_⟩
  have : ({ ({ b with lock := .seq } : Blk).setFlag e false with lock := .free } : Blk) = b.setFlag e false := by
    cases b; simp only at hf; subst hf; cases e <;> rfl
  rwa [this] at h3

/-- A test step of `Block` that times out (R262). -/
theorem run_block_expire (h : Went .seq s0 s b L l) (e : WaitEvent) (bound : State → Nat) (hf : b.lock = .free)
    (he : b.flag e = false) (ht : (s0.does .seq l).env.peek.timeout = true) :
    ∃ s', runAll .seq (blockTest e bound :: xs) s = runAll .seq xs s' ∧ s'.seq.loc.timedOut = true ∧
      Went .seq s0 s' b L (l ++ [.expire e (bound s)]) := by
  refine ⟨bump .seq ((s.dropDraw.record (.waited e (bound s) false)).onLoc fun l => { l with timedOut := true }), ?_, by simp, ?_⟩
  · rw [runAll_blockTest, h.blk, h.env]; simp [hf, he, ht]
  · have := h.record (.expire e (bound s)) (.waited e (bound s) false) Env.drop rfl
    refine Went.bump ⟨this.blk, this.lcdc, this.port, this.env, this.cfg, this.busData, this.rev, this.arg, this.vram,
      ?_, fun x => (by cases x), this.irqdKept, this.status⟩
    exact congrArg (fun x : Locals => { x with timedOut := true }) this.loc

/-- A test step of `Block` that finds its flag 1 (R262). -/
theorem run_block_wake (h : Went .seq s0 s b L l) (e : WaitEvent) (bound : State → Nat) (hf : b.lock = .free)
    (he : b.flag e = true) :
    ∃ s', runAll .seq (blockTest e bound :: xs) s = runAll .seq xs s' ∧ s'.seq.loc.timedOut = false ∧
      Went .seq s0 s' b L (l ++ [.wake e (bound s)]) := by
  refine ⟨bump .seq ((s.record (.waited e (bound s) true)).onLoc fun l => { l with timedOut := false }), ?_, by simp, ?_⟩
  · rw [runAll_blockTest, h.blk]; simp [hf, he]
  · have := h.record (.wake e (bound s)) (.waited e (bound s) true) id rfl
    refine Went.bump ⟨this.blk, this.lcdc, this.port, this.env, this.cfg, this.busData, this.rev, this.arg, this.vram,
      ?_, fun x => (by cases x), this.irqdKept, this.status⟩
    exact congrArg (fun x : Locals => { x with timedOut := false }) this.loc

theorem run_onlyIf_false (h : Went a s0 s b L l) (c : State → Bool) (x : Act) (hc : c s = false) :
    ∃ s', runAll a (onlyIf c x :: xs) s = runAll a xs s' ∧ Went a s0 s' b L l :=
  ⟨bump a s, by rw [runAll_onlyIf, hc]; rfl, h.bump⟩

theorem runAll_onlyIf_true (a : Agent) (s : State) (xs : List Act) (c : State → Bool) (x : Act) (hc : c s = true) :
    runAll a (onlyIf c x :: xs) s = runAll a (x :: xs) s := by rw [runAll_onlyIf, hc]; rfl

/-- `raise E` that is not raised. -/
theorem run_raiseIf_false (h : Went a s0 s b L l) (c : State → Bool) (e : Code) (hc : c s = false) :
    ∃ s', runAll a (raiseIf c e :: xs) s = runAll a xs s' ∧ Went a s0 s' b L l :=
  ⟨bump a s, by rw [runAll_raiseIf, hc]; rfl, h.bump⟩

/-- The wait of `DISABLE_SEQ` on V2 when it times out (R225). -/
theorem run_disableWait (h : Went .seq s0 s b L l) (hf : b.lock = .free)
    (ht : (s0.does .seq l).env.peek.timeout = true) :
    ∃ s', runAll .seq (disableWaitLines ++ xs) s = runAll .seq xs s' ∧
      Went .seq s0 s' { b with rstate := .disabled, frameDoneFlag := false, out := b.out ++ [.logDisableTimeout] } L
        (l ++ [.expire .frameDone frameDoneTimeoutMs]) := by
  simp only [disableWaitLines, List.append_assoc, List.cons_append, List.nil_append]
  obtain ⟨s1, e1, h1⟩ := run_setRState (xs := _) h .disablingWaitFrame
  obtain ⟨s2, e2, h2⟩ := run_arm (xs := _) h1 .frameDone hf
  obtain ⟨s3, e3, t3, h3⟩ := run_block_expire (xs := _) h2 .frameDone (fun _ => frameDoneTimeoutMs) (by simpa using hf) rfl ht
  obtain ⟨s4, e4, h4⟩ := run_onBlk (xs := onlyIf (fun s => s.blk.rstate == .disablingWaitFrame) (setRState .disabled) :: xs)
    h3 (fun _ b => { b with out := b.out ++ [.logDisableTimeout] }) rfl rfl rfl
  obtain ⟨s5, e5, h5⟩ := run_setRState (xs := xs) h4 .disabled
  refine ⟨s5, e1.trans (e2.trans (e3.trans ?_)), h5⟩
  rw [runAll_onlyIf_true _ _ _ _ _ t3]
  refine Eq.trans e4 ?_
  rw [runAll_onlyIf_true _ _ _ _ _ (by rw [h4.blk]; rfl)]
  exact e5

/-- Lines under a condition that fails and that reads only the revision and the arguments. -/
theorem run_guarded_skip (c : State → Bool) (h : Went a s0 s b L l)
    (hc : ∀ u : State, u.blk.rev = s0.blk.rev → u.blk.arg = s0.blk.arg → c u = false) (ys : List Act) :
    ∃ s', runAll a (guarded c ys ++ xs) s = runAll a xs s' ∧ Went a s0 s' b L l :=
  run_guarded_false c (fun u hu => hc u (by rw [hu, h.rev_eq]) (by rw [hu, h.blk, h.arg])) ys h

theorem arm_keeps {e : WaitEvent} {y : Act} (hy : y ∈ arm e) {u u' : State} (h : y u = .go u') :
    u'.blk.rev = u.blk.rev ∧ u'.blk.arg = u.blk.arg := by
  simp only [arm, List.mem_cons, List.not_mem_nil, or_false] at hy
  rcases hy with rfl | rfl | rfl
  · simp only [acquire] at h; split at h
    · cases h; exact ⟨rfl, rfl⟩
    · cases h
  · cases h; cases e <;> exact ⟨rfl, rfl⟩
  · cases h; exact ⟨rfl, rfl⟩

/-- The lines of the disable-wait keep the revision and the arguments. -/
theorem disableWait_keeps {y : Act} (hy : y ∈ disableWaitLines) {u u' : State} (h : y u = .go u') :
    u'.blk.rev = u.blk.rev ∧ u'.blk.arg = u.blk.arg := by
  simp only [disableWaitLines, List.mem_append, List.mem_cons, List.not_mem_nil, or_false] at hy
  rcases hy with (rfl | hy) | rfl | rfl | rfl
  · cases h; exact ⟨rfl, rfl⟩
  · exact arm_keeps hy h
  · simp only [blockTest] at h
    split at h
    · cases h
    · split at h
      · cases h; exact ⟨rfl, rfl⟩
      · split at h <;> cases h; exact ⟨rfl, rfl⟩
  · simp only [onlyIf, assign] at h; split at h <;> cases h <;> exact ⟨rfl, rfl⟩
  · simp only [onlyIf, setRState, assign] at h; split at h <;> cases h <;> exact ⟨rfl, rfl⟩

/-- `DISABLE_SEQ(p)` by `SEQ`, when its wait, if it waits, times out (R225). `w` gives the wait policy from the
arguments. -/
theorem run_disableSeq (h : Went .seq s0 s b L l) (w : Vector Word 16 → Bool)
    (hrun : waits s0 (w s0.blk.arg) = true → b.lock = .free ∧ (s0.does .seq (l ++ disableAccesses)).env.peek.timeout = true) :
    ∃ s', runAll .seq (disableSeq (fun s => w s.blk.arg) ++ xs) s = runAll .seq xs s' ∧
      Went .seq s0 s'
        (if waits s0 (w s0.blk.arg) then
          { b with rstate := .disabled, frameDoneFlag := false, out := b.out ++ [.logDisableTimeout] }
         else { b with rstate := .disabled }) L (l ++ disableTimedOut s0 (w s0.blk.arg)) := by
  simp only [disableSeq, List.append_assoc]
  obtain ⟨s1, e1, h1⟩ := run_rmw (xs := guarded (fun s => w s.blk.arg && isV2 s) disableWaitLines
    ++ (guarded (fun s => !(w s.blk.arg && isV2 s)) [setRState .disabled] ++ xs)) h .rasterCtrl (fun _ => [(.rasterEn, 0)]) _ rfl
  have hcond : ∀ u : State, u.blk.rev = s0.blk.rev → u.blk.arg = s0.blk.arg → (w u.blk.arg && isV2 u) = waits s0 (w s0.blk.arg) := by
    intro u hr ha; simp only [waits, isV2, hr, ha]
  cases hw : waits s0 (w s0.blk.arg) with
  | true =>
    obtain ⟨hf, ht⟩ := hrun hw
    obtain ⟨s2, e2, h2⟩ := run_disableWait (xs := guarded (fun s => !(w s.blk.arg && isV2 s)) [setRState .disabled] ++ xs) h1 hf ht
    obtain ⟨s3, e3, h3⟩ := run_guarded_skip (xs := xs) (fun s => !(w s.blk.arg && isV2 s)) h2
      (fun u hr ha => by rw [hcond u hr ha, hw]; rfl) [setRState .disabled]
    refine ⟨s3, e1.trans (Eq.trans ?_ (e2.trans e3)), by simpa [disableTimedOut, disableAccesses, hw] using h3⟩
    refine runAll_guarded_true (I := fun u => u.blk.rev = s0.blk.rev ∧ u.blk.arg = s0.blk.arg)
      (fun u hu => by rw [hcond u hu.1 hu.2, hw]) ?_ ⟨h1.rev_eq, by rw [h1.blk, h1.arg]⟩
    intro y hy u u' hu hgo
    have := disableWait_keeps hy hgo
    exact ⟨by rw [bump_blk, this.1, hu.1], by rw [bump_blk, this.2, hu.2]⟩
  | false =>
    obtain ⟨s2, e2, h2⟩ := run_guarded_skip (xs := guarded (fun s => !(w s.blk.arg && isV2 s)) [setRState .disabled] ++ xs)
      (fun s => w s.blk.arg && isV2 s) h1 (fun u hr ha => by rw [hcond u hr ha, hw]) disableWaitLines
    obtain ⟨s3, e3, h3⟩ := run_setRState (xs := xs) h2 .disabled
    refine ⟨s3, e1.trans (e2.trans (Eq.trans ?_ e3)), by simpa [disableTimedOut, disableAccesses, hw] using h3⟩
    exact runAll_onlyIf_true _ _ _ _ _ (by rw [hcond s2 h2.rev_eq (by rw [h2.blk, h2.arg]), hw]; rfl)

/-- The test step of `DISABLE_SEQ`'s wait and what follows it, when it returns: woken, or timed out with a log (R225, R262). -/
theorem run_disableTested {s : State} {xs : List Act} (hf : s.blk.lock = .free) (hr : testReturns s) :
    ∃ s', runAll .seq (disableWaitLines.drop 4 ++ xs) s = runAll .seq xs s' ∧
      Went .seq s s' (testedBlk s) s.seq.loc (testAccesses s) := by
  change ∃ s', runAll .seq (blockTest .frameDone (fun _ => frameDoneTimeoutMs) ::
    onlyIf (fun s => s.seq.loc.timedOut) (assign fun s => s.emit .logDisableTimeout) ::
    onlyIf (fun s => s.blk.rstate == .disablingWaitFrame) (setRState .disabled) :: xs) s = _ ∧ _
  have last : ∀ {u b l}, Went .seq s u b s.seq.loc l →
      ∃ s', runAll .seq (onlyIf (fun s => s.blk.rstate == .disablingWaitFrame) (setRState .disabled) :: xs) u =
          runAll .seq xs s' ∧
        Went .seq s s' { b with rstate := if b.rstate = .disablingWaitFrame then .disabled else b.rstate } s.seq.loc l := by
    intro u b l h
    by_cases hb : b.rstate = .disablingWaitFrame
    · obtain ⟨s', e, w⟩ := run_setRState (xs := xs) h .disabled
      exact ⟨s', (runAll_onlyIf_true _ _ _ _ _ (by rw [h.blk, hb]; rfl)).trans e, by rw [if_pos hb]; exact w⟩
    · obtain ⟨s', e, w⟩ := run_onlyIf_false (xs := xs) h (fun s => s.blk.rstate == .disablingWaitFrame) (setRState .disabled)
        (by simp [h.blk, hb])
      exact ⟨s', e, by rw [if_neg hb]; exact w⟩
  have h0 := went_start .seq s
  cases hfl : s.blk.frameDoneFlag with
  | true =>
    obtain ⟨s1, e1, t1, h1⟩ := run_block_wake (xs := _) h0 .frameDone (fun _ => frameDoneTimeoutMs) hf hfl
    obtain ⟨s2, e2, h2⟩ := run_onlyIf_false (xs := _) h1 (fun s => s.seq.loc.timedOut)
      (assign fun s => s.emit .logDisableTimeout) t1
    obtain ⟨s3, e3, h3⟩ := last h2
    exact ⟨s3, e1.trans (e2.trans e3), by simpa [testedBlk, testAccesses, hfl] using h3⟩
  | false =>
    have ht : s.env.peek.timeout = true := by
      rcases hr with h | h
      · rw [hfl] at h; cases h
      · exact h
    obtain ⟨s1, e1, t1, h1⟩ := run_block_expire (xs := _) h0 .frameDone (fun _ => frameDoneTimeoutMs) hf hfl ht
    obtain ⟨s2, e2, h2⟩ := run_onBlk (xs := onlyIf (fun s => s.blk.rstate == .disablingWaitFrame) (setRState .disabled) :: xs)
      h1 (fun _ b => { b with out := b.out ++ [.logDisableTimeout] }) rfl rfl rfl
    obtain ⟨s3, e3, h3⟩ := last h2
    refine ⟨s3, e1.trans (Eq.trans ?_ (e2.trans e3)), by simpa [testedBlk, testAccesses, hfl] using h3⟩
    exact runAll_onlyIf_true _ _ _ _ _ t1

/-- `DISABLE_SEQ` from its test step on, when it waits and the test returns. -/
theorem run_disableSeqTested {s : State} {xs : List Act} (w : Vector Word 16 → Bool) (hw : waits s (w s.blk.arg) = true)
    (hf : s.blk.lock = .free) (hr : testReturns s) :
    ∃ s', runAll .seq ((disableSeq (fun s => w s.blk.arg)).drop 6 ++ xs) s = runAll .seq xs s' ∧
      Went .seq s s' (testedBlk s) s.seq.loc (testAccesses s) := by
  have hcond : ∀ u : State, u.blk.rev = s.blk.rev → u.blk.arg = s.blk.arg → (w u.blk.arg && isV2 u) = true := by
    intro u hr ha; rw [← hw]; simp only [waits, isV2, hr, ha]
  obtain ⟨s2, e2, h2⟩ := run_disableTested (xs := guarded (fun s => !(w s.blk.arg && isV2 s)) [setRState .disabled] ++ xs) hf hr
  obtain ⟨s3, e3, h3⟩ := run_guarded_skip (xs := xs) (fun s => !(w s.blk.arg && isV2 s)) h2
      (fun u hr ha => by rw [hcond u hr ha]; rfl) [setRState .disabled]
  refine ⟨s3, Eq.trans ?_ (e2.trans e3), h3⟩
  show runAll .seq (guarded (fun s => w s.blk.arg && isV2 s) (disableWaitLines.drop 4) ++
    (guarded (fun s => !(w s.blk.arg && isV2 s)) [setRState .disabled] ++ xs)) s = _
  refine runAll_guarded_true (I := fun u => u.blk.rev = s.blk.rev ∧ u.blk.arg = s.blk.arg)
      (fun u hu => hcond u hu.1 hu.2) ?_ ⟨rfl, rfl⟩
  intro y hy u u' hu hgo
  have := disableWait_keeps (List.mem_of_mem_drop hy) hgo
  exact ⟨by rw [bump_blk, this.1, hu.1], by rw [bump_blk, this.2, hu.2]⟩

/-- `SETWIN_SEQ` (R200) with a free lock; the window comes from the arguments and the vram region. -/
theorem run_setWinSeq (h : Went .seq s0 s b L l) (f g : Vector Word 16 → Vram → Nat) (hf : b.lock = .free) :
    ∃ s', runAll .seq (setWinSeq (fun s => f s.blk.arg s.blk.vram) (fun s => g s.blk.arg s.blk.vram) ++ xs) s
        = runAll .seq xs s' ∧
      Went .seq s0 s'
        { b with win := some (windowOf (f s0.blk.arg s0.blk.vram) (g s0.blk.arg s0.blk.vram)) } L
        (l ++ setWinAccesses s0 (BitVec.ofNat 32 (f s0.blk.arg s0.blk.vram)) (BitVec.ofNat 32 (g s0.blk.arg s0.blk.vram))) := by
  simp only [setWinSeq, List.append_assoc, List.cons_append, List.nil_append]
  have ha : ∀ {b' l' u}, Went .seq s0 u b' L l' → u.blk.arg = s0.blk.arg := fun hu => by rw [hu.blk, hu.arg]
  have hvr : ∀ {b' l' u}, Went .seq s0 u b' L l' → u.blk.vram = s0.blk.vram := fun hu => by rw [hu.blk, hu.vram]
  obtain ⟨s1, e1, h1⟩ := run_acquire (xs := _) h hf
  obtain ⟨s2, e2, h2⟩ := run_onBlk (xs := _) h1
    (fun s b => { b with win := some (windowOf (f s.blk.arg s.blk.vram) (g s.blk.arg s.blk.vram)) }) rfl rfl rfl
  obtain ⟨s3, e3, h3⟩ := run_writeReg (xs := _) h2 .fb0Base (fun s => BitVec.ofNat 32 (f s.blk.arg s.blk.vram))
  obtain ⟨s4, e4, h4⟩ := run_writeReg (xs := _) h3 .fb0Ceil (fun s => BitVec.ofNat 32 (g s.blk.arg s.blk.vram))
  obtain ⟨s5, e5, h5⟩ := run_writeReg (xs := _) h4 .fb1Base (fun s => BitVec.ofNat 32 (f s.blk.arg s.blk.vram))
  obtain ⟨s6, e6, h6⟩ := run_writeReg (xs := _) h5 .fb1Ceil (fun s => BitVec.ofNat 32 (g s.blk.arg s.blk.vram))
  obtain ⟨s7, e7, h7⟩ := run_release (xs := _) h6
  obtain ⟨s8, e8, h8⟩ := run_rmw (xs := _) h7 .dmaCtrl (fun _ => [(.dualFb, 1), (.v1EofIntEn, 1)]) _ rfl
  obtain ⟨s9, e9, h9⟩ := run_writeV2 (xs := xs) h8 .intEnSet (fun s => frameEnables s.cfg s.blk.rev)
  refine ⟨s9, e1.trans (e2.trans (e3.trans (e4.trans (e5.trans (e6.trans (e7.trans (e8.trans e9))))))), ?_⟩
  have hb : ({ b with lock := .free, win := some (windowOf (f s0.blk.arg s0.blk.vram) (g s0.blk.arg s0.blk.vram)) } : Blk)
      = { b with win := some (windowOf (f s0.blk.arg s0.blk.vram) (g s0.blk.arg s0.blk.vram)) } := by
    cases b; simp only at hf; subst hf; rfl
  simp only [ha h1, hvr h1, ha h2, hvr h2, ha h3, hvr h3, ha h4, hvr h4, ha h5, hvr h5, h8.cfg, h8.rev_eq] at h9
  simpa [setWinAccesses_eq, hb] using h9

/-- The locals of a run may be named anew at any point. -/
theorem Went.relabel (h : Went a s0 s b L l) : Went a s0 s b s.seq.loc l :=
  ⟨h.blk, h.lcdc, h.port, h.env, h.cfg, h.busData, h.rev, h.arg, h.vram, rfl, h.seqKept, h.irqdKept, h.status⟩

/-- A line that binds locals. -/
theorem Went.onLoc (h : Went .seq s0 s b L l) (f : Locals → Locals) : Went .seq s0 (s.onLoc f) b (f s.seq.loc) l :=
  ⟨h.blk, h.lcdc, h.port, h.env, h.cfg, h.busData, h.rev, h.arg, h.vram, rfl, (fun x => by cases x), h.irqdKept, h.status⟩

/-- `ClkRate()` (R23). -/
theorem run_clkRate (h : Went .seq s0 s b L l) :
    ∃ s', runAll .seq (clkRateLine :: xs) s = runAll .seq xs s' ∧
      s'.seq.loc = { s.seq.loc with src := (s0.does .seq l).env.peek.rate } ∧
      Went .seq s0 s' b s'.seq.loc (l ++ [.clkRate]) := by
  refine ⟨_, rfl, ?_, ?_⟩
  · simp only [bump_seq_loc, onLoc_seq, record_seq, h.env]
  · have h1 := h.record .clkRate (.clkRate s.env.peek.rate) (fun e => { e.drop with clkRate := s.env.peek.rate })
      (by simp only [State.perform, h.env])
    exact (h1.onLoc fun l => { l with src := s.env.peek.rate }).bump.relabel

/-- `computeDivider` of a request that reads the arguments (R160). -/
theorem run_divider (h : Went .seq s0 s b L l) (hz : Vector Word 16 → Nat) :
    ∃ s', runAll .seq (dividerLine (fun s => hz s.blk.arg) :: xs) s = runAll .seq xs s' ∧
      s'.seq.loc = { s.seq.loc with
        d := (computeDivider (hz s0.blk.arg) s.seq.loc.src).1, clamped := (computeDivider (hz s0.blk.arg) s.seq.loc.src).2 } ∧
      Went .seq s0 s' b s'.seq.loc l := by
  refine ⟨_, rfl, ?_, (h.onLoc _).bump.relabel⟩
  simp only [bump_seq_loc, onLoc_seq, h.blk, h.arg]

/-- `ClkRequest(hz * d)` (R23). -/
theorem run_clkRequest (h : Went .seq s0 s b L l) (hz : Vector Word 16 → Nat) :
    ∃ s', runAll .seq (clkRequestLine (fun s => hz s.blk.arg) :: xs) s = runAll .seq xs s' ∧
      s'.seq.loc = { s.seq.loc with ans := (s0.does .seq l).env.peek.clk } ∧
      Went .seq s0 s' b s'.seq.loc (l ++ [.clkRequest (hz s0.blk.arg * s.seq.loc.d)]) := by
  refine ⟨_, rfl, ?_, ?_⟩
  · simp only [bump_seq_loc, onLoc_seq, record_seq, h.env]
  · have h1 := h.record (.clkRequest (hz s0.blk.arg * s.seq.loc.d))
      (.clkRequest (hz s.blk.arg * s.seq.loc.d) s.env.peek.clk)
      (fun e => { e.drop with clkRate := s.env.peek.clk.getD e.clkRate })
      (by simp only [State.perform, h.env, h.blk, h.arg])
    exact (h1.onLoc fun l => { l with ans := s.env.peek.clk }).bump.relabel

/-- NEGOTIATE (R163) from the first exchange of a command: a zero request and a rejected re-request end the command with
`ClockError`; otherwise the divider and the achieved rate are in the locals. -/
theorem run_negotiate (h : Went .seq s0 s b L []) (hz : Vector Word 16 → Nat) :
    (hz s0.blk.arg = 0 → runAll .seq (negotiate (fun s => hz s.blk.arg) ++ xs) s = s.finish .clockError) ∧
    (hz s0.blk.arg ≠ 0 → ¬negotiates s0 (hz s0.blk.arg) →
      ∃ u L', runAll .seq (negotiate (fun s => hz s.blk.arg) ++ xs) s = u.finish .clockError ∧
        Went .seq s0 u b L' (negotiateAccesses s0 (hz s0.blk.arg))) ∧
    (negotiates s0 (hz s0.blk.arg) →
      ∃ u L', runAll .seq (negotiate (fun s => hz s.blk.arg) ++ xs) s = runAll .seq xs u ∧
        Went .seq s0 u b L' (negotiateAccesses s0 (hz s0.blk.arg)) ∧
        L'.d = (computeDivider (hz s0.blk.arg) (firstRate s0)).1 ∧ L'.a = achieved s0 (hz s0.blk.arg)) := by
  have hne : s.blk.arg = s0.blk.arg := by rw [h.blk, h.arg]
  simp only [negotiate, List.cons_append, List.nil_append]
  refine ⟨fun h0 => by rw [runAll_raiseIf]; simp [hne, h0], ?_⟩
  by_cases h0 : hz s0.blk.arg = 0
  · exact ⟨fun hn => absurd h0 hn, fun hn => absurd h0 hn.1⟩
  obtain ⟨s1, e1, h1⟩ := run_raiseIf_false (xs := clkRateLine :: dividerLine (fun s => hz s.blk.arg) ::
    onlyIf (fun s => s.seq.loc.clamped) (clkRequestLine fun s => hz s.blk.arg) ::
    raiseIf (fun s => s.seq.loc.clamped && s.seq.loc.ans.isNone) .clockError ::
    (assign fun s => s.onLoc fun l => { l with a := if l.clamped then l.ans.getD l.src else l.src }) :: xs) h
    (fun s => hz s.blk.arg == 0) .clockError (by simp [hne, h0])
  obtain ⟨s2, e2, l2, h2⟩ := run_clkRate (xs := dividerLine (fun s => hz s.blk.arg) ::
    onlyIf (fun s => s.seq.loc.clamped) (clkRequestLine fun s => hz s.blk.arg) ::
    raiseIf (fun s => s.seq.loc.clamped && s.seq.loc.ans.isNone) .clockError ::
    (assign fun s => s.onLoc fun l => { l with a := if l.clamped then l.ans.getD l.src else l.src }) :: xs) h1
  obtain ⟨s3, e3, l3, h3⟩ := run_divider (xs :=
    onlyIf (fun s => s.seq.loc.clamped) (clkRequestLine fun s => hz s.blk.arg) ::
    raiseIf (fun s => s.seq.loc.clamped && s.seq.loc.ans.isNone) .clockError ::
    (assign fun s => s.onLoc fun l => { l with a := if l.clamped then l.ans.getD l.src else l.src }) :: xs) h2 hz
  have hsrc : s3.seq.loc.src = firstRate s0 := by rw [l3, l2]; rfl
  have hd : s3.seq.loc.d = (computeDivider (hz s0.blk.arg) (firstRate s0)).1 := by rw [l3, l2]; rfl
  have hc : s3.seq.loc.clamped = (computeDivider (hz s0.blk.arg) (firstRate s0)).2 := by rw [l3, l2]; rfl
  rw [e1, e2, e3, runAll_onlyIf, hc]
  cases hcl : (computeDivider (hz s0.blk.arg) (firstRate s0)).2 with
  | false =>
    refine ⟨fun _ hn => absurd ⟨h0, fun hx => by rw [hcl] at hx; cases hx⟩ hn, fun _ => ?_⟩
    obtain ⟨s4, e4, h4⟩ := run_raiseIf_false (xs :=
      (assign fun s => s.onLoc fun l => { l with a := if l.clamped then l.ans.getD l.src else l.src }) :: xs) h3.bump.relabel
      (fun s => s.seq.loc.clamped && s.seq.loc.ans.isNone) .clockError (by simp [hc, hcl])
    have hl4 : s4.seq.loc.clamped = false ∧ s4.seq.loc.src = firstRate s0 ∧
        s4.seq.loc.d = (computeDivider (hz s0.blk.arg) (firstRate s0)).1 := by
      rw [h4.loc]; simp [hc, hcl, hsrc, hd]
    have h5 := (h4.onLoc fun l => { l with a := if l.clamped then l.ans.getD l.src else l.src }).bump
    exact ⟨_, _, e4, by simpa [negotiateAccesses, hcl] using h5, by simp [hl4.2.2],
      by simp [achieved, hcl, hl4.1, hl4.2.1]⟩
  | true =>
    obtain ⟨s4, e4, l4, h4⟩ := run_clkRequest (xs :=
      raiseIf (fun s => s.seq.loc.clamped && s.seq.loc.ans.isNone) .clockError ::
      (assign fun s => s.onLoc fun l => { l with a := if l.clamped then l.ans.getD l.src else l.src }) :: xs) h3 hz
    have hans : s4.seq.loc.ans = rerequestAnswer s0 := by rw [l4]; rfl
    have hl4 : s4.seq.loc.clamped = true ∧ s4.seq.loc.src = firstRate s0 ∧
        s4.seq.loc.d = (computeDivider (hz s0.blk.arg) (firstRate s0)).1 := by
      rw [l4]; simp [hc, hcl, hsrc, hd]
    have hacc : Went .seq s0 s4 b s4.seq.loc (negotiateAccesses s0 (hz s0.blk.arg)) := by
      simpa [negotiateAccesses, hcl, hd] using h4
    rw [if_pos rfl, e4, runAll_raiseIf, hans, hl4.1]
    refine ⟨fun _ hn => ?_, fun hn => ?_⟩
    · have : (rerequestAnswer s0).isNone = true := by
        cases hr : rerequestAnswer s0 with
        | none => rfl
        | some v => exact absurd ⟨h0, fun _ => by rw [hr]; rfl⟩ hn
      exact ⟨s4, _, by simp [this], hacc⟩
    · have hs := hn.2 hcl
      have : (rerequestAnswer s0).isNone = false := by cases hr : rerequestAnswer s0 <;> simp_all
      refine ⟨_, _, by rw [this]; rfl, (hacc.bump.onLoc fun l => { l with a := if l.clamped then l.ans.getD l.src else l.src }).bump,
        by simp [hl4.2.2], by simp [achieved, hcl, hl4.1, hl4.2.1, hans]⟩

/-- The end of a command (R313). -/
theorem Went.finish (h : Went .seq s0 s b L l) (c : Code) : Ended s0 (s.finish c) b c l :=
  ⟨by rw [finish_blk, h.blk], rfl, h.lcdc, h.port, h.env, h.cfg, h.irqdKept rfl, h.busData⟩

/-- The preconditions of a command that is attached and awake (R314). -/
theorem run_prologue (s : State) (xs : List Act) (h : Awake s) :
    ∃ s', runAll .seq (prologue ++ xs) s = runAll .seq xs s' ∧ Went .seq s s' s.blk s.seq.loc [] := by
  obtain ⟨s1, e1, h1⟩ := run_raiseIf_false (xs := requireAwake :: xs) (went_start .seq s) (fun s => !s.blk.attached)
    .notAttached (by simp [h.1])
  obtain ⟨s2, e2, h2⟩ := run_raiseIf_false (xs := xs) h1 (fun s => s.blk.suspended) .suspended (by rw [h1.blk, h.2])
  exact ⟨s2, e1.trans e2, h2⟩

/-- A command whose lines run through ends in the state they leave. -/
theorem exec_of_run {lines : List Act} {i : Instr} {s : State} {t : State} (hs : AtStart i s) (hpos : 0 < lines.length)
    (hlen : lines.length ≤ fullTurn) (hrun : runAll .seq lines s = t) : seqTurn lines s = .next t := by
  rw [seqTurn_start hs.1 hpos (Nat.le_trans hlen hs.2), hrun]

/-- A command that runs from line `k` to its end ends in the state its lines leave. -/
theorem exec_at {lines : List Act} {i : Instr} {s t : State} {k : Nat} (hs : AtLine i k fullTurn s) (hk : k < lines.length)
    (hlen : lines.length ≤ fullTurn) (hr : runAll .seq (lines.drop k) s = t) : seqTurn lines s = .next t := by
  unfold seqTurn
  rw [hs.1]
  simp only
  rw [if_pos hk, runActs_eq_runAll _ _ _ _ (by have := hs.2; simp; omega), hr]

/-- Running the first lines through, then the rest: how the lemmas above compose. -/
theorem run_chain {ys xs : List Act} {W P : State → Prop} (h : ∃ s', runAll a ys s = runAll a xs s' ∧ W s')
    (k : ∀ s', W s' → ∃ v, runAll a xs s' = v ∧ P v) : ∃ v, runAll a ys s = v ∧ P v := by
  obtain ⟨s', e, w⟩ := h
  obtain ⟨v, e', p⟩ := k s' w
  exact ⟨v, e.trans e', p⟩

/-- The step pointer does not matter to the end of a command. -/
@[simp] theorem bump_finish (s : State) (c : Code) : (bump .seq s).finish c = s.finish c := by
  simp only [Sys2Proof.Machine.bump]; split <;> rfl

end Sys2Proof.Machine
end

