-- ==== Sys2Proof/Laws/Decoder.lean ====
section
/-! SUPPORT. What an activation of the decoder does: which lines of a body run for a status word (R282, R287), one spec
lemma for `RELATCH` (R285), and a whole turn from entry to exit. -/

namespace Sys2Proof.Machine

/-! ## Actions do not read the decoder's own fields -/

/-- What actions do to the LCDC, the environment and the port depends on these, the parameters, the revision and the
vram region alone. -/
theorem does_congr (a : Agent) (l : List Access) : ∀ {u v : State}, u.lcdc = v.lcdc → u.port = v.port → u.env = v.env →
    u.cfg = v.cfg → u.blk.rev = v.blk.rev → u.blk.vram = v.blk.vram →
    (u.does a l).lcdc = (v.does a l).lcdc ∧ (u.does a l).port = (v.does a l).port ∧ (u.does a l).env = (v.does a l).env := by
  induction l with
  | nil => intro u v h1 h2 h3 _ _ _; exact ⟨h1, h2, h3⟩
  | cons x xs ih =>
    intro u v h1 h2 h3 h4 h5 h6
    refine ih ?_ ?_ ?_ (by simpa using h4) (by simpa using h5) (by simpa using h6) <;>
      cases x <;> simp [State.perform, off_eq, readVal_eq, State.readValAt, h1, h2, h3, h4, h5, h6]

/-! ## The bits and the words of Safety.lean are those that the lines read and write -/

theorem nextBit_eq (s : State) (f : Fld) : nextBit s f = statusBit s.cfg s.blk.rev (nextStatus s) f := rfl

theorem paletteEnable_eq (p : Params) (r : Rev) : paletteEnable p r = ins 0#32 (p.pos r .plDone) 1 := bitsOf_one ..

/-! ## Lines that keep the status word read -/

/-- A line that keeps what the case select reads: the parameters, the revision, the status word. -/
def KeepsWord (y : Act) : Prop :=
  ∀ u u', y u = .go u' → u'.cfg = u.cfg ∧ u'.blk.rev = u.blk.rev ∧ u'.irqd.s = u.irqd.s

theorem keepsWord_assign {f : State → State}
    (h : ∀ u, (f u).cfg = u.cfg ∧ (f u).blk.rev = u.blk.rev ∧ (f u).irqd.s = u.irqd.s) : KeepsWord (assign f) := by
  intro u u' hu; cases hu; exact h u

theorem keepsWord_writeReg (g : LReg) (v : State → Word) : KeepsWord (writeReg .irqd g v) := by
  intro u u' hu; cases hu; exact ⟨rfl, rfl, rfl⟩

theorem keepsWord_readTo (g : LReg) : KeepsWord (readTo .irqd g) := by intro u u' hu; cases hu; exact ⟨rfl, rfl, rfl⟩

theorem keepsWord_onlyIf {c : State → Bool} {y : Act} (h : KeepsWord y) : KeepsWord (onlyIf c y) := by
  intro u u' hu
  unfold onlyIf at hu
  split at hu
  · exact h u u' hu
  · cases hu; exact ⟨rfl, rfl, rfl⟩

theorem keepsWord_guarded {c : State → Bool} {ys : List Act} (h : ∀ y ∈ ys, KeepsWord y) :
    ∀ y ∈ guarded c ys, KeepsWord y := by
  intro y hy
  obtain ⟨z, hz, rfl⟩ := List.mem_map.1 hy
  exact keepsWord_onlyIf (h z hz)

theorem keepsWord_append {ys zs : List Act} (h : ∀ y ∈ ys, KeepsWord y) (h' : ∀ y ∈ zs, KeepsWord y) :
    ∀ y ∈ ys ++ zs, KeepsWord y := fun y hy => (List.mem_append.1 hy).elim (h y) (h' y)

theorem keepsWord_cons {y : Act} {ys : List Act} (h : KeepsWord y) (h' : ∀ y ∈ ys, KeepsWord y) :
    ∀ z ∈ y :: ys, KeepsWord z := fun z hz => (List.mem_cons.1 hz).elim (fun e => e ▸ h) (h' z)

theorem keepsWord_nil : ∀ z ∈ ([] : List Act), KeepsWord z := fun _ hz => nomatch hz

theorem keepsWord_rmw (g : LReg) (e : State → List (Fld × Nat)) : ∀ y ∈ rmw .irqd g e, KeepsWord y :=
  keepsWord_cons (keepsWord_readTo g) (keepsWord_cons (keepsWord_writeReg g _) keepsWord_nil)

theorem keepsWord_setRState (r : RState) : KeepsWord (setRState r) := keepsWord_assign fun _ => ⟨rfl, rfl, rfl⟩

theorem keepsWord_delay (ms : Nat) : KeepsWord (delay .irqd ms) := keepsWord_assign fun _ => ⟨rfl, rfl, rfl⟩

theorem keepsWord_disableNow : ∀ y ∈ disableNow .irqd, KeepsWord y :=
  keepsWord_append (keepsWord_rmw _ _) (keepsWord_cons (keepsWord_setRState _) keepsWord_nil)

theorem keepsWord_enableSeq : ∀ y ∈ enableSeq .irqd, KeepsWord y :=
  keepsWord_append (keepsWord_append (keepsWord_append (keepsWord_cons (keepsWord_setRState _) keepsWord_nil)
    (keepsWord_guarded (keepsWord_cons (keepsWord_writeReg _ _) (keepsWord_cons (keepsWord_delay _)
      (keepsWord_cons (keepsWord_writeReg _ _) (keepsWord_cons (keepsWord_delay _) keepsWord_nil))))))
    (keepsWord_rmw _ _)) (keepsWord_cons (keepsWord_setRState _) keepsWord_nil)

theorem keepsWord_relatch (base ceil : LReg) (k : LastDone) : ∀ y ∈ relatch base ceil k, KeepsWord y :=
  keepsWord_append (keepsWord_append (keepsWord_cons (keepsWord_assign fun _ => ⟨rfl, rfl, rfl⟩) keepsWord_nil)
    (keepsWord_guarded (keepsWord_cons (keepsWord_writeReg _ _) (keepsWord_cons (keepsWord_writeReg _ _) keepsWord_nil))))
    (keepsWord_cons (keepsWord_assign fun _ => ⟨rfl, rfl, rfl⟩)
      (keepsWord_cons (keepsWord_assign fun _ => ⟨rfl, rfl, rfl⟩) keepsWord_nil))

theorem keepsWord_callbackLine : KeepsWord callbackLine := keepsWord_assign fun u => by cases u.blk.cb <;> exact ⟨rfl, rfl, rfl⟩

theorem keepsWord_v1Fault : ∀ y ∈ v1Fault, KeepsWord y :=
  keepsWord_append (keepsWord_append (keepsWord_append keepsWord_disableNow
    (keepsWord_cons (keepsWord_writeReg _ _) keepsWord_nil)) (keepsWord_rmw _ _))
    (keepsWord_cons (keepsWord_assign fun _ => ⟨rfl, rfl, rfl⟩) keepsWord_nil)

theorem keepsWord_v1Frame : ∀ y ∈ v1Frame, KeepsWord y :=
  keepsWord_append (keepsWord_append (keepsWord_cons (keepsWord_writeReg _ _) keepsWord_nil)
    (keepsWord_guarded (keepsWord_relatch _ _ _))) (keepsWord_guarded (keepsWord_relatch _ _ _))

theorem keepsWord_v2Fault : ∀ y ∈ v2Fault, KeepsWord y :=
  keepsWord_append (keepsWord_append keepsWord_disableNow (keepsWord_cons (keepsWord_writeReg _ _) keepsWord_nil))
    keepsWord_enableSeq

theorem keepsWord_v2Palette : ∀ y ∈ v2Palette, KeepsWord y :=
  keepsWord_append (keepsWord_append keepsWord_disableNow (keepsWord_cons (keepsWord_writeReg _ _)
    (keepsWord_cons (keepsWord_writeReg _ _) (keepsWord_cons (keepsWord_assign fun _ => ⟨rfl, rfl, rfl⟩) keepsWord_nil))))
    keepsWord_enableSeq

theorem keepsWord_v2Frame : ∀ y ∈ v2Frame, KeepsWord y :=
  keepsWord_append (keepsWord_append (keepsWord_append (keepsWord_cons (keepsWord_writeReg _ _) keepsWord_nil)
    (keepsWord_guarded (keepsWord_append (keepsWord_relatch _ _ _) (keepsWord_cons keepsWord_callbackLine keepsWord_nil))))
    (keepsWord_guarded (keepsWord_append (keepsWord_relatch _ _ _) (keepsWord_cons keepsWord_callbackLine keepsWord_nil))))
    (keepsWord_guarded (keepsWord_cons (keepsWord_assign fun _ => ⟨rfl, rfl, rfl⟩) keepsWord_nil))

/-! ## Lines under a condition on the status word -/

section
variable {s0 s : State} {b : Blk} {L : Locals} {l : List Access} {xs : List Act}

/-- A condition on the parameters, the revision and the status word read. -/
def readsWord (f : Params → Rev → Word → Bool) (u : State) : Bool := f u.cfg u.blk.rev u.irqd.s

/-- Lines under a condition on the status word that holds run as they are. -/
theorem run_word_true (h : Went .irqd s0 s b L l) (f : Params → Rev → Word → Bool)
    (hf : f s0.cfg s0.blk.rev s0.irqd.s = true) {ys : List Act} (hk : ∀ y ∈ ys, KeepsWord y) :
    runAll .irqd (guarded (readsWord f) ys ++ xs) s = runAll .irqd (ys ++ xs) s := by
  refine runAll_guarded_true (I := fun u => readsWord f u = true) (fun _ hu => hu) ?_ ?_
  · intro y hy u u' hu hgo
    obtain ⟨h1, h2, h3⟩ := hk y hy u u' hgo
    simp only [readsWord, bump_cfg, bump_blk, bump_irqd_s] at hu ⊢
    rw [h1, h2, h3]; exact hu
  · simp only [readsWord, h.cfg, h.rev_eq, h.status]; exact hf

/-- Lines under a condition on the status word that fails do nothing. -/
theorem run_word_false (f : Params → Rev → Word → Bool) (hf : f s0.cfg s0.blk.rev s0.irqd.s = false) (ys : List Act) :
    Went .irqd s0 s b L l →
      ∃ s', runAll .irqd (guarded (readsWord f) ys ++ xs) s = runAll .irqd xs s' ∧ Went .irqd s0 s' b L l := by
  induction ys generalizing s with
  | nil => intro h; exact ⟨s, rfl, h⟩
  | cons y ys ih =>
    intro h
    obtain ⟨s', h1, h2⟩ := ih (s := bump .irqd s) h.bump
    have hs : readsWord f s = false := by simp only [readsWord, h.cfg, h.rev_eq, h.status]; exact hf
    refine ⟨s', ?_, h2⟩
    rw [← h1]
    simp only [guarded, List.map_cons, List.cons_append, runAll_onlyIf, hs, Bool.false_eq_true, if_false]

/-- `RELATCH(k)` (R285) runs through: the window goes into the slot if there is one, and the slot is recorded. -/
theorem run_relatch (h : Went .irqd s0 s b L l) (base ceil : LReg) (k : LastDone) :
    ∃ s', runAll .irqd (relatch base ceil k ++ xs) s = runAll .irqd xs s' ∧
      Went .irqd s0 s' { b with lastDone := k, vsyncFlag := true } L (l ++ relatchAccesses b base ceil) := by
  have h0 : Went .irqd s0 (bump .irqd { s with irqd := { s.irqd with w := s.blk.win } }) b L l :=
    Went.bump ⟨h.blk, h.lcdc, h.port, h.env, h.cfg, h.busData, h.rev, h.arg, h.vram, h.loc, h.seqKept,
      (fun e => nomatch e), h.status⟩
  have hw0 : (bump .irqd { s with irqd := { s.irqd with w := s.blk.win } }).irqd.w = b.win := by simp [h.blk]
  have h2 : ∃ s', runAll .irqd (relatch base ceil k ++ xs) s = runAll .irqd
      ((assign fun s => s.onBlk fun b => { b with lastDone := k }) ::
        (assign fun s => s.onBlk fun b => { b with vsyncFlag := true }) :: xs) s' ∧
      Went .irqd s0 s' b L (l ++ relatchAccesses b base ceil) := by
    simp only [relatch, guarded, List.map_cons, List.map_nil, List.cons_append, List.nil_append, runAll_assign]
    generalize bump .irqd { s with irqd := { s.irqd with w := s.blk.win } } = u at h0 hw0
    cases hb : b.win with
    | none =>
      refine ⟨bump .irqd (bump .irqd u), ?_, by simpa [relatchAccesses, hb] using h0.bump.bump⟩
      rw [runAll_onlyIf, hw0, hb, if_neg (by simp), runAll_onlyIf, bump_irqd_w, hw0, hb, if_neg (by simp)]
      rfl
    | some w =>
      have hw1 : (bump .irqd (u.regWrite .irqd base w.start)).irqd.w = some w := by simp [hw0, hb]
      refine ⟨_, ?_, by simpa [relatchAccesses, hb] using ((h0.regWrite base w.start).bump.regWrite ceil w.last).bump⟩
      rw [runAll_onlyIf_true _ _ _ _ _ (by rw [hw0, hb]; rfl), runAll_writeReg, hw0, hb, Option.map_some, Option.getD_some,
        runAll_onlyIf_true _ _ _ _ _ (by rw [hw1]; rfl), runAll_writeReg, hw1, Option.map_some, Option.getD_some]
      rfl
  obtain ⟨s2, e2, h2⟩ := h2
  obtain ⟨s3, e3, h3⟩ := run_onBlk (xs := (assign fun s => s.onBlk fun b => { b with vsyncFlag := true }) :: xs) h2
    (fun _ b => { b with lastDone := k }) rfl rfl rfl
  obtain ⟨s4, e4, h4⟩ := run_onBlk (xs := xs) h3 (fun _ b => { b with vsyncFlag := true }) rfl rfl rfl
  exact ⟨s4, e2.trans (e3.trans e4), h4⟩

/-- The callback step (R290, R267). -/
theorem run_callback (h : Went .irqd s0 s b L l) :
    ∃ s', runAll .irqd (callbackLine :: xs) s = runAll .irqd xs s' ∧
      Went .irqd s0 s' { b with out := b.out ++ callbackEvents b } L l := by
  have hb : callbackEvents b = [] → ({ b with out := b.out ++ callbackEvents b } : Blk) = b := fun e => by rw [e, List.append_nil]
  rcases hc : b.cb with _ | p
  · refine ⟨bump .irqd s, by simp [callbackLine, h.blk, hc], ?_⟩
    have : Went .irqd s0 (bump .irqd s) { b with out := b.out ++ callbackEvents b } L l := by
      rw [hb (by simp [callbackEvents, hc])]; exact h.bump
    exact hc ▸ this
  · obtain ⟨fn, ctx⟩ := p
    obtain ⟨s1, e1, h1⟩ := run_onBlk (xs := xs) h (fun _ b => { b with out := b.out ++ [.vsyncCallback fn ctx] }) rfl rfl rfl
    refine ⟨s1, ?_, by simpa [callbackEvents, hc] using h1⟩
    rw [← e1, callbackLine, runAll_assign, runAll_assign, h.blk, hc]; rfl

end

/-! ## A whole activation -/

/-- A turn of a whole activation, from the entry on (R280, R281). -/
theorem irqdTurn_start {s : State} (hm : mayActivate s = true) (hp : s.irqd.pc = .idle) :
    irqdTurn fullTurn s = .next (runAll .irqd (irqBody s.blk.rev) (activate s)) := by
  have h1 : (activate s).irqd.pc = .run s.blk.rev 0 := rfl
  have h2 : 0 < (irqBody s.blk.rev).length ∧ (irqBody s.blk.rev).length ≤ 199 := by cases s.blk.rev <;> decide
  have h3 : irqdTurn fullTurn s = irqdContinue 199 (activate s) := by simp only [irqdTurn, hp, hm, if_true]; rfl
  rw [h3]
  simp only [irqdContinue, h1, h2.1, if_true, List.drop_zero]
  rw [runActs_eq_runAll _ _ _ _ h2.2]

/-- The state in which an activation has entered and read its status word (R281, R282, R287). -/
def entered (s : State) (g : LReg) : State :=
  bump .irqd { (activate s).afterRead .irqd g with irqd := { (activate s).irqd with s := nextStatus s } }

/-- A status register returns the next answer of the environment (R45). -/
theorem readVal_status (s : State) {g : LReg} (hg : g = .stat ∨ g = .maskedStat) : s.readVal g = s.env.peek.word := by
  rcases hg with rfl | rfl <;> rfl

/-- The first line of a body. -/
theorem runAll_readStatus (s : State) {g : LReg} (hg : g = .stat ∨ g = .maskedStat) (xs : List Act) :
    runAll .irqd (readStatus g :: xs) (activate s) = runAll .irqd xs (entered s g) := by
  rw [readStatus, runAll_assign, readVal_status _ hg]; rfl

/-- The last line of a body: an activation that has acted by `l` since its read of `g` has ended (R292). -/
theorem served_of_went {s u : State} {g : LReg} {b : Blk} {L : Locals} {l : List Access} (h : Went .irqd (entered s g) u b L l) :
    ∃ t, runAll .irqd [exitLine] u = t ∧ Served s t { b with irqActive := false, lock := .free } (.read g :: l) := by
  refine ⟨_, rfl, ?_⟩
  obtain ⟨h1, h2, h3⟩ := does_congr .irqd l (u := entered s g) (v := s.perform .irqd (.read g)) (by simp [entered, activate, State.perform])
    (by simp [entered, activate, State.perform, off_eq, readVal_eq]) (by simp [entered, activate, State.perform]) (by simp [entered, activate])
    (by simp [entered, activate]) (by simp [entered, activate])
  rw [runAll_exitLine]
  exact ⟨by simp [h.blk], rfl, h.lcdc.trans h1, h.port.trans h2, h.env.trans h3, h.cfg.trans (by simp [entered, activate]),
    (h.seqKept rfl).trans (by simp [entered, activate]), h.busData.trans (by simp [entered, activate])⟩

end Sys2Proof.Machine
end

