-- ==== Sys2Proof/Laws/Lines.lean ====
section
/-! SUPPORT. What one line of `SEQ` can do: where it leaves the step pointer (R26), and which lines can leave the sequencer
where it is: an `Acquire` while the lock is held (R42) and a `Block` that does not return (R262), at the lines that
`acquireLines` and `blockLines` list. -/

namespace Sys2Proof.Machine

/-! ## Where a line leaves the step pointer -/

/-- A line that goes on or stays leaves the step pointer to its driver, and one that ends the command leaves it `Idle`
(R26). -/
structure MovesPc (y : Act) : Prop where
  go : ∀ u u', y u = .go u' → u'.seq.pc = u.seq.pc
  stay : ∀ u u', y u = .stay u' → u'.seq.pc = u.seq.pc
  stop : ∀ u u', y u = .stop u' → u'.seq.pc = .idle

theorem movesPc_assign {f : State → State} (h : ∀ u, (f u).seq.pc = u.seq.pc) : MovesPc (assign f) :=
  ⟨fun u _ e => by cases e; exact h u, fun _ _ e => (nomatch e), fun _ _ e => (nomatch e)⟩

theorem movesPc_finishWith (c : Code) : MovesPc (finishWith c) :=
  ⟨fun _ _ e => (nomatch e), fun _ _ e => (nomatch e), fun _ _ e => by cases e; rfl⟩

theorem movesPc_raiseIf (c : State → Bool) (e : Code) : MovesPc (raiseIf c e) := by
  constructor <;> intro u u' h <;> unfold raiseIf at h <;> split at h <;> cases h <;> rfl

theorem movesPc_finishIf (c : State → Bool) : MovesPc (finishIf c) := by
  constructor <;> intro u u' h <;> unfold finishIf at h <;> split at h <;> cases h <;> rfl

theorem movesPc_acquire : MovesPc acquire := by
  constructor <;> intro u u' h <;> unfold acquire at h <;> split at h <;> cases h <;> rfl

theorem movesPc_blockTest (e : WaitEvent) (b : State → Nat) : MovesPc (blockTest e b) := by
  constructor <;> intro u u' h <;> unfold blockTest at h <;> (repeat' split at h) <;> cases h <;> rfl

theorem movesPc_onlyIf {c : State → Bool} {y : Act} (hy : MovesPc y) : MovesPc (onlyIf c y) := by
  constructor <;> intro u u' h <;> unfold onlyIf at h <;> split at h
  · exact hy.go _ _ h
  · cases h; rfl
  · exact hy.stay _ _ h
  · cases h
  · exact hy.stop _ _ h
  · cases h

theorem movesPc_lines (c : Option Instr) : ∀ y ∈ linesOf c, MovesPc y := by
  have hw : ∀ g v, MovesPc (writeReg .seq g v) := fun _ _ => movesPc_assign fun _ => rfl
  have hr : ∀ g, MovesPc (readTo .seq g) := fun _ => movesPc_assign fun _ => rfl
  have hs : ∀ g e, MovesPc (writeEdited .seq g e) := fun _ _ => movesPc_assign fun _ => rfl
  rcases c with _ | i
  · intro y hy
    simp only [linesOf, illegalLines, List.mem_singleton] at hy
    subst hy
    exact movesPc_finishWith _
  · cases i <;> intro y hy <;>
    simp only [linesOf, attachLines, detachLines, regReadLines, regWriteLines, setClockLines, programHsyncLines,
      programVsyncLines, programFrameGeometryLines, programDisplayModeLines, programAcBiasLines, modeSetLines,
      setWindowLines, panLines, enableLines, disableLines, waitVsyncLines, waitPaletteLines, registerCbLines,
      unregisterCbLines, suspendLines, resumeLines, prologue, negotiate, hsyncSeq, vsyncSeq, geometrySeq, displayModeSeq,
      acbSeq, setWinSeq, panSlot, enableSeq, softResetLines, disableSeq, disableWaitLines, arm, waitLines, cbLines,
      modeChecks, modeCommit, modeProgram, rmw, guarded, List.map_append, List.map_cons, List.map_nil, List.mem_append,
      List.mem_cons, List.not_mem_nil, or_false, or_assoc] at hy <;>
    (repeat' (rcases hy with rfl | hy)) <;>
    (repeat'
      first
        | exact hw _ _ | exact hr _ | exact hs _ _ | exact movesPc_raiseIf _ _ | exact movesPc_finishIf _
        | exact movesPc_finishWith _ | exact movesPc_acquire | exact movesPc_blockTest _ _ | apply movesPc_onlyIf
        | exact movesPc_assign fun _ => rfl
        | (refine movesPc_assign fun _ => ?_; simp only [State.regWriteAt]; split <;> rfl))

/-- Running lines from line `k` of a command ends it or leaves the step pointer at that line or a later one. -/
theorem runActs_pc (l : List Act) (h : ∀ y ∈ l, MovesPc y) : ∀ (n : Nat) (s : State) (c : Option Instr) (k : Nat),
    s.seq.pc = .run c k →
    ((runActs .seq l n s).seq.pc = .idle ∨ ∃ k', k ≤ k' ∧ (runActs .seq l n s).seq.pc = .run c k') := by
  induction l with
  | nil => exact fun n s c k hp => .inr ⟨k, Nat.le_refl _, by simpa using hp⟩
  | cons x xs ih =>
    intro n s c k hp
    cases n with
    | zero => exact .inr ⟨k, Nat.le_refl _, by simpa using hp⟩
    | succ n =>
      simp only [runActs]
      have hx := h x (by simp)
      cases hr : x s with
      | go s' =>
        have h2 : (bump .seq s').seq.pc = .run c (k + 1) := by rw [bump]; simp only [hx.go _ _ hr, hp]
        exact (ih (fun y hy => h y (by simp [hy])) n _ c (k + 1) h2).imp_right fun ⟨k', h3, h4⟩ =>
          ⟨k', by omega, h4⟩
      | stay s' => exact .inr ⟨k, Nat.le_refl _, by rw [hx.stay _ _ hr, hp]⟩
      | stop s' => exact .inl (hx.stop _ _ hr)

/-- If the first line does not stay, the step pointer has gone past it. -/
theorem runActs_pc_past {x : Act} {xs : List Act} (h : ∀ y ∈ x :: xs, MovesPc y) {n : Nat} {s : State} {c : Option Instr}
    {k : Nat} (hp : s.seq.pc = .run c k) (hns : ∀ u, x s ≠ .stay u) :
    ((runActs .seq (x :: xs) (n + 1) s).seq.pc = .idle ∨
      ∃ k', k < k' ∧ (runActs .seq (x :: xs) (n + 1) s).seq.pc = .run c k') := by
  simp only [runActs]
  have hx := h x (by simp)
  cases hr : x s with
  | go s' =>
    have h2 : (bump .seq s').seq.pc = .run c (k + 1) := by rw [bump]; simp only [hx.go _ _ hr, hp]
    exact (runActs_pc xs (fun y hy => h y (by simp [hy])) n _ c (k + 1) h2).imp_right fun ⟨k', h3, h4⟩ =>
      ⟨k', by omega, h4⟩
  | stay s' => exact absurd hr (hns _)
  | stop s' => exact .inl (hx.stop _ _ hr)

/-! ## When a line stays -/

section
variable (u u' : State)

@[simp] theorem assign_stay (f : State → State) : assign f u = .stay u' ↔ False := ⟨nofun, nofun⟩
@[simp] theorem finishWith_stay (c : Code) : finishWith c u = .stay u' ↔ False := ⟨nofun, nofun⟩
@[simp] theorem readTo_stay (a : Agent) (g : LReg) : readTo a g u = .stay u' ↔ False := ⟨nofun, nofun⟩
@[simp] theorem writeReg_stay (a : Agent) (g : LReg) (v : State → Word) : writeReg a g v u = .stay u' ↔ False :=
  ⟨nofun, nofun⟩
@[simp] theorem writeEdited_stay (a : Agent) (g : LReg) (e : State → List (Fld × Nat)) :
    writeEdited a g e u = .stay u' ↔ False := ⟨nofun, nofun⟩
@[simp] theorem release_stay : release u = .stay u' ↔ False := ⟨nofun, nofun⟩
@[simp] theorem delay_stay (a : Agent) (ms : Nat) : delay a ms u = .stay u' ↔ False := ⟨nofun, nofun⟩
@[simp] theorem setRState_stay (r : RState) : setRState r u = .stay u' ↔ False := ⟨nofun, nofun⟩

@[simp] theorem raiseIf_stay (c : State → Bool) (e : Code) : raiseIf c e u = .stay u' ↔ False := by
  unfold raiseIf; split <;> simp

@[simp] theorem finishIf_stay (c : State → Bool) : finishIf c u = .stay u' ↔ False := by unfold finishIf; split <;> simp

@[simp] theorem onlyIf_stay (c : State → Bool) (y : Act) : onlyIf c y u = .stay u' ↔ c u = true ∧ y u = .stay u' := by
  unfold onlyIf; split <;> simp_all

@[simp] theorem acquire_stay : acquire u = .stay u' ↔ u.blk.lock ≠ .free ∧ u = u' := by unfold acquire; split <;> simp_all

@[simp] theorem blockTest_stay (e : WaitEvent) (bound : State → Nat) :
    blockTest e bound u = .stay u' ↔
      (u.blk.lock ≠ .free ∧ u = u') ∨
      (u.blk.lock = .free ∧ u.blk.flag e = false ∧ u.env.peek.timeout = false ∧ u.dropDraw = u') := by
  unfold blockTest; (repeat' split) <;> simp_all

end

/-- `P k x` for each act `x` of a list, `k` being its line number, the first one's `k0`. -/
def EachLine (P : Nat → Act → Prop) : Nat → List Act → Prop
  | _, [] => True
  | k0, x :: xs => P k0 x ∧ EachLine P (k0 + 1) xs

theorem EachLine.get {P : Nat → Act → Prop} {y : Act} : ∀ {l : List Act} {k0 k : Nat}, EachLine P k0 l →
    l[k]? = some y → P (k0 + k) y
  | [], _, _, _, h => by simp at h
  | _ :: _, _, 0, h, e => by cases e; exact h.1
  | _ :: xs, k0, k + 1, h, e => by
    have := EachLine.get (l := xs) (k0 := k0 + 1) (k := k) h.2 e
    rwa [show k0 + 1 + k = k0 + (k + 1) by omega] at this

/-- What stays at line `k` of the command `i`. -/
def StaysAt (i : Instr) (u u' : State) (k : Nat) (y : Act) : Prop :=
  y u = .stay u' → ((i, k) ∈ acquireLines ∧ u.blk.lock ≠ .free) ∨
    ∃ e, (i, k, e) ∈ blockLines ∧ (u.blk.lock ≠ .free ∨ u.blk.flag e = false)

theorem staysAt_lines (i : Instr) (u u' : State) : EachLine (StaysAt i u u') 0 (linesOf (some i)) := by
  cases i <;>
  simp only [linesOf, attachLines, detachLines, regReadLines, regWriteLines, setClockLines, programHsyncLines,
    programVsyncLines, programFrameGeometryLines, programDisplayModeLines, programAcBiasLines, modeSetLines, setWindowLines,
    panLines, enableLines, disableLines, waitVsyncLines, waitPaletteLines, registerCbLines, unregisterCbLines, suspendLines,
    resumeLines, prologue, requireAttached, requireAwake, negotiate, hsyncSeq, vsyncSeq, geometrySeq, displayModeSeq, acbSeq,
    setWinSeq, panSlot, panCompute, panRecord, enableSeq, softResetLines, disableSeq, disableWaitLines, arm, waitLines,
    boundLine, cbLines, modeChecks, modeCommit, modeProgram, rmw, guarded, detectLine, vramAllocLine, clkRateLine,
    dividerLine, clkRequestLine, ctrlLine, dividerRecordLine, List.map_cons, List.map_nil, List.cons_append,
    List.nil_append, EachLine, StaysAt, assign_stay, finishWith_stay, readTo_stay, writeReg_stay,
    writeEdited_stay, release_stay, delay_stay, setRState_stay, raiseIf_stay, finishIf_stay, onlyIf_stay, and_false,
    false_implies, and_true, true_and, Nat.zero_add, Nat.reduceAdd, acquire_stay, blockTest_stay] <;>
  simp only [acquireLines, blockLines, List.mem_cons, List.not_mem_nil, Prod.mk.injEq, reduceCtorEq, Nat.reduceEqDiff,
    OfNat.ofNat_ne_zero, Nat.succ_ne_self, false_and, and_false, true_and, and_true, or_false, false_or, exists_eq_left] <;>
  tauto

/-- A line that stays is an `Acquire` of the list `acquireLines` with the lock held, or a `Block` of the list `blockLines`
with the lock held or its flag 0. -/
theorem line_stays {c : Option Instr} {k : Nat} {y : Act} {u u' : State} (hk : (linesOf c)[k]? = some y)
    (h : y u = .stay u') :
    ∃ i, c = some i ∧ (((i, k) ∈ acquireLines ∧ u.blk.lock ≠ .free) ∨
      ∃ e, (i, k, e) ∈ blockLines ∧ (u.blk.lock ≠ .free ∨ u.blk.flag e = false)) := by
  rcases c with _ | i
  · match k, hk with
    | 0, hk => cases hk; cases h
    | k + 1, hk => simp [linesOf, illegalLines] at hk
  · refine ⟨i, rfl, ?_⟩
    have := (staysAt_lines i u u').get hk
    rw [Nat.zero_add] at this
    exact this h

/-- A move of the sequencer inside a command leaves the step pointer at its line or a later one, or `Idle`; if the step was
enabled and was taken, it has gone past the line. -/
theorem seqTurn_pc {c : Option Instr} {k : Nat} {s t : State} (hp : s.seq.pc = .run c k)
    (h : seqTurn (linesOf c) s = .next t) :
    k < (linesOf c).length ∧ (t.seq.pc = .idle ∨ ∃ k', k ≤ k' ∧ t.seq.pc = .run c k') ∧
      (0 < s.seq.turn → seqEnabled s → (t.seq.pc = .idle ∨ ∃ k', k < k' ∧ t.seq.pc = .run c k')) := by
  unfold seqTurn at h
  simp only [hp] at h
  split at h
  · rename_i hk
    cases h
    refine ⟨hk, runActs_pc _ (fun y hy => movesPc_lines c y (List.mem_of_mem_drop hy)) _ _ c k hp, fun hn he => ?_⟩
    obtain ⟨m, hm⟩ : ∃ m, s.seq.turn = m + 1 := ⟨s.seq.turn - 1, by omega⟩
    have hd : (linesOf c).drop k = (linesOf c)[k] :: (linesOf c).drop (k + 1) := List.drop_eq_getElem_cons hk
    rw [hd, hm]
    refine runActs_pc_past (fun y hy => movesPc_lines c y (List.mem_of_mem_drop (by rw [hd]; exact hy))) hp fun u hu => ?_
    obtain ⟨i, rfl, ⟨h1, h2⟩ | ⟨e, h1, h2⟩⟩ := line_stays (List.getElem?_eq_getElem hk) hu
    · exact h2 (he.2.1 ⟨_, h1, hp⟩)
    · have := he.2.2 e ⟨i, k, h1, hp⟩
      rcases h2 with h2 | h2
      · exact h2 this.1
      · exact absurd (this.2.symm.trans h2) (by decide)
  · cases h

/-- The meaning of every command runs its lines. -/
theorem exec_eq_seqTurn (i : Instr) (s : State) : exec i s = seqTurn (linesOf (some i)) s := by cases i <;> rfl

end Sys2Proof.Machine
end

