-- ==== Sys2Proof/Laws/PerInstr.lean ====
section
/-! SUPPORT. The family `Opcode`: what holds of the command word of each instruction (R122, R126), one lemma per constructor;
and that the well-formed words are those the decoder reads (R127). -/

namespace Sys2Proof.Laws

/-- R122, R126: the command word is well formed (its `RSV` bits are 0 and its opcode is assigned), it is the opcode
zero-extended, and it is little-endian on the byte lanes (R63). -/
def Opcode.Statement (i : Instr) : Prop :=
  wordWellFormed (encode i) = true ∧ (encode i).toNat = opcodeOf i ∧
    encodeBytes i = [BitVec.ofNat 8 (opcodeOf i), 0#8, 0#8, 0#8]

theorem Opcode.attach : Opcode.Statement .attach := by unfold Opcode.Statement; decide
theorem Opcode.detach : Opcode.Statement .detach := by unfold Opcode.Statement; decide
theorem Opcode.regRead : Opcode.Statement .regRead := by unfold Opcode.Statement; decide
theorem Opcode.regWrite : Opcode.Statement .regWrite := by unfold Opcode.Statement; decide
theorem Opcode.setClock : Opcode.Statement .setClock := by unfold Opcode.Statement; decide
theorem Opcode.programHsync : Opcode.Statement .programHsync := by unfold Opcode.Statement; decide
theorem Opcode.programVsync : Opcode.Statement .programVsync := by unfold Opcode.Statement; decide
theorem Opcode.programFrameGeometry : Opcode.Statement .programFrameGeometry := by unfold Opcode.Statement; decide
theorem Opcode.programDisplayMode : Opcode.Statement .programDisplayMode := by unfold Opcode.Statement; decide
theorem Opcode.programAcBias : Opcode.Statement .programAcBias := by unfold Opcode.Statement; decide
theorem Opcode.modeSet : Opcode.Statement .modeSet := by unfold Opcode.Statement; decide
theorem Opcode.setWindow : Opcode.Statement .setWindow := by unfold Opcode.Statement; decide
theorem Opcode.pan : Opcode.Statement .pan := by unfold Opcode.Statement; decide
theorem Opcode.enable : Opcode.Statement .enable := by unfold Opcode.Statement; decide
theorem Opcode.disable : Opcode.Statement .disable := by unfold Opcode.Statement; decide
theorem Opcode.waitVsync : Opcode.Statement .waitVsync := by unfold Opcode.Statement; decide
theorem Opcode.waitPalette : Opcode.Statement .waitPalette := by unfold Opcode.Statement; decide
theorem Opcode.registerCb : Opcode.Statement .registerCb := by unfold Opcode.Statement; decide
theorem Opcode.unregisterCb : Opcode.Statement .unregisterCb := by unfold Opcode.Statement; decide
theorem Opcode.suspend : Opcode.Statement .suspend := by unfold Opcode.Statement; decide
theorem Opcode.resume : Opcode.Statement .resume := by unfold Opcode.Statement; decide

/-- R126, R127: an opcode is assigned exactly when the opcode map gives it a command. -/
theorem opcodeAssigned_iff : ∀ n < 256, opcodeAssigned n = (decodeOpcode n).isSome := by decide +kernel

/-- R127: a word is well formed exactly when it decodes to a command. -/
theorem wordWellFormed_iff_decode (w : Word) : wordWellFormed w = (decode? w).isSome := by
  have h := opcodeAssigned_iff (w.toNat % 256) (Nat.mod_lt _ (by decide))
  simp only [wordWellFormed, rsvClear, decode?, decodeWord, h]
  by_cases hr : w.toNat / 256 = 0
  · rw [if_neg (not_not_intro hr)]
    cases decodeOpcode (w.toNat % 256) <;> simp [hr, Except.toOption]
  · simp [hr, Except.toOption]

end Sys2Proof.Laws
end

