-- ==== Sys2Proof/Laws/Waiting.lean ====
section
/-! SUPPORT. Where a turn of the sequencer ends when a line stays: at an `Acquire` with the lock held (R42), or at the test
step of a `Block` (R262); and what `DISABLE_SEQ` has done by then (R225). -/

namespace Sys2Proof.Machine

variable {s s0 : State} {b : Blk} {L : Locals} {l : List Access} {P : State → Prop}

/-- Lines that every continuation follows all go on: if one of them stopped or stayed, two constant continuations could not
end in different states. -/
theorem run_through {ls : List Act} : ∀ {s : State} {c : Option Instr} {k : Nat}, (∀ y ∈ ls, MovesPc y) →
    s.seq.pc = .run c k → (∀ xs, ∃ s', runAll .seq (ls ++ xs) s = runAll .seq xs s' ∧ P s') →
    ∃ s', (∀ xs, runAll .seq (ls ++ xs) s = runAll .seq xs s') ∧ P s' ∧ s'.seq.pc = .run c (k + ls.length) := by
  have hfin : ∀ {s : State} {ls : List Act}, (∀ xs, ∃ s', runAll .seq (ls ++ xs) s = runAll .seq xs s' ∧ P s') →
      ∀ t, runAll .seq (ls ++ [fun _ => .stop t]) s = t := fun h t => by obtain ⟨s', e, -⟩ := h [fun _ => .stop t]; exact e
  induction ls with
  | nil =>
    intro s c k _ hp h
    obtain ⟨s', e, hP⟩ := h [fun u => .stop u]
    cases e
    exact ⟨s, fun _ => rfl, hP, hp⟩
  | cons y ys ih =>
    intro s c k hm hp h
    have hone := hfin h (bump .seq s)
    have htwo := hfin h s
    have hne : bump .seq s ≠ s := by
      intro e
      have := congrArg (fun u => u.seq.pc) e
      simp only [bump, hp] at this
      cases this
    cases hy : y s with
    | stay u => simp only [List.cons_append, runAll, hy] at hone htwo; exact absurd (hone.symm.trans htwo) hne
    | stop u => simp only [List.cons_append, runAll, hy] at hone htwo; exact absurd (hone.symm.trans htwo) hne
    | go u =>
      have hpc : (bump .seq u).seq.pc = .run c (k + 1) := by
        rw [bump]; simp only [(hm y (by simp)).go _ _ hy, hp]
      have hrun : ∀ xs, runAll .seq (y :: ys ++ xs) s = runAll .seq (ys ++ xs) (bump .seq u) := fun xs => by
        simp only [List.cons_append, runAll, hy]
      obtain ⟨s', e, hP, hk⟩ := ih (fun z hz => hm z (by simp [hz])) hpc fun xs => by
        obtain ⟨s', e, hP⟩ := h xs; exact ⟨s', (hrun xs).symm.trans e, hP⟩
      exact ⟨s', fun xs => (hrun xs).trans (e xs), hP, by rw [hk, List.length_cons]; congr 1; omega⟩

/-- A command whose line `x` stays, after the lines `ls` before it have gone on, ends its turn there. -/
theorem exec_stays {i : Instr} {x : Act} {ls rest : List Act} {f : State → State} (hs : AtStart i s)
    (hl : linesOf (some i) = ls ++ x :: rest) (hlen : (linesOf (some i)).length ≤ fullTurn)
    (h : ∀ xs, ∃ s', runAll .seq (ls ++ xs) s = runAll .seq xs s' ∧ P s') (hx : ∀ u, P u → x u = .stay (f u)) :
    ∃ u, exec i s = .next (f u) ∧ P u ∧ u.seq.pc = .run (some i) ls.length := by
  obtain ⟨u, e, hP, hk⟩ := run_through (fun y hy => movesPc_lines (some i) y (by rw [hl]; simp [hy])) hs.1 h
  refine ⟨u, ?_, hP, by simpa using hk⟩
  rw [exec_eq_seqTurn]
  refine exec_of_run hs (by rw [hl]; simp) hlen ?_
  rw [hl, e]
  simp only [runAll, hx u hP]

/-- A run that waits at line `k`, the lock being held. -/
theorem Went.stands (h : Went .seq s0 s b L l) {i : Instr} {k : Nat} (hp : s.seq.pc = .run (some i) k) :
    Stands i k s0 s b l :=
  ⟨hp, h.blk, h.lcdc, h.port, h.env, h.cfg, h.irqdKept rfl, h.busData⟩

/-- A run whose test step stays blocked at line `k` has used up one answer of the environment (R262). -/
theorem Went.stands_dropDraw (h : Went .seq s0 s b L l) {i : Instr} {k : Nat} (hp : s.seq.pc = .run (some i) k) :
    Stands i k s0 s.dropDraw b (l ++ [.stayed]) :=
  ⟨hp, h.blk, by rw [does_append]; exact h.lcdc, by rw [does_append]; exact h.port,
    by rw [does_append]; exact congrArg Env.drop h.env, h.cfg, h.irqdKept rfl, h.busData⟩

/-- `DISABLE_SEQ` that waits, up to its arm (R225): the `RASTER_EN` update and `DisablingWaitFrame`. -/
theorem run_disableStart (h : Went .seq s0 s b L l) (w : Vector Word 16 → Bool) (hw : waits s0 (w s0.blk.arg) = true)
    (xs : List Act) :
    ∃ s', runAll .seq ((disableSeq fun s => w s.blk.arg).take 3 ++ xs) s = runAll .seq xs s' ∧
      Went .seq s0 s' { b with rstate := .disablingWaitFrame } L (l ++ disableAccesses) := by
  obtain ⟨s1, e1, h1⟩ := run_rmw (xs := onlyIf (fun s => w s.blk.arg && isV2 s) (setRState .disablingWaitFrame) :: xs) h
    .rasterCtrl (fun _ => [(.rasterEn, 0)]) _ rfl
  obtain ⟨s2, e2, h2⟩ := run_setRState (xs := xs) h1 .disablingWaitFrame
  refine ⟨s2, e1.trans ((runAll_onlyIf_true _ _ _ _ _ ?_).trans e2), h2⟩
  rw [← hw]
  simp only [waits, isV2, h1.blk, h1.arg, h1.rev]

/-- `DISABLE_SEQ` that waits, up to its test step (R225): the same and the arm, with the lock free. -/
theorem run_disableArmed (h : Went .seq s0 s b L l) (w : Vector Word 16 → Bool) (hw : waits s0 (w s0.blk.arg) = true)
    (hf : b.lock = .free) (xs : List Act) :
    ∃ s', runAll .seq ((disableSeq fun s => w s.blk.arg).take 6 ++ xs) s = runAll .seq xs s' ∧
      Went .seq s0 s' { b with rstate := .disablingWaitFrame, frameDoneFlag := false } L (l ++ disableAccesses) := by
  obtain ⟨s1, e1, h1⟩ := run_disableStart h w hw (guarded (fun s => w s.blk.arg && isV2 s) (arm .frameDone) ++ xs)
  obtain ⟨s2, e2, h2⟩ := run_arm (xs := xs) h1 .frameDone hf
  refine ⟨s2, e1.trans (Eq.trans ?_ e2), h2⟩
  have hcond : ∀ u : State, u.blk.rev = s0.blk.rev → u.blk.arg = s0.blk.arg → (w u.blk.arg && isV2 u) = true := by
    intro u hr ha; rw [← hw]; simp only [waits, isV2, hr, ha]
  refine runAll_guarded_true (I := fun u => u.blk.rev = s0.blk.rev ∧ u.blk.arg = s0.blk.arg)
    (fun u hu => hcond u hu.1 hu.2) ?_ ⟨h1.rev_eq, by rw [h1.blk, h1.arg]⟩
  intro y hy u u' hu hgo
  have := arm_keeps hy hgo
  exact ⟨by rw [bump_blk, this.1, hu.1], by rw [bump_blk, this.2, hu.2]⟩

end Sys2Proof.Machine
end

