-- ==== Sys2Proof/Tests/Slice0.lean ====
section
/-! SUPPORT. Tests on fixed values. Expected values come from the spec: the opcode map R126, the vectors TV00 to TV14 and the
programs P1 to P5 (95_test_vectors.md), or a hand calculation from the rule named. The last part shows, for each
statement with hypotheses, concrete values that meet them. -/

open Sys2Proof Sys2Proof.Machine

namespace Sys2Proof.Tests

/-! ## Small states -/

/-- An environment answer as TV00 assumes it: unwritten registers read 0, a wait may time out. -/
def quiet : Draw := ⟨0#32, 100000000, none, some ⟨0x80000000, 0x200000⟩, true⟩

/-- The default parameters with a known identification value, so that tests can be evaluated. -/
def params : Params := { Params.default with lcdcId := 0x4F200800#32 }

/-- The machine after reset with those parameters and quiet answers. -/
def fresh : State := { State.reset with cfg := params, env := { Env.reset with draws := List.replicate 40 quiet } }

/-- An attached, awake machine of a revision. -/
def machine (r : Rev) : State :=
  { fresh with
    blk := { Blk.reset with
      attached := true, rev := r, panelPower := true, clkRun := true, vram := ⟨0x80000000, 0x200000⟩ } }

/-- The same with the mode 360 by 640, 16 bpp, of TV09 and a virtual size. -/
def moded (r : Rev) (xresV yresV : Nat) (d : LastDone) : State :=
  (machine r).onBlk fun b =>
    { b with
      haveMode := true, fmt := { Fmt.reset with bpp := 16, shade := .tft }, lastDone := d
      geo := ⟨360, 640, xresV, yresV, xresV * 2⟩, win := some ⟨0x80000000#32, 0x800707FF#32⟩ }

/-- The state with one register holding a word. -/
def holding (s : State) (g : LReg) (w : Word) : State := { s with lcdc := s.lcdc.write g w }

/-- The default parameters with a position for each of the two vertical porch high fields, on unused bits. -/
def tall : Params :=
  { params with v2 := { capsTI2 with pos := [(.vbpHi, (7, 6)), (.vfpHi, (23, 22))] ++ capsTI2.pos } }

/-- A suspended state. -/
def asleep (s : State) : State := s.onBlk fun b => { b with suspended := true, panelPower := false, clkRun := false }

/-- Argument registers holding the listed numbers, the others 0. -/
def argWords (l : List Nat) : Vector Word 16 := Vector.ofFn fun i => BitVec.ofNat 32 (l.getD i 0)

/-- The state in which the command has just been accepted with these arguments, its turn long enough. -/
def issue (i : Instr) (l : List Nat) (s : State) : State := s.issued i (argWords l)

/-- What a view of the next state gives, when there is one. -/
def view {α : Type} (o : Host.Outcome State Fault Refusal) (f : State → α) : Option α :=
  match o with
  | .next t => some (f t)
  | _ => none

/-- A view of the state after one command. -/
def after {α : Type} (i : Instr) (l : List Nat) (s : State) (f : State → α) : Option α := view (exec i (issue i l s)) f

/-- The LCDC drives its line, and the next status read returns `w`. -/
def raised (s : State) (w : Word) : State :=
  { s with
    lcdc := { s.lcdc with irq := true }
    env := { s.env with draws := { quiet with word := w } :: s.env.draws } }

/-- A state whose next move is `m`. -/
def moving (s : State) (m : Move) : State := { s with env := { s.env with sched := [m] } }

/-- The lock held by the decoder. -/
def locked (s : State) : State := s.onBlk fun b => { b with lock := .irqd, irqActive := true }

/-- The sequencer before line `k` of a command whose arguments are 0, with a turn of `n` steps. -/
def atLine (i : Instr) (k n : Nat) (s : State) : State :=
  { issue i [] s with seq := { (issue i [] s).seq with pc := .run (some i) k, turn := n } }

/-- The arguments of P1's MODE_SET. -/
def p1Args : List Nat := [360, 640, 16, 0xC1, 40000, 20, 10, 10, 10, 2, 5, 0, 0, 0, 0]

/-! ## Decoding: words written out from R122 and R126 -/

theorem test_decode_port : decodeWord 0x00000001#32 = .ok .attach ∧ decodeWord 0x00000002#32 = .ok .detach ∧
    decodeWord 0x00000008#32 = .ok .regRead ∧ decodeWord 0x00000009#32 = .ok .regWrite := by decide

theorem test_decode_clock : decodeWord 0x00000010#32 = .ok .setClock := by decide

theorem test_decode_timing : decodeWord 0x00000011#32 = .ok .programHsync ∧
    decodeWord 0x00000012#32 = .ok .programVsync ∧ decodeWord 0x00000013#32 = .ok .programFrameGeometry ∧
    decodeWord 0x00000014#32 = .ok .programDisplayMode ∧ decodeWord 0x00000015#32 = .ok .programAcBias := by decide

theorem test_decode_mode : decodeWord 0x00000020#32 = .ok .modeSet ∧ decodeWord 0x00000021#32 = .ok .setWindow ∧
    decodeWord 0x00000022#32 = .ok .pan := by decide

theorem test_decode_raster : decodeWord 0x00000030#32 = .ok .enable ∧ decodeWord 0x00000031#32 = .ok .disable := by decide

theorem test_decode_wait : decodeWord 0x00000040#32 = .ok .waitVsync ∧ decodeWord 0x00000041#32 = .ok .waitPalette ∧
    decodeWord 0x00000050#32 = .ok .registerCb ∧ decodeWord 0x00000051#32 = .ok .unregisterCb := by decide

theorem test_decode_power : decodeWord 0x00000060#32 = .ok .suspend ∧ decodeWord 0x00000061#32 = .ok .resume := by decide

/-- R63: the first byte is the least significant one. -/
theorem test_decode_bytes : decodeBytes [0x22#8, 0x00#8, 0x00#8, 0x00#8] = .ok .pan ∧
    decodeBytes [0x00#8, 0x00#8, 0x00#8, 0x22#8] = .error .reservedBits ∧
    decodeBytes [0x22#8] = .error .notOneWord := by decide

/-- R127: the words at the ends of each reserved range of opcodes. -/
theorem test_decode_reserved : ∀ n ∈ [0x00, 0x03, 0x07, 0x0A, 0x0F, 0x16, 0x1F, 0x23, 0x2F, 0x32, 0x3F, 0x42, 0x4F, 0x52, 0x5F,
    0x62, 0xEF, 0xF0, 0xFF, 0x130, 0x80000030], decode? (BitVec.ofNat 32 n) = none := by decide

/-! ## Well-formedness: an ill-formed term for each check -/

theorem test_wf_word : wordWellFormed 0x00000030#32 = true ∧ wordWellFormed 0x00000130#32 = false ∧
    wordWellFormed 0x00000003#32 = false := by decide

theorem test_wf_default : params.wellFormed = true := by decide +kernel

/-- R105: the positions of the fields of `CLK_EN`, a register of V2. -/
theorem test_clk_en_fields : [Fld.clkCore, .clkLidd, .clkDma].map (params.pos .v2) = [some (0, 0), some (1, 1), some (2, 2)] ∧
    [Fld.clkCore, .clkLidd, .clkDma].map (params.pos .v1) = [none, none, none] := by decide

/-- R104: an offset at `regSpan`, one that is not a multiple of 4, one of a register the revision lacks. -/
theorem test_wf_offsets : offsetsInRange { params with regSpan := 0x70 } .v2 = false ∧
    offsetsInRange { params with v1 := { capsTI1 with offs := (.ctrl, 6) :: capsTI1.offs } } .v1 = false ∧
    offsetsInRange { params with v1 := { capsTI1 with offs := (.eoi, 0x68) :: capsTI1.offs } } .v1 = false := by decide

theorem test_wf_distinct :
    offsetsDistinct { params with v1 := { capsTI1 with offs := (.ctrl, 0x28) :: capsTI1.offs } } .v1 = false := by decide

/-- R104: a range of a wrong width, one past bit 31, and a missing field. -/
theorem test_wf_fields : fieldsFit { params with v2 := { capsTI2 with pos := (.acb, (16, 8)) :: capsTI2.pos } } .v2 = false ∧
    fieldsFit { params with v2 := { capsTI2 with pos := (.tft, (32, 32)) :: capsTI2.pos } } .v2 = false ∧
    fieldsFit { params with v2 := { capsTI2 with pos := capsTIPosBoth } } .v2 = false := by decide

theorem test_wf_disjoint :
    fieldsDisjoint { params with v2 := { capsTI2 with pos := (.mono, (0, 0)) :: capsTI2.pos } } .v2 = false := by decide

theorem test_wf_hardware_bits : hwBitsApart { params with v2 := { capsTI2 with hw := [(.rasterCtrl, 1#32)] } } .v2 = false ∧
    hwBitsApart { params with v2 := { capsTI2 with hw := [(.fb0Base, 1#32)] } } .v2 = false := by decide

theorem test_wf_id_and_word_size :
    idOffsetShared { params with v1 := { capsTI1 with offs := (.id, 0x70) :: capsTI1.offs } } = false ∧
    wordSizeOk { params with pplLog2 := 10 } = false := by decide

/-- R104: a status bit whose position differs between `STAT` and the V2 table. -/
theorem test_wf_status : statusShared params = true ∧
    statusShared { params with v1 := { capsTI1 with pos := (.eof0, (10, 10)) :: capsTI1.pos } } = false := by decide

theorem test_wf_status_refused :
    ({ params with v1 := { capsTI1 with pos := (.eof0, (10, 10)) :: capsTI1.pos } } : Params).wellFormed = false := by
  decide +kernel

/-! ## Commands: the spec's vectors -/

/-- TV03, R143: after a V2 ATTACH. -/
theorem test_attach_v2 : after .attach [] fresh (fun t => (hostReadAt t 4, t.blk.res0, t.blk.res1, t.blk.vram)) =
    some (0x010C3300#32, 0x4F200800#32, 1#32, ⟨0x80000000, 0x200000⟩) := by decide

/-- TV04: `VramAlloc = Fail` with an unknown identification value. -/
theorem test_attach_fail :
    after .attach []
      { fresh with cfg := { params with lcdcId := 0#32 }, env := ⟨[], 0, List.replicate 4 { quiet with vram := none }, 0, 0⟩ }
      (fun t => (t.blk.err, t.blk.attached, t.blk.clkRun, t.blk.out)) =
    some (7#4, false, false, [.logUnknownId 0#32, .done 1#8 7#4]) := by decide

/-- TV12: DETACH of a suspended block makes no register access. -/
theorem test_detach_suspended :
    after .detach [] (asleep (machine .v2)) (fun t => (t.blk.err, t.blk.attached, t.blk.suspended, t.port)) =
    some (0#4, false, false, [.vramFree ⟨0x80000000, 0x200000⟩]) := by decide

/-- P2: REG_READ of `FB1_BASE`, at offset 0x4C. -/
theorem test_reg_read :
    after .regRead [0x4C] (holding (machine .v2) .fb1Base 0x80001C20#32) (fun t => (t.blk.err, t.blk.res0)) =
    some (0#4, 0x80001C20#32) := by decide

/-- TV02: the bounds of the offset. -/
theorem test_reg_read_bounds : ∀ o ∈ [(0x74, 8#4), (0x46, 8#4), (0x70, 0#4)],
    after .regRead [o.1] (machine .v2) (fun t => t.blk.err) = some o.2 := by decide

/-- R141: REG_WRITE at the offset of `RASTER_CTRL`. -/
theorem test_reg_write : after .regWrite [0x28, 0x81] (machine .v2) (fun t => (t.lcdc.regs.rasterCtrl, t.port)) =
    some (some 0x81#32, [.write .seq 0x28 0x81#32]) := by decide

/-- TV05: 48 MHz for 6 MHz. -/
theorem test_set_clock :
    after .setClock [6000000] { machine .v2 with env := ⟨[], 0, [{ quiet with rate := 48000000 }], 0, 0⟩ }
      (fun t => (t.lcdc.regs.ctrl, t.blk.res0, t.blk.res1)) = some (some 0x801#32, 8#32, 48000000#32) := by decide

/-- TV05: 10 MHz for 10 MHz is clamped and re-requested as 20 MHz. -/
theorem test_set_clock_clamped :
    after .setClock [10000000]
      { machine .v2 with env := ⟨[], 0, [{ quiet with rate := 10000000 }, { quiet with clk := some 20000000 }], 0, 0⟩ }
      (fun t => (t.lcdc.regs.ctrl, t.blk.res0, t.blk.res1, t.port.take 2)) =
    some (some 0x201#32, 2#32, 20000000#32, [.clkRate 10000000, .clkRequest 20000000 (some 20000000)]) := by decide

/-- TV06. -/
theorem test_hsync : after .programHsync [600, 100, 300] (machine .v2) (fun t => (t.lcdc.regs.timing0, t.lcdc.regs.timing2)) =
    some (some 0x572B8C00#32, some 0x08000021#32) := by decide

/-- TV06: the wrap of the offset-by-one encoding. -/
theorem test_hsync_zero : after .programHsync [0, 0, 0] (machine .v2) (fun t => (t.lcdc.regs.timing0, t.lcdc.regs.timing2)) =
    some (some 0xFFFFFC00#32, some 0x78000033#32) := by decide

/-- TV06: `TIMING_2` is not accessed, since `CapsTI` has no vertical high field. -/
theorem test_vsync : after .programVsync [23, 3, 7] (machine .v2) (fun t => (t.lcdc.regs.timing1, t.lcdc.regs.timing2)) =
    some (some 0x16060800#32, none) := by decide

/-- R96, R173: the porches of 600 and 300, less one, have the high parts 2 and 1. -/
theorem test_vsync_high : after .programVsync [600, 3, 300] { machine .v2 with cfg := tall }
    (fun t => (t.lcdc.regs.timing1, t.lcdc.regs.timing2)) = some (some 0x572B0800#32, some 0x00400080#32) := by decide

/-- TV07: the row of 1920 by 1080. -/
theorem test_geometry :
    after .programFrameGeometry [1920, 1080, 32, 1] (machine .v2) (fun t => (t.lcdc.regs.timing0, t.lcdc.regs.timing1,
      t.lcdc.regs.timing2, t.lcdc.regs.rasterCtrl, t.blk.res0)) =
    some (some 0x378#32, some 0x37#32, some 0x04000000#32, some 0x06000100#32, 32#32) := by decide

/-- TV07: V1 has no 24 bpp; 8 bpp has 512 palette entries. -/
theorem test_geometry_bpp :
    after .programFrameGeometry [800, 480, 24, 0] (machine .v1) (fun t => (t.blk.err, t.port)) = some (1#4, []) ∧
    after .programFrameGeometry [640, 480, 8, 0] (machine .v1) (fun t => (t.blk.res0, t.blk.palCount)) =
      some (512#32, 512) := by decide

/-- TV08: the first row. -/
theorem test_display_mode :
    after .programDisplayMode [0x01, 2] (holding (machine .v2) .rasterCtrl 1#32)
      (fun t => (t.lcdc.regs.rasterCtrl, t.lcdc.regs.intEnSet, t.lcdc.regs.timing2, t.lcdc.intEn)) =
    some (some 0x81#32, some 0x20#32, some 0x00200000#32, 0x20#32) := by decide

/-- TV08: the third row, which clears four class bits; and the first on V1. -/
theorem test_display_mode_clears :
    after .programDisplayMode [0x12, 0] (holding (machine .v2) .rasterCtrl 0x01800283#32) (fun t => t.lcdc.regs.rasterCtrl) =
      some (some 0x01000001#32) ∧
    after .programDisplayMode [0x01, 2] (holding (machine .v1) .rasterCtrl 1#32)
      (fun t => (t.lcdc.regs.rasterCtrl, t.lcdc.regs.intEnSet)) = some (some 0xC1#32, none) := by decide

/-- TV08. -/
theorem test_ac_bias :
    after .programAcBias [255, 0] (holding (machine .v2) .timing2 0x00200000#32) (fun t => t.lcdc.regs.timing2) =
      some (some 0x0020FF00#32) ∧
    after .programAcBias [0x1FF, 0x1F] (machine .v2) (fun t => t.lcdc.regs.timing2) = some (some 0x000FFF00#32) := by decide

/-- P1: the block after its MODE_SET. -/
theorem test_mode_set_block :
    after .modeSet p1Args (machine .v2) (fun t => (hostReadAt t 4, t.blk.res0, t.blk.res1, t.blk.geo)) =
      some (0x20CC3B00#32, 32#32, 4#32, ⟨360, 640, 360, 640, 720⟩) ∧
    after .modeSet p1Args (machine .v2) (fun t => (t.blk.win, t.blk.out)) =
      some (some ⟨0x80000000#32, 0x800707FF#32⟩, [.logDisableTimeout, .done 0x20#8 0#4]) := by decide

/-- P1: the registers after its MODE_SET; and, by R129 and R240, the bits of the MODE word 0x6D with 32 bpp and a virtual
width of 400. -/
theorem test_mode_set_registers :
    after .modeSet [64, 2, 32, 0x6D, 40000, 1, 1, 1, 1, 1, 1, 400] (machine .v2) (fun t =>
      (t.blk.fmt, t.blk.geo, t.lcdc.regs.rasterCtrl)) =
      some (⟨32, .tft, true, true, false, true, true, false⟩, ⟨64, 2, 400, 2, 1600⟩, some 0x06800181#32) ∧
    after .modeSet p1Args (machine .v2) (fun t => (t.lcdc.regs.timing0, t.lcdc.regs.timing1,
      t.lcdc.regs.rasterCtrl, t.lcdc.regs.ctrl, t.lcdc.regs.fb1Ceil, t.lcdc.intEn)) =
    some (some 0x13092550#32, some 0x0904067F#32, some 0x81#32, some 0x401#32, some 0x800707FF#32, 0x325#32) := by decide

/-- TV09: the first and the second row. -/
theorem test_set_window :
    after .setWindow [0x80000000, 0x800707FF] (moded .v2 360 640 .unknown)
      (fun t => (t.blk.err, t.lcdc.regs.fb0Ceil, t.lcdc.regs.fb1Base, t.lcdc.regs.dmaCtrl, t.lcdc.regs.intEnSet)) =
      some (0#4, some 0x800707FF#32, some 0x80000000#32, some 1#32, some 0x305#32) ∧
    after .setWindow [0x80000000, 0x80070800] (moded .v2 360 640 .unknown) (fun t => t.blk.err) = some 2#4 := by decide

/-- TV09: the window below the region, above it, and the last that fits. -/
theorem test_set_window_bounds :
    ∀ w ∈ [(0x7FFFFFFF, 0x800707FE, 2#4), (0x80190000, 0x802007FF, 2#4), (0x8018F800, 0x801FFFFF, 0#4)],
      after .setWindow [w.1, w.2.1] (moded .v2 360 640 .unknown) (fun t => t.blk.err) = some w.2.2 := by decide

/-- TV09: `lastDone = S0` selects slot 1. -/
theorem test_pan_slot : after .pan [0, 10] (moded .v2 360 1280 .s0) (fun t => (t.lcdc.regs.fb1Base, t.lcdc.regs.fb1Ceil,
      t.lcdc.regs.fb0Base, t.blk.res0)) = some (some 0x80001C20#32, some 0x8007241F#32, none, 0x80001C20#32) := by decide

/-- TV09: the clamps of both axes. -/
theorem test_pan_clamp :
    after .pan [0, 700] (moded .v2 360 1280 .s1) (fun t => (t.blk.yoff, t.lcdc.regs.fb0Base, t.lcdc.regs.fb0Ceil)) =
      some (640, some 0x80070800#32, some 0x800E0FFF#32) ∧
    after .pan [100, 0] (moded .v2 400 640 .unknown) (fun t => (t.blk.xoff, t.blk.res0, t.blk.res1)) =
      some (40, 0x80000050#32, 0x8007D04F#32) := by decide

/-- TV10: the port sequence of a V2 ENABLE. -/
theorem test_enable_v2 : after .enable [] (holding (machine .v2) .rasterCtrl 0x80#32) (fun t => (t.blk.rstate, t.port)) =
    some (.enabled, [.write .seq 0x70 8#32, .delay .seq 1, .write .seq 0x70 0#32, .delay .seq 1, .read .seq 0x28 0x80#32,
      .write .seq 0x28 0x81#32]) := by decide

/-- TV10: `DISABLE 1` without frame-done on V2, and on V1. -/
theorem test_disable :
    after .disable [1] (holding (machine .v2) .rasterCtrl 0x81#32) (fun t => (t.blk.err, t.blk.rstate, t.lcdc.regs.rasterCtrl,
      t.blk.out)) = some (0#4, .disabled, some 0x80#32, [.logDisableTimeout, .done 0x31#8 0#4]) ∧
    after .disable [1] (holding (machine .v1) .rasterCtrl 0x81#32) (fun t => t.blk.out) = some [.done 0x31#8 0#4] := by decide

/-- TV13: an old vsync flag is cleared by the arm, so it does not wake the wait. -/
theorem test_wait_vsync_old_flag :
    after .waitVsync [0] ((machine .v2).onBlk fun b => { b with vsyncFlag := true }) (fun t => (t.blk.err, t.blk.vsyncFlag,
      t.port)) = some (4#4, false, [.waited .vsync 200 false]) := by decide

/-- TV13: a palette-done set after the arm wakes the wait. -/
theorem test_wait_palette_woken :
    view (exec .waitPalette (atLine .waitPalette 5 9 ((machine .v1).onBlk fun b => { b with palDoneFlag := true })))
      (fun t => (t.blk.err, t.blk.busy, t.blk.palDoneFlag)) = some (0#4, false, true) := by decide

/-- TV13: REGISTER_CB before ATTACH, and over a registered callback. -/
theorem test_register_cb :
    after .registerCb [0x1000, 7] fresh (fun t => (t.blk.err, t.blk.cb)) = some (0#4, some (0x1000#32, 7#32)) ∧
    after .registerCb [0x2000, 9] (fresh.onBlk fun b => { b with cb := some (0x1000#32, 7#32) })
      (fun t => (t.blk.err, t.blk.cb, t.blk.lock)) = some (5#4, some (0x1000#32, 7#32), .free) := by decide

/-- TV13: UNREGISTER_CB with another context, and with the right pair. -/
theorem test_unregister_cb : ∀ c ∈ [(8, 6#4, some (0x1000#32, 7#32)), (7, 0#4, none)],
    after .unregisterCb [0x1000, c.1] (fresh.onBlk fun b => { b with cb := some (0x1000#32, 7#32) })
      (fun t => (t.blk.err, t.blk.cb)) = some c.2 := by decide

/-- TV12, P5: SUSPEND on V1. -/
theorem test_suspend_v1 : after .suspend [] (machine .v1) (fun t => (hostReadAt t 4, t.lcdc.regs.rasterCtrl)) =
    some (0x60102300#32, some 0#32) := by decide

/-- TV12: RESUME on V2, and of an awake block. -/
theorem test_resume :
    after .resume [] (asleep (machine .v2)) (fun t => (hostReadAt t 4, t.lcdc.regs.rasterCtrl)) =
      some (0x610C3B00#32, some 1#32) ∧
    after .resume [] (machine .v2) (fun t => (t.blk.err, t.port)) = some (0#4, []) := by decide

/-- TV02: power-on ENABLE ends with `NotAttached`. -/
theorem test_not_attached : after .enable [] fresh (fun t => hostReadAt t 4) = some 0x30000390#32 := by decide

/-- TV02, from the state after reset: the first command is ENABLE. -/
theorem test_first_step : view (step (State.reset.withFetchWord 32 0x30)) (fun t => hostReadAt t 4) = some 0x30000390#32 := by
  decide +kernel

/-- TV01: an illegal word sets the OPC field to its low byte. -/
theorem test_illegal_word : view (seqMove 1 (accept fresh 0x00000130#32)) (fun t => hostReadAt t 4) = some 0x30000380#32 := by
  decide

/-! ## The decoder: TV14 -/

/-- V1, both fault bits with both EOF bits: the fault case alone. -/
theorem test_irq_v1_fault :
    view (irqdTurn fullTurn (raised (moded .v1 360 640 .unknown) 0x324#32)) (fun t => (t.blk.rstate, t.blk.palDoneFlag,
      t.blk.lastDone, t.blk.lock)) = some (.disabled, true, .unknown, .free) := by decide

/-- V2, EOF0, EOF1 and FRAME_DONE with a callback registered. -/
theorem test_irq_v2_frame :
    let o := irqdTurn fullTurn
      (raised ((moded .v2 360 640 .unknown).onBlk fun b => { b with cb := some (0x1000#32, 7#32) }) 0x301#32)
    view o (fun t => (t.blk.lastDone, t.blk.vsyncFlag, t.blk.frameDoneFlag, t.blk.out)) =
      some (.s1, true, true, [.vsyncCallback 0x1000#32 7#32, .vsyncCallback 0x1000#32 7#32]) ∧
    view o (fun t => (t.lcdc.regs.fb0Ceil, t.port.getLast?)) =
      some (some 0x800707FF#32, some (.write .irqd 0x68 0#32)) := by decide

/-- V2, both fault bits: recovery, and no flag. -/
theorem test_irq_v2_recovery :
    view (irqdTurn fullTurn (raised (holding (machine .v2) .rasterCtrl 0x81#32) 0x64#32)) (fun t => (t.blk.rstate,
      t.lcdc.regs.rasterCtrl, t.blk.palDoneFlag, t.blk.vsyncFlag)) = some (.enabled, some 0x81#32, false, false) := by decide

/-- V2, PL_DONE with EOF0: the palette case alone. -/
theorem test_irq_v2_palette :
    view (irqdTurn fullTurn (raised (moded .v2 360 640 .unknown) 0x140#32)) (fun t => (t.blk.palDoneFlag, t.blk.lastDone,
      t.lcdc.regs.intEnClr)) = some (true, .unknown, some 0x40#32) := by decide

/-! ## The hypotheses of the statements can be met

One theorem per statement that has hypotheses, named after it; each clause at a boundary where it has one. -/

/-- A command just issued is at its start. -/
theorem issue_atStart (i : Instr) (l : List Nat) (s : State) : AtStart i (issue i l s) := by
  cases i <;> exact ⟨rfl, Nat.le_refl _⟩

/-- A view of an outcome shows that it is a next state. -/
theorem next_of_view {α : Type} {o : Host.Outcome State Fault Refusal} {f : State → α} {v : α} (h : view o f = some v) :
    ∃ t, o = .next t ∧ f t = v := by
  cases o with
  | next t => exact ⟨t, rfl, by simpa [view] using h⟩
  | fault _ => cases h
  | refused _ => cases h

/-- The machines of the tests are awake. -/
theorem machine_awake (i : Instr) (l : List Nat) (r : Rev) : Awake (issue i l (machine r)) := ⟨rfl, rfl⟩

/-- The machines with a mode are awake. -/
theorem moded_awake (i : Instr) (l : List Nat) (r : Rev) (x y : Nat) (d : LastDone) : Awake (issue i l (moded r x y d)) :=
  ⟨rfl, rfl⟩

theorem test_meets_DecodeAndEncodeAgree : Instr.pan.wellFormed = true ∧ decodeWord (encode .pan) = .ok .pan := by decide

theorem test_meets_IllegalWords :
    let s := moving (accept fresh 0x03#32) (.seq 1)
    decode? 0x03#32 = none ∧ s.cfg.wellFormed = true ∧ s.env.peekMove = .seq (0 + 1) ∧ s.seq.pc = .run none 0 := by
  decide +kernel

theorem test_meets_StepRunsTheDecodedCommand :
    let s := moving (atLine .pan 3 0 (machine .v1)) (.seq 0)
    decodeWord 0x22#32 = .ok .pan ∧ s.cfg.wellFormed = true ∧ Instr.pan.wellFormed = true ∧ s.env.peekMove = .seq 0 ∧
      s.seq.pc = .run (some .pan) 3 := by decide +kernel

theorem test_meets_FetchWordRunsItsCommand :
    fresh.cfg.wellFormed = true ∧ decodeTableWord 32 0x61 = some .resume ∧ decodeTableWord 8 0x101 = some .attach := by
  decide +kernel

theorem test_meets_CommandAcceptance :
    let s := moving fresh (.busWrite (fresh.cfg.seqBase + 0#32) 4 0x22#32)
    s.cfg.wellFormed = true ∧ s.env.peekMove = .busWrite (s.cfg.seqBase + 0#32) 4 0x22#32 ∧ s.blk.busy = false ∧
      (moving (accept s 0x01#32) (.busWrite 0#32 4 0x22#32)).blk.busy = true ∧
      (accept fresh 0x03#32).seq.pc = .run none 0 := by decide +kernel

theorem test_meets_HostRegisterMap : ∀ off ∈ [0x00, 0x04, 0x08, 0x0C, 0x10, 0x4C],
    fresh.cfg.wellFormed = true ∧
    (moving fresh (.busRead (BitVec.ofNat 32 off) 4)).env.peekMove = .busRead (fresh.cfg.seqBase + BitVec.ofNat 32 off) 4 ∧
    (moving fresh (.busWrite (BitVec.ofNat 32 off) 4 1#32)).env.peekMove =
      .busWrite (fresh.cfg.seqBase + BitVec.ofNat 32 off) 4 1#32 := by decide +kernel

theorem test_meets_SeqStatusFields :
    let s := moving (machine .v2) (.busRead 4#32 4)
    s.cfg.wellFormed = true ∧ s.env.peekMove = .busRead (s.cfg.seqBase + BitVec.ofNat 32 4) 4 := by decide +kernel

theorem test_meets_BadAccess : ∀ a ∈ [(0#32, 2), (2#32, 4), (0x50#32, 4)],
    let s := moving fresh (.busRead a.1 a.2)
    s.cfg.wellFormed = true ∧ (a.2 ≠ 4 ∨ (a.1 - s.cfg.seqBase).toNat % 4 ≠ 0 ∨ 0x50 ≤ (a.1 - s.cfg.seqBase).toNat) ∧
      s.env.peekMove = .busRead a.1 a.2 := by decide +kernel

theorem test_meets_BadCaps : { fresh with cfg := { params with pplLog2 := 10 } }.cfg.wellFormed = false := by decide +kernel

theorem test_meets_PowerOnState : fresh.blk = State.reset.blk ∧ LReg.stat ≠ .id ∧ LReg.fb0Base ≠ .id := by decide

theorem test_meets_ResetInput :
    let s := moving (atLine .pan 3 0 (moded .v2 360 640 .s0)) .rst
    s.cfg.wellFormed = true ∧ s.env.peekMove = .rst := by decide +kernel

theorem test_meets_FieldInsertAndExtract : (0 ≤ 31 ∧ 31 ≤ 31 ∧ 31 < 32) ∧ ((31 : Nat) ≤ 31 ∧ 31 ≤ 31 ∧ 0 < 32) := by decide

theorem test_meets_FieldsOfOneRegister : params.wellFormed = true ∧ params.pos .v2 .pplLo = some (9, 4) ∧
    Fld.pplLo ≠ .pplHi ∧ Fld.pplLo.home = Fld.pplHi.home ∧ params.pos .v2 .pplHi = some (3, 3) := by decide +kernel

/-- A field named twice, one not named, an absent one, and the bits beside the named ones. -/
theorem test_meets_RmwWritesItsFieldsAlone :
    let edits : List (Fld × Nat) := [(.mono, 0), (.tft24, 1), (.mono, 1)]
    params.wellFormed = true ∧ (∀ e ∈ edits, e.1.home = Fld.mono.home) ∧ (∀ e ∈ edits, e.1.home = Fld.rasterEn.home) ∧
      (∀ e ∈ edits, e.1.home = Fld.tft24.home) ∧ params.pos .v1 .tft24 = none ∧
      (∀ j ∈ [0, 2, 24, 26], ∀ e ∈ [((25 : Nat), (25 : Nat)), (1, 1)], j < e.2 ∨ e.1 < j) := by decide +kernel

theorem test_meets_RegisterReadValues :
    LReg.ctrl ≠ .stat ∧ LReg.ctrl ≠ .rawStat ∧ LReg.ctrl ≠ .maskedStat ∧ LReg.ctrl ≠ .id ∧
      Lcdc.reset.regs.get .ctrl = none ∧ LReg.eoi ≠ .ctrl ∧ params.wellFormed = true ∧ Fld.clkdiv.home = .ctrl ∧
      params.pos .v1 .clkdiv = some (15, 8) := by decide +kernel

/-- R161, with a request of 4: the sources on both sides of each bound. -/
theorem test_meets_DividerProperties : 0 < 4 ∧ 255 * 4 < 1021 ∧ ¬255 * 4 < 1020 ∧ ¬1020 < 2 * 4 ∧ ¬8 < 2 * 4 ∧ 7 < 2 * 4 ∧
    computeDivider 4 1021 = (255, true) ∧ computeDivider 4 1020 = (255, false) ∧ computeDivider 4 8 = (2, false) ∧
    computeDivider 4 7 = (2, false) ∧ computeDivider 4 5 = (2, false) ∧ computeDivider 4 4 = (2, true) := by decide

/-- R181: the widths of the vectors TV07. -/
theorem test_meets_WidthFields : params.wellFormed = true ∧ ppl params .v2 1920#32 = 119 ∧ ppl params .v1 800#32 = 49 ∧
    ppl params .v2 0#32 = 127 := by decide +kernel

theorem test_meets_PreconditionsComeFirst :
    let s1 := issue .pan [] fresh
    let s2 := issue .pan [] (asleep (machine .v2))
    let s3 := issue .attach [] (machine .v2)
    let s4 := issue .registerCb [] fresh
    (s1.seq.pc = .run (some .pan) 0 ∧ 2 ≤ s1.seq.turn ∧ s1.blk.attached = false) ∧
    (s2.seq.pc = .run (some .pan) 0 ∧ s2.blk.attached = true ∧ s2.blk.suspended = true) ∧
    (s3.seq.pc = .run (some .attach) 0 ∧ s3.blk.attached = true) ∧ (s4.seq.pc = .run (some .registerCb) 0) ∧
    needsAttached .pan = true ∧ needsAwake .pan = true ∧ needsAttached .registerCb = false ∧ needsAwake .suspend = false := by
  decide

theorem test_meets_ErrorsWriteNoRegister : ∃ s t, AtStart .regRead s ∧ exec .regRead s = .next t ∧ t.seq.pc = .idle ∧
    t.blk.err ≠ 0#4 := by
  obtain ⟨t, h, hv⟩ := next_of_view (o := exec .regRead (issue .regRead [0x74] (machine .v2)))
    (f := fun t => (t.seq.pc, t.blk.err)) (v := (.idle, 8#4)) (by decide)
  obtain ⟨h1, h2⟩ := Prod.mk.inj hv
  exact ⟨_, t, issue_atStart _ _ _, h, h1, by rw [h2]; decide⟩

/-- An offset of a register, one of none, the first past the end and one that is not a multiple of 4. -/
theorem test_meets_RawRegisterAccess :
    (∀ i ∈ [Instr.regRead, .regWrite], ∀ o ∈ [0x00, 0x70, 0x0C, 0x74, 0x73],
      AtStart i (issue i [o] (machine .v2)) ∧ Awake (issue i [o] (machine .v2))) ∧
    params.wellFormed = true ∧ params.off? .v2 .clkReset = some 0x70 ∧ ∀ g, params.off? .v2 g ≠ some 0x0C :=
  ⟨fun _ _ _ _ => ⟨issue_atStart _ _ _, machine_awake _ _ _⟩, by decide +kernel, by decide, fun g => by cases g <;> decide⟩

/-- The answers of the allocator on both sides of R25's bounds, and a listed and an unlisted identification value. -/
theorem test_meets_AttachOutcomes :
    AtStart .attach (issue .attach [] (machine .v2)) ∧ (issue .attach [] (machine .v2)).blk.attached = true ∧
    AtStart .attach (issue .attach [] fresh) ∧ (issue .attach [] fresh).blk.attached = false ∧
    (issue .attach [] fresh).env.drop.peek.vram = some ⟨0x80000000, 0x200000⟩ ∧
    (1 ≤ 2 ^ 32 ∧ 0 + 2 ^ 32 ≤ 2 ^ 32) ∧ ¬1 ≤ 0 ∧ ¬1 + 2 ^ 32 ≤ 2 ^ 32 ∧
    params.knownIds.lookup 0x4C100102#32 = some .v1 ∧ params.knownIds.lookup 0x4F201000#32 = some .v2 ∧
    params.knownIds.lookup 0#32 = none :=
  ⟨issue_atStart _ _ _, by decide, issue_atStart _ _ _, by decide⟩

theorem test_meets_DetachTearsDown :
    (AtStart .detach (issue .detach [] (asleep (machine .v2))) ∧ (asleep (machine .v2)).blk.suspended = true) ∧
    (AtStart .detach (issue .detach [] (machine .v2)) ∧ (machine .v2).blk.suspended = false ∧
      disableRuns (issue .detach [] (machine .v2)) true [] ∧ disableRuns (issue .detach [] (locked (machine .v1))) true []) :=
  ⟨⟨issue_atStart _ _ _, by decide⟩, issue_atStart _ _ _, by decide, by unfold disableRuns; decide, by unfold disableRuns; decide⟩

/-- The test step of the disable-wait of DISABLE, SUSPEND, DETACH and MODE_SET, which returns with the flag 1 and with the
flag 0, and which stays with the flag 0 and no timeout. -/
theorem test_meets_DisableWaitTest : ∀ e ∈ [(Instr.disable, 8), (.suspend, 8), (.detach, 7), (.modeSet, 24)],
    let s := (atLine e.1 e.2 fullTurn (machine .v2)).onBlk fun b => { b with arg := argWords [1], rstate := .disablingWaitFrame }
    let w := s.onBlk fun b => { b with frameDoneFlag := true }
    let b := { s with env := { s.env with draws := [{ quiet with timeout := false }] } }
    (AtLine e.1 e.2 fullTurn s ∧ s.blk.frameDoneFlag = false ∧ s.env.peek.timeout = true ∧ testReturns s) ∧
    (AtLine e.1 e.2 fullTurn w ∧ w.blk.frameDoneFlag = true ∧ testReturns w) ∧
    (AtLine e.1 e.2 1 b ∧ b.blk.frameDoneFlag = false ∧ b.env.peek.timeout = false) ∧
    ∀ u ∈ [s, w, b], u.blk.rev = .v2 ∧ u.blk.lock = .free ∧ u.blk.suspended = false ∧ u.argBit 0 0 = true ∧
      waits u true = true ∧ waits u (!u.blk.suspended) = true ∧ waits u (u.argBit 0 0) = true := by
  intro e he
  refine ⟨⟨⟨rfl, Nat.le_refl _⟩, ?_⟩, ⟨⟨rfl, Nat.le_refl _⟩, ?_⟩, ⟨⟨rfl, ?_⟩, ?_⟩, ?_⟩ <;>
    (try unfold testReturns) <;> revert e <;> decide

/-- The first turn of a disable-wait on V2: one that stays blocked, after the draws that come before it, and one that finds the
lock held. -/
theorem test_meets_DisableWaitFirstTurn :
    ∀ e ∈ [(Instr.disable, [1], 1), (.suspend, [], 1), (.detach, [], 1), (.modeSet, p1Args, 2)],
    let draws := List.replicate e.2.2 quiet ++ [{ quiet with timeout := false }]
    let s := issue e.1 e.2.1 { machine .v2 with env := { Env.reset with draws := draws } }
    let l := if e.1 = .modeSet then negotiateAccesses s (10 ^ 12 / s.argN 4) else []
    (AtStart e.1 s ∧ Awake s ∧ disableBlocks s l) ∧
    (AtStart e.1 (locked s) ∧ Awake (locked s) ∧ (locked s).blk.lock ≠ .free) ∧
    ∀ u ∈ [s, locked s], u.blk.rev = .v2 ∧ (e.1 = .disable → u.argBit 0 0 = true) := by
  intro e he
  refine ⟨⟨issue_atStart _ _ _, ⟨rfl, rfl⟩, ?_⟩, ⟨issue_atStart _ _ _, ⟨rfl, rfl⟩, ?_⟩, ?_⟩ <;>
    (try unfold disableBlocks) <;> revert e <;> decide

/-- Those modes pass validation whether the wait stays blocked or the lock is held. -/
theorem test_meets_ModeSetFirstTurn :
    let s := issue .modeSet p1Args { machine .v2 with env := { Env.reset with draws := [quiet] } }
    ModeValid s ∧ ModeValid (locked s) :=
  ⟨⟨by decide, by decide, by decide, by decide, by decide, by unfold negotiates; decide⟩,
   ⟨by decide, by decide, by decide, by decide, by decide, by unfold negotiates; decide⟩⟩

/-- Each raster step of `ENABLE_SEQ` and of `DISABLE_SEQ` with a wait and without one, reached by a turn of the sequencer. -/
theorem test_meets_RasterSteps :
    (∀ e ∈ enableSeqs, ∀ k ∈ [e.2, e.2 + 7], let s := atLine e.1 k 1 (machine .v2)
      s.seq.pc = .run (some e.1) k ∧ s.seq.turn = 1 ∧ e ∈ enableSeqs) ∧
    ∀ r, ∀ e ∈ [(Instr.disable, 2), (.suspend, 2), (.detach, 1), (.modeSet, 18)], ∀ k ∈ [2, 3, 8, 9],
      let s := (atLine e.1 (e.2 + k) (if k = 3 then 3 else 1) (machine r)).onBlk fun b => { b with arg := argWords [1] }
      (e.1, e.2, true) ∈ disableSeqs s ∧ skipsDisable e.1 s = false ∧ waits s true = (r == .v2) ∧
        s.seq.pc = .run (some e.1) (e.2 + k) ∧ s.seq.turn = (if k = 3 then 3 else 1) ∧ s.blk.lock = .free := by
  refine ⟨by decide, fun r => by cases r <;> decide⟩

/-- The raster steps of the decoder's fault case and of its palette case. -/
theorem test_meets_DecoderRasterSteps : ∀ e ∈ [(5, 0x24#32), (12, 0x24#32), (19, 0x40#32), (26, 0x40#32)],
    let s := { machine .v2 with irqd := { (machine .v2).irqd with pc := .run .v2 e.1, s := e.2 } }
    let bit := fun f => ext s.irqd.s (s.cfg.pos .v2 f) = 1
    s.irqd.pc = .run .v2 e.1 ∧ s.blk.rev = .v2 ∧
      if e.1 < 15 then bit .syncLost ∧ bit .fifoUfl else ¬(bit .syncLost ∧ bit .fifoUfl) ∧ bit .plDone := by decide

/-- A request of 0, a rejected re-request, one that is not clamped. -/
theorem test_meets_SetClockResult :
    (∀ l, AtStart .setClock (issue .setClock l (machine .v1)) ∧ Awake (issue .setClock l (machine .v1))) ∧
    (machine .v1).cfg.wellFormed = true ∧
    (issue .setClock [0] (machine .v1)).argN 0 = 0 ∧
    ((issue .setClock [1] (machine .v1)).argN 0 ≠ 0 ∧ ¬negotiates (issue .setClock [1] (machine .v1)) 1) ∧
    negotiates (issue .setClock [50000000] (machine .v1)) 50000000 :=
  ⟨fun _ => ⟨issue_atStart _ _ _, machine_awake _ _ _⟩, test_wf_default, by decide, by unfold negotiates; decide,
   by unfold negotiates; decide⟩

theorem test_meets_TimingCommands : ∀ i ∈ [Instr.programHsync, .programVsync, .programAcBias], ∀ r,
    AtStart i (issue i [600, 100, 300] (machine r)) ∧ Awake (issue i [600, 100, 300] (machine r)) ∧
      (machine r).cfg.wellFormed = true ∧ (machine r).blk.rev = r :=
  fun _ _ _ => ⟨issue_atStart _ _ _, machine_awake _ _ _, test_wf_default, rfl⟩

/-- A vertical high field with a position, and one without. -/
theorem test_meets_VerticalHigh :
    let s := issue .programVsync [600, 3, 300] { machine .v2 with cfg := tall }
    AtStart .programVsync s ∧ Awake s ∧ s.cfg.wellFormed = true ∧ s.blk.rev = .v2 ∧ s.cfg.pos .v2 .vbpHi = some (7, 6) ∧
      s.cfg.pos .v2 .vswHi = none :=
  ⟨issue_atStart _ _ _, ⟨rfl, rfl⟩, by decide +kernel⟩

/-- The last bpp of V1, the first it lacks, and one that no revision has. -/
theorem test_meets_FrameGeometryResult : ∀ bpp ∈ [16, 24, 32, 33], ∀ r,
    AtStart .programFrameGeometry (issue .programFrameGeometry [800, 480, bpp] (machine r)) ∧
      Awake (issue .programFrameGeometry [800, 480, bpp] (machine r)) ∧ (machine r).cfg.wellFormed = true ∧
      (machine r).blk.rev = r :=
  fun _ _ _ => ⟨issue_atStart _ _ _, machine_awake _ _ _, test_wf_default, rfl⟩

theorem test_meets_DisplayModeResult : ∀ code ∈ [0, 1, 2, 3], ∀ r,
    AtStart .programDisplayMode (issue .programDisplayMode [code] (machine r)) ∧
      Awake (issue .programDisplayMode [code] (machine r)) ∧ (machine r).cfg.wellFormed = true ∧ (machine r).blk.rev = r ∧
      bitsAt ((issue .programDisplayMode [code] (machine r)).arg 0) 0 2 = code :=
  fun c hc r => ⟨issue_atStart _ _ _, machine_awake _ _ _, test_wf_default, rfl, by revert c; cases r <;> decide⟩

/-- The checks of R239 before the clock's answer, in their order (R162, R177). -/
def modeChecksHold (s : State) : List Bool :=
  let xresV := if s.argN 11 ≠ 0 then s.argN 11 else s.argN 0
  let yresV := if s.argN 12 ≠ 0 then s.argN 12 else s.argN 1
  let lineLen := xresV * s.argN 2 / 8
  [decide ((s.argN 2 = 1 ∨ s.argN 2 = 2 ∨ s.argN 2 = 4 ∨ s.argN 2 = 8 ∨ s.argN 2 = 16 ∨ s.argN 2 = 24 ∨ s.argN 2 = 32) ∧
      ¬(s.blk.rev = .v1 ∧ 16 < s.argN 2)),
   decide (bitsAt (s.arg 3) 0 2 ≠ 3),
   decide (s.argN 0 ≥ 1 ∧ s.argN 1 ≥ 1 ∧ xresV ≥ s.argN 0 ∧ yresV ≥ s.argN 1),
   decide (s.argN 1 * lineLen ≥ 2),
   decide (yresV * lineLen ≤ s.blk.vram.size),
   decide (s.argN 4 ≠ 0 ∧ 10 ^ 12 / s.argN 4 ≠ 0)]

/-- TV11: the first failing check, by its place; each but the first two fails by one. -/
theorem test_meets_ModeSetErrorOrder :
    (∀ l, AtStart .modeSet (issue .modeSet l (machine .v2)) ∧ Awake (issue .modeSet l (machine .v2))) ∧
    (modeChecksHold (issue .modeSet [360, 640, 24, 1, 40000] (machine .v1))).idxOf false = 0 ∧
    ∀ c ∈ [([360, 640, 12, 3, 0], 0), ([360, 640, 16, 3, 0], 1), ([0, 640, 16, 1, 0], 2), ([360, 0, 16, 1, 0], 2),
        ([8, 2, 1, 1, 0, 0, 0, 0, 0, 0, 0, 7], 2), ([8, 2, 1, 1, 0, 0, 0, 0, 0, 0, 0, 0, 1], 2), ([8, 1, 1, 0, 0], 3),
        ([8, 0x200001, 1, 1, 0], 4), ([8, 0x200000, 1, 1, 0], 5), ([8, 2, 1, 1, 1], 6)],
      (modeChecksHold (issue .modeSet c.1 (machine .v2))).idxOf false = c.2 :=
  ⟨fun _ => ⟨issue_atStart _ _ _, machine_awake _ _ _⟩, by decide, by decide +kernel⟩

/-- The clock check: the last requests on both sides that are not clamped, and the first that are and are rejected. -/
theorem test_meets_ModeSetClockError : ∀ c ∈ [(10001, 2), (2549999, 255), (10000, 1), (2550000, 256)],
    let s := issue .modeSet [360, 640, 16, 1, c.1] (machine .v2)
    (modeChecksHold s).all id = true ∧ (s.env.peek.rate + 10 ^ 12 / s.argN 4 - 1) / (10 ^ 12 / s.argN 4) = c.2 ∧
      s.env.drop.peek.clk = none := by decide +kernel

/-- The hypotheses of the three statements about a MODE_SET that passes validation. -/
theorem test_meets_ModeSetResult :
    let s := issue .modeSet p1Args (machine .v2)
    AtStart .modeSet s ∧ Awake s ∧ s.cfg.wellFormed = true ∧ ModeValid s ∧ s.blk.lock = .free ∧
      disableRuns s true (negotiateAccesses s (10 ^ 12 / s.argN 4)) ∧ ∃ t, exec .modeSet s = .next t :=
  ⟨issue_atStart _ _ _, machine_awake _ _ _, by decide +kernel,
   ⟨by decide, by decide, by decide, by decide, by decide, by unfold negotiates; decide⟩,
   by decide, by unfold disableRuns; decide, _, rfl⟩

/-- MODE_SET's test step with a shade code that passes validation. -/
theorem test_meets_ModeSetTest : bitsAt ((atLine .modeSet 24 fullTurn (machine .v2)).arg 3) 0 2 ≠ 3 := by decide

/-- TV09: the last window that fits; then one that fails each item of R201 by one: no mode, an end not above its start, a
length one too long, a start below the region, an end above it. The read-back needs a next state. -/
theorem test_meets_SetWindow :
    let valid := fun s : State => s.blk.haveMode = true ∧ s.argN 1 > s.argN 0 ∧
      s.argN 1 - s.argN 0 + 1 = s.blk.geo.yres * s.blk.geo.lineLen ∧
      (s.blk.vram.base ≤ s.argN 0 ∧ s.argN 1 ≤ s.blk.vram.base + s.blk.vram.size - 1)
    let s := issue .setWindow [0x8018F800, 0x801FFFFF] (moded .v2 360 640 .s0)
    (AtStart .setWindow s ∧ Awake s ∧ s.cfg.wellFormed = true ∧ valid s ∧ s.blk.lock = .free ∧
      ∃ t, exec .setWindow s = .next t) ∧
    ¬valid (issue .setWindow [0x8018F800, 0x801FFFFF] (machine .v2)) ∧
    ∀ w ∈ [[0x8018F800, 0x8018F800], [0x8018F7FF, 0x801FFFFF], [0x7FFFFFFF, 0x800707FE], [0x8018F801, 0x80200000]],
      ¬valid (issue .setWindow w (moded .v2 360 640 .s0)) :=
  ⟨⟨issue_atStart _ _ _, moded_awake _ _ _ _ _ _, by decide +kernel, by decide, by decide, _, rfl⟩, by decide, by decide⟩

/-- The first byte of PAN's window (R204, R205). -/
def panFirst (s : State) : Nat :=
  let g := s.blk.geo
  let x := if s.argN 0 + g.xres > g.xresV then max 0 ((g.xresV : Int) - g.xres) else (s.argN 0 : Int)
  let y := if s.argN 1 + g.yres > g.yresV then max 0 ((g.yresV : Int) - g.yres) else (s.argN 1 : Int)
  s.blk.vram.base + y.toNat * g.lineLen + x.toNat * s.blk.fmt.bpp / 8

/-- Its last byte (R205). -/
def panEnd (s : State) : Nat := panFirst s + s.blk.geo.yres * s.blk.geo.lineLen - 1

/-- Without a mode; a region one byte too small; the last offset that is kept and the first that is clamped. -/
theorem test_meets_PanResult :
    let valid := fun s : State => panEnd s > panFirst s ∧ panEnd s - panFirst s + 1 = s.blk.geo.yres * s.blk.geo.lineLen ∧
      (s.blk.vram.base ≤ panFirst s ∧ panEnd s ≤ s.blk.vram.base + s.blk.vram.size - 1)
    let s1 := issue .pan [0, 0] (machine .v2)
    let s2 := issue .pan [0, 640] ((moded .v2 360 1280 .s0).onBlk fun b => { b with vram := ⟨0x80000000, 0xE0FFF⟩ })
    let s3 := issue .pan [1, 640] (moded .v2 361 1280 .s1)
    let s4 := issue .pan [2, 641] (moded .v2 361 1280 .unknown)
    (AtStart .pan s1 ∧ Awake s1 ∧ s1.blk.haveMode = false) ∧
    (AtStart .pan s2 ∧ Awake s2 ∧ s2.blk.haveMode = true ∧ ¬valid s2) ∧
    (AtStart .pan s3 ∧ Awake s3 ∧ s3.blk.haveMode = true ∧ valid s3 ∧ s3.blk.lock = .free ∧
      s3.blk.geo.xres ≤ s3.blk.geo.xresV ∧ s3.blk.geo.yres ≤ s3.blk.geo.yresV) ∧
    (AtStart .pan s4 ∧ Awake s4 ∧ valid s4 ∧ panFirst s4 = panFirst s3) :=
  ⟨⟨issue_atStart _ _ _, machine_awake _ _ _, by decide⟩, ⟨issue_atStart _ _ _, ⟨rfl, rfl⟩, by decide⟩,
   ⟨issue_atStart _ _ _, moded_awake _ _ _ _ _ _, by decide⟩, issue_atStart _ _ _, moded_awake _ _ _ _ _ _, by decide⟩

theorem test_meets_EnableResult : ∀ r, AtStart .enable (issue .enable [] (machine r)) ∧ Awake (issue .enable [] (machine r)) :=
  fun _ => ⟨issue_atStart _ _ _, machine_awake _ _ _⟩

theorem test_meets_DisableResult :
    (∀ n ∈ [0, 1], AtStart .disable (issue .disable [n] (machine .v2)) ∧ Awake (issue .disable [n] (machine .v2)) ∧
      disableRuns (issue .disable [n] (machine .v2)) ((issue .disable [n] (machine .v2)).argBit 0 0) []) ∧
    let s := (atLine .disable 8 fullTurn (machine .v2)).onBlk fun b => { b with arg := argWords [1], frameDoneFlag := true }
    AtLine .disable 8 fullTurn s ∧ s.argBit 0 0 = true ∧ s.blk.rev = .v2 ∧ s.blk.lock = .free ∧ s.blk.frameDoneFlag = true :=
  ⟨fun n hn => ⟨issue_atStart _ _ _, machine_awake _ _ _, by revert n; unfold disableRuns; decide⟩,
   ⟨rfl, Nat.le_refl _⟩, by decide⟩

theorem test_meets_SuspendAndResume :
    (∀ i ∈ [Instr.suspend, .resume], AtStart i (issue i [] (machine .v2)) ∧ AtStart i (issue i [] (asleep (machine .v2)))) ∧
    (machine .v2).blk.attached = true ∧ (machine .v2).blk.suspended = false ∧ (asleep (machine .v2)).blk.suspended = true ∧
    disableRuns (issue .suspend [] (machine .v2)) true [] :=
  ⟨fun _ _ => ⟨issue_atStart _ _ _, issue_atStart _ _ _⟩, by decide, by decide, by decide, by unfold disableRuns; decide⟩

theorem test_meets_PowerIsSymmetric : (machine .v2).cfg.wellFormed = true ∧ Awake (machine .v2) ∧
    disableRuns (machine .v2) true [] ∧ disableRuns (machine .v1) true [] :=
  ⟨by decide +kernel, ⟨rfl, rfl⟩, by unfold disableRuns; decide, by unfold disableRuns; decide⟩

/-- The wait that times out, the one that stays blocked, the one that wakes and the one that finds the lock held; and at its
test step in a later turn the wait that times out and the one that stays blocked. -/
theorem test_meets_Waits : ∀ i ∈ [Instr.waitVsync, .waitPalette],
    let s := issue i [] (machine .v2)
    let b := { s with env := { s.env with draws := [{ quiet with timeout := false }] } }
    let w := (atLine i 5 fullTurn (machine .v2)).onBlk fun b => { b with vsyncFlag := true, palDoneFlag := true }
    (AtStart i s ∧ s.blk.attached = true ∧ s.blk.lock = .free ∧ s.env.peek.timeout = true) ∧
    (AtStart i b ∧ b.env.peek.timeout = false) ∧
    (AtLine i 5 fullTurn w ∧ w.blk.lock = .free ∧ w.blk.flag .vsync = true ∧ w.blk.flag .palDone = true) ∧
    (AtLine i 5 fullTurn (locked w) ∧ (locked w).blk.lock ≠ .free) ∧
    let x := atLine i 5 fullTurn (machine .v2)
    let y := atLine i 5 fullTurn { machine .v2 with env := b.env }
    (AtLine i 5 fullTurn x ∧ x.blk.lock = .free ∧ x.blk.flag .vsync = false ∧ x.blk.flag .palDone = false ∧
      x.env.peek.timeout = true) ∧
    (AtLine i 5 fullTurn y ∧ y.blk.lock = .free ∧ y.blk.flag .vsync = false ∧ y.blk.flag .palDone = false ∧
      y.env.peek.timeout = false) := by
  intro i hi
  refine ⟨⟨issue_atStart _ _ _, by revert i; decide⟩, ⟨issue_atStart _ _ _, by revert i; decide⟩,
    ⟨⟨rfl, Nat.le_refl _⟩, by revert i; decide⟩, ⟨⟨rfl, Nat.le_refl _⟩, by revert i; decide⟩,
    ⟨⟨rfl, Nat.le_refl _⟩, by revert i; decide⟩, ⟨rfl, Nat.le_refl _⟩, by revert i; decide⟩

theorem test_meets_CallbackSlot : (∀ i ∈ [Instr.registerCb, .unregisterCb], AtStart i (issue i [0, 0] fresh)) ∧
    fresh.blk.lock = .free ∧ fresh.blk.cb = none := ⟨fun _ _ => issue_atStart _ _ _, by decide⟩

theorem test_meets_SectionsWaitForTheLock :
    (∀ e ∈ [(Instr.registerCb, 0), (.unregisterCb, 0), (.waitVsync, 2), (.waitVsync, 5), (.waitPalette, 2), (.waitPalette, 5),
        (.setWindow, 3), (.pan, 5), (.modeSet, 53)],
      AtLine e.1 e.2 1 (atLine e.1 e.2 1 (locked (machine .v2))) ∧ (atLine e.1 e.2 1 (locked (machine .v2))).blk.lock ≠ .free) ∧
    (∀ e ∈ [(Instr.disable, 5), (.disable, 8), (.suspend, 5), (.suspend, 8), (.detach, 4), (.detach, 7), (.modeSet, 21),
        (.modeSet, 24)],
      AtLine e.1 e.2 1 (atLine e.1 e.2 1 (locked (machine .v2)))) ∧ waits (locked (machine .v2)) true = true ∧
    waits (issue .disable [1] (locked (machine .v2))) ((issue .disable [1] (locked (machine .v2))).argBit 0 0) = true :=
  ⟨fun e he => ⟨⟨rfl, Nat.le_refl _⟩, by revert e; decide⟩, fun _ _ => ⟨rfl, Nat.le_refl _⟩, by decide, by decide⟩

/-- The activation's start, a state in which one of the five conditions fails, and one inside an activation. -/
theorem test_meets_ActivationEntry :
    let s := raised (machine .v2) 0x100#32
    (s.irqd.pc = .idle ∧ s.blk.attached = true ∧ s.blk.suspended = false ∧ s.lcdc.irq = true ∧ s.blk.irqActive = false ∧
      s.blk.lock = .free) ∧
    ((machine .v2).irqd.pc = .idle ∧ (machine .v2).lcdc.irq = false) ∧
    ((activate s).irqd.pc ≠ .idle ∧ (activate s).blk.irqActive = true ∧ (activate s).blk.lock = .irqd) ∧
    view (irqdTurn 2 (activate s)) (fun t => decide (t.irqd.pc ≠ .idle)) = some true := by decide

/-- A move of the decoder. -/
theorem test_meets_ActivationMove :
    let s := moving (raised (machine .v2) 0x100#32) (.irqd 3)
    s.cfg.wellFormed = true ∧ s.env.peekMove = .irqd 3 := by decide +kernel

/-- The cases of the two revisions: the fault on V1, then the frame; on V2 all three. -/
theorem test_meets_Activations :
    (∀ r w, mayActivate (raised (machine r) w) = true ∧ (raised (machine r) w).irqd.pc = .idle ∧ (machine r).blk.rev = r) ∧
    (∀ r, nextBit (raised (machine r) 0x24#32) .syncLost = true ∧ nextBit (raised (machine r) 0x24#32) .fifoUfl = true) ∧
    (∀ r, nextBit (raised (machine r) 0x04#32) .fifoUfl = false ∧ nextBit (raised (machine r) 0x04#32) .plDone = false) ∧
    nextBit (raised (machine .v2) 0x44#32) .fifoUfl = false ∧ nextBit (raised (machine .v2) 0x44#32) .plDone = true :=
  ⟨fun r _ => by cases r <;> exact ⟨rfl, rfl, rfl⟩, fun r => by cases r <;> decide, fun r => by cases r <;> decide, by decide⟩

/-- The first and the last line of a body; and a turn that ends inside an activation. -/
theorem test_meets_EveryActivationReachesItsExit :
    let s := activate (raised (machine .v2) 0x100#32)
    s.irqd.pc = .run .v2 0 ∧ 0 < (irqBody .v2).length ∧ v2Body.length - 1 < (irqBody .v2).length ∧ s.irqd.pc ≠ .idle ∧
      s.blk.irqActive = true ∧ s.blk.lock = .irqd ∧ view (irqdTurn 1 s) (fun t => t.irqd.pc) = some (.run .v2 1) := by decide

theorem test_meets_DecoderTouchesOnlyItsOwn : ∃ t, irqdTurn 3 (raised (machine .v1) 0x300#32) = .next t ∧
    t.lcdc.regs.rasterCtrl = none :=
  next_of_view (f := fun t => t.lcdc.regs.rasterCtrl) (by decide)

theorem test_meets_EachRecordHasItsWriters : ∃ t, exec .modeSet (issue .modeSet p1Args (machine .v1)) = .next t ∧
    t.blk.haveMode = true := next_of_view (f := fun t => t.blk.haveMode) (by decide)

/-- One step of a command and one of the decoder that move the raster state. -/
theorem test_meets_RasterMoves :
    view (exec .enable (atLine .enable 2 1 (machine .v2))) (fun t => t.blk.rstate) = some .enabling ∧
    view (irqdTurn 1 { machine .v2 with irqd := { (machine .v2).irqd with pc := .run .v2 5, s := 0x24#32 } })
      (fun t => t.blk.rstate) = some .enabling ∧ (machine .v2).blk.rstate = .disabled := by decide

/-- Each flag is cleared by a command that may clear it. -/
theorem test_meets_FlagClearers :
    let s := (machine .v2).onBlk fun b => { b with vsyncFlag := true, palDoneFlag := true, frameDoneFlag := true }
    after .waitVsync [] s (fun t => (t.blk.vsyncFlag, t.blk.palDoneFlag, t.blk.frameDoneFlag)) = some (false, true, true) ∧
    after .waitPalette [] s (fun t => (t.blk.vsyncFlag, t.blk.palDoneFlag, t.blk.frameDoneFlag)) = some (true, false, true) ∧
    after .suspend [] s (fun t => (t.blk.vsyncFlag, t.blk.palDoneFlag, t.blk.frameDoneFlag)) = some (true, true, false) := by
  decide

theorem test_meets_RasterCtrlUpdateCanBeLost :
    let s := holding (atLine .programDisplayMode 4 1 (machine .v2)) .rasterCtrl 0x81#32
    AtLine .programDisplayMode 4 1 s ∧ s.seq.turn = 1 ∧ s.cfg.wellFormed = true ∧ s.seq.loc.t = 0#32 :=
  ⟨⟨rfl, Nat.le_refl _⟩, by decide +kernel⟩

/-- An idle machine keeps the lock discipline, whatever its next move. -/
theorem lockInv_machine (r : Rev) (m : Move) : LockInv (moving (machine r) m) :=
  have h : LockInv (machine r) :=
    ⟨by cases r <;> decide, by cases r <;> decide, by cases r <;> decide, by cases r <;> decide, fun _ _ h => (nomatch h)⟩
  ⟨h.irqd, h.active, h.seq, h.busy, h.cmd⟩

theorem test_meets_QuiescentStatesStay : ∀ m ∈ [Move.seq 3, .irqd 3, .line false],
    let s := moving (machine .v2) m
    s.cfg.wellFormed = true ∧ LockInv s ∧ Quiescent s ∧ s.env.peekMove = m :=
  fun m _ => ⟨test_wf_default, lockInv_machine _ m, ⟨rfl, rfl, rfl, rfl⟩, rfl⟩

/-- A wait that has been issued, with answers for a whole turn. -/
theorem test_meets_EveryCommandEnds :
    let u := issue .waitVsync [] { machine .v2 with env := { Env.reset with draws := List.replicate 200 quiet } }
    u.seq.pc = .run (some .waitVsync) 0 ∧ 0 < (linesOf (some .waitVsync)).length ∧ fullTurn ≤ u.seq.turn ∧ LockInv u ∧
      u.blk.lock ≠ .irqd ∧ fullTurn ≤ u.env.draws.length ∧ ∀ d ∈ u.env.draws, d.timeout = true :=
  ⟨rfl, by decide, Nat.le_refl _,
   ⟨by decide, by decide, by decide, by decide, fun c k h => by cases h; decide⟩, by decide, by decide +kernel, by decide +kernel⟩

/-- A wait that has been issued, and the state in which its first turn leaves it. -/
def waiting : State := issue .waitVsync [] (machine .v2)

/-- The state after that turn: the wait has timed out. -/
def waited : State :=
  match step (waiting.withMove (.seq fullTurn)) with
  | .next t => t
  | _ => waiting

/-- A run in which the sequencer makes every move. -/
def waitRun : Nat → State
  | 0 => waiting
  | _ + 1 => waited

/-- It is a run, its moves are weakly fair, and it keeps the lock discipline; so the hypotheses on whole runs can be met. -/
theorem test_meets_FairRun : Run waitRun (fun _ => .seq fullTurn) ∧ WeaklyFair waitRun (fun _ => .seq fullTurn) ∧
    (∀ n, LockInv (waitRun n)) ∧ (waitRun 0).seq.pc ≠ .idle := by
  have idle : waited.seq.pc = .idle := by decide +kernel
  have off : ∀ n, (waitRun n).irqd.pc = .idle ∧ mayActivate (waitRun n) = false := by
    rintro (_ | n)
    · decide
    · exact (by decide +kernel : waited.irqd.pc = .idle ∧ mayActivate waited = false)
  have noAcquire : ∀ n, ¬atAcquire (waitRun n) := by
    rintro (_ | n)
    · unfold atAcquire; decide
    · rintro ⟨_, _, h⟩; exact nomatch idle.symm.trans h
  have noBlock : ∀ n e, ¬atBlock (waitRun n) e := by
    rintro (_ | n) e ⟨i, k, h, hp⟩
    · cases hp; revert h; cases e <;> decide
    · exact nomatch idle.symm.trans hp
  refine ⟨?_, ⟨fun n _ => ⟨n, 199, Nat.le_refl _, rfl⟩, fun n h => absurd (off n).1 (h n (Nat.le_refl _)),
    fun n h => absurd (h n (Nat.le_refl _)) (by simp [(off n).2]), fun n h => absurd h (noAcquire n),
    fun n e h _ => absurd h (noBlock n e), fun n e h _ => absurd h (noBlock n e)⟩, ?_, nofun⟩
  · rintro (_ | n)
    · obtain ⟨t, h, e⟩ := next_of_view (o := step (waiting.withMove (.seq fullTurn))) (f := id) (v := waited) (by decide +kernel)
      cases e; exact h
    · obtain ⟨t, h, e⟩ := next_of_view (o := step (waited.withMove (.seq fullTurn))) (f := id) (v := waited) (by decide +kernel)
      cases e; exact h
  · rintro (_ | n)
    · exact ⟨by decide, by decide, by decide, by decide, fun c k h => by cases h; decide⟩
    · show LockInv waited
      exact ⟨by decide +kernel, by decide +kernel, by decide +kernel, by decide +kernel,
        fun _ _ h => nomatch idle.symm.trans h⟩

/-- The invariants of a machine in the middle of a command, at a step that answers a next state. -/
theorem test_meets_Invariants :
    let s := moving (atLine .pan 3 0 (moded .v2 360 640 .s0)) (.seq 1)
    PcInv s ∧ WindowInv s ∧ (∃ t, step (moving (machine .v2) (.seq 1)) = .next t) ∧ LockInv (moving (machine .v2) (.seq 1)) := by
  refine ⟨⟨fun c k h => by cases h; decide, fun _ _ h => (nomatch h)⟩, ⟨?_, fun _ h => (nomatch h), ?_, ?_⟩, ?_,
    lockInv_machine _ _⟩
  · unfold vramOk; decide
  · show 4 < 3 → _
    intro h; exact absurd h (by decide)
  · intro _ w h
    cases h
    unfold winInVram
    decide
  · exact (next_of_view (f := fun t => t.seq.pc) (v := .idle) (by decide +kernel)).imp fun _ h => h.1

end Sys2Proof.Tests
end

section
/-! Fields of a register word (R10, R104): what one insertion does to each bit, what it leaves in the same and in another
field, and what a list of insertions leaves in every field of a register whose table is well formed. -/

namespace Sys2Proof.Machine

/-! ## Single bits -/

/-- The mask of a range holds exactly the bits of the range (R10). -/
theorem testBit_rangeMask {hi lo : Nat} (h : lo ≤ hi) (j : Nat) :
    (rangeMask (some (hi, lo))).testBit j = decide (lo ≤ j ∧ j ≤ hi) := by
  simp only [rangeMask, Nat.testBit_mul_two_pow, Nat.testBit_two_pow_sub_one, ← Bool.decide_and, decide_eq_decide]
  omega

/-- A bit of the word with a field replaced (R10). -/
theorem getLsbD_ins (w : Word) {hi lo : Nat} (v : Nat) {j : Nat} (h : lo ≤ hi) (hj : j < 32) :
    (ins w (some (hi, lo)) v).getLsbD j = if lo ≤ j ∧ j ≤ hi then v.testBit (j - lo) else w.getLsbD j := by
  have hm : (rangeWord hi lo).getLsbD j = decide (lo ≤ j ∧ j ≤ hi) := by
    rw [rangeWord, BitVec.getLsbD_ofNat, testBit_rangeMask h, decide_eq_true hj, Bool.true_and]
  have hv : (BitVec.ofNat 32 (v % 2 ^ (hi - lo + 1) * 2 ^ lo)).getLsbD j =
      (decide (lo ≤ j ∧ j ≤ hi) && v.testBit (j - lo)) := by
    rw [BitVec.getLsbD_ofNat, Nat.testBit_mul_two_pow, Nat.testBit_mod_two_pow, ← Bool.and_assoc, ← Bool.and_assoc,
      ← Bool.decide_and, ← Bool.decide_and]
    congr 2
    rw [eq_iff_iff]
    omega
  simp only [ins, BitVec.getLsbD_or, BitVec.getLsbD_and, BitVec.getLsbD_not, hm, hv, hj]
  split <;> simp [*]

/-- A bit of the value read from a field (R10). -/
theorem testBit_ext (w : Word) (hi lo j : Nat) :
    (ext w (some (hi, lo))).testBit j = (decide (j < hi - lo + 1) && w.getLsbD (lo + j)) := by
  simp only [ext, bitsAt, Nat.testBit_mod_two_pow, Nat.testBit_div_two_pow, BitVec.testBit_toNat, Nat.add_comm lo j]

@[simp] theorem ins_none (w : Word) (v : Nat) : ins w none v = w := rfl
@[simp] theorem ext_none (w : Word) : ext w none = 0 := rfl

/-! ## Several insertions -/

@[simp] theorem insFields_nil (p : Params) (r : Rev) (w : Word) : insFields p r w [] = w := rfl

theorem insFields_cons (p : Params) (r : Rev) (w : Word) (e : Fld × Nat) (es : List (Fld × Nat)) :
    insFields p r w (e :: es) = insFields p r (ins w (p.pos r e.1) e.2) es := rfl

/-- The last insertion is applied last (R10). -/
theorem insFields_concat (p : Params) (r : Rev) (w : Word) (es : List (Fld × Nat)) (e : Fld × Nat) :
    insFields p r w (es ++ [e]) = ins (insFields p r w es) (p.pos r e.1) e.2 := List.foldl_concat _ _ _ _

/-- Settles O12: the bit equations of `ins` and `ext`, and the defining equations of the lists. -/
theorem fieldInsertAndExtract : Obligations.FieldInsertAndExtract := by
  refine ⟨fun w hi lo v j h _ hj => getLsbD_ins w v h hj, fun w hi lo j h _ => ?_, fun w v => ⟨rfl, rfl⟩,
    fun p r w f v es => ⟨insFields_nil p r w, insFields_cons p r w (f, v) es⟩, bitsOf_one⟩
  rw [testBit_ext]
  congr 2
  rw [eq_iff_iff, Nat.lt_succ_iff]

/-! ## What a well-formed table says of two fields (R104) -/

theorem Fld.mem_all (f : Fld) : f ∈ Fld.all := by cases f <;> decide

theorem LReg.mem_all (g : LReg) : g ∈ LReg.all := by cases g <;> decide

theorem wellFormed_fieldsFit {p : Params} (h : p.wellFormed = true) (r : Rev) : fieldsFit p r = true := by
  simp only [Params.wellFormed, capsOk, Bool.and_eq_true] at h
  cases r <;> simp only [h]

theorem wellFormed_fieldsDisjoint {p : Params} (h : p.wellFormed = true) (r : Rev) : fieldsDisjoint p r = true := by
  simp only [Params.wellFormed, capsOk, Bool.and_eq_true] at h
  cases r <;> simp only [h]

/-- A field with a position is one of the revision, with exactly its width inside bits 31..0. -/
theorem pos_some_fits {p : Params} (h : p.wellFormed = true) {r : Rev} {f : Fld} {hi lo : Nat}
    (hp : p.pos r f = some (hi, lo)) : f.onRev r = true ∧ lo ≤ hi ∧ hi ≤ 31 ∧ hi - lo + 1 = p.width f := by
  have hf := List.all_eq_true.mp (wellFormed_fieldsFit h r) f (Fld.mem_all f)
  simpa [hp, and_assoc] using hf

/-- A field without a position is one the revision lacks, one of width 0, or one a table may leave out. -/
theorem pos_none_cases {p : Params} (h : p.wellFormed = true) {r : Rev} {f : Fld} (hp : p.pos r f = none) :
    f.onRev r = false ∨ p.width f = 0 ∨ f.optional = true := by
  have hf := List.all_eq_true.mp (wellFormed_fieldsFit h r) f (Fld.mem_all f)
  simpa [hp, or_assoc] using hf

/-- Masks that each miss all bits taken before miss those bits and each other. -/
theorem pairwise_of_masksDisjoint {ms : List Nat} : ∀ {taken : Nat}, masksDisjoint taken ms = true →
    (∀ m ∈ ms, taken &&& m = 0) ∧ ms.Pairwise fun a b => a &&& b = 0 := by
  induction ms with
  | nil => simp
  | cons m ms ih =>
    intro taken h
    simp only [masksDisjoint, Bool.and_eq_true, beq_iff_eq] at h
    obtain ⟨hm, hrest⟩ := h
    obtain ⟨hmiss, hpair⟩ := ih hrest
    simp only [Nat.and_or_distrib_right, Nat.or_eq_zero_iff] at hmiss
    exact ⟨List.forall_mem_cons.mpr ⟨hm, fun a ha => (hmiss a ha).1⟩,
      List.pairwise_cons.mpr ⟨fun a ha => (hmiss a ha).2, hpair⟩⟩

/-- The bit ranges of two fields of one register have no bit in common. -/
theorem rangeMask_disjoint {p : Params} (h : p.wellFormed = true) (r : Rev) {f g : Fld} (hne : f ≠ g)
    (hhome : f.home = g.home) : rangeMask (p.pos r f) &&& rangeMask (p.pos r g) = 0 := by
  have hreg := List.all_eq_true.mp (wellFormed_fieldsDisjoint h r) g.home (LReg.mem_all _)
  have hpair := List.pairwise_map.mp (pairwise_of_masksDisjoint hreg).2
  have hsymm : Std.Symm fun f g => rangeMask (p.pos r f) &&& rangeMask (p.pos r g) = 0 :=
    ⟨fun f g hfg => by rwa [Nat.and_comm]⟩
  exact hpair.forall (by simp [Fld.mem_all, hhome]) (by simp [Fld.mem_all]) hne

/-- Two fields of one register do not overlap. -/
theorem pos_apart {p : Params} (h : p.wellFormed = true) {r : Rev} {f g : Fld} (hne : f ≠ g) (hhome : f.home = g.home)
    {hi lo hi' lo' : Nat} (hf : p.pos r f = some (hi, lo)) (hg : p.pos r g = some (hi', lo')) : hi < lo' ∨ hi' < lo := by
  obtain ⟨-, hle, -, -⟩ := pos_some_fits h hf
  obtain ⟨-, hle', -, -⟩ := pos_some_fits h hg
  have hdis := rangeMask_disjoint h r hne hhome
  rw [hf, hg] at hdis
  have hbit := congrArg (Nat.testBit · (max lo lo')) hdis
  simp only [Nat.testBit_and, testBit_rangeMask hle, testBit_rangeMask hle', Nat.zero_testBit, Bool.and_eq_false_iff,
    decide_eq_false_iff_not] at hbit
  omega

/-! ## Reading a field after an insertion -/

/-- What a field holds after `v` has been inserted: `v` cut to the field's width, 0 for an absent field (R10). -/
def fieldCut : Option (Nat × Nat) → Nat → Nat
  | none, _ => 0
  | some (hi, lo), v => v % 2 ^ (hi - lo + 1)

/-- The field named by an insertion holds the value given. -/
theorem ext_ins_same {p : Params} (h : p.wellFormed = true) (r : Rev) (w : Word) (f : Fld) (v : Nat) :
    ext (ins w (p.pos r f) v) (p.pos r f) = fieldCut (p.pos r f) v := by
  match hp : p.pos r f with
  | none => rfl
  | some (hi, lo) =>
    obtain ⟨-, hle, hhi, -⟩ := pos_some_fits h hp
    apply Nat.eq_of_testBit_eq
    intro j
    rw [testBit_ext, fieldCut, Nat.testBit_mod_two_pow]
    by_cases hj : j < hi - lo + 1
    · rw [getLsbD_ins w v hle (by omega), if_pos (by omega), Nat.add_sub_cancel_left]
    · simp [hj]

/-- An insertion changes no bit outside its field. -/
theorem getLsbD_ins_outside {p : Params} (h : p.wellFormed = true) (r : Rev) (w : Word) (g : Fld) (v : Nat) {j : Nat}
    (hj : ∀ hi lo, p.pos r g = some (hi, lo) → j < lo ∨ hi < j) :
    (ins w (p.pos r g) v).getLsbD j = w.getLsbD j := by
  match hp : p.pos r g with
  | none => rfl
  | some (hi, lo) =>
    by_cases h32 : j < 32
    · have hout := hj hi lo hp
      rw [getLsbD_ins w v (pos_some_fits h hp).2.1 h32, if_neg (by omega)]
    · rw [BitVec.getLsbD_of_ge _ _ (by omega), BitVec.getLsbD_of_ge _ _ (by omega)]

/-- Every other field of the register holds what it held. -/
theorem ext_ins_other {p : Params} (h : p.wellFormed = true) (r : Rev) (w : Word) {f g : Fld} (v : Nat) (hne : f ≠ g)
    (hhome : f.home = g.home) : ext (ins w (p.pos r g) v) (p.pos r f) = ext w (p.pos r f) := by
  match hf : p.pos r f with
  | none => rfl
  | some (hi, lo) =>
    obtain ⟨-, hle, -, -⟩ := pos_some_fits h hf
    apply Nat.eq_of_testBit_eq
    intro j
    rw [testBit_ext, testBit_ext]
    by_cases hj : j < hi - lo + 1
    · rw [getLsbD_ins_outside h r w g v fun hi' lo' hg => ?_]
      have := pos_apart h hne hhome hf hg
      omega
    · simp [hj]

/-- What a field of the register holds after an RMW: the last value given for it, else what was read (R12, R191). -/
theorem ext_insFields {p : Params} (h : p.wellFormed = true) (r : Rev) (w : Word) (f : Fld) (edits : List (Fld × Nat))
    (hhome : ∀ e ∈ edits, e.1.home = f.home) :
    ext (insFields p r w edits) (p.pos r f) =
      match edits.reverse.lookup f with
      | some v => fieldCut (p.pos r f) v
      | none => ext w (p.pos r f) := by
  induction edits using List.reverseRecOn with
  | nil => rfl
  | append_singleton es e ih =>
    obtain ⟨g, v⟩ := e
    rw [insFields_concat, List.reverse_concat, List.lookup_cons]
    by_cases hfg : f = g
    · subst hfg
      simp [ext_ins_same h]
    · rw [ext_ins_other h r _ v hfg (hhome (g, v) (by simp)).symm, ih fun e he => hhome e (by simp [he]),
        beq_false_of_ne hfg]

/-- An RMW changes no bit outside the named fields (R12). -/
theorem getLsbD_insFields_outside {p : Params} (h : p.wellFormed = true) (r : Rev) {j : Nat} {edits : List (Fld × Nat)} :
    ∀ w : Word, (∀ e ∈ edits, ∀ hi lo, p.pos r e.1 = some (hi, lo) → j < lo ∨ hi < j) →
      (insFields p r w edits).getLsbD j = w.getLsbD j := by
  induction edits with
  | nil => intro w _; rfl
  | cons e es ih =>
    intro w hj
    obtain ⟨he, hes⟩ := List.forall_mem_cons.mp hj
    rw [insFields_cons, ih _ hes, getLsbD_ins_outside h r w e.1 e.2 he]

/-- Settles O14, by induction on the list of insertions: each one sets its own field and misses every other. -/
theorem rmwWritesItsFieldsAlone : Obligations.RmwWritesItsFieldsAlone := by
  intro p r w edits f h hhome
  refine ⟨?_, fun j => getLsbD_insFields_outside h r w⟩
  rw [ext_insFields h r w f edits hhome]
  cases edits.reverse.lookup f <;> cases p.pos r f <;> rfl

/-! ## A value that fits its field -/

/-- The part of a value that `n` bits take fits `n` bits. -/
theorem mod_two_pow_lt (v n : Nat) : v % 2 ^ n < 2 ^ n := Nat.mod_lt v (Nat.two_pow_pos n)

/-- A value that fits a field is held whole, unless the field is absent. -/
theorem fieldCut_eq {p : Params} (h : p.wellFormed = true) (r : Rev) {f : Fld} {v : Nat} (hv : v < 2 ^ p.width f) :
    fieldCut (p.pos r f) v = if p.pos r f = none then 0 else v := by
  match hp : p.pos r f with
  | none => rfl
  | some (hi, lo) =>
    obtain ⟨-, -, -, hw⟩ := pos_some_fits h hp
    rw [if_neg (by simp), fieldCut, hw, Nat.mod_eq_of_lt hv]

/-- After an RMW a field named in it holds the last value given, if that fits; an absent field reads 0. -/
theorem ext_insFields_named {p : Params} (h : p.wellFormed = true) {r : Rev} {w : Word} {f : Fld}
    {edits : List (Fld × Nat)} {v : Nat} (hlast : edits.reverse.lookup f = some v)
    (hhome : (edits.all fun e => e.1.home == f.home) = true) (hv : v < 2 ^ p.width f) :
    ext (insFields p r w edits) (p.pos r f) = if p.pos r f = none then 0 else v := by
  rw [ext_insFields h r w f edits (by simpa using hhome), hlast, ← fieldCut_eq h r hv]

/-- The same for a field that the table must place: absent, it has width 0 and the value is 0 (R90, R104). -/
theorem ext_insFields_required {p : Params} (h : p.wellFormed = true) {r : Rev} {w : Word} {f : Fld}
    {edits : List (Fld × Nat)} {v : Nat} (hlast : edits.reverse.lookup f = some v)
    (hhome : (edits.all fun e => e.1.home == f.home) = true) (hv : v < 2 ^ p.width f) (hon : f.onRev r = true)
    (hreq : f.optional = false) : ext (insFields p r w edits) (p.pos r f) = v := by
  rw [ext_insFields_named h hlast hhome hv]
  split
  · next hp =>
    have hw : p.width f = 0 := by simpa [hon, hreq] using pos_none_cases h hp
    rw [hw] at hv
    omega
  · rfl

end Sys2Proof.Machine
end

section
/-! PROGRAM_HSYNC and PROGRAM_VSYNC (R170 to R173): how a command that only runs a called sequence ends, and which words
its read-modify-writes leave in the LCDC. -/

namespace Sys2Proof.Machine

/-- A command of the shape `requireAttached; requireAwake; <sequence>; finish OK` ends OK from an awake state, with what
the sequence leaves (R314, R315). -/
theorem exec_sequence_ok {i : Instr} {ls : List Act} {s : State} {b : Blk} {L : Locals} {l : List Access}
    (hl : linesOf (some i) = prologue ++ ls ++ [finishWith .ok])
    (hlen : (linesOf (some i)).length ≤ fullTurn) (hs : AtStart i s) (ha : Awake s)
    (hrun : ∀ u, Went .seq s u s.blk s.seq.loc [] → ∃ u',
      runAll .seq (ls ++ [finishWith .ok]) u = runAll .seq [finishWith .ok] u' ∧ Went .seq s u' b L l) :
    ∃ t, exec i s = .next t ∧ Ended s t b .ok l := by
  obtain ⟨u, e, hu⟩ := run_prologue s (ls ++ [finishWith .ok]) ha
  obtain ⟨u', e', hu'⟩ := hrun u hu
  refine ⟨u'.finish .ok, ?_, hu'.finish .ok⟩
  rw [exec_eq_seqTurn]
  refine exec_of_run hs (by rw [hl]; simp) hlen ?_
  rw [hl, List.append_assoc, e, e', runAll_finishWith]

/-! ## The words that read-modify-writes leave -/

/-- The register of an RMW holds the word read, edited (R12, R45). -/
theorem perform_rmw_get_same (a : Agent) (s : State) {g : LReg} (e : List (Fld × Nat)) (hg : LReg.holdsWord g = true) :
    (s.perform a (.rmw g e)).lcdc.regs.get g = some (insFields s.cfg s.blk.rev (s.readVal g) e) := by
  rw [State.perform, regWrite_lcdc, lcdc_write_regs, get_put_same _ _ hg]

/-- An RMW leaves every other register (R45). -/
theorem perform_rmw_get_other (a : Agent) (s : State) {g g' : LReg} (e : List (Fld × Nat)) (hne : g' ≠ g) :
    (s.perform a (.rmw g e)).lcdc.regs.get g' = s.lcdc.regs.get g' := by
  rw [State.perform, regWrite_lcdc, lcdc_write_regs, get_put_other _ _ hne, afterRead_lcdc]

/-- After an RMW and, under a condition, an RMW of another register, both registers hold an edited word. -/
theorem words_of_rmw_rmw_if {a : Agent} {s : State} {l : Lcdc} {g g' : LReg} {e e' : List (Fld × Nat)} {c : Prop}
    [Decidable c] (hl : l = (s.does a ([.rmw g e] ++ if c then [.rmw g' e'] else [])).lcdc)
    (hg : LReg.holdsWord g = true) (hg' : LReg.holdsWord g' = true) (hne : g ≠ g') :
    (∃ w, l.regs.get g = some (insFields s.cfg s.blk.rev w e)) ∧
      (c → ∃ w, l.regs.get g' = some (insFields s.cfg s.blk.rev w e')) := by
  have hfirst := perform_rmw_get_same a s e hg
  subst hl
  by_cases hc : c
  · refine ⟨⟨s.readVal g, ?_⟩, fun _ => ⟨(s.perform a (.rmw g e)).readVal g', ?_⟩⟩
    · simpa [hc, perform_rmw_get_other _ _ _ hne] using hfirst
    · simpa [hc] using perform_rmw_get_same a (s.perform a (.rmw g e)) e' hg'
  · exact ⟨⟨s.readVal g, by simpa [hc] using hfirst⟩, fun h => absurd h hc⟩

/-! ## The conditions and values of R172 and R173 -/

theorem whenB_eq_if (c : Bool) (l : List Access) : whenB c l = if c = true then l else [] := rfl

theorem isV2_iff (s : State) : isV2 s = true ↔ s.blk.rev = .v2 := by simp [isV2]

theorem hasVertHi_iff (s : State) :
    hasVertHi s = true ↔ s.blk.rev = .v2 ∧
      ¬(s.cfg.pos .v2 .vbpHi = none ∧ s.cfg.pos .v2 .vfpHi = none ∧ s.cfg.pos .v2 .vswHi = none) := by
  simp only [hasVertHi, Bool.and_eq_true, isV2_iff, Bool.not_eq_true', decide_eq_false_iff_not]

/-- The `HBP_HI` value has two bits, whichever porch it comes from (R172). -/
theorem hbpHi_lt (src : HbpHiSrc) (eb ef : Nat) :
    (match src with
      | .bp => eb / 2 ^ 8 % 4
      | .fp => ef / 2 ^ 8 % 4
      | .bpOrFp => (eb / 2 ^ 8 % 4) ||| (ef / 2 ^ 8 % 4)) < 2 ^ 2 := by
  cases src
  · exact Nat.mod_lt _ (by decide)
  · exact Nat.mod_lt _ (by decide)
  · exact Nat.or_lt_two_pow (Nat.mod_lt _ (by decide)) (Nat.mod_lt _ (by decide))

/-- Settles O24: the called sequence makes one RMW per timing register, and each named field is wide enough for its part. -/
theorem programHsyncResult : Obligations.ProgramHsyncResult := by
  intro s hs ha eb ep ef swLo swHi bpHi
  obtain ⟨t, hexec, hend⟩ := exec_sequence_ok rfl (by decide) hs ha fun u hu =>
    run_hsyncSeq (xs := [finishWith .ok]) hu 0 1 2
  simp only [hsyncAccesses, List.nil_append, whenB_eq_if, isV2_iff] at hend
  refine ⟨t, hexec, hend, fun hwf => ?_⟩
  obtain ⟨⟨w, hlow⟩, hhigh⟩ := words_of_rmw_rmw_if hend.lcdc rfl rfl (by decide)
  refine ⟨⟨_, hlow, ?hbpLo, ?hfpLo, ?hswLo⟩, fun hv2 => ?high⟩
  case hbpLo => exact ext_insFields_required hwf rfl rfl (mod_two_pow_lt _ 8) rfl rfl
  case hfpLo => exact ext_insFields_required hwf rfl rfl (mod_two_pow_lt _ 8) rfl rfl
  case hswLo => exact ext_insFields_required hwf rfl rfl (mod_two_pow_lt _ _) rfl rfl
  case high =>
    obtain ⟨w', hhigh⟩ := hhigh hv2
    rw [hv2] at hhigh
    refine ⟨_, hhigh, ?hbpHi, ?hfpHi, ?hswHi⟩
    case hbpHi => exact ext_insFields_required hwf rfl rfl (hbpHi_lt _ _ _) rfl rfl
    case hfpHi => exact ext_insFields_required hwf rfl rfl (mod_two_pow_lt _ 2) rfl rfl
    case hswHi => exact ext_insFields_required hwf rfl rfl (mod_two_pow_lt _ _) rfl rfl

/-- Settles O25: as for the horizontal fields, but a table may leave the vertical high porch fields without a position. -/
theorem programVsyncResult : Obligations.ProgramVsyncResult := by
  intro s hs ha eb ep ef swLo swHi high
  obtain ⟨t, hexec, hend⟩ := exec_sequence_ok rfl (by decide) hs ha fun u hu =>
    run_vsyncSeq (xs := [finishWith .ok]) hu 0 1 2
  simp only [vsyncAccesses, List.nil_append, whenB_eq_if, hasVertHi_iff] at hend
  refine ⟨t, hexec, hend, fun hwf => ?_⟩
  obtain ⟨⟨w, hlow⟩, hhigh⟩ := words_of_rmw_rmw_if hend.lcdc rfl rfl (by decide)
  refine ⟨⟨_, hlow, ?vbpLo, ?vfpLo, ?vswLo⟩, fun hv => ?high⟩
  case vbpLo => exact ext_insFields_required hwf rfl rfl (mod_two_pow_lt _ 8) rfl rfl
  case vfpLo => exact ext_insFields_required hwf rfl rfl (mod_two_pow_lt _ 8) rfl rfl
  case vswLo => exact ext_insFields_required hwf rfl rfl (mod_two_pow_lt _ _) rfl rfl
  case high =>
    obtain ⟨w', hhigh⟩ := hhigh hv
    rw [hv.1] at hhigh
    refine ⟨_, hhigh, ?vbpHi, ?vfpHi, ?vswHi⟩
    case vbpHi => exact ext_insFields_named hwf rfl rfl (mod_two_pow_lt _ 2)
    case vfpHi => exact ext_insFields_named hwf rfl rfl (mod_two_pow_lt _ 2)
    case vswHi => exact ext_insFields_required hwf rfl rfl (mod_two_pow_lt _ _) rfl rfl

end Sys2Proof.Machine
end

section
/-! What each line of a command of `SEQ` may change (R26 to R43): one table that gives, for each record, the lines that
write it, and one lemma that says that every line of every command keeps to the table. The invariants and the frames of
the commands are read off it. -/

namespace Sys2Proof.Machine

/-! ## The records and their lines -/

/-- The records of the block that some line of a command writes, and the locals of ATTACH and PAN that a later line
stores in the block. -/
inductive Record where
  | attached | rev | vram | lastDone | fmt | geo | haveMode | divider | srcRate | palCount | cb | panelPower | clkRun
  | suspended | win | xoff | yoff | rstate | vsyncFlag | frameDoneFlag | palDoneFlag | lock | alloc | ws | we

/-- A record is the same in two states. -/
def Record.Same (u u' : State) : Record → Prop
  | .attached => u'.blk.attached = u.blk.attached
  | .rev => u'.blk.rev = u.blk.rev
  | .vram => u'.blk.vram = u.blk.vram
  | .lastDone => u'.blk.lastDone = u.blk.lastDone
  | .fmt => u'.blk.fmt = u.blk.fmt
  | .geo => u'.blk.geo = u.blk.geo
  | .haveMode => u'.blk.haveMode = u.blk.haveMode
  | .divider => u'.blk.divider = u.blk.divider
  | .srcRate => u'.blk.srcRate = u.blk.srcRate
  | .palCount => u'.blk.palCount = u.blk.palCount
  | .cb => u'.blk.cb = u.blk.cb
  | .panelPower => u'.blk.panelPower = u.blk.panelPower
  | .clkRun => u'.blk.clkRun = u.blk.clkRun
  | .suspended => u'.blk.suspended = u.blk.suspended
  | .win => u'.blk.win = u.blk.win
  | .xoff => u'.blk.xoff = u.blk.xoff
  | .yoff => u'.blk.yoff = u.blk.yoff
  | .rstate => u'.blk.rstate = u.blk.rstate
  | .vsyncFlag => u'.blk.vsyncFlag = u.blk.vsyncFlag
  | .frameDoneFlag => u'.blk.frameDoneFlag = u.blk.frameDoneFlag
  | .palDoneFlag => u'.blk.palDoneFlag = u.blk.palDoneFlag
  | .lock => u'.blk.lock = u.blk.lock
  | .alloc => u'.seq.loc.alloc = u.seq.loc.alloc
  | .ws => u'.seq.loc.ws = u.seq.loc.ws
  | .we => u'.seq.loc.we = u.seq.loc.we

/-- The record of an event flag (R30). -/
def Record.ofFlag : WaitEvent → Record
  | .vsync => .vsyncFlag
  | .frameDone => .frameDoneFlag
  | .palDone => .palDoneFlag

/-- The lines that are a `Release(L)` of `SEQ` (R70). -/
def releaseLines : List (Instr × Nat) :=
  [(.registerCb, 1), (.registerCb, 4), (.unregisterCb, 1), (.unregisterCb, 4), (.waitVsync, 4), (.waitPalette, 4),
   (.setWindow, 9), (.pan, 15), (.modeSet, 59), (.disable, 7), (.suspend, 7), (.detach, 6), (.modeSet, 23)]

/-- The lines of the commands that write a record. -/
def Record.lines : Record → List (Instr × Nat)
  | .attached => [(.attach, 15), (.detach, 15)]
  | .rev => [(.attach, 8)]
  | .vram => [(.attach, 7)]
  | .lastDone => [(.attach, 11)]
  | .fmt => [(.modeSet, 14)]
  | .geo => [(.modeSet, 15)]
  | .haveMode => [(.modeSet, 16), (.attach, 13)]
  | .divider | .srcRate => [(.setClock, 9), (.modeSet, 17)]
  | .palCount => [(.programFrameGeometry, 11), (.modeSet, 51)]
  | .cb => [(.registerCb, 3), (.unregisterCb, 3)]
  | .panelPower => [(.attach, 14), (.detach, 12), (.suspend, 12), (.resume, 3)]
  | .clkRun => [(.attach, 1), (.attach, 5), (.detach, 13), (.suspend, 13), (.resume, 2)]
  | .suspended => [(.attach, 13), (.detach, 14), (.suspend, 14), (.resume, 4)]
  | .win => [(.setWindow, 4), (.pan, 6), (.modeSet, 54), (.attach, 12)]
  | .xoff | .yoff => [(.pan, 6), (.modeSet, 63), (.attach, 12)]
  | .rstate =>
    [(.enable, 2), (.enable, 9), (.resume, 5), (.resume, 12), (.modeSet, 64), (.modeSet, 71), (.disable, 4), (.disable, 10),
     (.disable, 11), (.suspend, 4), (.suspend, 10), (.suspend, 11), (.detach, 3), (.detach, 9), (.detach, 10),
     (.modeSet, 20), (.modeSet, 26), (.modeSet, 27), (.attach, 9)]
  | .vsyncFlag => [(.waitVsync, 3), (.attach, 10)]
  | .frameDoneFlag => [(.disable, 6), (.suspend, 6), (.detach, 5), (.modeSet, 22), (.attach, 10)]
  | .palDoneFlag => [(.waitPalette, 3), (.attach, 10)]
  | .lock => acquireLines ++ releaseLines
  | .alloc => [(.attach, 4)]
  | .ws | .we => [(.pan, 3)]

/-! ## What one line does -/

/-- What every line of `SEQ` that goes on leaves: the decoder, the parameters, the line of the LCDC, the step pointer and the
host's side of the block as they are; a flag is only cleared; the output and the port record only grow. -/
structure SeqFrame (u u' : State) : Prop where
  irqd : u'.irqd = u.irqd := by rfl
  cfg : u'.cfg = u.cfg := by rfl
  irq : u'.lcdc.irq = u.lcdc.irq := by rfl
  pc : u'.seq.pc = u.seq.pc := by rfl
  argreg : u'.blk.argreg = u.blk.argreg := by rfl
  arg : u'.blk.arg = u.blk.arg := by rfl
  cmdword : u'.blk.cmdword = u.blk.cmdword := by rfl
  busy : u'.blk.busy = u.blk.busy := by rfl
  irqActive : u'.blk.irqActive = u.blk.irqActive := by rfl
  flag : ∀ e, u'.blk.flag e = true → u.blk.flag e = true := by exact fun _ h => h
  out : u.blk.out <+: u'.blk.out := by exact ⟨[], List.append_nil _⟩
  port : u.port <+: u'.port := by exact ⟨[], List.append_nil _⟩

/-- A line of `SEQ` that writes only the records of `W`: it goes on with the others as they are, or it stays where it is
having at most asked the environment (R42, R262), or it ends the command by a `finish` (R313). -/
structure Writes (W : Record → Prop) (y : Act) : Prop where
  go : ∀ u u', y u = .go u' → SeqFrame u u' ∧ ∀ r : Record, ¬ W r → r.Same u u'
  stay : ∀ u u', y u = .stay u' → u' = u ∨ u' = u.dropDraw
  stop : ∀ u u', y u = .stop u' → ∃ c, u' = u.finish c

/-- A line that writes no record. -/
abbrev Quiet (y : Act) : Prop := Writes (fun _ => False) y

/-- The lines `l` of command `i`, the first of which has number `k0`, keep to the table. -/
abbrev Keep (i : Instr) (k0 : Nat) (l : List Act) : Prop := EachLine (fun k y => Writes (fun r => (i, k) ∈ r.lines) y) k0 l

variable {W : Record → Prop} {y : Act} {i : Instr} {k0 : Nat} {l m : List Act}

theorem Record.same_rfl (u : State) (r : Record) : r.Same u u := by cases r <;> rfl

theorem seqFrame_rfl (u : State) : SeqFrame u u := {}

theorem Quiet.writes (h : Quiet y) : Writes W y :=
  ⟨fun u u' e => ⟨(h.go u u' e).1, fun r _ => (h.go u u' e).2 r id⟩, h.stay, h.stop⟩

theorem writes_assign {f : State → State} (hf : ∀ u, SeqFrame u (f u)) (hr : ∀ u (r : Record), W r ∨ r.Same u (f u)) :
    Writes W (assign f) where
  go u _ e := by cases e; exact ⟨hf u, fun r hW => (hr u r).resolve_left hW⟩
  stay _ _ e := nomatch e
  stop _ _ e := nomatch e

/-- A line that writes the records `rs`. -/
theorem writes_records (rs : List Record) {f : State → State} (hf : ∀ u, SeqFrame u (f u))
    (hr : ∀ u (r : Record), r ∈ rs ∨ r.Same u (f u)) (hW : ∀ r ∈ rs, W r) : Writes W (assign f) :=
  writes_assign hf fun u r => (hr u r).imp_left (hW r)

/-- A line that writes the records `rs` of the block. -/
theorem writes_onBlk (rs : List Record) {f : State → Blk → Blk} (hW : ∀ r ∈ rs, W r)
    (hr : ∀ u (r : Record), r ∈ rs ∨ r.Same u (u.onBlk (f u)) := by rintro u ⟨⟩ <;> simp [Record.Same])
    (hf : ∀ u, SeqFrame u (u.onBlk (f u)) := by exact fun _ => {}) : Writes W (assign fun s => s.onBlk (f s)) :=
  writes_records rs hf hr hW

theorem quiet_assign {f : State → State} (hf : ∀ u, SeqFrame u (f u)) (hr : ∀ u (r : Record), r.Same u (f u)) :
    Quiet (assign f) :=
  writes_assign hf fun u r => .inr (hr u r)

theorem writes_onlyIf {c : State → Bool} (h : Writes W y) : Writes W (onlyIf c y) := by
  constructor <;> intro u u' e <;> unfold onlyIf at e <;> split at e
  · exact h.go u u' e
  · cases e; exact ⟨seqFrame_rfl u, fun r _ => r.same_rfl u⟩
  · exact h.stay u u' e
  · cases e
  · exact h.stop u u' e
  · cases e

theorem quiet_raiseIf (c : State → Bool) (e : Code) : Quiet (raiseIf c e) := by
  constructor <;> intro u u' h <;> unfold raiseIf at h <;> split at h <;> cases h
  · exact ⟨seqFrame_rfl u, fun r _ => r.same_rfl u⟩
  · exact ⟨e, rfl⟩

/-- `if c: finish OK` is a check of the code OK. -/
theorem quiet_finishIf (c : State → Bool) : Quiet (finishIf c) := quiet_raiseIf c .ok

theorem quiet_finishWith (c : Code) : Quiet (finishWith c) where
  go _ _ e := nomatch e
  stay _ _ e := nomatch e
  stop _ _ e := by cases e; exact ⟨c, rfl⟩

theorem quiet_blockTest (e : WaitEvent) (b : State → Nat) : Quiet (blockTest e b) := by
  constructor <;> intro u u' h <;> unfold blockTest at h <;> (repeat' split at h) <;> cases h
  · exact ⟨{ port := ⟨_, rfl⟩ }, fun r _ => by cases r <;> rfl⟩
  · exact ⟨{ port := ⟨_, rfl⟩ }, fun r _ => by cases r <;> rfl⟩
  · exact .inl rfl
  · exact .inr rfl

theorem quiet_writeReg (g : LReg) (v : State → Word) : Quiet (writeReg .seq g v) :=
  quiet_assign (fun _ => { port := ⟨_, rfl⟩ }) fun u r => by cases r <;> rfl

theorem quiet_readTo (g : LReg) : Quiet (readTo .seq g) :=
  quiet_assign (fun _ => { port := ⟨_, rfl⟩ }) fun u r => by cases r <;> rfl

theorem quiet_delay (ms : Nat) : Quiet (delay .seq ms) :=
  quiet_assign (fun _ => { port := ⟨_, rfl⟩ }) fun u r => by cases r <;> rfl

theorem quiet_emit (ev : Event) : Quiet (assign fun s => s.emit ev) :=
  quiet_assign (fun _ => { out := ⟨_, rfl⟩ }) fun u r => by cases r <;> rfl

/-- A line that writes `RES0` or `RES1` alone (R32). -/
theorem quiet_results (f g : State → Word) :
    Quiet (assign fun s => s.onBlk fun b => { b with res0 := f s, res1 := g s }) :=
  quiet_assign (fun _ => {}) fun u r => by cases r <;> rfl

theorem writes_acquire (h : W .lock) : Writes W acquire := by
  constructor <;> intro u u' e <;> unfold acquire at e <;> split at e <;> cases e
  · refine ⟨{}, fun r hr => ?_⟩
    cases r
    case lock => exact absurd h hr
    all_goals rfl
  · exact .inl rfl

theorem writes_release (h : W .lock) : Writes W release :=
  writes_onBlk [.lock] (List.forall_mem_singleton.mpr h)

theorem writes_setRState (r : RState) (h : W .rstate) : Writes W (setRState r) :=
  writes_onBlk [.rstate] (List.forall_mem_singleton.mpr h)

/-! ## Several lines -/

theorem EachLine.cons {P : Nat → Act → Prop} (h : P k0 y) (hl : EachLine P (k0 + 1) l) : EachLine P k0 (y :: l) := ⟨h, hl⟩

theorem EachLine.append {P : Nat → Act → Prop} : ∀ {l : List Act} {k0 : Nat}, EachLine P k0 l →
    EachLine P (k0 + l.length) m → EachLine P k0 (l ++ m)
  | [], _, _, hm => hm
  | _ :: xs, k0, hl, hm =>
    ⟨hl.1, EachLine.append hl.2 (by rwa [Nat.add_assoc, Nat.add_comm 1, ← List.length_cons])⟩

theorem Keep.guarded {c : State → Bool} : ∀ {l : List Act} {k0 : Nat}, Keep i k0 l → Keep i k0 (guarded c l)
  | [], _, _ => trivial
  | _ :: _, _, h => ⟨writes_onlyIf h.1, Keep.guarded h.2⟩

end Sys2Proof.Machine
end

section
/-! Every line of every command keeps to the table of records (R26 to R43): first the called sequences (R315), each at the
line where a command runs it, then the commands. -/

namespace Sys2Proof.Machine

variable {i : Instr} {k0 : Nat}

/-! ## Single lines -/

theorem quiet_res0 (f : State → Word) : Quiet (assign fun s => s.onBlk fun b => { b with res0 := f s }) :=
  quiet_assign (fun _ => {}) fun u r => by cases r <;> rfl

theorem quiet_onLoc {f : State → Locals → Locals} (h : ∀ u (r : Record), r.Same u (u.onLoc (f u))) :
    Quiet (assign fun s => s.onLoc (f s)) := quiet_assign (fun _ => {}) h

theorem quiet_boundLine (d : State → Nat) : Quiet (boundLine d) := quiet_onLoc fun u r => by cases r <;> rfl

theorem quiet_dividerLine (hz : State → Nat) : Quiet (dividerLine hz) := quiet_onLoc fun u r => by cases r <;> rfl

theorem quiet_clkRateLine : Quiet clkRateLine :=
  quiet_assign (fun _ => { port := ⟨_, rfl⟩ }) fun u r => by cases r <;> rfl

theorem quiet_clkRequestLine (hz : State → Nat) : Quiet (clkRequestLine hz) :=
  quiet_assign (fun _ => { port := ⟨_, rfl⟩ }) fun u r => by cases r <;> rfl

theorem quiet_detectLine : Quiet detectLine :=
  quiet_assign
    (fun u => by dsimp only; split; exacts [{}, { out := ⟨_, rfl⟩ }])
    fun u r => by dsimp only; split <;> cases r <;> rfl

theorem quiet_regReadAt (o : State → Nat) : Quiet (assign fun s => s.regReadAt (o s)) :=
  quiet_assign (fun _ => { port := ⟨_, rfl⟩ }) fun u r => by cases r <;> rfl

theorem quiet_regWriteAt (o : State → Nat) (v : State → Word) : Quiet (assign fun s => s.regWriteAt (o s) (v s)) :=
  quiet_assign
    (fun u => by unfold State.regWriteAt; split <;> exact { port := ⟨_, rfl⟩ })
    fun u r => by unfold State.regWriteAt; split <;> cases r <;> rfl

theorem quiet_readId : Quiet (assign fun s => (s.afterRead .seq .id).onLoc fun l => { l with id := s.readVal .id }) :=
  quiet_assign (fun _ => { port := ⟨_, rfl⟩ }) fun u r => by cases r <;> rfl

theorem quiet_vramFree : Quiet (assign fun s => s.record (.vramFree s.blk.vram)) :=
  quiet_assign (fun _ => { port := ⟨_, rfl⟩ }) fun u r => by cases r <;> rfl

/-- Clearing an event flag, as the arm of a wait does (R263). -/
theorem writes_clearFlag {W : Record → Prop} (e : WaitEvent)
    (h : W (.ofFlag e)) : Writes W (assign fun s => s.onBlk fun b => b.setFlag e false) := by
  have honly : ∀ u e', ((u : State).onBlk fun b => b.setFlag e false).blk.flag e' = true → u.blk.flag e' = true := by
    intro u e'
    cases e <;> cases e' <;> simp [Blk.flag, Blk.setFlag]
  refine writes_onBlk [.ofFlag e] (List.forall_mem_singleton.mpr h) ?_ fun u => ?_
  · rintro u ⟨⟩ <;> cases e <;> simp [Record.Same, Record.ofFlag, Blk.setFlag]
  · cases e <;> exact { flag := honly u }

/-- `blk.divider <- d; blk.srcRate <- a` (R164, R240). -/
theorem writes_dividerRecordLine {W : Record → Prop} (hd : W .divider) (hs : W .srcRate) : Writes W dividerRecordLine :=
  writes_onBlk [.divider, .srcRate] (by simp [hd, hs])

/-! ## The called sequences -/

theorem EachLine.single {P : Nat → Act → Prop} {y : Act} (h : P k0 y) : EachLine P k0 [y] := ⟨h, trivial⟩

theorem keep_prologue : Keep i k0 prologue :=
  .cons (quiet_raiseIf _ _).writes (.single (quiet_raiseIf _ _).writes)

theorem keep_finish (c : Code) : Keep i k0 [finishWith c] := .single (quiet_finishWith c).writes

theorem keep_rmw (g : LReg) (e : State → List (Fld × Nat)) : Keep i k0 (rmw .seq g e) :=
  .cons (quiet_readTo g).writes (.single (quiet_writeReg g _).writes)

theorem keep_write (g : LReg) (v : State → Word) : Keep i k0 [writeReg .seq g v] := .single (quiet_writeReg g v).writes

theorem keep_softReset : Keep i k0 (softResetLines .seq) :=
  .cons (quiet_writeReg _ _).writes <| .cons (quiet_delay _).writes <| .cons (quiet_writeReg _ _).writes <|
    .single (quiet_delay _).writes

theorem keep_enableSeq (hfirst : (i, k0) ∈ Record.rstate.lines) (hlast : (i, k0 + 7) ∈ Record.rstate.lines) :
    Keep i k0 (enableSeq .seq) :=
  ((EachLine.append (.single (writes_setRState .enabling hfirst)) keep_softReset.guarded).append (keep_rmw _ _)).append
    (.single (writes_setRState .enabled hlast))

theorem keep_arm {e : WaitEvent} (hacq : (i, k0) ∈ Record.lock.lines)
    (hflag : (i, k0 + 1) ∈ (Record.ofFlag e).lines)
    (hrel : (i, k0 + 2) ∈ Record.lock.lines) : Keep i k0 (arm e) :=
  .cons (writes_acquire hacq) <| .cons (writes_clearFlag e hflag) <| .single (writes_release hrel)

theorem keep_disableSeq (wait : State → Bool) (hstart : (i, k0 + 2) ∈ Record.rstate.lines)
    (hacq : (i, k0 + 3) ∈ Record.lock.lines) (hflag : (i, k0 + 4) ∈ Record.frameDoneFlag.lines)
    (hrel : (i, k0 + 5) ∈ Record.lock.lines) (hwaited : (i, k0 + 8) ∈ Record.rstate.lines)
    (hnow : (i, k0 + 9) ∈ Record.rstate.lines) : Keep i k0 (disableSeq wait) := by
  have hwait : Keep i (k0 + 2) disableWaitLines :=
    (EachLine.append (.single (writes_setRState _ hstart)) (keep_arm (e := .frameDone) hacq hflag hrel)).append <|
      .cons (quiet_blockTest _ _).writes <| .cons (writes_onlyIf (quiet_emit _).writes) <|
        .single (writes_onlyIf (writes_setRState _ hwaited))
  exact ((keep_rmw _ _).append hwait.guarded).append (Keep.guarded (.single (writes_setRState _ hnow)))

theorem keep_hsyncSeq (bp pw fp : State → Word) : Keep i k0 (hsyncSeq bp pw fp) :=
  (keep_rmw _ _).append (keep_rmw _ _).guarded

theorem keep_vsyncSeq (bp pw fp : State → Word) : Keep i k0 (vsyncSeq bp pw fp) :=
  (keep_rmw _ _).append (keep_rmw _ _).guarded

theorem keep_geometrySeq (w h : State → Word) (bpp : State → Nat) (o : State → Bool)
    (hpal : (i, k0 + 8) ∈ Record.palCount.lines) : Keep i k0 (geometrySeq w h bpp o) :=
  ((((keep_rmw _ _).append (keep_rmw _ _)).append (keep_rmw _ _).guarded).append (keep_rmw _ _)).append <| .single <|
    writes_onBlk [.palCount] (List.forall_mem_singleton.mpr hpal)

theorem keep_displayModeSeq (m : State → DisplayMode) : Keep i k0 (displayModeSeq m) :=
  ((keep_rmw _ _).append (keep_write _ _).guarded).append (keep_rmw _ _)

theorem keep_acbSeq (f p : State → Word) : Keep i k0 (acbSeq f p) := keep_rmw _ _

theorem keep_setWinSeq (f g : State → Nat) (hacq : (i, k0) ∈ Record.lock.lines) (hwin : (i, k0 + 1) ∈ Record.win.lines)
    (hrel : (i, k0 + 6) ∈ Record.lock.lines) : Keep i k0 (setWinSeq f g) := by
  have hrecord : Writes (fun r => (i, k0 + 1) ∈ r.lines)
      (assign fun s => s.onBlk fun b => { b with win := some (windowOf (f s) (g s)) }) :=
    writes_onBlk [.win] (List.forall_mem_singleton.mpr hwin)
  have hsection : Keep i (k0 + 2) _ :=
    (keep_write .fb0Base fun s => BitVec.ofNat 32 (f s)).append <|
      (keep_write .fb0Ceil fun s => BitVec.ofNat 32 (g s)).append <|
        (keep_write .fb1Base fun s => BitVec.ofNat 32 (f s)).append <|
          (keep_write .fb1Ceil fun s => BitVec.ofNat 32 (g s)).append <| .single (writes_release hrel)
  exact ((EachLine.cons (writes_acquire hacq) <| .cons hrecord hsection).append (keep_rmw _ _)).append
    (keep_write _ _).guarded

theorem keep_negotiate (hz : State → Nat) : Keep i k0 (negotiate hz) :=
  .cons (quiet_raiseIf _ _).writes <| .cons quiet_clkRateLine.writes <| .cons (quiet_dividerLine hz).writes <|
    .cons (writes_onlyIf (quiet_clkRequestLine hz).writes) <| .cons (quiet_raiseIf _ _).writes <|
      .single (quiet_onLoc fun u r => by cases r <;> rfl).writes

theorem keep_waitLines {e : WaitEvent} (d : State → Nat) (hacq : (i, 2) ∈ Record.lock.lines)
    (hflag : (i, 3) ∈ (Record.ofFlag e).lines)
    (hrel : (i, 4) ∈ Record.lock.lines) : Keep i 0 (waitLines e d) :=
  (EachLine.append (.cons (quiet_raiseIf _ _).writes <| .single (quiet_boundLine d).writes) (keep_arm hacq hflag hrel)).append
    <| .cons (quiet_blockTest _ _).writes <| .cons (quiet_raiseIf _ _).writes (keep_finish .ok)

theorem keep_cbLines (c : State → Bool) (e : Code) (f : State → Option (Word × Word)) (hacq : (i, 0) ∈ Record.lock.lines)
    (hrel : (i, 1) ∈ Record.lock.lines) (hcb : (i, 3) ∈ Record.cb.lines) (hrel' : (i, 4) ∈ Record.lock.lines) :
    Keep i 0 (cbLines c e fun s b => { b with cb := f s }) :=
  .cons (writes_acquire hacq) <| .cons (writes_onlyIf (writes_release hrel)) <| .cons (quiet_raiseIf c e).writes <|
    .cons (writes_onBlk [.cb] (List.forall_mem_singleton.mpr hcb)) <|
      .cons (writes_release hrel') (keep_finish .ok)

/-! ## The commands -/

theorem keep_attach : Keep .attach 0 attachLines :=
  .cons (quiet_raiseIf _ _).writes <|
  .cons (writes_onBlk [.clkRun] (by decide)) <|
  .cons quiet_readId.writes <|
  .cons quiet_detectLine.writes <|
  .cons (writes_records [.alloc] (fun _ => { port := ⟨_, rfl⟩ })
    (by rintro u ⟨⟩ <;> simp [Record.Same]) (by decide)) <|
  .cons (writes_onlyIf
    (writes_onBlk [.clkRun] (by decide))) <|
  .cons (quiet_raiseIf _ _).writes <|
  .cons (writes_onBlk [.vram] (by decide)) <|
  .cons (writes_onBlk [.rev] (by decide)) <|
  .cons (writes_setRState _ (by decide)) <|
  .cons (writes_onBlk [.vsyncFlag, .frameDoneFlag, .palDoneFlag] (by decide)
    (hf := fun _ => { flag := by rintro ⟨⟩ <;> simp [Blk.flag] })) <|
  .cons (writes_onBlk [.lastDone] (by decide)) <|
  .cons (writes_onBlk [.win, .xoff, .yoff] (by decide)) <|
  .cons (writes_onBlk [.haveMode, .suspended] (by decide)) <|
  .cons (writes_onBlk [.panelPower] (by decide)) <|
  .cons (writes_onBlk [.attached] (by decide)) <|
  .cons (quiet_results _ _).writes (keep_finish .ok)

theorem keep_detach : Keep .detach 0 detachLines :=
  (EachLine.append (.single (quiet_raiseIf _ _).writes)
    (keep_disableSeq _ (by decide) (by decide) (by decide) (by decide) (by decide) (by decide)).guarded).append <|
  .cons quiet_vramFree.writes <|
  .cons (writes_onBlk [.panelPower] (by decide)) <|
  .cons (writes_onBlk [.clkRun] (by decide)) <|
  .cons (writes_onBlk [.suspended] (by decide)) <|
  .cons (writes_onBlk [.attached] (by decide)) <|
  keep_finish .ok

theorem keep_regRead : Keep .regRead 0 regReadLines :=
  keep_prologue.append <|
    .cons (quiet_raiseIf _ _).writes <| .cons (quiet_regReadAt _).writes <| .cons (quiet_res0 _).writes (keep_finish .ok)

theorem keep_regWrite : Keep .regWrite 0 regWriteLines :=
  keep_prologue.append <| .cons (quiet_raiseIf _ _).writes <| .cons (quiet_regWriteAt _ _).writes (keep_finish .ok)

theorem keep_setClock : Keep .setClock 0 setClockLines :=
  (keep_prologue.append (keep_negotiate _)).append <|
    .cons (quiet_writeReg _ _).writes <| .cons (writes_dividerRecordLine (by decide) (by decide)) <|
      .cons (quiet_results _ _).writes (keep_finish .ok)

theorem keep_programHsync : Keep .programHsync 0 programHsyncLines :=
  (keep_prologue.append (keep_hsyncSeq _ _ _)).append (keep_finish .ok)

theorem keep_programVsync : Keep .programVsync 0 programVsyncLines :=
  (keep_prologue.append (keep_vsyncSeq _ _ _)).append (keep_finish .ok)

theorem keep_programFrameGeometry : Keep .programFrameGeometry 0 programFrameGeometryLines :=
  ((keep_prologue.append (.single (quiet_raiseIf _ _).writes)).append (keep_geometrySeq _ _ _ _ (by decide))).append <|
    .cons (quiet_res0 _).writes (keep_finish .ok)

theorem keep_programDisplayMode : Keep .programDisplayMode 0 programDisplayModeLines :=
  ((keep_prologue.append (.single (quiet_raiseIf _ _).writes)).append (keep_displayModeSeq _)).append (keep_finish .ok)

theorem keep_programAcBias : Keep .programAcBias 0 programAcBiasLines :=
  (keep_prologue.append (keep_acbSeq _ _)).append (keep_finish .ok)

theorem keep_modeChecks : Keep i k0 modeChecks :=
  (EachLine.cons (quiet_raiseIf _ _).writes <| .cons (quiet_raiseIf _ _).writes <| .cons (quiet_raiseIf _ _).writes <|
    .cons (quiet_raiseIf _ _).writes <| .cons (quiet_raiseIf _ _).writes <| .single (quiet_raiseIf _ _).writes).append
    (keep_negotiate _)

theorem keep_modeCommit : Keep .modeSet 14 modeCommit :=
  .cons (writes_onBlk [.fmt] (by decide)) <|
  .cons (writes_onBlk [.geo] (by decide)) <|
  .cons (writes_onBlk [.haveMode] (by decide)) <|
  .single (writes_dividerRecordLine (by decide) (by decide))

theorem keep_modeProgram : Keep .modeSet 18 modeProgram := by
  have hdisable : Keep .modeSet 18 (disableSeq fun _ => true) :=
    keep_disableSeq _ (by decide) (by decide) (by decide) (by decide) (by decide) (by decide)
  have hoffsets : Keep .modeSet 63 [assign fun s => s.onBlk fun b => { b with xoff := 0, yoff := 0 }] := .single <|
    writes_onBlk [.xoff, .yoff] (by decide)
  exact (((((((((hdisable.append (keep_displayModeSeq _)).append (keep_acbSeq _ _).guarded).append
    (keep_hsyncSeq _ _ _)).append (keep_vsyncSeq _ _ _)).append (keep_geometrySeq _ _ _ _ (by decide))).append
    (.single (quiet_writeReg _ _).writes)).append (keep_setWinSeq _ _ (by decide) (by decide) (by decide))).append
    hoffsets).append (keep_enableSeq (by decide) (by decide)))

theorem keep_modeSet : Keep .modeSet 0 modeSetLines :=
  (((keep_prologue.append keep_modeChecks).append keep_modeCommit).append keep_modeProgram).append <|
    .cons (quiet_results _ _).writes (keep_finish .ok)

theorem keep_setWindow : Keep .setWindow 0 setWindowLines :=
  ((keep_prologue.append (.single (quiet_raiseIf _ _).writes)).append
    (keep_setWinSeq _ _ (by decide) (by decide) (by decide))).append (keep_finish .ok)

theorem keep_panSlot (g h : LReg) : Keep i k0 (panSlot g h) := (keep_write g _).append (keep_write h _)

theorem keep_pan : Keep .pan 0 panLines := by
  have hcompute : Writes (fun r => (Instr.pan, 3) ∈ r.lines) panCompute :=
    writes_records [.ws, .we] (fun _ => {}) (by rintro u ⟨⟩ <;> simp [Record.Same]) (by decide)
  have hrecord : Writes (fun r => (Instr.pan, 6) ∈ r.lines) panRecord :=
    writes_onBlk [.win, .xoff, .yoff] (by decide)
  exact ((((keep_prologue.append <|
    .cons (quiet_raiseIf _ _).writes <| .cons hcompute <| .cons (quiet_raiseIf _ _).writes <|
      .cons (writes_acquire (by decide)) <| .single hrecord).append (keep_panSlot _ _).guarded).append
    (keep_panSlot _ _).guarded).append (Keep.guarded ((keep_panSlot _ _).append (keep_panSlot _ _)))).append <|
    .cons (writes_release (by decide)) <| .cons (quiet_results _ _).writes (keep_finish .ok)

theorem keep_enable : Keep .enable 0 enableLines :=
  (keep_prologue.append (keep_enableSeq (by decide) (by decide))).append (keep_finish .ok)

theorem keep_disable : Keep .disable 0 disableLines :=
  (keep_prologue.append
    (keep_disableSeq _ (by decide) (by decide) (by decide) (by decide) (by decide) (by decide))).append (keep_finish .ok)

theorem keep_suspend : Keep .suspend 0 suspendLines :=
  (EachLine.append (.cons (quiet_raiseIf _ _).writes <| .single (quiet_finishIf _).writes)
    (keep_disableSeq _ (by decide) (by decide) (by decide) (by decide) (by decide) (by decide))).append <|
  .cons (writes_onBlk [.panelPower] (by decide)) <|
  .cons (writes_onBlk [.clkRun] (by decide)) <|
  .cons (writes_onBlk [.suspended] (by decide)) <|
  keep_finish .ok

theorem keep_resume : Keep .resume 0 resumeLines :=
  (EachLine.append (.cons (quiet_raiseIf _ _).writes <| .cons (quiet_finishIf _).writes <|
    .cons (writes_onBlk [.clkRun] (by decide)) <|
    .cons (writes_onBlk [.panelPower] (by decide)) <|
    .single (writes_onBlk [.suspended] (by decide)))
    (keep_enableSeq (by decide) (by decide))).append (keep_finish .ok)

/-- Every line of every command keeps to the table of records. -/
theorem keep_lines : ∀ i, Keep i 0 (linesOf (some i))
  | .attach => keep_attach
  | .detach => keep_detach
  | .regRead => keep_regRead
  | .regWrite => keep_regWrite
  | .setClock => keep_setClock
  | .programHsync => keep_programHsync
  | .programVsync => keep_programVsync
  | .programFrameGeometry => keep_programFrameGeometry
  | .programDisplayMode => keep_programDisplayMode
  | .programAcBias => keep_programAcBias
  | .modeSet => keep_modeSet
  | .setWindow => keep_setWindow
  | .pan => keep_pan
  | .enable => keep_enable
  | .disable => keep_disable
  | .waitVsync => keep_waitLines _ (by decide) (by decide) (by decide)
  | .waitPalette => keep_waitLines _ (by decide) (by decide) (by decide)
  | .registerCb => keep_cbLines _ _ _ (by decide) (by decide) (by decide) (by decide)
  | .unregisterCb => keep_cbLines _ _ _ (by decide) (by decide) (by decide) (by decide)
  | .suspend => keep_suspend
  | .resume => keep_resume

/-- Line `k` of command `i` writes the records that the table gives it. -/
theorem line_writes {i : Instr} {k : Nat} {y : Act} (h : (linesOf (some i))[k]? = some y) :
    Writes (fun r => (i, k) ∈ r.lines) y := by
  simpa using (keep_lines i).get h

end Sys2Proof.Machine
end

section
/-! One step of the machine, taken apart once: what every line of a decoder body leaves, and which facts make a property
an invariant of `step` (R20). The invariant of the two step pointers (R26, R292) is the first use. -/

namespace Sys2Proof.Machine

/-! ## The lines of the decoder -/

/-- What every line of a decoder body that goes on leaves: the sequencer, the step pointer, and the block but for the raster
state, the flags, the slot recorded and the output (R283 to R290). -/
structure IrqFrame (u u' : State) : Prop where
  seq : u'.seq = u.seq := by rfl
  pc : u'.irqd.pc = u.irqd.pc := by rfl
  blk : ∃ r v f p d o, u'.blk =
    { u.blk with rstate := r, vsyncFlag := v, frameDoneFlag := f, palDoneFlag := p, lastDone := d, out := o } := by
    exact ⟨_, _, _, _, _, _, rfl⟩

/-- A line of a decoder body: it goes on within the frame, it never stays, and it ends the activation only as the exit step
does (R292). -/
structure Serves (y : Act) : Prop where
  go : ∀ u u', y u = .go u' → IrqFrame u u'
  stay : ∀ u u', y u ≠ .stay u'
  stop : ∀ u u', y u = .stop u' → exitLine u = .stop u'

variable {y : Act} {l m : List Act} {I : State → Prop}

theorem serves_assign {f : State → State} (h : ∀ u, IrqFrame u (f u)) : Serves (assign f) where
  go u _ e := by cases e; exact h u
  stay _ _ e := nomatch e
  stop _ _ e := nomatch e

theorem serves_exitLine : Serves exitLine where
  go _ _ e := nomatch e
  stay _ _ e := nomatch e
  stop _ _ e := e

theorem serves_onlyIf {c : State → Bool} (h : Serves y) : Serves (onlyIf c y) := by
  constructor <;> intro u u' <;> unfold onlyIf <;> split
  · exact h.go u u'
  · rintro ⟨⟩; exact {}
  · exact h.stay u u'
  · nofun
  · exact h.stop u u'
  · nofun

theorem serves_guarded {c : State → Bool} (h : ∀ y ∈ l, Serves y) : ∀ y ∈ guarded c l, Serves y :=
  List.forall_mem_map.mpr fun y hy => serves_onlyIf (h y hy)

theorem serves_append (hl : ∀ y ∈ l, Serves y) (hm : ∀ y ∈ m, Serves y) : ∀ y ∈ l ++ m, Serves y :=
  List.forall_mem_append.mpr ⟨hl, hm⟩

theorem serves_cons (hy : Serves y) (hl : ∀ z ∈ l, Serves z) : ∀ z ∈ y :: l, Serves z := List.forall_mem_cons.mpr ⟨hy, hl⟩

theorem serves_single (hy : Serves y) : ∀ z ∈ [y], Serves z := List.forall_mem_singleton.mpr hy

theorem serves_writeReg (g : LReg) (v : State → Word) : Serves (writeReg .irqd g v) := serves_assign fun _ => {}

theorem serves_delay (ms : Nat) : Serves (delay .irqd ms) := serves_assign fun _ => {}

theorem serves_setRState (r : RState) : Serves (setRState r) := serves_assign fun _ => {}

theorem serves_rmw (g : LReg) (e : State → List (Fld × Nat)) : ∀ y ∈ rmw .irqd g e, Serves y :=
  serves_cons (serves_assign fun _ => {}) (serves_single (serves_writeReg g _))

theorem serves_disableNow : ∀ y ∈ disableNow .irqd, Serves y :=
  serves_append (serves_rmw _ _) (serves_single (serves_setRState _))

theorem serves_enableSeq : ∀ y ∈ enableSeq .irqd, Serves y :=
  serves_append (serves_append (serves_append (serves_single (serves_setRState _)) <| serves_guarded <|
    serves_cons (serves_writeReg _ _) <| serves_cons (serves_delay _) <| serves_cons (serves_writeReg _ _) <|
      serves_single (serves_delay _)) (serves_rmw _ _)) (serves_single (serves_setRState _))

theorem serves_relatch (base ceil : LReg) (k : LastDone) : ∀ y ∈ relatch base ceil k, Serves y :=
  serves_append (serves_append (serves_single (serves_assign fun _ => {})) <| serves_guarded <|
    serves_cons (serves_writeReg _ _) (serves_single (serves_writeReg _ _))) <|
    serves_cons (serves_assign fun _ => {}) (serves_single (serves_assign fun _ => {}))

theorem serves_callbackLine : Serves callbackLine := serves_assign fun _ => by split <;> exact {}

theorem serves_v1Fault : ∀ y ∈ v1Fault, Serves y :=
  serves_append (serves_append (serves_append serves_disableNow (serves_single (serves_writeReg _ _))) (serves_rmw _ _))
    (serves_single (serves_assign fun _ => {}))

theorem serves_v1Frame : ∀ y ∈ v1Frame, Serves y :=
  serves_append (serves_append (serves_single (serves_writeReg _ _)) (serves_guarded (serves_relatch _ _ _)))
    (serves_guarded (serves_relatch _ _ _))

theorem serves_v2Fault : ∀ y ∈ v2Fault, Serves y :=
  serves_append (serves_append serves_disableNow (serves_single (serves_writeReg _ _))) serves_enableSeq

theorem serves_v2Palette : ∀ y ∈ v2Palette, Serves y :=
  serves_append (serves_append serves_disableNow <| serves_cons (serves_writeReg _ _) <|
    serves_cons (serves_writeReg _ _) (serves_single (serves_assign fun _ => {}))) serves_enableSeq

theorem serves_v2Frame : ∀ y ∈ v2Frame, Serves y :=
  serves_append (serves_append (serves_append (serves_single (serves_writeReg _ _))
    (serves_guarded (serves_append (serves_relatch _ _ _) (serves_single serves_callbackLine))))
    (serves_guarded (serves_append (serves_relatch _ _ _) (serves_single serves_callbackLine))))
    (serves_guarded (serves_single (serves_assign fun _ => {})))

/-- Every line of both decoder bodies is of this kind. -/
theorem serves_irqBody : ∀ r, ∀ y ∈ irqBody r, Serves y
  | .v1 =>
    serves_append (serves_append (serves_append (serves_single (serves_assign fun _ => {})) (serves_guarded serves_v1Fault))
      (serves_guarded serves_v1Frame)) (serves_single serves_exitLine)
  | .v2 =>
    serves_append (serves_append (serves_append (serves_append (serves_single (serves_assign fun _ => {}))
      (serves_guarded serves_v2Fault)) (serves_guarded serves_v2Palette)) (serves_guarded serves_v2Frame)) <|
      serves_cons (serves_writeReg _ _) (serves_single serves_exitLine)

/-! ## Moves -/

/-- A move of a sequencer that runs a command is a turn of the command's lines (R26). -/
theorem seqMove_run {s : State} {c : Option Instr} {k : Nat} (n : Nat) (hp : s.seq.pc = .run c k) :
    seqMove n s = seqTurn (linesOf c) { s with seq := { s.seq with turn := n } } := by
  cases c with
  | none => simp only [seqMove, hp]; rfl
  | some i => simp only [seqMove, hp, exec_eq_seqTurn]

/-- What makes a property an invariant of `step`. It reads the block, the step pointers and the sequencer's locals alone;
every line that goes on or ends a command or an activation keeps it, and so do the entry of an activation, an accepted
command, a write of an argument register, and reset. -/
structure StepInv (I : State → Prop) : Prop where
  view : ∀ {s t : State}, I s → t.blk = s.blk → t.seq.pc = s.seq.pc → t.seq.loc = s.seq.loc → t.irqd.pc = s.irqd.pc → I t
  seqGo : ∀ {i k y s s'}, (linesOf (some i))[k]? = some y → s.seq.pc = .run (some i) k → y s = .go s' → I s →
    I (bump .seq s')
  seqStop : ∀ {c k y s e}, (linesOf c)[k]? = some y → s.seq.pc = .run c k → y s = .stop (s.finish e) → I s → I (s.finish e)
  irqGo : ∀ {r k y s s'}, (irqBody r)[k]? = some y → s.irqd.pc = .run r k → y s = .go s' → I s → I (bump .irqd s')
  irqStop : ∀ {r k s s'}, s.irqd.pc = .run r k → exitLine s = .stop s' → I s → I s'
  activate : ∀ {s}, mayActivate s = true → s.irqd.pc = .idle → I s → I (activate s)
  accept : ∀ {s} v, s.blk.busy = false → I s → I (accept s v)
  argreg : ∀ {s} (a : Vector Word 16), I s → I (s.onBlk fun b => { b with argreg := a })
  reset : ∀ s, I (assertReset s)

/-- A turn of a command's lines keeps an invariant. -/
theorem StepInv.seqTurn (hI : StepInv I) {c : Option Instr} {s t : State} (h : seqTurn (linesOf c) s = .next t)
    (hc : ∀ d k, s.seq.pc = .run d k → d = c) (hs : I s) : I t := by
  rcases seqTurn_cases (linesOf c) s with ⟨-, e⟩ | ⟨d, k, hp, -, e⟩ | ⟨_, _, -, -, e⟩ <;> rw [e] at h <;> cases h
  · exact hs
  · obtain rfl := hc d k hp
    refine runActs_keeps_indexed (P := fun k u => u.seq.pc = .run d k ∧ I u) (k0 := k) ?_ ?_ ?_ (fun _ _ h => h.2) _ s
      ⟨hp, hs⟩
    all_goals
      intro j y u u' hy ⟨hp, hu⟩ hr
      rw [List.getElem?_drop] at hy
      have hm := movesPc_lines d y (List.mem_of_getElem? hy)
    · rcases d with _ | i
      · match hkj : k + j, hy with
        | 0, hy => cases hy; cases hr
      · exact ⟨bump_seq_pc (by rw [hm.go _ _ hr, hp]), hI.seqGo hy hp hr hu⟩
    · rcases d with _ | i
      · match hkj : k + j, hy with
        | 0, hy => cases hy; cases hr
      · rcases (line_writes hy).stay _ _ hr with rfl | rfl
        · exact hu
        · exact hI.view hu rfl rfl rfl rfl
    · have hfin : ∃ e, u' = u.finish e := by
        rcases d with _ | i
        · match hkj : k + j, hy with
          | 0, hy => cases hy; cases hr; exact ⟨_, rfl⟩
        · exact (line_writes hy).stop _ _ hr
      obtain ⟨e, rfl⟩ := hfin
      exact hI.seqStop hy hp hr hu

/-- A turn of a running activation keeps an invariant. -/
theorem StepInv.irqdContinue (hI : StepInv I) {n : Nat} {s t : State} (h : irqdContinue n s = .next t) (hs : I s) : I t := by
  unfold Sys2Proof.Machine.irqdContinue at h
  split at h
  · cases h; exact hs
  · next r k hp =>
    split at h <;> cases h
    refine runActs_keeps_indexed (P := fun k u => u.irqd.pc = .run r k ∧ I u) (k0 := k) ?_ ?_ ?_ (fun _ _ h => h.2) _ s
      ⟨hp, hs⟩
    all_goals
      intro j y u u' hy ⟨hp, hu⟩ hr
      rw [List.getElem?_drop] at hy
      have hy' := serves_irqBody r y (List.mem_of_getElem? hy)
    · exact ⟨bump_irqd_pc (by rw [(hy'.go _ _ hr).pc, hp]), hI.irqGo hy hp hr hu⟩
    · exact absurd hr (hy'.stay _ _)
    · exact hI.irqStop hp (hy'.stop _ _ hr) hu

/-- Every move keeps an invariant. -/
theorem StepInv.applyMove (hI : StepInv I) {v : Move} {s t : State} (h : applyMove v s = .next t) (hs : I s) : I t := by
  cases v with
  | seq n =>
    have hturn : I { s with seq := { s.seq with turn := n } } := hI.view hs rfl rfl rfl rfl
    change seqMove n s = .next t at h
    cases hp : s.seq.pc with
    | idle => simp only [seqMove, hp] at h; cases h; exact hI.view hs rfl hp.symm rfl rfl
    | run c k =>
      rw [seqMove_run n hp] at h
      exact hI.seqTurn h (fun d j hd => by cases hp.symm.trans hd; rfl) hturn
  | irqd n =>
    change irqdTurn n s = .next t at h
    unfold irqdTurn at h
    split at h
    · exact hI.irqdContinue h hs
    · next hp =>
      split at h
      · cases h; exact hs
      · split at h
        · next hm => exact hI.irqdContinue h (hI.activate hm hp hs)
        · cases h; exact hs
  | line b => cases h; exact hI.view hs rfl rfl rfl rfl
  | busWrite a n w =>
    change busWrite s a n w = .next t at h
    unfold busWrite at h
    split at h <;> cases h
    unfold hostWriteAt
    split
    · split
      · exact hs
      · next hb => exact hI.accept w (by simpa using hb) hs
    · split
      · exact hs
      · exact hI.argreg _ hs
  | busRead a n =>
    change busRead s a n = .next t at h
    unfold busRead at h
    split at h <;> cases h
    exact hI.view hs rfl rfl rfl rfl
  | rst => cases h; exact hI.reset _

/-- Every step keeps an invariant. -/
theorem StepInv.step (hI : StepInv I) {s t : State} (h : step s = .next t) (hs : I s) : I t := by
  unfold Sys2Proof.Machine.step stepMove at h
  split at h
  · exact hI.applyMove h (hI.view hs rfl rfl rfl rfl)
  · cases h

/-! ## The step pointers -/

/-- The last line of every command ends it (R26). -/
theorem getLast_linesOf (i : Instr) : (linesOf (some i)).getLast? = some (finishWith .ok) := by cases i <;> rfl

/-- The last line of a decoder body is the exit (R292). -/
theorem getLast_irqBody (r : Rev) : (irqBody r).getLast? = some exitLine := by cases r <;> rfl

/-- A line that is not the last one has a line after it. -/
theorem succ_lt_of_ne_last {l : List Act} {k : Nat} {y z : Act} (hk : l[k]? = some y) (hl : l.getLast? = some z)
    (hne : y ≠ z) : k + 1 < l.length := by
  obtain ⟨hlt, -⟩ := List.getElem?_eq_some_iff.mp hk
  rw [List.getLast?_eq_getElem?] at hl
  rcases Nat.lt_or_ge (k + 1) l.length with h | h
  · exact h
  · rw [show l.length - 1 = k by omega] at hl
    exact absurd (Option.some.inj (hk.symm.trans hl)) hne

theorem linesOf_pos (c : Option Instr) : 0 < (linesOf c).length := by rcases c with _ | i <;> [skip; cases i] <;> decide

theorem irqBody_pos (r : Rev) : 0 < (irqBody r).length := by cases r <;> decide

/-- The pointer of the sequencer stays on a line: only the last line could leave it past the end, and that line ends the
command. -/
theorem stepInv_pcInv : StepInv PcInv where
  view hs _ hseq _ hirq := ⟨hseq ▸ hs.seq, hirq ▸ hs.irqd⟩
  seqGo {i k y s s'} hy hp hr hs := by
    have hf := ((line_writes hy).go _ _ hr).1
    have hlt := succ_lt_of_ne_last hy (getLast_linesOf i) (by rintro rfl; cases hr)
    refine ⟨fun c k' hc => ?_, fun r k' hc => hs.irqd r k' ?_⟩
    · rw [bump_seq_pc (hf.pc.trans hp)] at hc
      cases hc
      exact hlt
    · rwa [bump_seq_irqd, hf.irqd] at hc
  seqStop _ _ _ hs := ⟨nofun, hs.irqd⟩
  irqGo {r k y s s'} hy hp hr hs := by
    have hf := (serves_irqBody r y (List.mem_of_getElem? hy)).go _ _ hr
    have hlt := succ_lt_of_ne_last hy (getLast_irqBody r) (by rintro rfl; cases hr)
    refine ⟨fun c k' hc => hs.seq c k' ?_, fun r' k' hc => ?_⟩
    · rwa [bump_irqd_seq, hf.seq] at hc
    · rw [bump_irqd_pc (hf.pc.trans hp)] at hc
      cases hc
      exact hlt
  irqStop _ he hs := by cases he; exact ⟨hs.seq, nofun⟩
  activate {s} _ _ hs := ⟨hs.seq, fun r k h => by cases h; exact irqBody_pos _⟩
  accept {s} v _ hs := ⟨fun c k h => by cases h; exact linesOf_pos _, hs.irqd⟩
  argreg _ hs := ⟨hs.seq, hs.irqd⟩
  reset _ := ⟨nofun, nofun⟩

theorem seqTurn_ne_fault {lines : List Act} {s : State} {f : Fault}
    (h : ∀ c k, s.seq.pc = .run c k → k < lines.length) : seqTurn lines s ≠ .fault f := by
  rcases seqTurn_cases lines s with ⟨-, e⟩ | ⟨_, _, -, -, e⟩ | ⟨c, k, hp, hk, -⟩
  · rw [e]; nofun
  · rw [e]; nofun
  · exact absurd (h c k hp) (by omega)

theorem irqdContinue_ne_fault {n : Nat} {s : State} {f : Fault}
    (h : ∀ r k, s.irqd.pc = .run r k → k < (irqBody r).length) : irqdContinue n s ≠ .fault f := by
  unfold irqdContinue
  split
  · nofun
  · next r k hp => rw [if_pos (h r k hp)]; nofun

/-- With both pointers on a line no move faults. -/
theorem applyMove_ne_fault {s : State} (h : PcInv s) (v : Move) (f : Fault) : applyMove v s ≠ .fault f := by
  cases v with
  | seq n =>
    change seqMove n s ≠ _
    cases hp : s.seq.pc with
    | idle => simp only [seqMove, hp]; nofun
    | run c k =>
      rw [seqMove_run n hp]
      exact seqTurn_ne_fault fun d j hd => by cases hp.symm.trans hd; exact h.seq c k hp
  | irqd n =>
    change irqdTurn n s ≠ _
    unfold irqdTurn
    split
    · exact irqdContinue_ne_fault h.irqd
    · next hp =>
      split
      · nofun
      · split
        · next hm => exact irqdContinue_ne_fault (stepInv_pcInv.activate hm hp h).irqd
        · nofun
  | line b => nofun
  | busWrite a n w => change busWrite s a n w ≠ _; unfold busWrite; split <;> nofun
  | busRead a n => change busRead s a n ≠ _; unfold busRead; split <;> nofun
  | rst => nofun

/-- Settles O57: `PcInv` is an invariant of `step`, and a turn faults only at a pointer past the last line. -/
theorem stepPointersStayInRange : Obligations.StepPointersStayInRange := by
  refine ⟨fun s t hs h => stepInv_pcInv.step h hs, fun s f hs h => ?_⟩
  unfold step stepMove at h
  split at h
  · exact applyMove_ne_fault (s := { s with env := s.env.dropMove }) ⟨hs.seq, hs.irqd⟩ _ f h
  · cases h

end Sys2Proof.Machine
end

section
/-! The lock discipline (R42, R70, R280, R292): the acquiring and the releasing lines are those at which `holdsLock` rises and
falls, no other line changes the lock or its meaning, no line ends a command inside a section, and so every step keeps
`LockInv`. -/

namespace Sys2Proof.Machine

/-! ## When a line ends the command, and when a check goes on -/

section
variable (u u' : State)

@[simp] theorem assign_stop (f : State → State) : assign f u = .stop u' ↔ False := ⟨nofun, nofun⟩
@[simp] theorem writeReg_stop (a : Agent) (g : LReg) (v : State → Word) : writeReg a g v u = .stop u' ↔ False :=
  ⟨nofun, nofun⟩
@[simp] theorem release_stop : release u = .stop u' ↔ False := ⟨nofun, nofun⟩
@[simp] theorem onlyIf_stop (c : State → Bool) (y : Act) : onlyIf c y u = .stop u' ↔ c u = true ∧ y u = .stop u' := by
  unfold onlyIf; split <;> simp_all
@[simp] theorem raiseIf_stop (c : State → Bool) (e : Code) : raiseIf c e u = .stop u' ↔ c u = true ∧ u.finish e = u' := by
  unfold raiseIf; split <;> simp_all
@[simp] theorem raiseIf_go (c : State → Bool) (e : Code) : raiseIf c e u = .go u' ↔ c u = false ∧ u = u' := by
  unfold raiseIf; split <;> simp_all

end

variable {i : Instr} {k : Nat} {y : Act} {u u' : State}

/-- No line ends a command inside a section (R70): in REGISTER_CB and UNREGISTER_CB the lock is released before the
error is raised (R265, R266). -/
theorem stop_unlocked (hk : (linesOf (some i))[k]? = some y) (h : y u = .stop u') : holdsLock i u k = false := by
  by_contra hl
  cases i <;> simp only [holdsLock, Bool.not_eq_false, Bool.or_eq_true, Bool.and_eq_true, beq_iff_eq, decide_eq_true_eq,
    or_assoc, and_assoc, not_true_eq_false] at hl
  case waitVsync | waitPalette => obtain rfl | rfl := hl <;> cases hk <;> simp at h
  case disable | suspend | detach => obtain ⟨rfl | rfl, -⟩ := hl <;> cases hk <;> simp at h
  case setWindow | pan =>
    obtain ⟨hlo, hhi⟩ := hl
    interval_cases k <;> cases hk <;> simp [panRecord] at h
  case modeSet =>
    obtain ⟨rfl | rfl, -⟩ | ⟨hlo, hhi⟩ := hl
    · cases hk; simp at h
    · cases hk; simp at h
    · interval_cases k <;> cases hk <;> simp at h
  case registerCb | unregisterCb =>
    obtain rfl | ⟨rfl, hcb⟩ | rfl | rfl := hl <;> cases hk
    · simp at h
    · simp_all
    · simp at h
    · simp at h

/-! ## The lines at which the lock changes hands -/

/-- What `holdsLock` reads of a state. -/
theorem holdsLock_congr (k : Nat) (harg : u'.blk.arg = u.blk.arg) (hcb : u'.blk.cb = u.blk.cb)
    (hrev : u'.blk.rev = u.blk.rev) (hsus : u'.blk.suspended = u.blk.suspended) : holdsLock i u' k = holdsLock i u k := by
  cases i <;> simp only [holdsLock, State.argBit, State.arg, isV2, harg, hcb, hrev, hsus]

theorem holdsLock_setLock (u : State) (v : Lock) (k : Nat) :
    holdsLock i (u.onBlk fun b => { b with lock := v }) k = holdsLock i u k := holdsLock_congr k rfl rfl rfl rfl

theorem onlyIf_onlyIf (c d : State → Bool) (y : Act) : onlyIf c (onlyIf d y) = onlyIf (fun s => c s && d s) y := by
  funext s
  cases hc : c s <;> simp [onlyIf, hc]

/-- An acquiring line acquires the lock exactly when the section behind it is entered (R70, R225). -/
theorem acquire_line : ∀ e ∈ acquireLines,
    (linesOf (some e.1))[e.2]? = some (onlyIf (fun s => holdsLock e.1 s (e.2 + 1)) acquire) := by
  have hdetach : (linesOf (some .detach))[4]? = some (onlyIf (fun s => holdsLock .detach s 5) acquire) :=
    congrArg some (onlyIf_onlyIf (fun s => !s.blk.suspended) isV2 acquire)
  have hmode : (linesOf (some .modeSet))[21]? = some (onlyIf (fun s => holdsLock .modeSet s 22) acquire) :=
    congrArg (fun c => some (onlyIf c acquire)) (funext fun s => by simp [holdsLock])
  simp only [acquireLines, List.forall_mem_cons, List.not_mem_nil, false_implies, implies_true, and_true]
  exact ⟨rfl, rfl, rfl, rfl, rfl, rfl, rfl, rfl, rfl, hdetach, hmode⟩

/-- A releasing line releases the lock exactly when the section ends at it (R70, R265, R266). -/
theorem release_line : ∀ e ∈ releaseLines, (linesOf (some e.1))[e.2]? =
    some (onlyIf (fun s => holdsLock e.1 s e.2 && !holdsLock e.1 s (e.2 + 1)) release) := by
  have hguard : ∀ {c d : State → Bool}, (∀ s, c s = d s) → some (onlyIf c release) = some (onlyIf d release) :=
    fun h => congrArg (fun c => some (onlyIf c release)) (funext h)
  have hdetach : (linesOf (some .detach))[6]? =
      some (onlyIf (fun s => holdsLock .detach s 6 && !holdsLock .detach s 7) release) :=
    (congrArg some (onlyIf_onlyIf (fun s => !s.blk.suspended) isV2 release)).trans
      (hguard fun s => by simp [holdsLock])
  simp only [releaseLines, List.forall_mem_cons, List.not_mem_nil, false_implies, implies_true, and_true]
  refine ⟨?registerCb, rfl, ?unregisterCb, rfl, rfl, rfl, rfl, rfl, rfl, ?disable, ?suspend, hdetach, ?modeSet⟩
  case unregisterCb => exact hguard fun s => by simp [holdsLock, bne]
  all_goals exact hguard fun s => by simp [holdsLock]

/-- No section is open before an acquiring line. -/
theorem acquire_unlocked (u : State) : ∀ e ∈ acquireLines, holdsLock e.1 u e.2 = false := by
  simp [acquireLines, holdsLock]

/-- A section that is open after a releasing line was open before it. -/
theorem release_locked (u : State) : ∀ e ∈ releaseLines, holdsLock e.1 u (e.2 + 1) = true → holdsLock e.1 u e.2 = true := by
  simp [releaseLines, holdsLock]

/-- No other line that goes on changes whether the sequencer is inside a section: the ranges of `holdsLock` begin behind an
acquiring line and end at a releasing one, and what else it reads is not written there. -/
theorem holdsLock_go (hk : (linesOf (some i))[k]? = some y) (h : y u = .go u') (hacq : (i, k) ∉ acquireLines)
    (hrel : (i, k) ∉ releaseLines) : holdsLock i u' (k + 1) = holdsLock i u k := by
  obtain ⟨hf, hrec⟩ := (line_writes hk).go _ _ h
  have harg : u'.argBit 0 0 = u.argBit 0 0 := by simp only [State.argBit, State.arg, hf.arg]
  have hrev : i ≠ .attach → isV2 u' = isV2 u := fun hi =>
    congrArg (· == Rev.v2) (hrec .rev (by simp [Record.lines, hi]))
  rw [Bool.eq_iff_iff]
  simp only [acquireLines, releaseLines, List.mem_cons, Prod.mk.injEq, List.not_mem_nil, not_or, not_and] at hacq hrel
  cases i <;> simp only [holdsLock, reduceCtorEq, false_implies, true_implies, and_true, true_and, not_false_eq_true, ne_eq,
    Bool.or_eq_true, Bool.and_eq_true, beq_iff_eq, decide_eq_true_eq, Option.isNone_iff_eq_none] at hacq hrel hrev ⊢
  case waitVsync | waitPalette | setWindow | pan => omega
  case disable => rw [harg, hrev, show k + 1 = 6 ∨ k + 1 = 7 ↔ k = 6 ∨ k = 7 by omega]
  case suspend => rw [hrev, show k + 1 = 6 ∨ k + 1 = 7 ↔ k = 6 ∨ k = 7 by omega]
  case modeSet =>
    rw [hrev, show k + 1 = 22 ∨ k + 1 = 23 ↔ k = 22 ∨ k = 23 by omega,
      show 54 ≤ k + 1 ∧ k + 1 ≤ 59 ↔ 54 ≤ k ∧ k ≤ 59 by omega]
  case detach =>
    by_cases h14 : k = 14
    · subst h14; simp
    · rw [hrev, show u'.blk.suspended = u.blk.suspended from hrec .suspended (by simp [Record.lines, h14]),
        show k + 1 = 5 ∨ k + 1 = 6 ↔ k = 5 ∨ k = 6 by omega]
  case registerCb | unregisterCb =>
    obtain rfl | rfl | hlate : k = 2 ∨ k = 3 ∨ 4 < k := by omega
    · cases hk
      obtain ⟨hcb, rfl⟩ := (raiseIf_go ..).mp h
      simpa using hcb
    · simp
    · constructor <;> intro <;> omega

/-- The lock and the sections after a line that goes on: the lock is the sequencer's inside a section and only there, and no
line takes it to or from the decoder (R42). -/
theorem lock_go (hk : (linesOf (some i))[k]? = some y) (h : y u = .go u')
    (hsec : u.blk.lock = .seq ↔ holdsLock i u k = true) :
    (u'.blk.lock = .seq ↔ holdsLock i u' (k + 1) = true) ∧ (u'.blk.lock = .irqd ↔ u.blk.lock = .irqd) := by
  by_cases hacq : (i, k) ∈ acquireLines
  · have hfree := acquire_unlocked u _ hacq
    obtain rfl := Option.some.inj ((acquire_line _ hacq).symm.trans hk)
    unfold onlyIf at h
    split at h
    · next hin =>
      unfold acquire at h
      split at h <;> cases h
      next hlock =>
        rw [holdsLock_setLock]
        simp [hin, hlock]
    · next hin => cases h; simp_all
  · by_cases hrel : (i, k) ∈ releaseLines
    · have hopen := release_locked u _ hrel
      obtain rfl := Option.some.inj ((release_line _ hrel).symm.trans hk)
      unfold onlyIf at h
      split at h
      · next hout =>
        cases h
        rw [holdsLock_setLock]
        simp_all
      · next hout =>
        cases h
        have hiff : holdsLock i u k = true ↔ holdsLock i u (k + 1) = true := ⟨by simpa using hout, hopen⟩
        exact ⟨hsec.trans hiff, .rfl⟩
    · have hsame : u'.blk.lock = u.blk.lock :=
        ((line_writes hk).go _ _ h).2 .lock fun hm => (List.mem_append.mp hm).elim hacq hrel
      rw [hsame, holdsLock_go hk h hacq hrel]
      exact ⟨hsec, .rfl⟩

theorem holdsLock_start (s : State) (i : Instr) : holdsLock i s 0 = false := by cases i <;> simp [holdsLock]

theorem seqHolds_run {s : State} (h : s.seq.pc = .run (some i) k) : seqHolds s = holdsLock i s k := by
  simp only [seqHolds, h]

theorem seqHolds_idle {s : State} (h : s.seq.pc = .idle) : seqHolds s = false := by simp only [seqHolds, h]

/-- What `seqHolds` reads of a state. -/
theorem seqHolds_congr (hpc : u'.seq.pc = u.seq.pc) (harg : u'.blk.arg = u.blk.arg) (hcb : u'.blk.cb = u.blk.cb)
    (hrev : u'.blk.rev = u.blk.rev) (hsus : u'.blk.suspended = u.blk.suspended) : seqHolds u' = seqHolds u := by
  unfold seqHolds
  rw [hpc]
  split
  · exact holdsLock_congr _ harg hcb hrev hsus
  · rfl

/-- A running activation holds the lock, so the sequencer is inside no section (R280). -/
theorem LockInv.served {s : State} {r : Rev} (h : LockInv s) (hp : s.irqd.pc = .run r k) :
    s.blk.lock = .irqd ∧ seqHolds s = false := by
  have hlock := h.irqd.mpr (h.active.mpr (by simp [hp]))
  exact ⟨hlock, by simpa [hlock] using h.seq.not⟩

theorem stepInv_lockInv : StepInv LockInv where
  view {s t} hs hblk hpc _ hirq := by
    have hsec : seqHolds t = seqHolds s := seqHolds_congr hpc (by rw [hblk]) (by rw [hblk]) (by rw [hblk]) (by rw [hblk])
    refine ⟨?_, ?_, ?_, ?_, ?_⟩ <;> simp only [hblk, hpc, hirq, hsec]
    exacts [hs.irqd, hs.active, hs.seq, hs.busy, hs.cmd]
  seqGo {i k y s s'} hy hp hr hs := by
    have hf := ((line_writes hy).go _ _ hr).1
    have hp' : (bump .seq s').seq.pc = .run (some i) (k + 1) := bump_seq_pc (hf.pc.trans hp)
    obtain ⟨hseq, hirqd⟩ := lock_go hy hr (by rw [← seqHolds_run hp]; exact hs.seq)
    refine ⟨?_, ?_, ?_, ?_, ?_⟩
    · rw [bump_blk, hf.irqActive, hirqd]; exact hs.irqd
    · rw [bump_blk, hf.irqActive, bump_seq_irqd, hf.irqd]; exact hs.active
    · rw [seqHolds_run hp', holdsLock_congr (u := s') (k + 1) (by simp) (by simp) (by simp) (by simp), bump_blk]
      exact hseq
    · rw [bump_blk, hf.busy, hp', hs.busy, hp]; simp
    · intro c j hc
      rw [hp'] at hc
      cases hc
      rw [bump_blk, hf.cmdword]
      exact hs.cmd _ _ hp
  seqStop {c k y s e} hy hp hr hs := by
    have hout : seqHolds s = false := by
      rcases c with _ | i
      · simp only [seqHolds, hp]
      · rw [seqHolds_run hp]; exact stop_unlocked hy hr
    refine ⟨hs.irqd, hs.active, ?_, by simp, nofun⟩
    rw [seqHolds_idle (by simp), ← hout]
    exact hs.seq
  irqGo {r k y s s'} hy hp hr hs := by
    have hf := (serves_irqBody r y (List.mem_of_getElem? hy)).go _ _ hr
    obtain ⟨_, _, _, _, _, _, hblk⟩ := hf.blk
    have hsec : seqHolds (bump .irqd s') = seqHolds s :=
      seqHolds_congr (by rw [bump_irqd_seq, hf.seq]) (by simp [hblk]) (by simp [hblk]) (by simp [hblk]) (by simp [hblk])
    refine ⟨?_, ?_, ?_, ?_, ?_⟩
    · simpa [hblk] using hs.irqd
    · rw [bump_irqd_pc (hf.pc.trans hp)]; simpa [hblk, hp] using hs.active
    · rw [hsec]; simpa [hblk] using hs.seq
    · rw [bump_irqd_seq, hf.seq]; simpa [hblk] using hs.busy
    · rw [bump_irqd_seq, hf.seq]; simpa [hblk] using hs.cmd
  irqStop {r k s s'} hp he hs := by
    obtain ⟨-, hout⟩ := hs.served hp
    have hsec : seqHolds s' = seqHolds s := by cases he; exact seqHolds_congr rfl rfl rfl rfl rfl
    have hfree : s'.blk.lock = .free := by cases he; rfl
    refine ⟨?_, ?_, by simp [hsec, hout, hfree], ?_, ?_⟩ <;> cases he
    exacts [by simp, by simp, hs.busy, hs.cmd]
  activate {s} hm _ hs := by
    have hfree : s.blk.lock = .free := by simp only [mayActivate, Bool.and_eq_true, beq_iff_eq] at hm; exact hm.2
    have hout : seqHolds s = false := by simpa [hfree] using hs.seq.not
    refine ⟨by simp [activate], by simp [activate], ?_, hs.busy, hs.cmd⟩
    rw [show seqHolds (activate s) = seqHolds s from seqHolds_congr rfl rfl rfl rfl rfl, hout]
    simp [activate]
  accept {s} v hb hs := by
    have hidle : s.seq.pc = .idle := by simpa [hb] using hs.busy.not
    have hnew : seqHolds (accept s v) = false := by
      simp only [seqHolds, accept]
      cases decode? v with
      | none => rfl
      | some i => exact holdsLock_start _ i
    refine ⟨hs.irqd, hs.active, ?_, by simp [accept], ?_⟩
    · rw [hnew, ← seqHolds_idle hidle]; exact hs.seq
    · rintro c k ⟨⟩; rfl
  argreg {s} a hs := by
    have hsec : seqHolds (s.onBlk fun b => { b with argreg := a }) = seqHolds s := seqHolds_congr rfl rfl rfl rfl rfl
    exact ⟨hs.irqd, hs.active, by rw [hsec]; exact hs.seq, hs.busy, hs.cmd⟩
  reset s := ⟨by simp [assertReset, Blk.reset], by simp [assertReset, Blk.reset, Irqd.reset],
    by simp [assertReset, Blk.reset, seqHolds, Seq.reset], by simp [assertReset, Blk.reset, Seq.reset], nofun⟩

/-- Settles O58: the lock discipline is an invariant of `step`. -/
theorem lockDisciplineIsKept : Obligations.LockDisciplineIsKept := fun _ _ hs h => stepInv_lockInv.step h hs

end Sys2Proof.Machine
end

section
/-! The DMA window of an attached block lies inside its vram region (R41, R200, R205, R240): the checks that SET_WINDOW, PAN,
MODE_SET and ATTACH have passed stay true up to the line that stores the window or attaches the block, and so every step
keeps `WindowInv`. -/

namespace Sys2Proof.Machine

variable {i : Instr} {k : Nat} {y : Act} {u u' : State}

/-! ## What the facts of a running command read -/

theorem validWin_congr {b b' : Blk} (hmode : b'.haveMode = b.haveMode) (hgeo : b'.geo = b.geo) (hvram : b'.vram = b.vram)
    (s e : Nat) : validWin b' s e = validWin b s e := by simp only [validWin, hmode, hgeo, hvram]

theorem argN_congr (h : u'.blk.arg = u.blk.arg) (j : Fin 16) : u'.argN j = u.argN j := by
  simp only [State.argN, State.arg, h]

theorem modeXresV_congr (h : u'.blk.arg = u.blk.arg) : modeXresV u' = modeXresV u := by
  unfold modeXresV
  rw [argN_congr h 11, argN_congr h 0]

theorem modeYresV_congr (h : u'.blk.arg = u.blk.arg) : modeYresV u' = modeYresV u := by
  unfold modeYresV
  rw [argN_congr h 12, argN_congr h 1]

theorem modeLineLen_congr (h : u'.blk.arg = u.blk.arg) : modeLineLen u' = modeLineLen u := by
  simp only [modeLineLen, modeXresV_congr h, argN_congr h]

theorem modeSizesOk_congr (h : u'.blk.arg = u.blk.arg) : modeSizesOk u' = modeSizesOk u := by
  simp only [modeSizesOk, modeXresV_congr h, modeYresV_congr h, argN_congr h]

theorem modeFrameOk_congr (h : u'.blk.arg = u.blk.arg) : modeFrameOk u' = modeFrameOk u := by
  simp only [modeFrameOk, modeLineLen_congr h, argN_congr h]

theorem modeFitsVram_congr (h : u'.blk.arg = u.blk.arg) (hvram : u'.blk.vram = u.blk.vram) :
    modeFitsVram u' = modeFitsVram u := by
  simp only [modeFitsVram, modeLineLen_congr h, modeYresV_congr h, hvram]

/-- What `windowFacts` reads of a state. -/
theorem windowFacts_congr (hpc : u'.seq.pc = u.seq.pc) (hloc : u'.seq.loc = u.seq.loc) (harg : u'.blk.arg = u.blk.arg)
    (hmode : u'.blk.haveMode = u.blk.haveMode) (hgeo : u'.blk.geo = u.blk.geo) (hvram : u'.blk.vram = u.blk.vram)
    (hatt : u'.blk.attached = u.blk.attached) (hwin : u'.blk.win = u.blk.win) : windowFacts u' = windowFacts u := by
  simp only [windowFacts, hpc, hloc, validWin_congr hmode hgeo hvram, argN_congr harg, modeSizesOk_congr harg,
    modeFrameOk_congr harg, modeFitsVram_congr harg hvram, hatt, hwin]

/-- No fact is asked of a command that has passed no line. -/
theorem windowFacts_start {c : Option Instr} (h : u.seq.pc = .run c 0) : windowFacts u := by
  unfold windowFacts
  rw [h]
  cases c with
  | none => trivial
  | some i => cases i <;> simp

theorem windowFacts_idle (h : u.seq.pc = .idle) : windowFacts u := by
  unfold windowFacts
  rw [h]
  trivial

/-! ## The windows that the commands store -/

/-- Natural byte addresses inside a region give a window inside it: a region ends at 2^32 at the latest (R25). -/
theorem winInVram_windowOf {v : Vram} {s e : Nat} (hv : vramOk v) (hlt : s < e) (hbase : v.base ≤ s)
    (hend : e < v.base + v.size) : winInVram v (windowOf s e) := by
  unfold vramOk at hv
  simp only [winInVram, windowOf, BitVec.toNat_ofNat]
  rw [Nat.mod_eq_of_lt (show s < 2 ^ 32 by omega), Nat.mod_eq_of_lt (show e < 2 ^ 32 by omega)]
  exact ⟨hlt, hbase, hend⟩

/-- A window that passes the check of R201 lies inside the region. -/
theorem winInVram_of_validWin {b : Blk} {s e : Nat} (hv : vramOk b.vram) (h : validWin b s e = true) :
    winInVram b.vram (windowOf s e) := by
  simp only [validWin, Bool.and_eq_true, decide_eq_true_eq] at h
  obtain ⟨⟨⟨⟨-, hlt⟩, -⟩, hbase⟩, hend⟩ := h
  exact winInVram_windowOf hv hlt hbase hend

/-- The window of a MODE_SET that passes the checks of R239 lies inside the region (R240). -/
theorem winInVram_of_mode {s : State} (hv : vramOk s.blk.vram) (hsizes : modeSizesOk s = true)
    (hframe : modeFrameOk s = true) (hfits : modeFitsVram s = true) :
    winInVram s.blk.vram (windowOf s.blk.vram.base (s.blk.vram.base + s.argN 1 * modeLineLen s - 1)) := by
  simp only [modeSizesOk, modeFrameOk, modeFitsVram, Bool.and_eq_true, decide_eq_true_eq] at hsizes hframe hfits
  obtain ⟨-, hheight⟩ := hsizes
  have hvisible : s.argN 1 * modeLineLen s ≤ modeYresV s * modeLineLen s := Nat.mul_le_mul_right _ hheight
  exact winInVram_windowOf hv (by omega) (by omega) (by omega)

theorem vramAnswer_ok {d : Draw} {v : Vram} (h : vramAnswer d = some v) : vramOk v := by
  unfold vramAnswer at h
  repeat' split at h
  · cases h
    next hv => exact hv.2
  · cases h
  · cases h

/-! ## What one line of a command keeps -/

/-- A check at line `n` that every line so far has gone past did not hold, if no line since has changed what it reads. -/
theorem check_passed {n : Nat} {c : State → Bool} {e : Code} (hn : (linesOf (some i))[n]? = some (raiseIf c e))
    (hk : (linesOf (some i))[k]? = some y) (h : y u = .go u') (hlt : n < k + 1) (hs : n < k → c u = false) : c u = false := by
  obtain rfl | hlt : k = n ∨ n < k := by omega
  · obtain rfl := Option.some.inj (hn.symm.trans hk)
    exact ((raiseIf_go ..).mp h).1
  · exact hs hlt

/-- A line that goes on carries the facts of its command to the next line: a check has just been passed, or what it read is not
written there. -/
theorem windowFacts_go (hk : (linesOf (some i))[k]? = some y) (hp : u.seq.pc = .run (some i) k) (h : y u = .go u')
    (hs : windowFacts u) : windowFacts (bump .seq u') := by
  obtain ⟨hf, hrec⟩ := (line_writes hk).go _ _ h
  have hpc : (bump .seq u').seq.pc = .run (some i) (k + 1) := bump_seq_pc (hf.pc.trans hp)
  have harg : (bump .seq u').blk.arg = u.blk.arg := by rw [bump_blk, hf.arg]
  unfold windowFacts at hs ⊢
  rw [hp] at hs
  rw [hpc]
  cases i <;> simp only [bump_blk, bump_seq_loc, argN_congr harg, modeSizesOk_congr harg, modeFrameOk_congr harg] at hs ⊢
  case setWindow =>
    have hmode : u'.blk.haveMode = u.blk.haveMode := hrec .haveMode (by simp [Record.lines])
    have hgeo : u'.blk.geo = u.blk.geo := hrec .geo (by simp [Record.lines])
    have hvram : u'.blk.vram = u.blk.vram := hrec .vram (by simp [Record.lines])
    rw [validWin_congr hmode hgeo hvram]
    intro hlt
    simpa using check_passed (n := 2) rfl hk h hlt fun hlt => by simpa using hs hlt
  case pan =>
    have hmode : u'.blk.haveMode = u.blk.haveMode := hrec .haveMode (by simp [Record.lines])
    have hgeo : u'.blk.geo = u.blk.geo := hrec .geo (by simp [Record.lines])
    have hvram : u'.blk.vram = u.blk.vram := hrec .vram (by simp [Record.lines])
    intro hlt
    have hws : u'.seq.loc.ws = u.seq.loc.ws := hrec .ws (by simp [Record.lines]; omega)
    have hwe : u'.seq.loc.we = u.seq.loc.we := hrec .we (by simp [Record.lines]; omega)
    rw [validWin_congr hmode hgeo hvram, hws, hwe]
    simpa using check_passed (n := 4) rfl hk h hlt fun hlt => by simpa using hs hlt
  case modeSet =>
    have hvram : u'.blk.vram = u.blk.vram := hrec .vram (by simp [Record.lines])
    rw [modeFitsVram_congr harg (by rw [bump_blk, hvram])]
    obtain ⟨hsizes, hframe, hfits⟩ := hs
    refine ⟨fun hlt => ?_, fun hlt => ?_, fun hlt => ?_⟩
    · simpa using check_passed (n := 4) rfl hk h hlt fun hlt => by simpa using hsizes hlt
    · simpa using check_passed (n := 5) rfl hk h hlt fun hlt => by simpa using hframe hlt
    · simpa using check_passed (n := 6) rfl hk h hlt fun hlt => by simpa using hfits hlt
  case attach =>
    obtain ⟨hdetached, hnone⟩ := hs
    refine ⟨fun _ hle => ?_, fun hlt => ?_⟩
    · rw [show u'.blk.attached = u.blk.attached from hrec .attached (by simp [Record.lines]; omega)]
      exact check_passed (n := 0) rfl hk h (by omega) fun hpos => hdetached hpos (by omega)
    · obtain rfl | hlt : k = 12 ∨ 12 < k := by omega
      · cases hk
        cases h
        rfl
      · rw [show u'.blk.win = u.blk.win from hrec .win (by simp [Record.lines]; omega)]
        exact hnone hlt

/-- The regions of R25 and R36 after a line: only ATTACH writes them, from an answer of the allocator (R143). -/
theorem vramOk_go (hk : (linesOf (some i))[k]? = some y) (h : y u = .go u') (hv : vramOk u.blk.vram)
    (ha : ∀ v, u.seq.loc.alloc = some v → vramOk v) :
    vramOk u'.blk.vram ∧ ∀ v, u'.seq.loc.alloc = some v → vramOk v := by
  have hrec := ((line_writes hk).go _ _ h).2
  constructor
  · by_cases hm : (i, k) ∈ Record.vram.lines
    · obtain ⟨rfl, rfl⟩ : i = .attach ∧ k = 7 := by simpa [Record.lines] using hm
      cases hk
      cases h
      show vramOk (u.seq.loc.alloc.getD u.blk.vram)
      cases halloc : u.seq.loc.alloc with
      | none => exact hv
      | some v => exact ha v halloc
    · rw [show u'.blk.vram = u.blk.vram from hrec .vram hm]
      exact hv
  · by_cases hm : (i, k) ∈ Record.alloc.lines
    · obtain ⟨rfl, rfl⟩ : i = .attach ∧ k = 4 := by simpa [Record.lines] using hm
      cases hk
      cases h
      exact fun v hv => vramAnswer_ok hv
    · rw [show u'.seq.loc.alloc = u.seq.loc.alloc from hrec .alloc hm]
      exact ha

/-- The window of an attached block after a line: SET_WINDOW, PAN and MODE_SET store a checked one, and ATTACH ends without
one (R143). -/
theorem win_go (hk : (linesOf (some i))[k]? = some y) (hp : u.seq.pc = .run (some i) k) (h : y u = .go u')
    (hs : WindowInv u) (hatt : u'.blk.attached = true) {w : Window} (hw : u'.blk.win = some w) :
    winInVram u'.blk.vram w := by
  have hrec := ((line_writes hk).go _ _ h).2
  have hfacts := hs.facts
  unfold windowFacts at hfacts
  rw [hp] at hfacts
  by_cases hm : (i, k) ∈ Record.win.lines
  · obtain ⟨rfl, rfl⟩ | ⟨rfl, rfl⟩ | ⟨rfl, rfl⟩ | ⟨rfl, rfl⟩ : (i = .setWindow ∧ k = 4) ∨ (i = .pan ∧ k = 6) ∨
        (i = .modeSet ∧ k = 54) ∨ (i = .attach ∧ k = 12) := by simpa [Record.lines] using hm
    · cases hk
      cases h
      cases hw
      exact winInVram_of_validWin hs.vram (hfacts (by decide))
    · cases hk
      cases h
      cases hw
      exact winInVram_of_validWin hs.vram (hfacts (by decide))
    · obtain ⟨hsizes, hframe, hfits⟩ := hfacts
      cases hk
      cases h
      cases hw
      exact winInVram_of_mode hs.vram (hsizes (by decide)) (hframe (by decide)) (hfits (by decide))
    · cases hk
      cases h
      cases hw
  · rw [show u'.blk.win = u.blk.win from hrec .win hm] at hw
    by_cases hi : i = .attach
    · subst hi
      obtain ⟨hdetached, hnone⟩ := hfacts
      by_cases h12 : 12 < k
      · rw [hnone h12] at hw
        cases hw
      · have hne : k ≠ 12 := fun e => hm (by simp [Record.lines, e])
        rw [show u'.blk.attached = u.blk.attached from hrec .attached (by simp [Record.lines]; omega)] at hatt
        rw [check_passed (n := 0) rfl hk h (by omega) fun hpos => hdetached hpos (by omega)] at hatt
        cases hatt
    · rw [show u'.blk.vram = u.blk.vram from hrec .vram (by simp [Record.lines, hi])]
      by_cases hd : i = .detach ∧ k = 15
      · obtain ⟨rfl, rfl⟩ := hd
        cases hk
        cases h
        cases hatt
      · rw [show u'.blk.attached = u.blk.attached from hrec .attached (by simpa [Record.lines, hi] using hd)] at hatt
        exact hs.win hatt w hw

theorem stepInv_windowInv : StepInv WindowInv where
  view {s t} hs hblk hpc hloc _ := by
    have hfacts : windowFacts t = windowFacts s := windowFacts_congr hpc hloc (by rw [hblk]) (by rw [hblk]) (by rw [hblk])
      (by rw [hblk]) (by rw [hblk]) (by rw [hblk])
    refine ⟨?_, ?_, ?_, ?_⟩ <;> simp only [hblk, hloc, hfacts]
    exacts [hs.vram, hs.alloc, hs.facts, hs.win]
  seqGo {i k y s s'} hy hp hr hs := by
    obtain ⟨hvram, halloc⟩ := vramOk_go hy hr hs.vram hs.alloc
    exact ⟨by simpa using hvram, by simpa using halloc, windowFacts_go hy hp hr hs.facts,
      by simpa using fun hatt w hw => win_go hy hp hr hs hatt hw⟩
  seqStop _ _ _ hs := ⟨hs.vram, hs.alloc, windowFacts_idle rfl, hs.win⟩
  irqGo {r k y s s'} hy hp hr hs := by
    have hf := (serves_irqBody r y (List.mem_of_getElem? hy)).go _ _ hr
    obtain ⟨_, _, _, _, _, _, hblk⟩ := hf.blk
    have hfacts : windowFacts (bump .irqd s') = windowFacts s :=
      windowFacts_congr (by simp [hf.seq]) (by simp [hf.seq]) (by simp [hblk]) (by simp [hblk]) (by simp [hblk])
        (by simp [hblk]) (by simp [hblk]) (by simp [hblk])
    exact ⟨by simpa [hblk] using hs.vram, by simpa [hf.seq] using hs.alloc, hfacts ▸ hs.facts, by simpa [hblk] using hs.win⟩
  irqStop {r k s s'} _ he hs := by
    have hfacts : windowFacts s' = windowFacts s := by cases he; exact windowFacts_congr rfl rfl rfl rfl rfl rfl rfl rfl
    have hnew := hfacts ▸ hs.facts
    cases he
    exact ⟨hs.vram, hs.alloc, hnew, hs.win⟩
  activate {s} _ _ hs := by
    have hfacts : windowFacts (activate s) = windowFacts s := windowFacts_congr rfl rfl rfl rfl rfl rfl rfl rfl
    exact ⟨hs.vram, hs.alloc, hfacts ▸ hs.facts, hs.win⟩
  accept {s} v _ hs := ⟨hs.vram, hs.alloc, windowFacts_start rfl, hs.win⟩
  argreg {s} a hs := by
    have hfacts : windowFacts (s.onBlk fun b => { b with argreg := a }) = windowFacts s :=
      windowFacts_congr rfl rfl rfl rfl rfl rfl rfl rfl
    exact ⟨hs.vram, hs.alloc, hfacts ▸ hs.facts, hs.win⟩
  reset s := ⟨by simp [assertReset, Blk.reset, vramOk], nofun, windowFacts_idle rfl, nofun⟩

/-- Settles O59: the window's invariant is kept by every step. -/
theorem windowStaysInVram : Obligations.WindowStaysInVram := fun _ _ hs h => stepInv_windowInv.step h hs

end Sys2Proof.Machine
end

section
/-! The step of an accepted command (R20, R121), the lines at which the sequencer waits for the lock (R42, R262), and what a
register read returns (R45, R47). -/

namespace Sys2Proof.Machine

/-! ## The step of an accepted command -/

/-- Settles O4: acceptance starts the decoded command, and a move of the sequencer is a turn of the command that runs. -/
theorem stepRunsTheDecodedCommand : Obligations.StepRunsTheDecodedCommand := by
  constructor
  · intro s v i hd
    simp [accept, decode?, hd, Except.toOption]
  · intro s i k n hwf _ hm hp
    simp only [step, stepMove, hwf, if_true, hm, applyMove, seqMove, hp]

/-! ## Waiting for the lock -/

/-- A turn that begins at a line which leaves the sequencer waiting changes nothing. -/
theorem exec_of_stay {i : Instr} {k : Nat} {x : Act} {s : State} (hp : s.seq.pc = .run (some i) k)
    (hx : (linesOf (some i))[k]? = some x) (hs : x s = .stay s) : exec i s = .next s := by
  obtain ⟨hk, hget⟩ := List.getElem?_eq_some_iff.mp hx
  rw [exec_eq_seqTurn, seqTurn, hp]
  simp only
  rw [if_pos hk, List.drop_eq_getElem_cons hk, hget]
  cases s.seq.turn with
  | zero => rw [runActs_zero]
  | succ n => rw [runActs_stay hs]

theorem acquire_waits {s : State} (h : s.blk.lock ≠ .free) : acquire s = .stay s := (acquire_stay s s).mpr ⟨h, rfl⟩

theorem blockTest_waits {s : State} (e : WaitEvent) (b : State → Nat) (h : s.blk.lock ≠ .free) :
    blockTest e b s = .stay s := (blockTest_stay s s e b).mpr (.inl ⟨h, rfl⟩)

theorem onlyIf_waits {s : State} {c : State → Bool} {y : Act} (hc : c s = true) (h : y s = .stay s) :
    onlyIf c y s = .stay s := (onlyIf_stay s s c y).mpr ⟨hc, h⟩

/-- Settles O44: each line of the two lists is an `Acquire` or the test step of a `Block`, under the condition of its
sequence. -/
theorem sectionsWaitForTheLock : Obligations.SectionsWaitForTheLock := by
  constructor
  · rintro s i k n hm ⟨hp, -⟩ hlock
    simp only [List.mem_cons, Prod.mk.injEq, List.not_mem_nil, or_false] at hm
    have hacq := acquire_waits hlock
    obtain ⟨rfl, rfl⟩ | ⟨rfl, rfl⟩ | ⟨rfl, rfl⟩ | ⟨rfl, rfl⟩ | ⟨rfl, rfl⟩ | ⟨rfl, rfl⟩ | ⟨rfl, rfl⟩ | ⟨rfl, rfl⟩ |
      ⟨rfl, rfl⟩ := hm
    · exact exec_of_stay hp rfl hacq
    · exact exec_of_stay hp rfl hacq
    · exact exec_of_stay hp rfl hacq
    · exact exec_of_stay hp rfl (blockTest_waits .vsync _ hlock)
    · exact exec_of_stay hp rfl hacq
    · exact exec_of_stay hp rfl (blockTest_waits .palDone _ hlock)
    · exact exec_of_stay hp rfl hacq
    · exact exec_of_stay hp rfl hacq
    · exact exec_of_stay hp rfl hacq
  · rintro s i k n w hm hw ⟨hp, -⟩ hlock
    simp only [List.mem_cons, Prod.mk.injEq, List.not_mem_nil, or_false] at hm
    have hacq := acquire_waits hlock
    have htest := blockTest_waits .frameDone (fun _ => frameDoneTimeoutMs) hlock
    obtain ⟨rfl, rfl, rfl⟩ | ⟨rfl, rfl, rfl⟩ | ⟨rfl, rfl, rfl⟩ | ⟨rfl, rfl, rfl⟩ | ⟨rfl, rfl, rfl⟩ | ⟨rfl, rfl, rfl⟩ |
      ⟨rfl, rfl, rfl⟩ | ⟨rfl, rfl, rfl⟩ := hm
    · exact exec_of_stay hp rfl (onlyIf_waits hw hacq)
    · exact exec_of_stay hp rfl (onlyIf_waits hw htest)
    · exact exec_of_stay hp rfl (onlyIf_waits hw hacq)
    · exact exec_of_stay hp rfl (onlyIf_waits hw htest)
    · obtain ⟨hawake, hv2⟩ := Bool.and_eq_true_iff.mp hw
      exact exec_of_stay hp rfl (onlyIf_waits hawake (onlyIf_waits hv2 hacq))
    · obtain ⟨hawake, hv2⟩ := Bool.and_eq_true_iff.mp hw
      exact exec_of_stay hp rfl (onlyIf_waits hawake (onlyIf_waits hv2 htest))
    · exact exec_of_stay hp rfl (onlyIf_waits hw hacq)
    · exact exec_of_stay hp rfl (onlyIf_waits hw htest)

/-! ## Register values -/

/-- A read of a register that holds a word (R45). -/
theorem regValue_holdsWord (p : Params) (r : Rev) (l : Lcdc) {g : LReg} (w : Word) (h : LReg.holdsWord g = true) :
    regValue p r l g w =
      match l.regs.get g with
      | none => w
      | some v => (v &&& ~~~(p.hwMask r g)) ||| (w &&& p.hwMask r g) := by
  cases g
  case id | stat | rawStat | maskedStat => cases h
  all_goals rfl

/-- A bit read after a write: the LCDC's own bits are drawn (R45). -/
theorem getLsbD_regValue_write (p : Params) (r : Rev) (l : Lcdc) {g : LReg} (v w : Word) (h : LReg.holdsWord g = true)
    {j : Nat} (hj : j < 32) :
    (regValue p r (l.write g v) g w).getLsbD j = if (p.hwMask r g).getLsbD j then w.getLsbD j else v.getLsbD j := by
  rw [regValue_holdsWord p r _ w h, lcdc_write_regs, get_put_same _ _ h]
  simp only [BitVec.getLsbD_or, BitVec.getLsbD_and, BitVec.getLsbD_not, decide_eq_true hj, Bool.true_and]
  cases (p.hwMask r g).getLsbD j <;> simp

theorem wellFormed_hwBitsApart {p : Params} (h : p.wellFormed = true) (r : Rev) : hwBitsApart p r = true := by
  simp only [Params.wellFormed, capsOk, Bool.and_eq_true] at h
  cases r <;> simp only [h]

/-- Under well-formed parameters the LCDC drives no bit of a field with a position (log 9). -/
theorem hwMask_and_rangeMask {p : Params} (h : p.wellFormed = true) (r : Rev) (f : Fld) :
    (p.hwMask r f.home).toNat &&& rangeMask (p.pos r f) = 0 := by
  have hreg := List.all_eq_true.mp (wellFormed_hwBitsApart h r) f.home (LReg.mem_all _)
  split at hreg
  case h_5 =>
    have hmem : rangeMask (p.pos r f) ∈ p.fieldMasks r f.home :=
      List.mem_map.mpr ⟨f, List.mem_filter.mpr ⟨Fld.mem_all f, beq_self_eq_true _⟩, rfl⟩
    simpa using List.all_eq_true.mp hreg _ hmem
  all_goals
    rw [beq_iff_eq.mp hreg]
    exact Nat.zero_and _

/-- A field with a position reads back as written. -/
theorem ext_regValue_write {p : Params} (hwf : p.wellFormed = true) {r : Rev} (l : Lcdc) {f : Fld} {hi lo : Nat} (v w : Word)
    (h : LReg.holdsWord f.home = true) (hp : p.pos r f = some (hi, lo)) :
    ext (regValue p r (l.write f.home v) f.home w) (some (hi, lo)) = ext v (some (hi, lo)) := by
  obtain ⟨-, hle, hhi, -⟩ := pos_some_fits hwf hp
  have hmask := hwMask_and_rangeMask hwf r f
  rw [hp] at hmask
  apply Nat.eq_of_testBit_eq
  intro j
  rw [testBit_ext, testBit_ext]
  by_cases hj : j < hi - lo + 1
  · have hbit := congrArg (Nat.testBit · (lo + j)) hmask
    simp only [Nat.testBit_and, testBit_rangeMask hle, BitVec.testBit_toNat, Nat.zero_testBit,
      decide_eq_true (show lo ≤ lo + j ∧ lo + j ≤ hi by omega), Bool.and_true] at hbit
    rw [getLsbD_regValue_write p r l v w h (by omega), hbit, if_neg (by decide)]
  · simp [hj]

/-- Settles O15: the cases of R45 for a read after a write, and the mask of R47. -/
theorem registerReadValues : Obligations.RegisterReadValues := by
  intro p r l w
  refine ⟨rfl, rfl, rfl, rfl, fun g v => by cases g <;> rfl, fun g hstat hraw hmasked hid => ?_⟩
  have hg : LReg.holdsWord g = true := by cases g <;> simp_all [LReg.holdsWord]
  refine ⟨fun hnone => ?_, fun v j hj => getLsbD_regValue_write p r l v w hg hj,
    fun g' v hne => regValue_write_other p r l v w hne.symm, ?_⟩
  · rw [regValue_holdsWord p r l w hg, hnone]
  · rintro hwf f hi lo v rfl hp
    exact ext_regValue_write hwf l v w hg hp

end Sys2Proof.Machine
end

section
/-! What a turn of a command may change, whatever part of it the turn runs (R27 to R41), and what one step may do to the
raster state (R227): read off the table of records. -/

namespace Sys2Proof.Machine

variable {i : Instr} {k : Nat} {y : Act} {u u' : State}

/-! ## The frame-done flag -/

theorem onlyIf_go (c : State → Bool) (y : Act) (u u' : State) :
    onlyIf c y u = .go u' ↔ c u = true ∧ y u = .go u' ∨ c u = false ∧ u = u' := by
  unfold onlyIf; split <;> simp_all

/-- Who may clear the frame-done flag: a `DISABLE_SEQ` that waits (R225), or ATTACH (R143). -/
def ClearsFrameDone (i : Instr) (s : State) : Prop :=
  (i = .disable ∧ s.argBit 0 0 = true ∨ i = .suspend ∨ i = .detach ∨ i = .modeSet) ∧ s.blk.rev = .v2 ∨ i = .attach

theorem clearsFrameDone_go (hk : (linesOf (some i))[k]? = some y) (h : y u = .go u')
    (hne : u'.blk.frameDoneFlag ≠ u.blk.frameDoneFlag) : ClearsFrameDone i u := by
  have hm : (i, k) ∈ Record.frameDoneFlag.lines := by
    by_contra hm
    exact hne (((line_writes hk).go _ _ h).2 .frameDoneFlag hm)
  have guard_holds : ∀ {c : State → Bool} {y : Act}, onlyIf c y u = .go u' → c u = true ∧ y u = .go u' := fun h =>
    ((onlyIf_go ..).mp h).resolve_right fun hskip => hne (by rw [hskip.2])
  simp only [Record.lines, List.mem_cons, Prod.mk.injEq, List.not_mem_nil, or_false] at hm
  obtain ⟨rfl, rfl⟩ | ⟨rfl, rfl⟩ | ⟨rfl, rfl⟩ | ⟨rfl, rfl⟩ | ⟨rfl, rfl⟩ := hm
  · cases hk
    obtain ⟨hwait, hv2⟩ := Bool.and_eq_true_iff.mp (guard_holds h).1
    exact .inl ⟨.inl ⟨rfl, hwait⟩, (isV2_iff u).mp hv2⟩
  · cases hk
    obtain ⟨-, hv2⟩ := Bool.and_eq_true_iff.mp (guard_holds h).1
    exact .inl ⟨.inr (.inl rfl), (isV2_iff u).mp hv2⟩
  · cases hk
    obtain ⟨-, hv2⟩ := Bool.and_eq_true_iff.mp (guard_holds (guard_holds h).2).1
    exact .inl ⟨.inr (.inr (.inl rfl)), (isV2_iff u).mp hv2⟩
  · cases hk
    obtain ⟨-, hv2⟩ := Bool.and_eq_true_iff.mp (guard_holds h).1
    exact .inl ⟨.inr (.inr (.inr rfl)), (isV2_iff u).mp hv2⟩
  · exact .inr rfl

/-! ## A turn -/

/-- What any part of command `i` leaves: the decoder, the parameters, the line and the host's side of the block as they are,
flags only cleared, records that grow, and each record that no line of the command writes as it is. -/
structure TurnFrame (i : Instr) (s t : State) : Prop where
  irqd : t.irqd = s.irqd := by rfl
  cfg : t.cfg = s.cfg := by rfl
  irq : t.lcdc.irq = s.lcdc.irq := by rfl
  argreg : t.blk.argreg = s.blk.argreg := by rfl
  arg : t.blk.arg = s.blk.arg := by rfl
  cmdword : t.blk.cmdword = s.blk.cmdword := by rfl
  irqActive : t.blk.irqActive = s.blk.irqActive := by rfl
  flag : ∀ e, t.blk.flag e = true → s.blk.flag e = true := by exact fun _ h => h
  out : s.blk.out <+: t.blk.out := by exact ⟨[], List.append_nil _⟩
  port : s.port <+: t.port := by exact ⟨[], List.append_nil _⟩
  kept : ∀ r : Record, (∀ k, (i, k) ∉ r.lines) → r.Same s t := by exact fun r _ => r.same_rfl _
  frameDone : t.blk.frameDoneFlag ≠ s.blk.frameDoneFlag → ClearsFrameDone i s := by exact fun h => absurd rfl h

theorem Record.Same.trans {s t u : State} {r : Record} (h : r.Same s t) (h' : r.Same t u) : r.Same s u := by
  cases r <;> exact Eq.trans h' h

theorem ClearsFrameDone.of_frame {s t : State} (h : TurnFrame i s t) (hc : ClearsFrameDone i t) : ClearsFrameDone i s := by
  obtain ⟨hi, hrev⟩ | hi := hc
  · have harg : t.argBit 0 0 = s.argBit 0 0 := by simp only [State.argBit, State.arg, h.arg]
    have hsame : t.blk.rev = s.blk.rev := h.kept .rev fun k hk => by simp_all [Record.lines]
    exact .inl ⟨by rwa [harg] at hi, by rwa [hsame] at hrev⟩
  · exact .inr hi

theorem TurnFrame.trans {s t u : State} (h : TurnFrame i s t) (h' : TurnFrame i t u) : TurnFrame i s u where
  irqd := h'.irqd.trans h.irqd
  cfg := h'.cfg.trans h.cfg
  irq := h'.irq.trans h.irq
  argreg := h'.argreg.trans h.argreg
  arg := h'.arg.trans h.arg
  cmdword := h'.cmdword.trans h.cmdword
  irqActive := h'.irqActive.trans h.irqActive
  flag e he := h.flag e (h'.flag e he)
  out := h.out.trans h'.out
  port := h.port.trans h'.port
  kept r hr := (h.kept r hr).trans (h'.kept r hr)
  frameDone hne := by
    by_cases ht : u.blk.frameDoneFlag = t.blk.frameDoneFlag
    · exact h.frameDone (ht ▸ hne)
    · exact (h'.frameDone ht).of_frame h

theorem turnFrame_finish (i : Instr) (s : State) (c : Code) : TurnFrame i s (s.finish c) where
  out := ⟨_, rfl⟩
  kept r _ := by cases r <;> rfl

theorem turnFrame_bump (i : Instr) (s : State) : TurnFrame i s (bump .seq s) where
  irqd := by simp
  cfg := by simp
  irq := by simp
  argreg := by simp
  arg := by simp
  cmdword := by simp
  irqActive := by simp
  flag := by simp
  out := by simp
  port := by simp
  kept r _ := by cases r <;> simp [Record.Same]
  frameDone := by simp

/-- One line of a command. -/
theorem turnFrame_line (hk : (linesOf (some i))[k]? = some y) (u : State) : TurnFrame i u (after .seq (y u)) := by
  have hw := line_writes hk
  cases hr : y u with
  | go u' =>
    obtain ⟨hf, hrec⟩ := hw.go _ _ hr
    exact TurnFrame.trans ⟨hf.irqd, hf.cfg, hf.irq, hf.argreg, hf.arg, hf.cmdword, hf.irqActive, hf.flag, hf.out, hf.port,
      fun r hr => hrec r (hr k), clearsFrameDone_go hk hr⟩ (turnFrame_bump i u')
  | stay u' => obtain rfl | rfl := hw.stay _ _ hr <;> exact {}
  | stop u' => obtain ⟨c, rfl⟩ := hw.stop _ _ hr; exact turnFrame_finish i u c

/-- Any part of a command. -/
theorem turnFrame_exec {s t : State} (h : exec i s = .next t) : TurnFrame i s t := by
  rw [exec_eq_seqTurn] at h
  rcases seqTurn_cases (linesOf (some i)) s with ⟨-, e⟩ | ⟨c, k, -, -, e⟩ | ⟨_, _, -, -, e⟩ <;> rw [e] at h <;> cases h
  · exact {}
  · refine runActs_keeps (P := TurnFrame i s) (fun x hx u hu => hu.trans ?_) _ s {}
    obtain ⟨j, hj⟩ := List.mem_iff_getElem?.mp (List.mem_of_mem_drop hx)
    exact turnFrame_line hj u

/-- A record that has changed is one that the command writes. -/
theorem TurnFrame.written {s t : State} (h : TurnFrame i s t) (r : Record) (l : List Instr)
    (hr : ∀ e ∈ r.lines, e.1 ∈ l) (hne : ¬ r.Same s t) : i ∈ l := by
  by_contra hi
  exact hne (h.kept r fun k hk => hi (hr _ hk))

/-! ## The raster state -/

/-- The rows of R227 for a step of `SEQ` at line `k`: the new raster state, where the sequences of the command put it. -/
def RasterRow (i : Instr) (k : Nat) (s : State) (r : RState) : Prop :=
  (∃ a, (i, a) ∈ enableSeqs ∧ (k = a ∧ r = .enabling ∨ k = a + 7 ∧ r = .enabled)) ∨
    ∃ a w, (i, a, w) ∈ disableSeqs s ∧ skipsDisable i s = false ∧
      (k = a + 2 ∧ waits s w = true ∧ r = .disablingWaitFrame ∨
        k = a + 8 ∧ waits s w = true ∧ s.blk.rstate = .disablingWaitFrame ∧ r = .disabled ∨
        k = a + 9 ∧ waits s w = false ∧ r = .disabled)

/-- The lines that write the raster state belong to ATTACH, to an `ENABLE_SEQ` or to a `DISABLE_SEQ`. -/
theorem rstate_lines (s : State) (h : (i, k) ∈ Record.rstate.lines) :
    i = .attach ∨ (∃ a, (i, a) ∈ enableSeqs ∧ (k = a ∨ k = a + 7)) ∨
      ∃ a w, (i, a, w) ∈ disableSeqs s ∧ (k = a + 2 ∨ k = a + 8 ∨ k = a + 9) := by
  simp only [Record.lines, List.mem_cons, Prod.mk.injEq, List.not_mem_nil, or_false] at h
  rcases h with ⟨rfl, rfl⟩ | ⟨rfl, rfl⟩ | ⟨rfl, rfl⟩ | ⟨rfl, rfl⟩ | ⟨rfl, rfl⟩ | ⟨rfl, rfl⟩ | ⟨rfl, rfl⟩ | ⟨rfl, rfl⟩ |
    ⟨rfl, rfl⟩ | ⟨rfl, rfl⟩ | ⟨rfl, rfl⟩ | ⟨rfl, rfl⟩ | ⟨rfl, rfl⟩ | ⟨rfl, rfl⟩ | ⟨rfl, rfl⟩ | ⟨rfl, rfl⟩ | ⟨rfl, rfl⟩ |
    ⟨rfl, rfl⟩ | ⟨rfl, rfl⟩ <;> simp [enableSeqs, disableSeqs]

/-- The first and the last line of an `ENABLE_SEQ` (R220). -/
theorem enableSeq_ends : ∀ e ∈ enableSeqs, (linesOf (some e.1))[e.2]? = some (setRState .enabling) ∧
    (linesOf (some e.1))[e.2 + 7]? = some (setRState .enabled) := by
  simp only [enableSeqs, List.forall_mem_cons, List.not_mem_nil, false_implies, implies_true, and_true]
  exact ⟨⟨rfl, rfl⟩, ⟨rfl, rfl⟩, rfl, rfl⟩

/-- What the lines of a `DISABLE_SEQ` that set the raster state do in `s` (R225). -/
theorem disableSeq_sets (s : State) : ∀ e ∈ disableSeqs s,
    (linesOf (some e.1))[e.2.1 + 2]?.map (· s) =
        some (if !skipsDisable e.1 s && waits s e.2.2 then setRState .disablingWaitFrame s else .go s) ∧
      (linesOf (some e.1))[e.2.1 + 8]?.map (· s) =
        some (if !skipsDisable e.1 s && waits s e.2.2 then
          onlyIf (fun s => s.blk.rstate == .disablingWaitFrame) (setRState .disabled) s else .go s) ∧
      (linesOf (some e.1))[e.2.1 + 9]?.map (· s) =
        some (if !skipsDisable e.1 s && !waits s e.2.2 then setRState .disabled s else .go s) := by
  simp only [disableSeqs, List.forall_mem_cons, List.not_mem_nil, false_implies, implies_true, and_true]
  refine ⟨⟨rfl, rfl, rfl⟩, ⟨rfl, rfl, rfl⟩, ?detach, rfl, rfl, rfl⟩
  have hboth : ∀ (d : State → Bool) (x : Act),
      onlyIf (fun s => !s.blk.suspended) (onlyIf d x) s = if !s.blk.suspended && d s then x s else .go s :=
    fun d x => congrFun (onlyIf_onlyIf _ d x) s
  exact ⟨congrArg some (hboth _ _), congrArg some (hboth _ _), congrArg some (hboth _ _)⟩

/-- A line that changes the raster state is one of R227's rows, or ATTACH's (R143). -/
theorem rasterRow_go (hk : (linesOf (some i))[k]? = some y) (h : y u = .go u') (hne : u'.blk.rstate ≠ u.blk.rstate) :
    i = .attach ∨ RasterRow i k u u'.blk.rstate := by
  have hm : (i, k) ∈ Record.rstate.lines := by
    by_contra hm
    exact hne (((line_writes hk).go _ _ h).2 .rstate hm)
  rcases rstate_lines u hm with hi | ⟨a, ha, hka⟩ | ⟨a, w, ha, hka⟩
  · exact .inl hi
  · refine .inr (.inl ⟨a, ha, ?_⟩)
    obtain ⟨hfirst, hlast⟩ := enableSeq_ends _ ha
    obtain rfl | rfl := hka
    · obtain rfl := Option.some.inj (hfirst.symm.trans hk)
      cases h
      exact .inl ⟨rfl, rfl⟩
    · obtain rfl := Option.some.inj (hlast.symm.trans hk)
      cases h
      exact .inr ⟨rfl, rfl⟩
  · refine .inr (.inr ⟨a, w, ha, ?_⟩)
    obtain ⟨hwait, hwaited, hnow⟩ := disableSeq_sets u _ ha
    obtain rfl | rfl | rfl := hka
    · rw [hk, Option.map_some, Option.some.injEq, h] at hwait
      split at hwait
      · next hc => cases hwait; simp_all
      · cases hwait; exact absurd rfl hne
    · rw [hk, Option.map_some, Option.some.injEq, h] at hwaited
      split at hwaited
      · next hc =>
        rcases (onlyIf_go ..).mp hwaited.symm with ⟨hr, hgo⟩ | ⟨-, rfl⟩
        · cases hgo; simp_all
        · exact absurd rfl hne
      · cases hwaited; exact absurd rfl hne
    · rw [hk, Option.map_some, Option.some.injEq, h] at hnow
      split at hnow
      · next hc => cases hnow; simp_all
      · cases hnow; exact absurd rfl hne

/-- A turn of one step. -/
theorem rasterRow_exec {s t : State} (h : exec i s = .next t) (hturn : s.seq.turn = 1)
    (hne : t.blk.rstate ≠ s.blk.rstate) :
    i = .attach ∨ ∃ c k, s.seq.pc = .run c k ∧ RasterRow i k s t.blk.rstate := by
  rw [exec_eq_seqTurn] at h
  rcases seqTurn_cases (linesOf (some i)) s with ⟨-, e⟩ | ⟨c, k, hp, hk, e⟩ | ⟨_, _, -, -, e⟩ <;> rw [e] at h <;> cases h
  · exact absurd rfl hne
  · rw [hturn, List.drop_eq_getElem_cons hk] at hne ⊢
    have hline := List.getElem?_eq_getElem hk
    cases hr : (linesOf (some i))[k] s with
    | go u =>
      rw [runActs_go hr, runActs_zero, bump_blk] at hne ⊢
      exact (rasterRow_go hline hr hne).imp_right fun hrow => ⟨c, k, hp, hrow⟩
    | stay u =>
      rw [runActs_stay hr] at hne
      obtain rfl | rfl := (line_writes hline).stay _ _ hr <;> exact absurd rfl hne
    | stop u =>
      rw [runActs_stop hr] at hne
      obtain ⟨e, rfl⟩ := (line_writes hline).stop _ _ hr
      exact absurd rfl hne

/-- Settles O53: each clause is read off the table of records, and the raster clause off the rows. -/
theorem eachRecordHasItsWriters : Obligations.EachRecordHasItsWriters := by
  intro i s t h
  have ht := turnFrame_exec h
  refine ⟨fun hne => ?attached, fun hne => ?rev, fun hne => ?vram, fun hne => ?lastDone, fun hne => ?fmt, fun hne => ?geo,
    fun hne => ?haveMode, fun hne => ?clock, fun hne => ?palCount, fun hne => ?cb, fun hne => ?power, fun hne => ?win,
    fun hne => ?offsets, fun hne => ?rstate, fun hne hturn => rasterRow_exec h hturn hne, ht.argreg, ht.arg, ht.cmdword,
    ht.irqActive, ht.irqd, ht.cfg, ht.irq, ht.flag, fun hne => ?vsyncFlag, fun hne => ?palDoneFlag, ht.frameDone,
    ht.out.imp fun _ e => e.symm, ht.port.imp fun _ e => e.symm⟩
  case attached => simpa using ht.written .attached [.attach, .detach] (by decide) hne
  case rev => simpa using ht.written .rev [.attach] (by decide) hne
  case vram => simpa using ht.written .vram [.attach] (by decide) hne
  case lastDone => simpa using ht.written .lastDone [.attach] (by decide) hne
  case fmt => simpa using ht.written .fmt [.modeSet] (by decide) hne
  case geo => simpa using ht.written .geo [.modeSet] (by decide) hne
  case haveMode => simpa using ht.written .haveMode [.modeSet, .attach] (by decide) hne
  case clock =>
    simpa using hne.elim (ht.written .divider [.setClock, .modeSet] (by decide)) (ht.written .srcRate _ (by decide))
  case palCount => simpa using ht.written .palCount [.programFrameGeometry, .modeSet] (by decide) hne
  case cb => simpa using ht.written .cb [.registerCb, .unregisterCb] (by decide) hne
  case power =>
    simpa using hne.elim (ht.written .panelPower [.attach, .detach, .suspend, .resume] (by decide)) fun hne =>
      hne.elim (ht.written .clkRun _ (by decide)) (ht.written .suspended _ (by decide))
  case win => simpa using ht.written .win [.setWindow, .pan, .modeSet, .attach] (by decide) hne
  case offsets =>
    simpa using hne.elim (ht.written .xoff [.pan, .modeSet, .attach] (by decide)) (ht.written .yoff _ (by decide))
  case rstate =>
    simpa using ht.written .rstate [.enable, .disable, .modeSet, .suspend, .resume, .attach, .detach] (by decide) hne
  case vsyncFlag => simpa using ht.written .vsyncFlag [.waitVsync, .attach] (by decide) hne
  case palDoneFlag => simpa using ht.written .palDoneFlag [.waitPalette, .attach] (by decide) hne

end Sys2Proof.Machine
end

section
/-! What one step refuses: a host access outside the register block (R64, R326), and every move under ill-formed parameters
(R104). -/

namespace Sys2Proof.Machine

theorem step_of_wellFormed {s : State} (h : s.cfg.wellFormed = true) :
    step s = applyMove s.env.peekMove { s with env := s.env.dropMove } := if_pos h

theorem step_of_illFormed {s : State} (h : s.cfg.wellFormed = false) : step s = .refused .illFormedCaps :=
  if_neg (ne_true_of_eq_false h)

/-! ## Host accesses -/

theorem goodAccess_iff (off size : Nat) : goodAccess off size = true ↔ size = 4 ∧ off % 4 = 0 ∧ off < 0x50 := by
  simp [goodAccess, and_assoc]

/-- R326: the three ways in which an access misses R64's condition. -/
theorem not_goodAccess_iff (off size : Nat) :
    ¬ goodAccess off size = true ↔ size ≠ 4 ∨ off % 4 ≠ 0 ∨ 0x50 ≤ off := by
  rw [goodAccess_iff]
  omega

theorem busRead_refused {s : State} {addr : Word} {size : Nat} (h : ¬ goodAccess (hostOffset s addr) size = true) :
    busRead s addr size = .refused .badHostAccess := if_neg h

theorem busWrite_refused {s : State} {addr : Word} {size : Nat} (v : Word)
    (h : ¬ goodAccess (hostOffset s addr) size = true) : busWrite s addr size v = .refused .badHostAccess := if_neg h

/-- Settles O9: a host move is the access at its offset, which the test of R64 turns away, and the step looks at the
parameters before it looks at the move. -/
theorem badAccessAndBadCapsAreRefused : Obligations.BadAccessAndBadCapsAreRefused := by
  refine ⟨fun s addr size v hwf hoff hmove => ?access, fun s hwf => step_of_illFormed hwf⟩
  have hbad : ¬ goodAccess (hostOffset s addr) size = true := (not_goodAccess_iff _ _).mpr hoff
  rw [step_of_wellFormed hwf]
  obtain hread | hwrite := hmove
  · rw [hread]
    exact busRead_refused hbad
  · rw [hwrite]
    exact busWrite_refused v hbad

end Sys2Proof.Machine
end

section
/-! The decoder and the encoder (R122, R126, R127, R63): which words and which byte strings name a command, and which name
none. -/

namespace Sys2Proof

/-! ## The opcode map (R126) -/

theorem opcodeOf_lt (i : Instr) : opcodeOf i < 256 := by cases i <;> decide

@[simp] theorem decodeOpcode_opcodeOf (i : Instr) : decodeOpcode (opcodeOf i) = some i := by cases i <;> rfl

/-- Each row of the opcode map gives its command that row's opcode, and the rows are all there are. -/
theorem decodeOpcode_eq_some_iff {n : Nat} {i : Instr} : decodeOpcode n = some i ↔ n = opcodeOf i := by
  refine ⟨fun h => ?_, fun h => h ▸ decodeOpcode_opcodeOf i⟩
  unfold decodeOpcode at h
  split at h <;> cases h <;> rfl

/-! ## Words -/

theorem decodeWord_of_reserved {w : Word} (h : w.toNat / 256 ≠ 0) : decodeWord w = .error .reservedBits := if_pos h

theorem decodeWord_of_unassigned {w : Word} (hr : w.toNat / 256 = 0) (ho : decodeOpcode (w.toNat % 256) = none) :
    decodeWord w = .error .unassignedOpcode := by
  rw [decodeWord, if_neg (not_not_intro hr), ho]

/-- A word decodes to a command exactly when `RSV` is 0 and `OPC` is the command's opcode (R121, R122). -/
theorem decodeWord_eq_ok_iff {w : Word} {i : Instr} :
    decodeWord w = .ok i ↔ w.toNat / 256 = 0 ∧ w.toNat % 256 = opcodeOf i := by
  rw [← decodeOpcode_eq_some_iff]
  by_cases hr : w.toNat / 256 = 0
  · rw [decodeWord, if_neg (not_not_intro hr)]
    cases decodeOpcode (w.toNat % 256) <;> simp [hr]
  · simp [decodeWord_of_reserved hr, hr]

theorem decode?_eq_some_iff {w : Word} {i : Instr} :
    decode? w = some i ↔ w.toNat / 256 = 0 ∧ w.toNat % 256 = opcodeOf i := by
  rw [← decodeWord_eq_ok_iff, decode?]
  cases decodeWord w <;> simp [Except.toOption]

/-- R127: the opcodes of no command, as the ranges the rule lists. -/
theorem opcodeAssigned_eq_false_iff (n : Nat) : opcodeAssigned n = false ↔
    (n = 0x00 ∨ (0x03 ≤ n ∧ n ≤ 0x07) ∨ (0x0A ≤ n ∧ n ≤ 0x0F) ∨ (0x16 ≤ n ∧ n ≤ 0x1F) ∨ (0x23 ≤ n ∧ n ≤ 0x2F) ∨
      (0x32 ≤ n ∧ n ≤ 0x3F) ∨ (0x42 ≤ n ∧ n ≤ 0x4F) ∨ (0x52 ≤ n ∧ n ≤ 0x5F) ∨ 0x62 ≤ n) := by
  simp only [opcodeAssigned, List.contains_eq_mem, decide_eq_false_iff_not, List.mem_cons, List.not_mem_nil, or_false]
  omega

/-- R127: a word is illegal when it is not well formed. -/
theorem decode?_eq_none_iff (w : Word) :
    decode? w = none ↔ w.toNat / 256 ≠ 0 ∨ opcodeAssigned (w.toNat % 256) = false := by
  rw [← Option.not_isSome_iff_eq_none, Bool.not_eq_true, ← Laws.wordWellFormed_iff_decode, wordWellFormed,
    Bool.and_eq_false_iff, rsvClear, beq_eq_false_iff_ne]

/-- R122, R130: the command word is the opcode, zero-extended. -/
theorem encode_toNat (i : Instr) : (encode i).toNat = opcodeOf i :=
  Nat.mod_eq_of_lt (Nat.lt_trans (opcodeOf_lt i) (by decide))

theorem eq_encode_iff {w : Word} {i : Instr} : w = encode i ↔ w.toNat / 256 = 0 ∧ w.toNat % 256 = opcodeOf i := by
  have hlt := opcodeOf_lt i
  rw [← BitVec.toNat_inj, encode_toNat]
  omega

theorem decodeWord_eq_ok_iff_eq_encode {w : Word} {i : Instr} : decodeWord w = .ok i ↔ w = encode i :=
  decodeWord_eq_ok_iff.trans eq_encode_iff.symm

@[simp] theorem decodeWord_encode (i : Instr) : decodeWord (encode i) = .ok i := decodeWord_eq_ok_iff_eq_encode.mpr rfl

/-! ## Bytes (R63) -/

/-- Four bytes are those of a word exactly when the word is what they hold. -/
theorem eq_bytesOfWord_iff (b0 b1 b2 b3 : Byte) (w : Word) :
    [b0, b1, b2, b3] = bytesOfWord w ↔ wordOfBytes b0 b1 b2 b3 = w := by
  have h0 := b0.isLt
  have h1 := b1.isLt
  have h2 := b2.isLt
  have h3 := b3.isLt
  have hw := w.isLt
  simp only [bytesOfWord, wordOfBytes, List.cons.injEq, and_true, ← BitVec.toNat_inj, BitVec.toNat_ofNat]
  omega

/-- A byte string decodes to a command exactly when it is that command's bytes; one of another length than four is neither. -/
theorem decodeBytes_eq_ok_iff {bs : List Byte} {i : Instr} : decodeBytes bs = .ok i ↔ bs = encodeBytes i := by
  unfold decodeBytes
  split
  case h_1 b0 b1 b2 b3 => rw [decodeWord_eq_ok_iff_eq_encode, encodeBytes, eq_bytesOfWord_iff]
  case h_2 hlen => exact ⟨nofun, fun h => (hlen _ _ _ _ h).elim⟩

/-- Settles O1: the opcode map is the inverse of `opcodeOf`, `RSV` leaves no second word for an opcode, and four bytes are
one word. -/
theorem decodeAndEncodeAgree : Obligations.DecodeAndEncodeAgree :=
  fun _ _ => ⟨fun _ => decodeWord_eq_ok_iff_eq_encode, fun _ => decodeBytes_eq_ok_iff⟩

/-- Settles O2: the eleven words are the encodings of their commands; of the three others one has an opcode that is in no row
and two have a bit of `RSV`. -/
theorem specWordsDecode : Obligations.SpecWordsDecode :=
  ⟨decodeWord_encode .attach, decodeWord_encode .detach, decodeWord_encode .regWrite, decodeWord_encode .setClock,
    decodeWord_encode .programFrameGeometry, decodeWord_encode .modeSet, decodeWord_encode .pan, decodeWord_encode .disable,
    decodeWord_encode .waitPalette, decodeWord_encode .registerCb, decodeWord_encode .resume,
    decodeWord_of_unassigned (by decide) (by decide), decodeWord_of_reserved (by decide),
    decodeWord_of_reserved (by decide)⟩

end Sys2Proof
end

section
/-! The host interface (R120, R121, R123, R127): an access of a register as one step of the machine, what each register
returns and takes, the accepted command and the illegal one, and the fields of the status word. -/

namespace Sys2Proof.Machine

/-! ## An access as a step -/

/-- The offset of an access at a register's address (R120). -/
theorem hostOffset_seqBase_add (s : State) {off : Nat} (h : off < 0x50) :
    hostOffset s (s.cfg.seqBase + BitVec.ofNat 32 off) = off := by
  rw [hostOffset, add_sub_cancel_left]
  exact Nat.mod_eq_of_lt (Nat.lt_trans h (by decide))

theorem goodAccess_of_reg {off : Nat} (ha : off % 4 = 0) (h : off < 0x50) : goodAccess off 4 = true :=
  (goodAccess_iff off 4).mpr ⟨rfl, ha, h⟩

/-- A read of a register is one step, which leaves the word in `busData` and changes nothing else. -/
theorem hostReads_hostReadAt {s : State} {off : Nat} (hwf : s.cfg.wellFormed = true) (ha : off % 4 = 0) (h : off < 0x50) :
    hostReads s off (hostReadAt s off) := by
  intro hm
  have hoff : hostOffset { s with env := s.env.dropMove } (s.cfg.seqBase + BitVec.ofNat 32 off) = off :=
    hostOffset_seqBase_add s h
  rw [step_of_wellFormed hwf, hm, applyMove, busRead, hoff, if_pos (goodAccess_of_reg ha h)]
  rfl

/-- A write neither reads nor changes the environment's coming answers and moves. -/
theorem hostWriteAt_env (s : State) (e : Env) (off : Nat) (v : Word) :
    hostWriteAt { s with env := e } off v = { hostWriteAt s off v with env := e } := by
  unfold hostWriteAt
  split
  · cases s.blk.busy <;> rfl
  · split <;> rfl

theorem hostWriteAt_keeps_env (s : State) (off : Nat) (v : Word) : (hostWriteAt s off v).env = s.env := by
  have h := congrArg State.env (hostWriteAt_env s s.env off v)
  exact h

/-- A write of a register is one step. -/
theorem hostWrites_hostWriteAt {s : State} {off : Nat} (v : Word) (hwf : s.cfg.wellFormed = true) (ha : off % 4 = 0)
    (h : off < 0x50) : hostWrites s off v (hostWriteAt s off v) := by
  intro hm
  have hoff : hostOffset { s with env := s.env.dropMove } (s.cfg.seqBase + BitVec.ofNat 32 off) = off :=
    hostOffset_seqBase_add s h
  rw [step_of_wellFormed hwf, hm, applyMove, busWrite, hoff, if_pos (goodAccess_of_reg ha h), hostWriteAt_env,
    hostWriteAt_keeps_env]

/-! ## The registers (R120) -/

theorem hostReadAt_arg (s : State) (i : Fin 16) : hostReadAt s (0x10 + 4 * i.val) = s.blk.argreg[i] := by
  have hidx : (0x10 + 4 * i.val - 0x10) / 4 = i.val := by omega
  rw [hostReadAt, if_neg (by omega), if_neg (by omega), if_neg (by omega), if_neg (by omega), hidx]
  simp [Vector.getD]

theorem setIfInBounds_eq_set {α : Type} {n : Nat} (xs : Vector α n) (i : Fin n) (x : α) :
    xs.setIfInBounds i.val x = xs.set i x :=
  Vector.ext fun j hj => by rw [Vector.getElem_setIfInBounds hj, Vector.getElem_set i.isLt hj]

theorem hostWriteAt_arg (s : State) (v : Word) (i : Fin 16) :
    hostWriteAt s (0x10 + 4 * i.val) v = s.onBlk fun b => { b with argreg := b.argreg.set i v } := by
  have hidx : (0x10 + 4 * i.val - 0x10) / 4 = i.val := by omega
  rw [hostWriteAt, if_neg (by omega), if_neg (by omega), hidx]
  simp only [setIfInBounds_eq_set]

/-- SEQ_STATUS and the two results ignore a write. -/
theorem hostWrites_readOnly {s : State} {off : Nat} (v : Word) (hwf : s.cfg.wellFormed = true) (ha : off % 4 = 0)
    (hpos : off ≠ 0) (h : off < 0x10) : hostWrites s off v s := by
  have hsame : hostWriteAt s off v = s := by rw [hostWriteAt, if_neg hpos, if_pos h]
  have hw := hostWrites_hostWriteAt v hwf ha (Nat.lt_trans h (by decide))
  rwa [hsame] at hw

/-- Settles O7: each access is the register function at its offset. -/
theorem hostRegisterMap : Obligations.HostRegisterMap := by
  intro s hwf
  refine ⟨hostReads_hostReadAt hwf rfl (by decide), hostReads_hostReadAt hwf rfl (by decide),
    hostReads_hostReadAt hwf rfl (by decide), hostReads_hostReadAt hwf rfl (by decide), fun i => ?arg, fun v =>
    ⟨hostWrites_hostWriteAt v hwf rfl (by decide), hostWrites_readOnly v hwf rfl (by decide) (by decide),
      hostWrites_readOnly v hwf rfl (by decide) (by decide), hostWrites_readOnly v hwf rfl (by decide) (by decide),
      fun i => ?setArg⟩⟩
  case arg =>
    rw [← hostReadAt_arg]
    exact hostReads_hostReadAt hwf (by omega) (by omega)
  case setArg =>
    rw [← hostWriteAt_arg]
    exact hostWrites_hostWriteAt v hwf (by omega) (by omega)

/-! ## The accepted command, and the illegal one (R121, R127) -/

/-- R127: the only line of the pseudo-command ends it with code 8. -/
theorem seqMove_illegal {s : State} (n : Nat) (hp : s.seq.pc = .run none 0) :
    seqMove (n + 1) s = .next ({ s with seq := { s.seq with turn := n + 1 } }.finish .illegalCommand) := by
  rw [seqMove_run (n + 1) hp]
  exact seqTurn_start (lines := illegalLines) hp Nat.one_pos (Nat.le_add_left 1 n)

/-- Settles O6: a write of offset 0 is acceptance, the opcode map is `decode?`, and `ILLEGAL` has one line. -/
theorem commandAcceptance : Obligations.CommandAcceptance :=
  ⟨fun _ v hwf => hostWrites_hostWriteAt v hwf rfl (by decide), fun _ _ => decode?_eq_some_iff,
    fun _ n hp => seqMove_illegal n hp⟩

/-- Settles O3: the unassigned opcodes are the listed ranges, acceptance starts `ILLEGAL`, and its one line ends it. -/
theorem illegalWordsEndWithIllegalCommand : Obligations.IllegalWordsEndWithIllegalCommand := by
  refine ⟨fun w => ?illegal, fun s v hv => ⟨?accepted, rfl⟩, fun s n hwf hm hp => ⟨?step, rfl⟩⟩
  case illegal => rw [decode?_eq_none_iff, opcodeAssigned_eq_false_iff]
  case accepted => rw [accept, hv]
  case step =>
    rw [step_of_wellFormed hwf, hm]
    exact seqMove_illegal n hp

/-! ## The status word (R123) -/

/-- Fields of given widths, the first lowest, as one number. -/
def packFields : List (Nat × Nat) → Nat
  | [] => 0
  | (n, x) :: fs => x + 2 ^ n * packFields fs

/-- How many bits a list of fields takes. -/
def bitCount (fs : List (Nat × Nat)) : Nat := (fs.map (·.1)).sum

theorem bitCount_cons (f : Nat × Nat) (fs : List (Nat × Nat)) : bitCount (f :: fs) = f.1 + bitCount fs := rfl

/-- Each value fits its width. -/
def ValuesFit (fs : List (Nat × Nat)) : Prop := ∀ f ∈ fs, f.2 < 2 ^ f.1

theorem packFields_lt {fs : List (Nat × Nat)} (h : ValuesFit fs) : packFields fs < 2 ^ bitCount fs := by
  induction fs with
  | nil => exact Nat.one_pos
  | cons f fs ih =>
    obtain ⟨n, x⟩ := f
    obtain ⟨hx, hfs⟩ := List.forall_mem_cons.mp h
    calc packFields ((n, x) :: fs) < 2 ^ n + 2 ^ n * packFields fs := Nat.add_lt_add_right hx _
      _ = 2 ^ n * (packFields fs + 1) := by rw [Nat.mul_add_one, Nat.add_comm]
      _ ≤ 2 ^ n * 2 ^ bitCount fs := Nat.mul_le_mul_left _ (ih hfs)
      _ = 2 ^ bitCount ((n, x) :: fs) := by rw [bitCount_cons, Nat.pow_add]

/-- Each field is found at the bits that follow those of the fields before it. -/
theorem packFields_field {fs : List (Nat × Nat)} (h : ValuesFit fs) {k n x : Nat} (hk : fs[k]? = some (n, x)) :
    packFields fs / 2 ^ bitCount (fs.take k) % 2 ^ n = x := by
  induction fs generalizing k with
  | nil => cases hk
  | cons f fs ih =>
    obtain ⟨m, y⟩ := f
    obtain ⟨hy, hfs⟩ := List.forall_mem_cons.mp h
    cases k with
    | zero =>
      cases hk
      rw [List.take_zero, packFields, bitCount, List.map_nil, List.sum_nil, Nat.pow_zero, Nat.div_one,
        Nat.add_mul_mod_self_left, Nat.mod_eq_of_lt hy]
    | succ k =>
      have hrest : packFields ((m, y) :: fs) / 2 ^ m = packFields fs := by
        rw [packFields, Nat.add_mul_div_left _ _ (Nat.two_pow_pos m), Nat.div_eq_of_lt hy, Nat.zero_add]
      rw [List.take_succ_cons, bitCount_cons, Nat.pow_add, ← Nat.div_div_eq_div_mul, hrest]
      exact ih hfs hk

/-- The widths of the fields of SEQ_STATUS, from bit 0 up. -/
def statusWidths : List Nat := [1, 3, 4, 2, 2, 1, 1, 1, 1, 1, 1, 1, 1, 1, 1, 1, 1, 8]

/-- The format of SEQ_STATUS, from bit 0 up: width and value of each field. -/
def statusFields (b : Blk) : List (Nat × Nat) :=
  [(1, bit01 b.busy), (3, 0), (4, b.err.toNat), (2, b.lastDone.num), (2, b.rstate.num),
   (1, bit01 (b.attached && b.rev == .v2)), (1, bit01 b.attached), (1, bit01 b.vsyncFlag), (1, bit01 b.frameDoneFlag),
   (1, bit01 b.palDoneFlag), (1, bit01 b.cb.isSome), (1, bit01 b.panelPower), (1, bit01 b.clkRun), (1, bit01 b.suspended),
   (1, bit01 b.irqActive), (1, bit01 b.haveMode), (1, bit01 b.win.isSome), (8, b.cmdword.toNat % 256)]

theorem bitCount_take_statusFields (b : Blk) (k : Nat) : bitCount ((statusFields b).take k) = (statusWidths.take k).sum := by
  rw [bitCount, List.map_take]
  rfl

theorem bitCount_statusFields (b : Blk) : bitCount (statusFields b) = 32 := bitCount_take_statusFields b 18

theorem bit01_lt (x : Bool) : bit01 x < 2 ^ 1 := by cases x <;> decide

theorem LastDone.num_lt (d : LastDone) : d.num < 2 ^ 2 := by cases d <;> decide

theorem RState.num_lt (r : RState) : r.num < 2 ^ 2 := by cases r <;> decide

theorem statusFields_fit (b : Blk) : ValuesFit (statusFields b) := by
  simp only [ValuesFit, statusFields, List.forall_mem_cons, bit01_lt, LastDone.num_lt, RState.num_lt, b.err.isLt, true_and,
    List.not_mem_nil, false_imp_iff, implies_true, and_true]
  omega

/-- The sum of the model is the format's fields, one after the other. -/
theorem seqStatus_eq_pack (b : Blk) : seqStatus b = BitVec.ofNat 32 (packFields (statusFields b)) := by
  refine congrArg (BitVec.ofNat 32) ?_
  simp only [statusFields, packFields]
  ring

theorem seqStatus_toNat (b : Blk) : (seqStatus b).toNat = packFields (statusFields b) := by
  have hlt := packFields_lt (statusFields_fit b)
  rw [bitCount_statusFields] at hlt
  rw [seqStatus_eq_pack, BitVec.toNat_ofNat, Nat.mod_eq_of_lt hlt]

/-- The field at index `k` of the format, read at its place in the status word. -/
theorem bitsAt_seqStatus {b : Blk} {lo n x : Nat} (k : Nat) (hlo : (statusWidths.take k).sum = lo)
    (h : (statusFields b)[k]? = some (n, x)) : bitsAt (seqStatus b) lo n = x := by
  rw [bitsAt, seqStatus_toNat, ← hlo, ← bitCount_take_statusFields b]
  exact packFields_field (statusFields_fit b) h

/-- Settles O8: a read of offset 4 is one step, and the format lists the fields. -/
theorem seqStatusFields : Obligations.SeqStatusFields := by
  refine ⟨fun s hwf => hostReads_hostReadAt hwf rfl (by decide), fun b =>
    ⟨bitsAt_seqStatus 0 rfl rfl, bitsAt_seqStatus 1 rfl rfl, bitsAt_seqStatus 2 rfl rfl, ?lastDone, ?rstate, ?rev,
      bitsAt_seqStatus 6 rfl rfl, bitsAt_seqStatus 7 rfl rfl, bitsAt_seqStatus 8 rfl rfl, bitsAt_seqStatus 9 rfl rfl,
      bitsAt_seqStatus 10 rfl rfl, bitsAt_seqStatus 11 rfl rfl, bitsAt_seqStatus 12 rfl rfl, bitsAt_seqStatus 13 rfl rfl,
      bitsAt_seqStatus 14 rfl rfl, bitsAt_seqStatus 15 rfl rfl, bitsAt_seqStatus 16 rfl rfl, ?opc⟩⟩
  case lastDone => exact (bitsAt_seqStatus 3 rfl rfl).trans (by cases b.lastDone <;> rfl)
  case rstate => exact (bitsAt_seqStatus 4 rfl rfl).trans (by cases b.rstate <;> rfl)
  case rev => exact (bitsAt_seqStatus 5 rfl rfl).trans (by cases b.attached <;> cases b.rev <;> rfl)
  case opc => exact (bitsAt_seqStatus 17 rfl rfl).trans (by simp [bitsAt])

end Sys2Proof.Machine
end

section
/-! What well-formedness says of a field with a position, and of two fields of one register (R104, R90). -/

namespace Sys2Proof.Machine

/-- Settles O13: the two checks of R104 on fields, read at one field and at two. -/
theorem fieldsOfOneRegisterAreApart : Obligations.FieldsOfOneRegisterAreApart := by
  intro p r f hi lo hwf hf
  obtain ⟨hrev, hle, hhi, hwidth⟩ := pos_some_fits hwf hf
  exact ⟨⟨hle, hhi, hwidth, hrev⟩, fun g hi' lo' hne hhome hg => pos_apart hwf hne hhome hf hg⟩

end Sys2Proof.Machine
end

section
/-! One action of the sequencer outside the block as a line of a command, which register an offset reaches (R104, R140), and
the raw accesses REG_READ and REG_WRITE (R140, R141). -/

namespace Sys2Proof.Machine

variable {a : Agent} {s s0 : State} {b : Blk} {L : Locals} {l : List Access} {xs : List Act}

/-! ## Actions as lines -/

/-- What an action leaves outside the block depends only on the parameters, the revision, the vram region, the LCDC, the
environment and the port record. -/
theorem perform_congr {u v : State} (hcfg : u.cfg = v.cfg) (hrev : u.blk.rev = v.blk.rev) (hvram : u.blk.vram = v.blk.vram)
    (hlcdc : u.lcdc = v.lcdc) (henv : u.env = v.env) (hport : u.port = v.port) (a : Agent) (x : Access) :
    (u.perform a x).lcdc = (v.perform a x).lcdc ∧ (u.perform a x).port = (v.perform a x).port ∧
      (u.perform a x).env = (v.perform a x).env := by
  cases x <;>
    simp only [State.perform, record_lcdc, record_port, record_env, dropDraw_lcdc, dropDraw_port, dropDraw_env,
      afterRead_lcdc, afterRead_port, afterRead_env, regWrite_lcdc, regWrite_port, regWrite_env, afterRead_cfg,
      afterRead_blk, State.readValAt, readVal_eq, off_eq, hcfg, hrev, hvram, hlcdc, henv, hport, and_self]

/-- One more action. -/
theorem Went.perform (h : Went a s0 s b L l) (x : Access) : Went a s0 (s.perform a x) b L (l ++ [x]) := by
  obtain ⟨hlcdc, hport, henv⟩ := perform_congr (v := s0.does a l) (h.cfg.trans (does_cfg ..).symm)
    (h.rev_eq.trans (by rw [does_blk])) (by rw [h.blk, h.vram, does_blk]) h.lcdc h.env h.port a x
  refine ⟨(perform_blk ..).trans h.blk, ?_, ?_, ?_, (perform_cfg ..).trans h.cfg, (perform_busData ..).trans h.busData, h.rev,
    h.arg, h.vram, ?_, fun e => (perform_seq ..).trans (h.seqKept e), fun e => (perform_irqd ..).trans (h.irqdKept e), ?_⟩
  · rw [does_append]; exact hlcdc
  · rw [does_append]; exact hport
  · rw [does_append]; exact henv
  · rw [perform_seq]; exact h.loc
  · rw [perform_irqd]; exact h.status

/-! ## The register at an offset (R104, R140) -/

theorem wellFormed_offsetsDistinct {p : Params} (h : p.wellFormed = true) (r : Rev) : offsetsDistinct p r = true := by
  simp only [Params.wellFormed, capsOk, Bool.and_eq_true] at h
  cases r <;> simp only [h]

/-- In a list that names each key once, the entries are what the keys look up. -/
theorem lookup_eq_some_iff_mem {α β : Type} [BEq α] [LawfulBEq α] {l : List (α × β)} (h : (l.map (·.1)).Nodup) {k : α} {v : β} :
    l.lookup k = some v ↔ (k, v) ∈ l := by
  induction l with
  | nil => simp
  | cons e l ih =>
    obtain ⟨k', v'⟩ := e
    obtain ⟨hk', hl⟩ := List.nodup_cons.mp h
    rw [List.lookup_cons, List.mem_cons, Prod.mk.injEq]
    by_cases hk : k = k'
    · subst hk
      have hnot : (k, v) ∉ l := fun hm => hk' (List.mem_map_of_mem (f := (·.1)) hm)
      simp [hnot, eq_comm]
    · simp [hk, beq_false_of_ne hk, ih hl]

/-- The register at an offset is the one whose offset that is. -/
theorem regAt_eq_some_iff {p : Params} (hwf : p.wellFormed = true) {r : Rev} {o : Nat} {g : LReg} :
    p.regAt r o = some g ↔ p.off? r g = some o := by
  obtain ⟨hoffs, hregs⟩ := Bool.and_eq_true_iff.mp (wellFormed_offsetsDistinct hwf r)
  rw [Params.off?, lookup_eq_some_iff_mem (of_decide_eq_true hregs), Params.regAt, Option.map_eq_some_iff]
  constructor
  · rintro ⟨⟨g', o'⟩, hfind, rfl⟩
    obtain rfl : o' = o := by simpa using List.find?_some hfind
    exact List.mem_of_find?_eq_some hfind
  · intro hm
    obtain ⟨e, hfind⟩ := Option.isSome_iff_exists.mp ((List.find?_isSome (p := fun e => e.2 == o)).mpr
      ⟨(g, o), hm, beq_self_eq_true o⟩)
    have he : e = (g, o) := List.inj_on_of_nodup_map (of_decide_eq_true hoffs) (List.mem_of_find?_eq_some hfind) hm
      (by simpa using List.find?_some hfind)
    exact ⟨e, hfind, by rw [he]⟩

/-- An offset that is no register's reaches none. -/
theorem regAt_eq_none {p : Params} (hwf : p.wellFormed = true) {r : Rev} {o : Nat} (h : ∀ g, p.off? r g ≠ some o) :
    p.regAt r o = none :=
  Option.eq_none_iff_forall_ne_some.mpr fun g hg => h g ((regAt_eq_some_iff hwf).mp hg)

/-! ## REG_READ and REG_WRITE (R140, R141) -/

theorem badOffset_iff (s : State) : badOffset s = true ↔ s.argN 0 % 4 ≠ 0 ∨ s.cfg.regSpan ≤ s.argN 0 := by
  simp [badOffset]

/-- Whether the offset is bad depends on the parameters and the arguments. -/
theorem badOffset_congr {u v : State} (hcfg : u.cfg = v.cfg) (harg : u.blk.arg = v.blk.arg) : badOffset u = badOffset v := by
  unfold badOffset
  rw [argN_congr harg, hcfg]

/-- The word of an RMW, or of a raw read, is a local that a run leaves open. -/
theorem Went.setTmp (h : Went a s0 s b L l) (v : Word) : Went a s0 (s.setTmp a v) b L l := by
  cases a with
  | seq =>
    exact ⟨h.blk, h.lcdc, h.port, h.env, h.cfg, h.busData, h.rev, h.arg, h.vram,
      congrArg (fun x : Locals => { x with t := v }) h.loc, fun e => (nomatch e), h.irqdKept, h.status⟩
  | irqd =>
    exact ⟨h.blk, h.lcdc, h.port, h.env, h.cfg, h.busData, h.rev, h.arg, h.vram, h.loc, h.seqKept, fun e => (nomatch e),
      h.status⟩

/-- A raw read returns what it would return at the start of the run, after the actions so far. -/
theorem Went.readValAt_eq (h : Went a s0 s b L l) (o : Nat) : s.readValAt o = (s0.does a l).readValAt o := by
  simp only [State.readValAt, h.readVal_eq, h.cfg, h.rev_eq, h.env, does_cfg, does_blk]

/-- `RegReadAt(off)` (R140). -/
theorem run_regReadAt (h : Went .seq s0 s b L l) (o : State → Nat) :
    ∃ s', runAll .seq ((assign fun s => s.regReadAt (o s)) :: xs) s = runAll .seq xs s' ∧
      s'.seq.loc.t = (s0.does .seq l).readValAt (o s) ∧ Went .seq s0 s' b L (l ++ [.readAt (o s)]) :=
  ⟨_, rfl, by rw [bump_seq_loc, ← h.readValAt_eq]; rfl, ((h.perform (.readAt (o s))).setTmp (s.readValAt (o s))).bump⟩

theorem regWriteAt_eq (s : State) (o : Nat) (v : Word) : s.regWriteAt o v = s.perform .seq (.writeAt o v) := by
  simp only [State.regWriteAt, State.perform]
  cases s.cfg.regAt s.blk.rev o <;> rfl

/-- `RegWriteAt(off, v)` (R141). -/
theorem run_regWriteAt (h : Went .seq s0 s b L l) (o : State → Nat) (v : State → Word) :
    ∃ s', runAll .seq ((assign fun s => s.regWriteAt (o s) (v s)) :: xs) s = runAll .seq xs s' ∧
      Went .seq s0 s' b L (l ++ [.writeAt (o s) (v s)]) :=
  ⟨_, congrArg (fun u => runAll .seq xs (bump .seq u)) (regWriteAt_eq ..), (h.perform _).bump⟩

/-- A command that is attached and awake and whose first check after that fails ends with its code and does nothing (R314). -/
theorem exec_check_fails {i : Instr} {c : State → Bool} {e : Code} {ls : List Act}
    (hl : linesOf (some i) = prologue ++ raiseIf c e :: ls) (hlen : (linesOf (some i)).length ≤ fullTurn) (hs : AtStart i s)
    (ha : Awake s) (hc : ∀ u : State, u.cfg = s.cfg → u.blk = s.blk → c u = true) : exec i s = .next (s.finish e) := by
  obtain ⟨hattached, hawake⟩ := ha
  rw [exec_eq_seqTurn]
  refine exec_of_run hs (by rw [hl]; simp) hlen ?_
  have hcheck := hc (bump .seq (bump .seq s)) (by simp) (by simp)
  simp [hl, prologue, requireAttached, requireAwake, runAll_raiseIf, hattached, hawake, hcheck]

/-- REG_READ of a good offset (R140). -/
theorem exec_regRead_ok (hs : AtStart .regRead s) (ha : Awake s) (hgood : badOffset s = false) :
    ∃ t, exec .regRead s = .next t ∧
      Ended s t { s.blk with res0 := s.readValAt (s.argN 0) } .ok [.readAt (s.argN 0)] := by
  refine exec_sequence_ok (ls := [raiseIf badOffset .illegalCommand, assign fun s => s.regReadAt (s.argN 0),
    assign fun s => s.onBlk fun b => { b with res0 := s.seq.loc.t }]) (L := s.seq.loc) rfl (by decide) hs ha fun u hu => ?_
  obtain ⟨s1, e1, h1⟩ := run_raiseIf_false (xs := _) hu badOffset .illegalCommand
    (by rw [badOffset_congr hu.cfg (by rw [hu.blk]), hgood])
  obtain ⟨s2, e2, hval, h2⟩ := run_regReadAt (xs := _) h1 fun s => s.argN 0
  obtain ⟨s3, e3, h3⟩ := run_onBlk (xs := [finishWith .ok]) h2 (fun s b => { b with res0 := s.seq.loc.t }) rfl rfl rfl
  rw [hval, h1.argN_eq] at h3
  exact ⟨s3, e1.trans (e2.trans e3), h3⟩

/-- REG_WRITE of a good offset (R141). -/
theorem exec_regWrite_ok (hs : AtStart .regWrite s) (ha : Awake s) (hgood : badOffset s = false) :
    ∃ t, exec .regWrite s = .next t ∧ Ended s t s.blk .ok [.writeAt (s.argN 0) (s.arg 1)] := by
  refine exec_sequence_ok (ls := [raiseIf badOffset .illegalCommand, assign fun s => s.regWriteAt (s.argN 0) (s.arg 1)])
    (L := s.seq.loc) rfl (by decide) hs ha fun u hu => ?_
  obtain ⟨s1, e1, h1⟩ := run_raiseIf_false (xs := _) hu badOffset .illegalCommand
    (by rw [badOffset_congr hu.cfg (by rw [hu.blk]), hgood])
  obtain ⟨s2, e2, h2⟩ := run_regWriteAt (xs := [finishWith .ok]) h1 (fun s => s.argN 0) fun s => s.arg 1
  rw [h1.argN_eq, h1.arg_eq] at h2
  exact ⟨s2, e1.trans e2, h2⟩

/-- Settles O20: after the check of the offset each command is one action, and the table names at most one register for an
offset. -/
theorem rawRegisterAccess : Obligations.RawRegisterAccess := by
  have hbad : ∀ {s u : State}, (s.argN 0 % 4 ≠ 0 ∨ s.cfg.regSpan ≤ s.argN 0) → u.cfg = s.cfg → u.blk = s.blk →
      badOffset u = true := fun {s u} h hcfg hblk => by
    rw [badOffset_congr hcfg (by rw [hblk])]; exact (badOffset_iff s).mpr h
  have hgood : ∀ {s : State}, ¬(s.argN 0 % 4 ≠ 0 ∨ s.cfg.regSpan ≤ s.argN 0) → badOffset s = false :=
    fun h => Bool.eq_false_iff.mpr fun hb => h ((badOffset_iff _).mp hb)
  refine ⟨fun s hs ha => ?read, fun s hs ha => ?write, fun p r o g hwf => regAt_eq_some_iff hwf⟩
  case read =>
    split
    · next h => exact exec_check_fails rfl (by decide) hs ha fun u => hbad h
    · next h =>
      obtain ⟨t, hexec, hend⟩ := exec_regRead_ok hs ha (hgood h)
      refine ⟨t, s.readValAt (s.argN 0), hexec, hend, hend.lcdc, hend.port, fun hwf => ⟨fun g hg => ?_, fun hnone => ?_⟩⟩
      · rw [State.readValAt, (regAt_eq_some_iff hwf).mpr hg]; rfl
      · rw [State.readValAt, regAt_eq_none hwf hnone]
  case write =>
    split
    · next h => exact exec_check_fails rfl (by decide) hs ha fun u => hbad h
    · next h =>
      obtain ⟨t, hexec, hend⟩ := exec_regWrite_ok hs ha (hgood h)
      have hlcdc : t.lcdc = ((s.cfg.regAt s.blk.rev (s.argN 0)).map fun g => s.lcdc.write g (s.arg 1)).getD s.lcdc :=
        hend.lcdc
      refine ⟨t, hexec, hend, hend.port, fun hwf => ⟨fun g hg => ?_, fun hnone => ?_⟩⟩
      · rw [hlcdc, (regAt_eq_some_iff hwf).mpr hg]; rfl
      · rw [hlcdc, regAt_eq_none hwf hnone]; rfl

end Sys2Proof.Machine
end

section
/-! ATTACH (R143): what it learns from the identification register and the allocator, and how it commits or unwinds. -/

namespace Sys2Proof.Machine

variable {s s0 : State} {b : Blk} {L : Locals} {l : List Access} {xs : List Act}

/-! ## The exchanges -/

/-- The event of an identification value that `knownIds` does not list (R142). -/
def unknownIdLog (p : Params) (id : Word) : List Event := if p.knownIds.lookup id = none then [.logUnknownId id] else []

/-- `id <- RegRead(ID)` (R143, R45). -/
theorem run_readId (h : Went .seq s0 s b L l) :
    ∃ s', runAll .seq ((assign fun s => (s.afterRead .seq .id).onLoc fun l => { l with id := s.readVal .id }) :: xs) s =
        runAll .seq xs s' ∧
      s'.seq.loc = { s.seq.loc with id := s0.cfg.lcdcId } ∧ Went .seq s0 s' b s'.seq.loc (l ++ [.read .id]) :=
  ⟨_, rfl, by rw [bump_seq_loc, ← h.cfg]; rfl,
    ((h.perform (.read .id)).onLoc fun l => { l with id := s.readVal .id }).bump.relabel⟩

/-- `r <- detect(id)` (R142). -/
theorem run_detectLine (h : Went .seq s0 s b L l) :
    ∃ s', runAll .seq (detectLine :: xs) s = runAll .seq xs s' ∧
      s'.seq.loc = { s.seq.loc with newRev := detect s0.cfg s.seq.loc.id } ∧
      Went .seq s0 s' { b with out := b.out ++ unknownIdLog s0.cfg s.seq.loc.id } s'.seq.loc l := by
  have hloc := h.onLoc fun l => { l with newRev := detect s0.cfg l.id }
  unfold detectLine
  rw [runAll_assign, h.cfg]
  cases hid : s0.cfg.knownIds.lookup s.seq.loc.id with
  | some r =>
    rw [if_pos (by rw [knownId, hid]; rfl), unknownIdLog, hid, if_neg (by simp), List.append_nil]
    exact ⟨_, rfl, bump_seq_loc .., hloc.bump.relabel⟩
  | none =>
    rw [if_neg (by simp [knownId, hid]), unknownIdLog, hid, if_pos rfl]
    exact ⟨_, rfl, bump_seq_loc ..,
      (hloc.onBlk (fun b => { b with out := b.out ++ [.logUnknownId s.seq.loc.id] }) rfl rfl rfl).bump.relabel⟩

/-- `a <- VramAlloc()` (R25). -/
theorem run_vramAlloc (h : Went .seq s0 s b L l) :
    ∃ s', runAll .seq (vramAllocLine :: xs) s = runAll .seq xs s' ∧
      s'.seq.loc = { s.seq.loc with alloc := vramAnswer (s0.does .seq l).env.peek } ∧
      Went .seq s0 s' b s'.seq.loc (l ++ [.vramAlloc]) :=
  ⟨_, rfl, by rw [bump_seq_loc, ← h.env]; rfl,
    ((h.perform .vramAlloc).onLoc fun l => { l with alloc := vramAnswer s.env.peek }).bump.relabel⟩

/-- ATTACH of a block that is not attached, up to the allocator's answer. -/
theorem run_attachExchanges (ha : s.blk.attached = false) :
    ∃ u, runAll .seq attachLines s = runAll .seq (attachLines.drop 5) u ∧
      u.seq.loc.id = s.cfg.lcdcId ∧ u.seq.loc.newRev = detect s.cfg s.cfg.lcdcId ∧
      u.seq.loc.alloc = vramAnswer s.env.drop.peek ∧
      Went .seq s u { s.blk with clkRun := true, out := s.blk.out ++ unknownIdLog s.cfg s.cfg.lcdcId } u.seq.loc
        [.read .id, .vramAlloc] := by
  obtain ⟨s1, e1, h1⟩ := run_raiseIf_false (xs := attachLines.drop 1) (went_start .seq s) (fun s => s.blk.attached)
    .illegalCommand ha
  obtain ⟨s2, e2, h2⟩ := run_onBlk (xs := attachLines.drop 2) h1 (fun _ b => { b with clkRun := true }) rfl rfl rfl
  obtain ⟨s3, e3, l3, h3⟩ := run_readId (xs := attachLines.drop 3) h2
  obtain ⟨s4, e4, l4, h4⟩ := run_detectLine (xs := attachLines.drop 4) h3
  obtain ⟨s5, e5, l5, h5⟩ := run_vramAlloc (xs := attachLines.drop 5) h4
  rw [l3] at l4 h4 h5
  rw [l4] at l5
  exact ⟨s5, e1.trans (e2.trans (e3.trans (e4.trans e5))), by rw [l5], by rw [l5], by rw [l5]; rfl, h5⟩

/-! ## The answer of the allocator -/

/-- The allocator hands out a region of at least one byte that ends at or below 2^32 (R25). -/
theorem vramAnswer_of_region {d : Draw} {v : Vram} (hv : d.vram = some v) (hsize : 1 ≤ v.size)
    (hend : v.base + v.size ≤ 2 ^ 32) : vramAnswer d = some v := by
  rw [vramAnswer, hv]
  exact if_pos ⟨hsize, hend⟩

/-- Any other answer counts as `Fail` (log 19). -/
theorem vramAnswer_of_other {d : Draw} (h : ∀ v, d.vram = some v → ¬(1 ≤ v.size ∧ v.base + v.size ≤ 2 ^ 32)) :
    vramAnswer d = none := by
  rw [vramAnswer]
  split
  · next v hv => exact if_neg (h v hv)
  · rfl

/-! ## The outcomes -/

/-- ATTACH after `Fail`: the clock output goes off again (R143). -/
theorem run_attachUnwinds (h : Went .seq s0 s b L l) (hfail : s.seq.loc.alloc = none) :
    ∃ t, runAll .seq (attachLines.drop 5) s = t ∧ Ended s0 t { b with clkRun := false } .resourceExhausted l := by
  obtain ⟨s1, e1, h1⟩ := run_onBlk (xs := attachLines.drop 6) h.relabel (fun _ b => { b with clkRun := false }) rfl rfl rfl
  have hraise : runAll .seq (attachLines.drop 6) s1 = s1.finish .resourceExhausted :=
    (runAll_raiseIf ..).trans (if_pos (by rw [allocFailed, h1.loc, hfail]; rfl))
  exact ⟨_, (runAll_onlyIf_true _ _ _ _ _ (by rw [allocFailed, hfail]; rfl)).trans (e1.trans hraise), h1.finish _⟩

/-- ATTACH after a region (R143). -/
theorem run_attachCommits (h : Went .seq s0 s b L l) {v : Vram} (hv : s.seq.loc.alloc = some v) :
    ∃ t, runAll .seq (attachLines.drop 5) s = t ∧
      Ended s0 t
        { b with
          vram := v, rev := s.seq.loc.newRev, rstate := .disabled, vsyncFlag := false, frameDoneFlag := false
          palDoneFlag := false, lastDone := .unknown, win := none, xoff := 0, yoff := 0, haveMode := false
          suspended := false, panelPower := true, attached := true, res0 := s.seq.loc.id
          res1 := if s.seq.loc.newRev = .v2 then 1#32 else 0#32 }
        .ok l := by
  obtain ⟨s1, e1, h1⟩ := run_onlyIf_false (xs := attachLines.drop 6) h.relabel allocFailed
    (assign fun s => s.onBlk fun b => { b with clkRun := false }) (by rw [allocFailed, hv]; rfl)
  obtain ⟨s2, e2, h2⟩ := run_raiseIf_false (xs := attachLines.drop 7) h1 allocFailed .resourceExhausted
    (by rw [allocFailed, h1.loc, hv]; rfl)
  obtain ⟨halloc, hid, hrev⟩ : s2.seq.loc.alloc = some v ∧ s2.seq.loc.id = s.seq.loc.id ∧
      s2.seq.loc.newRev = s.seq.loc.newRev := by rw [h2.loc]; exact ⟨hv, rfl, rfl⟩
  refine ⟨_, e1.trans e2, ?_⟩
  simp only [attachLines, List.drop_succ_cons, List.drop_zero, runAll_assign, runAll_setRState, runAll_finishWith, bump_finish]
  constructor
  case blk => simp [h2.blk, halloc, hid, hrev]
  case pc => rfl
  case lcdc => simpa using h2.lcdc
  case port => simpa using h2.port
  case env => simpa using h2.env
  case cfg => simpa using h2.cfg
  case irqd => simpa using h2.irqdKept rfl
  case busData => simpa using h2.busData

/-- Settles O21: up to the allocator's answer ATTACH is the same in both outcomes, and the answer decides which lines follow. -/
theorem attachOutcomes : Obligations.AttachOutcomes := by
  intro s hs known rev log answer
  have hdetect : detect s.cfg s.cfg.lcdcId = rev := by
    simp only [detect, rev, known]
    cases s.cfg.knownIds.lookup s.cfg.lcdcId <;> rfl
  refine ⟨fun ha => ?attached, fun ha hother => ?fail, fun v ha hv hsize hend => ?region⟩
  case attached =>
    exact exec_of_run hs (by decide) (by decide) ((runAll_raiseIf ..).trans (if_pos ha))
  all_goals obtain ⟨u, e, hid, hrev, halloc, hu⟩ := run_attachExchanges ha
  case fail =>
    obtain ⟨t, e', hend⟩ := run_attachUnwinds hu (halloc.trans (vramAnswer_of_other hother))
    exact ⟨t, exec_of_run hs (by decide) (by decide) (e.trans e'), hend⟩
  case region =>
    obtain ⟨t, e', hend⟩ := run_attachCommits hu (halloc.trans (vramAnswer_of_region hv hsize hend))
    rw [hid, hrev, hdetect] at hend
    exact ⟨t, exec_of_run hs (by decide) (by decide) (e.trans e'), hend⟩

end Sys2Proof.Machine
end

section
/-! DETACH (R145): the whole command, from a suspended block, from an awake one and from the test step of its disable-wait. -/

namespace Sys2Proof.Machine

variable {s s0 : State} {b : Blk} {L : Locals} {l : List Access} {xs : List Act}

/-! ## The disable of an awake block -/

/-- No line of `DISABLE_SEQ` moves the block between awake and suspended (R225). -/
theorem disableSeq_keeps_suspended {wait : State → Bool} {y : Act} (hy : y ∈ disableSeq wait) {u u' : State}
    (h : y u = .go u') : u'.blk.suspended = u.blk.suspended := by
  obtain ⟨n, hn⟩ := List.mem_iff_getElem?.mp hy
  have hlen : n < 10 := (List.getElem?_eq_some_iff.mp hn).1
  have hkeep : Keep .detach 1 (disableSeq wait) :=
    keep_disableSeq _ (by decide) (by decide) (by decide) (by decide) (by decide) (by decide)
  refine ((hkeep.get hn).go u u' h).2 .suspended ?_
  simp only [Record.lines, List.mem_cons, Prod.mk.injEq, reduceCtorEq, false_and, true_and, false_or, List.not_mem_nil, or_false]
  omega

/-- Lines of `DISABLE_SEQ` under `if not blk.suspended`, in an awake block (R145). -/
theorem runAll_guarded_awake {wait : State → Bool} {ls : List Act} (hls : ls ⊆ disableSeq wait)
    (hs : s.blk.suspended = false) :
    runAll .seq (guarded (fun s => !s.blk.suspended) ls ++ xs) s = runAll .seq (ls ++ xs) s :=
  runAll_guarded_true (I := fun u => u.blk.suspended = false) (fun u hu => by rw [hu]; rfl)
    (fun y hy u u' hu hgo => by rw [bump_blk, disableSeq_keeps_suspended (hls hy) hgo, hu]) hs

/-! ## The lines of DETACH -/

/-- `requireAttached` of an attached block (R314). -/
theorem run_requireAttached (s : State) (xs : List Act) (h : s.blk.attached = true) :
    ∃ s', runAll .seq (requireAttached :: xs) s = runAll .seq xs s' ∧ Went .seq s s' s.blk s.seq.loc [] :=
  run_raiseIf_false (went_start .seq s) _ _ (by rw [h]; rfl)

/-- `VramFree()` (R25). -/
theorem run_vramFree (h : Went .seq s0 s b L l) :
    ∃ s', runAll .seq ((assign fun s => s.record (.vramFree s.blk.vram)) :: xs) s = runAll .seq xs s' ∧
      Went .seq s0 s' b L (l ++ [.vramFree]) :=
  ⟨_, rfl, (h.perform .vramFree).bump⟩

/-- DETACH after its disable: the region is freed, the power outputs drop, the block is detached (R145). -/
theorem run_detachRest (h : Went .seq s0 s b L l) :
    ∃ t, runAll .seq (detachLines.drop 11) s = t ∧
      Ended s0 t { b with panelPower := false, clkRun := false, suspended := false, attached := false } .ok
        (l ++ [.vramFree]) := by
  obtain ⟨s1, e1, h1⟩ := run_vramFree (xs := _) h
  obtain ⟨s2, e2, h2⟩ := run_onBlk (xs := _) h1 (fun _ b => { b with panelPower := false }) rfl rfl rfl
  obtain ⟨s3, e3, h3⟩ := run_onBlk (xs := _) h2 (fun _ b => { b with clkRun := false }) rfl rfl rfl
  obtain ⟨s4, e4, h4⟩ := run_onBlk (xs := _) h3 (fun _ b => { b with suspended := false }) rfl rfl rfl
  obtain ⟨s5, e5, h5⟩ := run_onBlk (xs := [finishWith .ok]) h4 (fun _ b => { b with attached := false }) rfl rfl rfl
  exact ⟨_, e1.trans (e2.trans (e3.trans (e4.trans e5))), h5.finish .ok⟩

/-! ## The command -/

/-- DETACH of an attached block whose lines of the disable, run or skipped, go through. -/
theorem exec_detach_ends (hs : AtStart .detach s) (ha : s.blk.attached = true)
    (hdis : ∀ u, Went .seq s u s.blk s.seq.loc [] → ∃ u',
      runAll .seq (guarded (fun s => !s.blk.suspended) (disableSeq fun _ => true) ++ detachLines.drop 11) u =
        runAll .seq (detachLines.drop 11) u' ∧ Went .seq s u' b L l) :
    ∃ t, exec .detach s = .next t ∧
      Ended s t { b with panelPower := false, clkRun := false, suspended := false, attached := false } .ok
        (l ++ [.vramFree]) := by
  obtain ⟨u, e, hu⟩ := run_requireAttached s (detachLines.drop 1) ha
  obtain ⟨u', e', hu'⟩ := hdis u hu
  obtain ⟨t, e'', hend⟩ := run_detachRest hu'
  exact ⟨t, exec_of_run hs (by decide) (by decide) (e.trans (e'.trans e'')), hend⟩

/-- A suspended block skips the disable (R145). -/
theorem exec_detach_suspended (hs : AtStart .detach s) (ha : s.blk.attached = true) (hsus : s.blk.suspended = true) :
    ∃ t, exec .detach s = .next t ∧
      Ended s t { s.blk with panelPower := false, clkRun := false, suspended := false, attached := false } .ok [.vramFree] :=
  exec_detach_ends hs ha fun _ hu => run_guarded_false _ (fun v hv => by rw [hv, hu.blk, hsus]; rfl) _ hu

/-- An awake block whose disable does not wait, or whose wait times out in the first turn (R145, R225). -/
theorem exec_detach_awake (hs : AtStart .detach s) (ha : s.blk.attached = true) (hsus : s.blk.suspended = false)
    (hruns : disableRuns s true []) :
    ∃ t, exec .detach s = .next t ∧
      Ended s t { disabledBlk s true with panelPower := false, clkRun := false, suspended := false, attached := false } .ok
        (disableTimedOut s true ++ [.vramFree]) :=
  exec_detach_ends hs ha fun u hu => by
    obtain ⟨u', e, hu'⟩ := run_disableSeq (xs := detachLines.drop 11) hu (fun _ => true) hruns
    exact ⟨u', (runAll_guarded_awake (List.Subset.refl _) (by rw [hu.blk, hsus])).trans e, hu'⟩

/-- The first lines of DETACH of an awake block, up to a line of the disable. -/
theorem run_detachStart {ls : List Act} (hls : ls ⊆ disableSeq fun _ => true) (ha : s.blk.attached = true)
    (hsus : s.blk.suspended = false)
    (hdis : ∀ u, Went .seq s u s.blk s.seq.loc [] → ∀ xs, ∃ u', runAll .seq (ls ++ xs) u = runAll .seq xs u' ∧
      Went .seq s u' b L l) (xs : List Act) :
    ∃ u', runAll .seq (requireAttached :: guarded (fun s => !s.blk.suspended) ls ++ xs) s = runAll .seq xs u' ∧
      Went .seq s u' b L l := by
  obtain ⟨u, e, hu⟩ := run_requireAttached s (guarded (fun s => !s.blk.suspended) ls ++ xs) ha
  obtain ⟨u', e', hu'⟩ := hdis u hu xs
  exact ⟨u', e.trans ((runAll_guarded_awake hls (by rw [hu.blk, hsus])).trans e'), hu'⟩

/-- The first turn of a disable that waits and stays blocked at its test step (R225, R262). -/
theorem exec_detach_blocks (hs : AtStart .detach s) (ha : s.blk.attached = true) (hsus : s.blk.suspended = false)
    (hv2 : s.blk.rev = .v2) (hb : disableBlocks s []) :
    ∃ t, exec .detach s = .next t ∧
      Stands .detach 7 s t { s.blk with rstate := .disablingWaitFrame, frameDoneFlag := false }
        [.rmw .rasterCtrl [(.rasterEn, 0)], .stayed] := by
  obtain ⟨hfree, hquiet⟩ := hb
  obtain ⟨u, e, hu, hpc⟩ := exec_stays
    (P := fun u => Went .seq s u { s.blk with rstate := .disablingWaitFrame, frameDoneFlag := false } s.seq.loc disableAccesses)
    (ls := requireAttached :: guarded (fun s => !s.blk.suspended) ((disableSeq fun _ => true).take 6)) (f := State.dropDraw)
    hs rfl (by decide)
    (run_detachStart (List.take_subset ..) ha hsus fun u hu =>
      run_disableArmed hu (fun _ => true) ((isV2_iff s).mpr hv2) hfree)
    fun u hu => (onlyIf_stay ..).mpr ⟨by rw [hu.blk, hsus]; rfl, (onlyIf_stay ..).mpr
      ⟨hu.isV2_eq.trans ((isV2_iff s).mpr hv2),
        (blockTest_stay ..).mpr (.inr ⟨by rw [hu.blk]; exact hfree, by rw [hu.blk]; rfl, by rw [hu.env]; exact hquiet, rfl⟩)⟩⟩
  exact ⟨_, e, hu.stands_dropDraw hpc⟩

/-- The first turn of a disable that waits, with the lock held: it ends before the arm (R42, R225). -/
theorem exec_detach_locked (hs : AtStart .detach s) (ha : s.blk.attached = true) (hsus : s.blk.suspended = false)
    (hv2 : s.blk.rev = .v2) (hlock : s.blk.lock ≠ .free) :
    ∃ t, exec .detach s = .next t ∧
      Stands .detach 4 s t { s.blk with rstate := .disablingWaitFrame } [.rmw .rasterCtrl [(.rasterEn, 0)]] := by
  obtain ⟨u, e, hu, hpc⟩ := exec_stays
    (P := fun u => Went .seq s u { s.blk with rstate := .disablingWaitFrame } s.seq.loc disableAccesses)
    (ls := requireAttached :: guarded (fun s => !s.blk.suspended) ((disableSeq fun _ => true).take 3)) (f := id)
    hs rfl (by decide)
    (run_detachStart (List.take_subset ..) ha hsus fun u hu =>
      run_disableStart hu (fun _ => true) ((isV2_iff s).mpr hv2))
    fun u hu => onlyIf_waits (by rw [hu.blk, hsus]; rfl)
      (onlyIf_waits (hu.isV2_eq.trans ((isV2_iff s).mpr hv2)) (acquire_waits (by rw [hu.blk]; exact hlock)))
  exact ⟨_, e, hu.stands hpc⟩

/-- A later turn, from the test step of the disable-wait, when the test returns (R145, R225, R262). -/
theorem exec_detach_tested (hs : AtLine .detach 7 fullTurn s) (hsus : s.blk.suspended = false) (hv2 : s.blk.rev = .v2)
    (hfree : s.blk.lock = .free) (hr : testReturns s) :
    ∃ t, exec .detach s = .next t ∧
      Ended s t { testedBlk s with panelPower := false, clkRun := false, suspended := false, attached := false } .ok
        (testAccesses s ++ [.vramFree]) := by
  obtain ⟨u, e, hu⟩ := run_disableSeqTested (xs := detachLines.drop 11) (fun _ => true) ((isV2_iff s).mpr hv2) hfree hr
  obtain ⟨t, e', hend⟩ := run_detachRest hu
  exact ⟨t, exec_at hs (by decide) (by decide)
    ((runAll_guarded_awake (List.drop_subset 6 _) hsus).trans (e.trans e')), hend⟩

/-- Settles O22: the command's lines are its check, the lines of the disable and the rest, and a turn ends after them or at a
line of the disable that stays. -/
theorem detachTearsDown : Obligations.DetachTearsDown :=
  ⟨fun _ hs ha => ⟨exec_detach_suspended hs ha, exec_detach_awake hs ha, fun hsus hv2 =>
      ⟨exec_detach_blocks hs ha hsus hv2, exec_detach_locked hs ha hsus hv2⟩⟩,
    fun _ hs => exec_detach_tested hs⟩

end Sys2Proof.Machine
end

section
/-! The clock divider (R160, R161): `computeDivider` is the ceiling of the quotient, held between `divMin` and `divMax`. -/

namespace Sys2Proof.Machine

/-- The ceiling of the quotient is the least factor that takes the request up to the source (R9). -/
theorem ceilDiv_le_iff {req : Nat} (hreq : 0 < req) (src k : Nat) : ceilDiv src req ≤ k ↔ src ≤ req * k := by
  rw [ceilDiv, ← Nat.ceilDiv_eq_add_pred_div]
  exact ceilDiv_le_iff_le_mul hreq

/-- The divider is the quotient, held between 2 and 255 (R6, R160). -/
theorem computeDivider_fst (req src : Nat) : (computeDivider req src).1 = min 255 (max 2 (ceilDiv src req)) := rfl

/-- The request is clamped exactly when the quotient lies outside these bounds (R160). -/
theorem computeDivider_snd_iff (req src : Nat) :
    (computeDivider req src).2 = true ↔ ceilDiv src req < 2 ∨ 255 < ceilDiv src req := by
  simp [computeDivider, divMin, divMax]

theorem computeDivider_bounds (req src : Nat) : 2 ≤ (computeDivider req src).1 ∧ (computeDivider req src).1 ≤ 255 := by
  rw [computeDivider_fst]
  omega

/-- Settles O16: the quotient is compared with 1, 2 and 255 by multiplying out, and its range decides divider and flag. -/
theorem dividerProperties : Obligations.DividerProperties := by
  intro req src hreq
  have hq1 := ceilDiv_le_iff hreq src 1
  have hq2 := ceilDiv_le_iff hreq src 2
  have hq255 := ceilDiv_le_iff hreq src 255
  have hd := computeDivider_fst req src
  have hc := computeDivider_snd_iff req src
  refine ⟨computeDivider_bounds req src, fun hlarge => ?large, fun hsmall => ?small, fun hnl hns => ?between⟩
  case large =>
    have hq : 255 < ceilDiv src req := by omega
    exact ⟨by omega, hc.mpr (.inr hq)⟩
  case small =>
    have hq : ceilDiv src req ≤ 2 := by omega
    exact ⟨by omega, hc.trans (by omega)⟩
  case between =>
    have hq : 2 ≤ ceilDiv src req ∧ ceilDiv src req ≤ 255 := by omega
    exact ⟨hd.trans (show _ = ceilDiv src req by omega), Bool.eq_false_iff.mpr (mt hc.mp (by omega))⟩

end Sys2Proof.Machine
end

section
/-! SET_CLOCK (R163, R164): the two ways NEGOTIATE fails, and the word and the records it leaves when it succeeds. -/

namespace Sys2Proof.Machine

variable {s s0 : State} {b : Blk} {L : Locals} {l : List Access}

/-! ## The words written -/

/-- After actions that end with a write, the register holds the word written (R45). -/
theorem does_write_get_same (a : Agent) (s : State) (l : List Access) {g : LReg} (v : Word) (hg : LReg.holdsWord g = true) :
    (s.does a (l ++ [.write g v])).lcdc.regs.get g = some v := by
  rw [does_append, does_cons, does_nil, State.perform, regWrite_lcdc, lcdc_write_regs, get_put_same _ _ hg]

/-- `CTRL` holds the divider and the raster mode in its two fields (R91, R104). -/
theorem ext_ctrlWord {p : Params} (h : p.wellFormed = true) (r : Rev) {d : Nat} (hd : d ≤ 255) :
    ext (ctrlWord p r d) (p.pos r .clkdiv) = d ∧ ext (ctrlWord p r d) (p.pos r .rasterMode) = 1 :=
  ⟨ext_insFields_required h rfl rfl (Nat.lt_succ_of_le hd) rfl rfl,
    ext_insFields_required h rfl rfl Nat.one_lt_two rfl rfl⟩

/-! ## The lines after NEGOTIATE -/

/-- The divider is not one of the locals that a run leaves open. -/
theorem Went.loc_d (h : Went .seq s0 s b L l) : s.seq.loc.d = L.d := by rw [h.loc]

/-- Nor is the achieved rate. -/
theorem Went.loc_a (h : Went .seq s0 s b L l) : s.seq.loc.a = L.a := by rw [h.loc]

/-- SET_CLOCK after NEGOTIATE: `CTRL` is written, divider and rate are recorded and returned (R164). -/
theorem run_setClockRest (h : Went .seq s0 s b L l) :
    ∃ t, runAll .seq (setClockLines.drop 8) s = t ∧
      Ended s0 t
        { b with
          divider := BitVec.ofNat 8 L.d, srcRate := L.a, res0 := BitVec.ofNat 32 L.d, res1 := BitVec.ofNat 32 L.a }
        .ok (l ++ [.write .ctrl (ctrlWord s0.cfg s0.blk.rev L.d)]) := by
  obtain ⟨s1, e1, h1⟩ := run_writeReg (xs := setClockLines.drop 9) h .ctrl fun s => ctrlWord s.cfg s.blk.rev s.seq.loc.d
  obtain ⟨s2, e2, h2⟩ := run_onBlk (xs := setClockLines.drop 10) h1
    (fun s b => { b with divider := BitVec.ofNat 8 s.seq.loc.d, srcRate := s.seq.loc.a }) rfl rfl rfl
  obtain ⟨s3, e3, h3⟩ := run_onBlk (xs := setClockLines.drop 11) h2
    (fun s b => { b with res0 := BitVec.ofNat 32 s.seq.loc.d, res1 := BitVec.ofNat 32 s.seq.loc.a }) rfl rfl rfl
  rw [h.cfg, h.rev_eq, h.loc_d, h1.loc_d, h1.loc_a, h2.loc_d, h2.loc_a] at h3
  exact ⟨_, e1.trans (e2.trans e3), h3.finish .ok⟩

/-! ## The command -/

/-- A rejected re-request ends SET_CLOCK after the exchanges (R163). -/
theorem exec_setClock_rejected (hs : AtStart .setClock s) (ha : Awake s) (h0 : s.argN 0 ≠ 0)
    (hn : ¬negotiates s (s.argN 0)) :
    ∃ t, exec .setClock s = .next t ∧ Ended s t s.blk .clockError (negotiateAccesses s (s.argN 0)) := by
  obtain ⟨u, e, hu⟩ := run_prologue s (setClockLines.drop 2) ha
  obtain ⟨-, hrejected, -⟩ := run_negotiate (xs := setClockLines.drop 8) hu fun args => args[0].toNat
  obtain ⟨v, _, e', hv⟩ := hrejected h0 hn
  exact ⟨_, exec_of_run hs (by decide) (by decide) (e.trans e'), hv.finish .clockError⟩

/-- SET_CLOCK whose NEGOTIATE succeeds (R164). -/
theorem exec_setClock_ok (hs : AtStart .setClock s) (ha : Awake s) (hn : negotiates s (s.argN 0)) :
    ∃ t, exec .setClock s = .next t ∧
      Ended s t
        { s.blk with
          divider := BitVec.ofNat 8 (computeDivider (s.argN 0) (firstRate s)).1, srcRate := achieved s (s.argN 0)
          res0 := BitVec.ofNat 32 (computeDivider (s.argN 0) (firstRate s)).1
          res1 := BitVec.ofNat 32 (achieved s (s.argN 0)) }
        .ok
        (negotiateAccesses s (s.argN 0) ++
          [.write .ctrl (ctrlWord s.cfg s.blk.rev (computeDivider (s.argN 0) (firstRate s)).1)]) := by
  obtain ⟨u, e, hu⟩ := run_prologue s (setClockLines.drop 2) ha
  obtain ⟨-, -, hok⟩ := run_negotiate (xs := setClockLines.drop 8) hu fun args => args[0].toNat
  obtain ⟨v, L, e', hv, hd, hrate⟩ := hok hn
  obtain ⟨t, e'', hend⟩ := run_setClockRest hv
  rw [hd, hrate] at hend
  exact ⟨t, exec_of_run hs (by decide) (by decide) (e.trans (e'.trans e'')), hend⟩

/-- Settles O23: a request of 0 fails the first check after the preconditions, a rejected one ends after the exchanges, and
otherwise the last action is the write of `CTRL`, whose divider fits its field. -/
theorem setClockResult : Obligations.SetClockResult := by
  intro s hs ha d
  refine ⟨fun h0 => ?zero, exec_setClock_rejected hs ha, fun hn => ?ok⟩
  case zero =>
    exact exec_check_fails rfl (by decide) hs ha fun u _ hblk =>
      beq_iff_eq.mpr ((argN_congr (congrArg Blk.arg hblk) 0).trans h0)
  case ok =>
    obtain ⟨t, hexec, hend⟩ := exec_setClock_ok hs ha hn
    refine ⟨t, hexec, hend, fun hwf => ⟨ctrlWord s.cfg s.blk.rev d, ?_, ext_ctrlWord hwf _ (computeDivider_bounds ..).2⟩⟩
    rw [hend.lcdc]
    exact does_write_get_same (g := .ctrl) .seq s _ _ rfl

end Sys2Proof.Machine
end

section
/-! The word that the last RMW of a register leaves at the end of a command (R12, R45), the arithmetic of one-bit values, and
PROGRAM_AC_BIAS (R190). -/

namespace Sys2Proof.Machine

variable {s t : State} {b : Blk} {c : Code}

/-! ## The word that an RMW leaves behind -/

/-- Whether an action may change the word that a register holds; a raw write may reach any register (R141). -/
def Access.mayWrite (g : LReg) : Access → Bool
  | .write h _ | .rmw h _ => h == g
  | .writeAt _ _ => true
  | _ => false

/-- An action that does not write a register leaves its word (R45). -/
theorem perform_get_of_not_mayWrite (a : Agent) (s : State) {g : LReg} {x : Access} (h : x.mayWrite g = false) :
    (s.perform a x).lcdc.regs.get g = s.lcdc.regs.get g := by
  cases x with
  | write g' v => exact get_put_other _ _ (Ne.symm (by simpa [Access.mayWrite] using h))
  | rmw g' e => exact perform_rmw_get_other a s e (Ne.symm (by simpa [Access.mayWrite] using h))
  | writeAt o v => exact absurd h (by simp [Access.mayWrite])
  | _ => rfl

/-- Nor does a list of such actions. -/
theorem does_get_of_not_mayWrite (a : Agent) {g : LReg} {l : List Access} :
    ∀ s : State, l.any (Access.mayWrite g) = false → (s.does a l).lcdc.regs.get g = s.lcdc.regs.get g := by
  induction l with
  | nil => intro s _; rfl
  | cons x xs ih =>
    intro s h
    obtain ⟨hx, hxs⟩ := Bool.or_eq_false_iff.mp h
    rw [does_cons, ih _ hxs, perform_get_of_not_mayWrite a s hx]

/-- At the end of a command a register holds the word of the last RMW of it, if nothing later writes it (R12, R45). -/
theorem Ended.rmw_word {l m : List Access} {g : LReg} {e : List (Fld × Nat)} (h : Ended s t b c (l ++ .rmw g e :: m))
    (hg : LReg.holdsWord g = true) (hm : m.any (Access.mayWrite g) = false) :
    t.lcdc.regs.get g = some (insFields s.cfg s.blk.rev ((s.does .seq l).readVal g) e) := by
  rw [h.lcdc, does_append, does_cons, does_get_of_not_mayWrite _ _ hm, perform_rmw_get_same _ _ _ hg, does_cfg, does_blk]

/-! ## One-bit values -/

/-- One bit of a word as a number (R8). -/
theorem bitsAt_one (w : Word) (j : Nat) : bitsAt w j 1 = bit01 (w.getLsbD j) := by
  rw [bitsAt, bit01, BitVec.getLsbD, Nat.testBit_eq_decide_div_mod_eq, pow_one]
  obtain h | h := Nat.mod_two_eq_zero_or_one (w.toNat / 2 ^ j)
  · rw [h]; rfl
  · rw [h]; rfl

/-- The inverted bit (R187). -/
theorem bit01_not_getLsbD (w : Word) (j : Nat) : bit01 (!w.getLsbD j) = 1 - bitsAt w j 1 := by
  rw [bitsAt_one]
  cases w.getLsbD j <;> rfl

/-- A condition as a number fits one bit. -/
theorem ite_one_zero_lt (q : Prop) [Decidable q] : (if q then 1 else 0) < 2 ^ 1 := by split <;> decide

/-! ## PROGRAM_AC_BIAS -/

/-- Settles O28: the command is one RMW, and each argument is cut to the width of its field. -/
theorem programAcBiasResult : Obligations.ProgramAcBiasResult := by
  intro s hs ha
  obtain ⟨t, hexec, hend⟩ := exec_sequence_ok rfl (by decide) hs ha fun u hu =>
    run_acbSeq (xs := [finishWith .ok]) hu 0 1
  refine ⟨t, hexec, hend, fun hwf => ⟨_, hend.rmw_word (l := []) (g := .timing2) rfl rfl, ?acb, ?acbI⟩⟩
  case acb => exact ext_insFields_required hwf rfl rfl (mod_two_pow_lt _ 8) rfl rfl
  case acbI => exact ext_insFields_required hwf rfl rfl (mod_two_pow_lt _ 4) rfl rfl

end Sys2Proof.Machine
end

section
/-! PROGRAM_FRAME_GEOMETRY (R175 to R180): the encoded width and its two parts, and the command. -/

namespace Sys2Proof.Machine

variable {s : State}

/-! ## The width fields (R94, R175) -/

/-- `sub32(v, 1)` cut to `n` bits is one less than `v` modulo `2 ^ n`. -/
theorem sub_one_mod_succ_mod (v : Word) {n : Nat} (hn : n ≤ 32) :
    ((v - 1#32).toNat % 2 ^ n + 1) % 2 ^ n = v.toNat % 2 ^ n := by
  have hdvd : 2 ^ n ∣ 2 ^ 32 := Nat.pow_dvd_pow 2 hn
  calc ((v - 1#32).toNat % 2 ^ n + 1) % 2 ^ n
      = ((v - 1#32).toNat + 1) % 2 ^ 32 % 2 ^ n := by rw [Nat.mod_mod_of_dvd _ hdvd, Nat.mod_add_mod]
    _ = v.toNat % 2 ^ n := congrArg (· % 2 ^ n) (by bv_omega)

/-- V2 has the wider field (R94). -/
theorem pplBits_le (p : Params) (r : Rev) : p.pplBits r ≤ p.pplBits .v2 := by
  cases r <;> simp only [Params.pplBits, widthMaskBits] <;> omega

theorem pplBits_le_word (p : Params) (r : Rev) : p.pplBits r ≤ 32 :=
  (pplBits_le p r).trans ((Nat.sub_le _ _).trans (by decide))

/-- The encoded width plus one is the word count, modulo the field's range (R175). -/
theorem ppl_succ_mod (p : Params) (r : Rev) (width : Word) :
    (ppl p r width + 1) % 2 ^ p.pplBits r = width.toNat % 2 ^ widthMaskBits r / 2 ^ p.pplLog2 % 2 ^ p.pplBits r := by
  rw [ppl, sub_one_mod_succ_mod _ (pplBits_le_word p r), BitVec.toNat_ofNat,
    Nat.mod_mod_of_dvd _ (Nat.pow_dvd_pow 2 (pplBits_le_word p r))]

theorem ppl_lt (p : Params) (r : Rev) (width : Word) : ppl p r width < 2 ^ p.pplBits r := mod_two_pow_lt _ _

/-- What lies above the low part fits the high part (R94). -/
theorem ppl_high_lt (p : Params) (r : Rev) (width : Word) :
    ppl p r width / 2 ^ p.pplBits .v1 < 2 ^ (p.pplBits .v2 - p.pplBits .v1) := by
  rw [Nat.div_lt_iff_lt_mul (Nat.two_pow_pos _), ← Nat.pow_add, Nat.sub_add_cancel (pplBits_le p .v1)]
  exact (ppl_lt p r width).trans_le (Nat.pow_le_pow_right (by decide) (pplBits_le p r))

/-- Settles O17: the encoding subtracts one modulo a power of two, and the two parts lose no bit of it. -/
theorem widthFieldsHoldTheWordCount : Obligations.WidthFieldsHoldTheWordCount := by
  intro p r width _
  refine ⟨ppl_succ_mod p r width, ppl_lt p r width, _, _, rfl, mod_two_pow_lt _ _, ?_⟩
  rw [Nat.mod_eq_of_lt (ppl_high_lt p r width), Nat.mul_comm, Nat.mod_add_div]

/-! ## The command -/

/-- The bpp values of R177. -/
theorem bppOk_iff (bpp : Nat) (r : Rev) : bppOk bpp r = true ↔
    (bpp = 1 ∨ bpp = 2 ∨ bpp = 4 ∨ bpp = 8 ∨ bpp = 16 ∨ bpp = 24 ∨ bpp = 32) ∧ ¬(r = .v1 ∧ 16 < bpp) := by
  simp only [bppOk, Bool.and_eq_true, List.contains_iff_mem, List.mem_cons, List.not_mem_nil, or_false, Bool.not_eq_true',
    Bool.and_eq_false_iff, beq_eq_false_iff_ne, decide_eq_false_iff_not, not_and_or, gt_iff_lt, ne_eq]

/-- PROGRAM_FRAME_GEOMETRY of a good bpp (R180). -/
theorem exec_programFrameGeometry_ok (hs : AtStart .programFrameGeometry s) (ha : Awake s)
    (hbpp : bppOk (s.argN 2) s.blk.rev = true) :
    ∃ t, exec .programFrameGeometry s = .next t ∧
      Ended s t { s.blk with palCount := palCount (s.argN 2), res0 := BitVec.ofNat 32 (palCount (s.argN 2)) } .ok
        (geometryAccesses s (s.arg 0) (s.arg 1) (s.argN 2) (s.argBit 3 0)) := by
  refine exec_sequence_ok (L := s.seq.loc)
    (ls := raiseIf (fun s => !bppOk (s.argN 2) s.blk.rev) .unsupportedFormat ::
      geometrySeq (fun s => s.arg 0) (fun s => s.arg 1) (fun s => s.argN 2) (fun s => s.argBit 3 0) ++
        [assign fun s => s.onBlk fun b => { b with res0 := BitVec.ofNat 32 (palCount (s.argN 2)) }])
    rfl (by decide) hs ha fun u hu => ?_
  obtain ⟨s1, e1, h1⟩ := run_raiseIf_false (xs := _) hu (fun s => !bppOk (s.argN 2) s.blk.rev) .unsupportedFormat
    (by rw [hu.argN_eq, hu.rev_eq, hbpp]; rfl)
  obtain ⟨s2, e2, h2⟩ := run_geometrySeq (xs := _) h1 0 1 2 3 0
  obtain ⟨s3, e3, h3⟩ := run_onBlk (xs := [finishWith .ok]) h2
    (fun s b => { b with res0 := BitVec.ofNat 32 (palCount (s.argN 2)) }) rfl rfl rfl
  rw [h2.argN_eq] at h3
  exact ⟨s3, e1.trans (e2.trans e3), h3⟩

/-- Settles O26: a bad bpp fails the first check; a good one leads to one RMW of each register, and each value is no wider
than its field. -/
theorem frameGeometryResult : Obligations.FrameGeometryResult := by
  intro s hs ha bpp w lo hi p l order tft24 unpack n
  split
  case isFalse hbad =>
    refine exec_check_fails rfl (by decide) hs ha fun u _ hblk => ?_
    have hno : bppOk (s.argN 2) s.blk.rev = false := Bool.eq_false_iff.mpr fun h => hbad ((bppOk_iff _ _).mp h)
    rw [argN_congr (congrArg Blk.arg hblk), hblk, hno, Bool.not_false]
  case isTrue hgood =>
    obtain ⟨t, hexec, hend⟩ := exec_programFrameGeometry_ok hs ha ((bppOk_iff _ _).mpr hgood)
    have horder : (if s.argBit 3 0 then 1 else 0) = order := (bitsAt_one (s.arg 3) 0).symm
    simp only [geometryAccesses, horder, whenB_eq_if, isV2_iff] at hend
    refine ⟨t, hexec, hend, fun hwf => ⟨?timing0, ?timing1, fun hv2 => ?timing2, ?rasterCtrl⟩⟩
    case timing0 =>
      refine ⟨_, hend.rmw_word (l := []) (g := .timing0) rfl (by split <;> rfl), ?pplLo, fun hv2 => ?pplHi⟩
      case pplLo => exact ext_insFields_required hwf rfl rfl (mod_two_pow_lt _ _) rfl rfl
      case pplHi => rw [← hv2]; exact ext_insFields_required hwf rfl rfl (mod_two_pow_lt _ _) (hv2 ▸ rfl) rfl
    case timing1 =>
      exact ⟨_, hend.rmw_word (l := [_]) (g := .timing1) rfl (by split <;> rfl),
        ext_insFields_required hwf rfl rfl (mod_two_pow_lt _ 10) rfl rfl⟩
    case timing2 =>
      rw [if_pos hv2] at hend
      refine ⟨_, hend.rmw_word (l := [_, _]) (g := .timing2) rfl rfl, ?_⟩
      rw [hv2]
      exact ext_insFields_required hwf rfl rfl (mod_two_pow_lt _ 1) rfl rfl
    case rasterCtrl =>
      refine ⟨_, hend.rmw_word (m := []) (g := .rasterCtrl) rfl rfl, ?order, fun hv2 => ?tft24⟩
      case order => exact ext_insFields_required hwf rfl rfl (mod_two_pow_lt _ 1) rfl rfl
      case tft24 =>
        rw [hv2]
        exact ⟨ext_insFields_required hwf rfl rfl (ite_one_zero_lt _) rfl rfl,
          ext_insFields_required hwf rfl rfl (ite_one_zero_lt _) rfl rfl⟩

end Sys2Proof.Machine
end

section
/-! PROGRAM_DISPLAY_MODE (R185 to R187): what its RMW of `RASTER_CTRL` leaves in each class bit, the edits in the terms of
the FMT and SYNC words, and the command. -/

namespace Sys2Proof.Machine

variable {s : State}

/-! ## The class bits -/

/-- The display class bits of `RASTER_CTRL` (R185). -/
def classBits : List Fld := [.mono, .mono8, .tft, .tftAlt, .stn565]

theorem mem_classBits_iff {f : Fld} : f ∈ classBits ↔ f = .mono ∨ f = .mono8 ∨ f = .tft ∨ f = .tftAlt ∨ f = .stn565 := by
  simp only [classBits, List.mem_cons, List.not_mem_nil, or_false]

/-- What R185 asks of each class bit: those of the requested class as given, the others 0. -/
def classBit (m : DisplayMode) : Fld → Bool
  | .mono => m.shade == .mono
  | .mono8 => m.shade == .mono && m.mono8
  | .tft => m.shade == .tft
  | .tftAlt => m.shade == .tft && m.tftAlt
  | .stn565 => m.shade == .stn && m.stn565
  | _ => false

/-- The V1 enable that DISPLAY_MODE_SEQ may add concerns no other field (R186). -/
theorem lookup_displayFields (r : Rev) (m : DisplayMode) {f : Fld} (hf : f ≠ .v1UflIntEn) :
    (displayFields r m).reverse.lookup f = (shadeFields m).reverse.lookup f := by
  rw [displayFields]
  split
  · rw [List.reverse_concat, List.lookup_cons, beq_false_of_ne hf]
  · rw [List.append_nil]

/-- The last value given for a class bit is the requested one (R185). -/
theorem lookup_shadeFields (m : DisplayMode) {f : Fld} (hf : f ∈ classBits) :
    (shadeFields m).reverse.lookup f = some (bit01 (classBit m f)) := by
  obtain ⟨shade, _, _, _, _, _⟩ := m
  rcases mem_classBits_iff.mp hf with rfl | rfl | rfl | rfl | rfl <;> cases shade <;> rfl

/-- No value is given for the raster enable (R186). -/
theorem lookup_shadeFields_rasterEn (m : DisplayMode) : (shadeFields m).reverse.lookup .rasterEn = none := by
  obtain ⟨shade, _, _, _, _, _⟩ := m
  cases shade <;> rfl

/-- DISPLAY_MODE_SEQ's first RMW names fields of `RASTER_CTRL` only. -/
theorem displayFields_home (r : Rev) (m : DisplayMode) :
    ((displayFields r m).all fun e => e.1.home == .rasterCtrl) = true := by
  obtain ⟨shade, _, _, _, _, _⟩ := m
  cases shade <;> cases r <;> rfl

/-- The word of DISPLAY_MODE_SEQ holds exactly the requested class (R185, R186). -/
theorem ext_displayFields_classBit {p : Params} (h : p.wellFormed = true) (r : Rev) (w : Word) (m : DisplayMode) {f : Fld}
    (hf : f ∈ classBits) : ext (insFields p r w (displayFields r m)) (p.pos r f) = bit01 (classBit m f) := by
  have hlast : (displayFields r m).reverse.lookup f = some (bit01 (classBit m f)) :=
    (lookup_displayFields r m (by rintro rfl; exact absurd hf (by decide))).trans (lookup_shadeFields m hf)
  have hfld : f.home = .rasterCtrl ∧ f.onRev r = true ∧ f.optional = false ∧ p.width f = 1 := by
    rcases mem_classBits_iff.mp hf with rfl | rfl | rfl | rfl | rfl <;> exact ⟨rfl, rfl, rfl, rfl⟩
  obtain ⟨hhome, hrev, hreq, hwidth⟩ := hfld
  exact ext_insFields_required h hlast (hhome ▸ displayFields_home r m) (hwidth ▸ bit01_lt _) hrev hreq

/-- It leaves the raster enable as read (R191). -/
theorem ext_displayFields_rasterEn {p : Params} (h : p.wellFormed = true) (r : Rev) (w : Word) (m : DisplayMode) :
    ext (insFields p r w (displayFields r m)) (p.pos r .rasterEn) = ext w (p.pos r .rasterEn) := by
  rw [ext_insFields h r w .rasterEn _ fun e he => beq_iff_eq.mp (List.all_eq_true.mp (displayFields_home r m) e he),
    lookup_displayFields r m (by decide), lookup_shadeFields_rasterEn]

/-- On V1 it sets the underflow enable (R186). -/
theorem ext_displayFields_v1UflIntEn {p : Params} (h : p.wellFormed = true) (w : Word) (m : DisplayMode) :
    ext (insFields p .v1 w (displayFields .v1 m)) (p.pos .v1 .v1UflIntEn) = 1 :=
  ext_insFields_required h (by rw [displayFields, if_pos rfl, List.reverse_concat]; rfl) (displayFields_home .v1 m)
    Nat.one_lt_two rfl rfl

/-! ## The argument words (R129) -/

/-- The FMT and SYNC words as DISPLAY_MODE_SEQ gets them (R129). -/
theorem displayModeOfWords_eq {fmt : Word} (sync : Word) (h : bitsAt fmt 0 2 ≠ 3) :
    displayModeOfWords fmt sync =
      ⟨if bitsAt fmt 0 2 = 0 then .mono else if bitsAt fmt 0 2 = 1 then .tft else .stn,
        fmt.getLsbD 2, fmt.getLsbD 3, fmt.getLsbD 4, sync.getLsbD 0, sync.getLsbD 1⟩ := by
  rw [displayModeOfWords, ← (DisplayMode.mk.inj (displayModeOfMode_eq h)).1]

/-- The assigned shade codes (R129). -/
theorem shadeCode_cases {w : Word} (h : bitsAt w 0 2 ≠ 3) : bitsAt w 0 2 = 0 ∨ bitsAt w 0 2 = 1 ∨ bitsAt w 0 2 = 2 := by
  have hlt : bitsAt w 0 2 < 2 ^ 2 := mod_two_pow_lt _ 2
  omega

/-- The class bits that the FMT word asks for (R129, R185). -/
theorem classBit_displayModeOfWords {fmt : Word} (sync : Word) (h : bitsAt fmt 0 2 ≠ 3) :
    let m := displayModeOfWords fmt sync
    bit01 (classBit m .mono) = (if bitsAt fmt 0 2 = 0 then 1 else 0) ∧
      bit01 (classBit m .mono8) = (if bitsAt fmt 0 2 = 0 then bitsAt fmt 2 1 else 0) ∧
      bit01 (classBit m .tft) = (if bitsAt fmt 0 2 = 1 then 1 else 0) ∧
      bit01 (classBit m .tftAlt) = (if bitsAt fmt 0 2 = 1 then bitsAt fmt 3 1 else 0) ∧
      bit01 (classBit m .stn565) = (if bitsAt fmt 0 2 = 2 then bitsAt fmt 4 1 else 0) := by
  simp only [displayModeOfWords_eq sync h, bitsAt_one, classBit]
  obtain hmono | htft | hstn := shadeCode_cases h
  · simp [hmono, bit01]
  · simp [htft, bit01]
  · simp [hstn, bit01]

/-- The edits of the shade bits in the words of R185. -/
theorem shadeFields_displayModeOfWords {fmt : Word} (sync : Word) (h : bitsAt fmt 0 2 ≠ 3) :
    shadeFields (displayModeOfWords fmt sync) = [(.mono, 0), (.mono8, 0), (.tft, 0), (.tftAlt, 0), (.stn565, 0)] ++
      if bitsAt fmt 0 2 = 0 then [(.mono, 1), (.mono8, bitsAt fmt 2 1)]
      else if bitsAt fmt 0 2 = 1 then [(.tft, 1), (.tftAlt, bitsAt fmt 3 1)] else [(.stn565, bitsAt fmt 4 1)] := by
  simp only [displayModeOfWords_eq sync h, bitsAt_one, shadeFields]
  obtain hmono | htft | hstn := shadeCode_cases h
  · rw [hmono]; rfl
  · rw [htft]; rfl
  · rw [hstn]; rfl

/-- The edits of the polarity bits in the words of R187. -/
theorem polarityFields_displayModeOfWords (fmt sync : Word) :
    polarityFields (displayModeOfWords fmt sync) = [(.invHs, 1 - bitsAt sync 0 1), (.invVs, 1 - bitsAt sync 1 1)] := by
  rw [← bit01_not_getLsbD, ← bit01_not_getLsbD]
  rfl

/-! ## The command -/

/-- An action that only V2 makes, by the positions of the revision, is made by those of V2. -/
theorem whenB_isV2_rev (s : State) (k : Rev → List Access) :
    whenB (isV2 s) (k s.blk.rev) = if s.blk.rev = .v2 then k .v2 else [] := by
  rw [whenB_eq_if]
  simp only [isV2_iff]
  split
  · next hv2 => rw [hv2]
  · rfl

/-- PROGRAM_DISPLAY_MODE with an assigned shade code (R186). -/
theorem exec_programDisplayMode_ok (hs : AtStart .programDisplayMode s) (ha : Awake s) (hshade : shadeCode (s.arg 0) ≠ 3) :
    ∃ t, exec .programDisplayMode s = .next t ∧
      Ended s t s.blk .ok (displayAccesses s (displayModeOfWords (s.arg 0) (s.arg 1))) := by
  refine exec_sequence_ok (L := s.seq.loc)
    (ls := raiseIf (fun s => shadeCode (s.arg 0) == 3) .unsupportedFormat ::
      displayModeSeq (fun s => displayModeOfWords (s.arg 0) (s.arg 1)))
    rfl (by decide) hs ha fun u hu => ?_
  obtain ⟨s1, e1, h1⟩ := run_raiseIf_false (xs := _) hu (fun s => shadeCode (s.arg 0) == 3) .unsupportedFormat
    (by rw [hu.arg_eq]; exact beq_false_of_ne hshade)
  obtain ⟨s2, e2, h2⟩ := run_displayModeSeq (xs := [finishWith .ok]) h1 fun args => displayModeOfWords args[0] args[1]
  exact ⟨s2, e1.trans e2, h2⟩

/-- Settles O27: shade code 3 fails the first check; any other selects one class, whose bits come after the clearing of all
five in the one RMW of `RASTER_CTRL`. -/
theorem displayModeResult : Obligations.DisplayModeResult := by
  intro s hs ha shade mono8 tftAlt stn565 hHigh vHigh
  split
  case isTrue hbad =>
    exact exec_check_fails rfl (by decide) hs ha fun u _ hblk => by
      rw [arg_eq, hblk]; exact beq_iff_eq.mpr hbad
  case isFalse hgood =>
    obtain ⟨t, hexec, hend⟩ := exec_programDisplayMode_ok hs ha hgood
    have hufl := whenB_isV2_rev s fun r => [.write .intEnSet (underflowEnable s.cfg r)]
    rw [displayAccesses_eq, hufl, polarityFields_displayModeOfWords, underflowEnable, bitsOf_one] at hend
    refine ⟨t, hexec, ?acts, fun hwf => ⟨?rasterCtrl, ?timing2⟩⟩
    case acts =>
      rw [displayFields, shadeFields_displayModeOfWords _ hgood] at hend
      exact hend
    case rasterCtrl =>
      obtain ⟨hmono, hmono8, htft, htftAlt, hstn565⟩ := classBit_displayModeOfWords (s.arg 1) hgood
      have hclass : ∀ f ∈ classBits, _ := fun f =>
        ext_displayFields_classBit hwf s.blk.rev (s.readVal .rasterCtrl) (displayModeOfWords (s.arg 0) (s.arg 1))
      refine ⟨_, hend.rmw_word (l := []) (g := .rasterCtrl) rfl (by split <;> rfl), (hclass _ (by decide)).trans hmono,
        (hclass _ (by decide)).trans hmono8, (hclass _ (by decide)).trans htft, (hclass _ (by decide)).trans htftAlt,
        (hclass _ (by decide)).trans hstn565, fun hv1 => ?underflow, ext_displayFields_rasterEn hwf _ _ _⟩
      rw [hv1]
      exact ext_displayFields_v1UflIntEn hwf _ _
    case timing2 =>
      exact ⟨_, hend.rmw_word (m := []) (g := .timing2) rfl rfl,
        ext_insFields_required hwf rfl rfl (Nat.sub_lt_succ 1 _) rfl rfl,
        ext_insFields_required hwf rfl rfl (Nat.sub_lt_succ 1 _) rfl rfl⟩

end Sys2Proof.Machine
end

section
/-! The windows of the frame-buffer DMA (R200 to R206): validity in the terms of R201, SET_WINDOW, and PAN from the clamp to
the slots that the last completed one selects. -/

namespace Sys2Proof.Machine

variable {s s0 u : State} {b : Blk} {L : Locals} {l : List Access} {xs : List Act}

/-! ## Validity (R201) -/

/-- The four items of R201. A region of size 0 at base 0 fails items 2 and 4 together, so natural subtraction does no harm. -/
theorem validWin_iff (b : Blk) (first last : Nat) : validWin b first last = true ↔
    b.haveMode = true ∧ last > first ∧ last - first + 1 = b.geo.yres * b.geo.lineLen ∧
      (b.vram.base ≤ first ∧ last ≤ b.vram.base + b.vram.size - 1) := by
  simp only [validWin, Bool.and_eq_true, decide_eq_true_eq, and_assoc]
  refine and_congr_right fun _ => and_congr_right fun hlt => and_congr_right fun _ => and_congr_right fun _ => ?_
  omega

/-! ## SET_WINDOW (R200) -/

/-- The words of an argument pair as a window (R41). -/
theorem windowOf_argN (s : State) (i j : Fin 16) : windowOf (s.argN i) (s.argN j) = ⟨s.arg i, s.arg j⟩ := by
  simp only [windowOf, State.argN, BitVec.ofNat_toNat, BitVec.setWidth_eq]

/-- SET_WINDOW of a valid window, with the lock free (R200). -/
theorem exec_setWindow_ok (hs : AtStart .setWindow s) (ha : Awake s) (hvalid : validWin s.blk (s.argN 0) (s.argN 1) = true)
    (hfree : s.blk.lock = .free) :
    ∃ t, exec .setWindow s = .next t ∧
      Ended s t { s.blk with win := some ⟨s.arg 0, s.arg 1⟩ } .ok (setWinAccesses s (s.arg 0) (s.arg 1)) := by
  refine exec_sequence_ok (L := s.seq.loc)
    (ls := raiseIf (fun s => !validWin s.blk (s.argN 0) (s.argN 1)) .invalidGeometry ::
      setWinSeq (fun s => s.argN 0) fun s => s.argN 1) rfl (by decide) hs ha fun u hu => ?_
  obtain ⟨s1, e1, h1⟩ := run_raiseIf_false hu (fun s => !validWin s.blk (s.argN 0) (s.argN 1)) .invalidGeometry
    (by rw [hu.blk, hu.argN_eq, hu.argN_eq, hvalid, Bool.not_true])
  obtain ⟨s2, e2, h2⟩ := run_setWinSeq (xs := [finishWith .ok]) h1 (fun args _ => args[0].toNat)
    (fun args _ => args[1].toNat) hfree
  refine ⟨s2, e1.trans e2, ?_⟩
  have hwin : windowOf s.blk.arg[0].toNat s.blk.arg[1].toNat = ⟨s.arg 0, s.arg 1⟩ := windowOf_argN s 0 1
  rw [hwin, BitVec.ofNat_toNat, BitVec.ofNat_toNat, BitVec.setWidth_eq, BitVec.setWidth_eq] at h2
  exact h2

/-- Settles O33: a window that fails an item of R201 fails the first check; a valid one is stored by SETWIN_SEQ. -/
theorem setWindowResult : Obligations.SetWindowResult := by
  intro s hs ha valid
  have hiff : validWin s.blk (s.argN 0) (s.argN 1) = true ↔ valid := validWin_iff ..
  refine ⟨fun hbad => exec_check_fails rfl (by decide) hs ha fun u _ hblk => ?_, fun hgood hfree => ?_⟩
  · have harg := congrArg Blk.arg hblk
    rw [hblk, argN_congr harg, argN_congr harg, Bool.eq_false_iff.mpr (mt hiff.mp hbad), Bool.not_false]
  · obtain ⟨t, hexec, hend⟩ := exec_setWindow_ok hs ha (hiff.mpr hgood) hfree
    have hen := whenB_isV2_rev s fun r => [.write .intEnSet (frameEnableWord s.cfg r)]
    rw [setWinAccesses, hen] at hend
    exact ⟨t, hexec, hend⟩

/-! ## The clamp and the window of PAN (R204, R205) -/

/-- The x-offset that PAN keeps or clamps (R204). -/
def panX (s : State) : Nat := clampAxis (s.argN 0) s.blk.geo.xres s.blk.geo.xresV

/-- The y-offset (R204). -/
def panY (s : State) : Nat := clampAxis (s.argN 1) s.blk.geo.yres s.blk.geo.yresV

/-- The first byte of PAN's window (R205). -/
def panFirst (s : State) : Nat := panStart s.blk (panX s) (panY s)

/-- Its last byte (R205). -/
def panEnd (s : State) : Nat := panLast s.blk (panFirst s)

/-- The clamp over the integers, as R204 writes it. -/
theorem toNat_clamp (x res resV : Nat) :
    (if x + res > resV then max 0 ((resV : Int) - res) else (x : Int)).toNat = clampAxis x res resV := by
  unfold clampAxis
  split
  · omega
  · rfl

/-- A clamped offset keeps the frame inside the virtual one (R204). -/
theorem clampAxis_add_le {res resV : Nat} (x : Nat) (h : res ≤ resV) : clampAxis x res resV + res ≤ resV := by
  unfold clampAxis
  split <;> omega

/-- The locals after PAN has bound its offsets and its window. -/
def panLocals (s : State) (L : Locals) : Locals := { L with px := panX s, py := panY s, ws := panFirst s, we := panEnd s }

/-- PAN's lines up to the check of its window, with a mode set (R205). -/
theorem run_panWindow (h : Went .seq s u s.blk L []) (hmode : s.blk.haveMode = true) :
    ∃ u', runAll .seq (raiseIf (fun s => !s.blk.haveMode) .invalidGeometry :: panCompute :: xs) u = runAll .seq xs u' ∧
      Went .seq s u' s.blk (panLocals s L) [] := by
  obtain ⟨u1, e1, h1⟩ := run_raiseIf_false (xs := panCompute :: xs) h (fun s => !s.blk.haveMode) .invalidGeometry
    (by rw [h.blk, hmode, Bool.not_true])
  have hbind : panLocals u1 u1.seq.loc = panLocals s u1.seq.loc := by
    simp only [panLocals, panX, panY, panFirst, panEnd, h1.blk, h1.argN_eq]
  refine ⟨_, e1, Went.bump (s := u1.onLoc fun L => panLocals u1 L) { h1.onLoc (panLocals u1) with loc := ?_ }⟩
  rw [onLoc_seq]
  exact hbind.trans (congrArg (panLocals s) h1.loc)

/-! ## The slots (R206) -/

/-- The writes of a window into one slot, base first (R205). -/
def slotAccesses (first last : Nat) (base ceil : LReg) : List Access :=
  [.write base (BitVec.ofNat 32 first), .write ceil (BitVec.ofNat 32 last)]

/-- The writes of a window into the slots that `lastDone` selects (R206). -/
def panAccesses (d : LastDone) (first last : Nat) : List Access :=
  match d with
  | .s0 => slotAccesses first last .fb1Base .fb1Ceil
  | .s1 => slotAccesses first last .fb0Base .fb0Ceil
  | .unknown => slotAccesses first last .fb0Base .fb0Ceil ++ slotAccesses first last .fb1Base .fb1Ceil

theorem run_panSlot (h : Went .seq s0 s b L l) (base ceil : LReg) :
    ∃ s', runAll .seq (panSlot base ceil ++ xs) s = runAll .seq xs s' ∧
      Went .seq s0 s' b L (l ++ slotAccesses L.ws L.we base ceil) := by
  obtain ⟨s1, e1, h1⟩ := run_writeReg h base fun s => BitVec.ofNat 32 s.seq.loc.ws
  obtain ⟨s2, e2, h2⟩ := run_writeReg (xs := xs) h1 ceil fun s => BitVec.ofNat 32 s.seq.loc.we
  rw [h.loc, h1.loc, List.append_assoc] at h2
  exact ⟨s2, e1.trans e2, h2⟩

/-- A slot is written when `lastDone` selects it: its lines do not change `lastDone` (R206). -/
theorem run_panSlotAfter (h : Went .seq s0 s b L l) (d : LastDone) (base ceil : LReg) :
    ∃ s', runAll .seq (guarded (fun s => s.blk.lastDone == d) (panSlot base ceil) ++ xs) s = runAll .seq xs s' ∧
      Went .seq s0 s' b L (l ++ whenB (b.lastDone == d) (slotAccesses L.ws L.we base ceil)) := by
  cases hd : b.lastDone == d with
  | false =>
    rw [whenB_false, List.append_nil]
    exact run_guarded_false _ (fun u hu => by rw [hu, h.blk, hd]) _ h
  | true =>
    rw [runAll_guarded_true (I := fun u => (u.blk.lastDone == d) = true) (fun _ hu => hu) ?_ (by rw [h.blk, hd])]
    · exact run_panSlot h base ceil
    · intro y hy u u' hu hgo
      simp only [panSlot, List.mem_cons, List.not_mem_nil, or_false] at hy
      obtain rfl | rfl := hy <;> cases hgo <;> simpa using hu

/-- The slot lines of PAN (R206). -/
theorem run_panSlots (h : Went .seq s0 s b L l) :
    ∃ s', runAll .seq (guarded (fun s => s.blk.lastDone == .s0) (panSlot .fb1Base .fb1Ceil) ++
        (guarded (fun s => s.blk.lastDone == .s1) (panSlot .fb0Base .fb0Ceil) ++
        (guarded (fun s => s.blk.lastDone == .unknown) (panSlot .fb0Base .fb0Ceil) ++
        (guarded (fun s => s.blk.lastDone == .unknown) (panSlot .fb1Base .fb1Ceil) ++ xs)))) s = runAll .seq xs s' ∧
      Went .seq s0 s' b L (l ++ panAccesses b.lastDone L.ws L.we) := by
  obtain ⟨s1, e1, h1⟩ := run_panSlotAfter h .s0 .fb1Base .fb1Ceil
  obtain ⟨s2, e2, h2⟩ := run_panSlotAfter h1 .s1 .fb0Base .fb0Ceil
  obtain ⟨s3, e3, h3⟩ := run_panSlotAfter h2 .unknown .fb0Base .fb0Ceil
  obtain ⟨s4, e4, h4⟩ := run_panSlotAfter (xs := xs) h3 .unknown .fb1Base .fb1Ceil
  have hsel : whenB (b.lastDone == .s0) (slotAccesses L.ws L.we .fb1Base .fb1Ceil) ++
      (whenB (b.lastDone == .s1) (slotAccesses L.ws L.we .fb0Base .fb0Ceil) ++
      (whenB (b.lastDone == .unknown) (slotAccesses L.ws L.we .fb0Base .fb0Ceil) ++
      whenB (b.lastDone == .unknown) (slotAccesses L.ws L.we .fb1Base .fb1Ceil))) =
      panAccesses b.lastDone L.ws L.we := by
    cases b.lastDone <;> rfl
  simp only [List.append_assoc, hsel] at h4
  exact ⟨s4, e1.trans (e2.trans (e3.trans e4)), h4⟩

/-! ## PAN (R205) -/

/-- PAN with a window that fails an item of R201. -/
theorem exec_pan_invalid (hs : AtStart .pan s) (ha : Awake s) (hmode : s.blk.haveMode = true)
    (hbad : validWin s.blk (panFirst s) (panEnd s) = false) :
    ∃ t, exec .pan s = .next t ∧ Ended s t s.blk .invalidGeometry [] := by
  obtain ⟨u, e, hu⟩ := run_prologue s _ ha
  obtain ⟨v, e', hv⟩ := run_panWindow hu hmode
  refine ⟨v.finish .invalidGeometry, ?_, hv.finish _⟩
  have hcheck : validWin v.blk v.seq.loc.ws v.seq.loc.we = false := by rw [hv.blk, hv.loc]; exact hbad
  rw [exec_eq_seqTurn]
  refine exec_of_run hs (by decide) (by decide) (e.trans (e'.trans ?_))
  exact (runAll_raiseIf ..).trans (if_pos (by rw [hcheck, Bool.not_false]))

/-- PAN with a valid window and the lock free (R205, R206). -/
theorem exec_pan_ok (hs : AtStart .pan s) (ha : Awake s) (hvalid : validWin s.blk (panFirst s) (panEnd s) = true)
    (hfree : s.blk.lock = .free) :
    ∃ t, exec .pan s = .next t ∧
      Ended s t
        { s.blk with
          win := some (windowOf (panFirst s) (panEnd s)), xoff := panX s, yoff := panY s
          res0 := BitVec.ofNat 32 (panFirst s), res1 := BitVec.ofNat 32 (panEnd s) }
        .ok (panAccesses s.blk.lastDone (panFirst s) (panEnd s)) := by
  obtain ⟨hmode, -⟩ := (validWin_iff ..).mp hvalid
  refine exec_sequence_ok (L := panLocals s s.seq.loc) (ls := (panLines.drop 2).dropLast) rfl (by decide) hs ha fun u hu => ?_
  obtain ⟨s1, e1, h1⟩ := run_panWindow hu hmode
  obtain ⟨s2, e2, h2⟩ := run_raiseIf_false h1 (fun s => !validWin s.blk s.seq.loc.ws s.seq.loc.we) .invalidGeometry
    (by rw [h1.blk, h1.loc]; exact congrArg not hvalid)
  obtain ⟨s3, e3, h3⟩ := run_acquire h2 hfree
  obtain ⟨s4, e4, h4⟩ := run_onBlk h3 (fun s b =>
    { b with win := some (windowOf s.seq.loc.ws s.seq.loc.we), xoff := s.seq.loc.px, yoff := s.seq.loc.py }) rfl rfl rfl
  obtain ⟨s5, e5, h5⟩ := run_panSlots h4
  obtain ⟨s6, e6, h6⟩ := run_release h5
  obtain ⟨s7, e7, h7⟩ := run_onBlk (xs := [finishWith .ok]) h6 (fun s b =>
    { b with res0 := BitVec.ofNat 32 s.seq.loc.ws, res1 := BitVec.ofNat 32 s.seq.loc.we }) rfl rfl rfl
  refine ⟨s7, e1.trans (e2.trans (e3.trans (e4.trans (e5.trans (e6.trans e7))))), ?_⟩
  rw [h3.loc, h6.loc, ← hfree] at h7
  exact h7

/-- Settles O35: the three ways PAN ends, and the two properties of the clamp. -/
theorem panResult : Obligations.PanResult := by
  intro s hs ha g x y first last valid
  have hx : x.toNat = panX s := toNat_clamp ..
  have hy : y.toNat = panY s := toNat_clamp ..
  have hfirst : first = panFirst s := by simp only [first, hx, hy]; rfl
  have hlast : last = panEnd s := by simp only [last, hfirst]; rfl
  have hiff : s.blk.haveMode = true → (validWin s.blk (panFirst s) (panEnd s) = true ↔ valid) := fun hmode => by
    rw [validWin_iff, ← hlast, ← hfirst]; exact and_iff_right hmode
  refine ⟨fun hmode => ?noMode, fun hmode hbad => ?invalid, fun hmode hgood hfree => ?ok, fun h => ?fitsX, fun h => ?fitsY⟩
  case noMode => exact exec_check_fails rfl (by decide) hs ha fun u _ hblk => by rw [hblk, hmode, Bool.not_false]
  case invalid => exact exec_pan_invalid hs ha hmode (Bool.eq_false_iff.mpr (mt (hiff hmode).mp hbad))
  case ok =>
    obtain ⟨t, hexec, hend⟩ := exec_pan_ok hs ha ((hiff hmode).mpr hgood) hfree
    rw [← hfirst, ← hlast, ← hx, ← hy] at hend
    exact ⟨t, hexec, hend⟩
  case fitsX => rw [hx]; exact clampAxis_add_le _ h
  case fitsY => rw [hy]; exact clampAxis_add_le _ h

end Sys2Proof.Machine
end

section
/-! One step of a command or of a decoder body at a given line, and what its block, and nothing else, has become. -/

namespace Sys2Proof.Machine

variable {i : Instr} {k : Nat} {s u : State} {b : Blk}

/-! ## A turn from a given line -/

/-- A turn of a command that stands before one of its lines. -/
theorem exec_from (hp : s.seq.pc = .run (some i) k) (hk : k < (linesOf (some i)).length) :
    exec i s = .next (runActs .seq ((linesOf (some i)).drop k) s.seq.turn s) := by
  simp only [exec_eq_seqTurn, seqTurn, hp, if_pos hk]

/-- A turn whose first line stays. -/
theorem exec_stays_first (hs : AtLine i k 1 s) (hline : (linesOf (some i))[k]?.map (· s) = some (.stay u)) :
    exec i s = .next u := by
  obtain ⟨hp, hturn⟩ := hs
  obtain ⟨x, hx, hstay⟩ := Option.map_eq_some_iff.mp hline
  obtain ⟨hk, rfl⟩ := List.getElem?_eq_some_iff.mp hx
  obtain ⟨n, hn⟩ := Nat.exists_eq_add_of_le' hturn
  rw [exec_from hp hk, List.drop_eq_getElem_cons hk, hn, runActs_stay hstay]

/-- The step pointer moves on, and the block is `b`. -/
theorem bump_eq_stepped (hp : s.seq.pc = .run (some i) k) (b : Blk) : bump .seq { s with blk := b } = s.stepped i k b := by
  simp only [bump, hp, State.stepped]

/-- A turn of one step whose line changes the block alone. -/
theorem exec_stepped (hp : s.seq.pc = .run (some i) k) (hturn : s.seq.turn = 1)
    (hline : (linesOf (some i))[k]?.map (· s) = some (.go { s with blk := b })) : exec i s = .next (s.stepped i k b) := by
  obtain ⟨x, hx, hgo⟩ := Option.map_eq_some_iff.mp hline
  obtain ⟨hk, rfl⟩ := List.getElem?_eq_some_iff.mp hx
  rw [exec_from hp hk, List.drop_eq_getElem_cons hk, hturn, runActs_go hgo, runActs_zero, bump_eq_stepped hp]

/-- A turn of one step of an activation, at a line that goes on (R281). -/
theorem irqdTurn_one {r : Rev} {x : Act} (hp : s.irqd.pc = .run r k) (hx : (irqBody r)[k]? = some x) (hgo : x s = .go u) :
    irqdTurn 1 s = .next (bump .irqd u) := by
  obtain ⟨hk, rfl⟩ := List.getElem?_eq_some_iff.mp hx
  simp only [irqdTurn, irqdContinue, hp, if_pos hk, List.drop_eq_getElem_cons hk]
  rw [runActs_go hgo, runActs_zero]

/-- As many steps as there are lines before `ys` run those lines alone. -/
theorem runActs_append (a : Agent) (xs ys : List Act) : ∀ s, runActs a (xs ++ ys) xs.length s = runAll a xs s := by
  induction xs with
  | nil => exact fun s => runActs_zero a ys s
  | cons x xs ih =>
    intro s
    simp only [List.cons_append, List.length_cons, runActs, runAll]
    cases x s with
    | go s' => exact ih _
    | stay s' => rfl
    | stop s' => rfl

end Sys2Proof.Machine
end

section
/-! ENABLE (R220, R221), and the first and the last step of `ENABLE_SEQ` wherever `SEQ` or the V2 decoder runs it (R227). -/

namespace Sys2Proof.Machine

variable {s : State}

/-! ## ENABLE -/

theorem exec_enable_ok (hs : AtStart .enable s) (ha : Awake s) :
    ∃ t, exec .enable s = .next t ∧ Ended s t { s.blk with rstate := .enabled } .ok (enableAccesses s) :=
  exec_sequence_ok (L := s.seq.loc) (ls := enableSeq .seq) rfl (by decide) hs ha fun _ hu => run_enableSeq hu

/-- The actions of `ENABLE_SEQ` as R220 and R221 list them. -/
theorem enableAccesses_eq (s : State) :
    enableAccesses s =
      if s.blk.rev = .v2 then
        [.write .clkReset (ins 0#32 (s.cfg.pos .v2 .mainReset) 1), .hold 1, .write .clkReset 0#32, .hold 1,
         .rmw .rasterCtrl [(.rasterEn, 1)]]
      else [.rmw .rasterCtrl [(.rasterEn, 1)]] := by
  have hreset := whenB_isV2_rev s fun r =>
    [.write .clkReset (ins 0#32 (s.cfg.pos r .mainReset) 1), .hold 1, .write .clkReset 0#32, .hold 1]
  rw [enableAccesses, softResetAccesses, hreset]
  split <;> rfl

/-! ## The steps of the sequencer -/

theorem exec_enableSeq_first {i : Instr} {k : Nat} (hm : (i, k) ∈ enableSeqs) (hturn : s.seq.turn = 1)
    (hp : s.seq.pc = .run (some i) k) : exec i s = .next (s.stepped i k { s.blk with rstate := .enabling }) :=
  exec_stepped hp hturn (congrArg (Option.map (· s)) (enableSeq_ends _ hm).1)

theorem exec_enableSeq_last {i : Instr} {k : Nat} (hm : (i, k) ∈ enableSeqs) (hturn : s.seq.turn = 1)
    (hp : s.seq.pc = .run (some i) (k + 7)) :
    exec i s = .next (s.stepped i (k + 7) { s.blk with rstate := .enabled }) :=
  exec_stepped hp hturn (congrArg (Option.map (· s)) (enableSeq_ends _ hm).2)

/-! ## The steps of the V2 decoder -/

/-- The first lines of the enable sequences in the V2 body, with the case that each belongs to (R288, R289). -/
def decoderEnables : List (Nat × IrqCase) := [(5, .fault), (19, .palette)]

/-- Each of them begins and ends with a line that sets the raster state in its case. -/
theorem decoderEnable_ends : ∀ e ∈ decoderEnables,
    (irqBody .v2)[e.1]? =
        some (onlyIf (fun s => irqCase s.cfg s.blk.rev .v2 s.irqd.s == e.2) (setRState .enabling)) ∧
      (irqBody .v2)[e.1 + 7]? =
        some (onlyIf (fun s => irqCase s.cfg s.blk.rev .v2 s.irqd.s == e.2) (setRState .enabled)) := by
  simp only [decoderEnables, List.forall_mem_cons, List.not_mem_nil, false_implies, implies_true, and_true]
  exact ⟨⟨rfl, rfl⟩, rfl, rfl⟩

/-- The step at a line of the V2 body that sets the raster state in the case the status word selects (R293). -/
theorem irqdTurn_setRState {k : Nat} {c : IrqCase} {r : RState}
    (hx : (irqBody .v2)[k]? = some (onlyIf (fun s => irqCase s.cfg s.blk.rev .v2 s.irqd.s == c) (setRState r)))
    (hc : irqCase s.cfg s.blk.rev .v2 s.irqd.s = c) (hp : s.irqd.pc = .run .v2 k) :
    irqdTurn 1 s = .next
      { s with blk := { s.blk with rstate := r }, irqd := { s.irqd with pc := .run .v2 (k + 1) } } := by
  have hgo := (onlyIf_go (fun s => irqCase s.cfg s.blk.rev .v2 s.irqd.s == c) (setRState r) s _).mpr
    (.inl ⟨beq_iff_eq.mpr hc, rfl⟩)
  rw [irqdTurn_one hp hx hgo]
  simp only [bump, onBlk_irqd, hp]
  rfl

/-- The V2 case select on the bits of R287. -/
theorem irqCase_v2 (p : Params) (w : Word) :
    irqCase p .v2 .v2 w =
      if ext w (p.pos .v2 .syncLost) = 1 ∧ ext w (p.pos .v2 .fifoUfl) = 1 then .fault
      else if ext w (p.pos .v2 .plDone) = 1 then .palette else .frame := by
  simp only [irqCase, statusBit, Bool.and_eq_true, beq_iff_eq]

/-- Settles O36: ENABLE is its sequence between the preconditions and `finish OK`; the steps of R227 are the first and the
last line of each enable sequence. -/
theorem enableResult : Obligations.EnableResult := by
  refine ⟨fun s hs ha => ?command, fun s i k hm hturn => ⟨exec_enableSeq_first hm hturn, exec_enableSeq_last hm hturn⟩,
    ?decoder⟩
  case command =>
    rw [← enableAccesses_eq]
    exact exec_enable_ok hs ha
  case decoder =>
    intro s k hv2 bit fault hcase
    obtain ⟨c, hmem, hc⟩ : ∃ c, (k, c) ∈ decoderEnables ∧ irqCase s.cfg s.blk.rev .v2 s.irqd.s = c := by
      rw [hv2, irqCase_v2]
      rcases hcase with ⟨rfl, hfault⟩ | ⟨rfl, hnofault, hpl⟩
      · exact ⟨.fault, by decide, if_pos hfault⟩
      · exact ⟨.palette, by decide, (if_neg hnofault).trans (if_pos hpl)⟩
    obtain ⟨hfirst, hlast⟩ := decoderEnable_ends _ hmem
    exact ⟨irqdTurn_setRState hfirst hc, irqdTurn_setRState hlast hc⟩

end Sys2Proof.Machine
end

section
/-! `DISABLE_SEQ` (R225) inside any command that runs it: where a first turn that waits ends. -/

namespace Sys2Proof.Machine

variable {i : Instr} {s u : State} {b : Blk} {L : Locals} {l : List Access} {pre rest : List Act}
  {w : Vector Word 16 → Bool}

/-- The condition of the wait's lines reads what a run leaves as it was. -/
theorem Went.waits_eq (h : Went .seq s u b L l) (hw : waits s (w s.blk.arg) = true) :
    (w u.blk.arg && isV2 u) = true := by
  rw [h.isV2_eq, h.blk, h.arg]
  exact hw

/-- Lines that go through, one list after the other. -/
theorem run_append {P Q : State → Prop} {ls ms : List Act}
    (hls : ∀ xs, ∃ u, runAll .seq (ls ++ xs) s = runAll .seq xs u ∧ P u)
    (hms : ∀ u, P u → ∀ xs, ∃ u', runAll .seq (ms ++ xs) u = runAll .seq xs u' ∧ Q u') (xs : List Act) :
    ∃ u', runAll .seq (ls ++ ms ++ xs) s = runAll .seq xs u' ∧ Q u' := by
  obtain ⟨u, e, hu⟩ := hls (ms ++ xs)
  obtain ⟨u', e', hu'⟩ := hms u hu xs
  exact ⟨u', (congrArg (runAll .seq · s) (List.append_assoc ..)).trans (e.trans e'), hu'⟩

/-! ## The first turn of a wait

The command runs `pre`, then a `DISABLE_SEQ` that waits. -/

section
variable (hs : AtStart i s) (hlen : (linesOf (some i)).length ≤ fullTurn)
  (hlines : linesOf (some i) = pre ++ ((disableSeq fun s => w s.blk.arg) ++ rest))
  (hpre : ∀ xs, ∃ u, runAll .seq (pre ++ xs) s = runAll .seq xs u ∧ Went .seq s u b L l)
  (hw : waits s (w s.blk.arg) = true)
include hs hlen hlines hpre hw

/-- The turn ends at the test step, when the test finds the flag 0 and the environment lets it stay blocked (R262). -/
theorem exec_disableSeq_blocks (hfree : b.lock = .free)
    (hquiet : (s.does .seq (l ++ disableAccesses)).env.peek.timeout = false) :
    ∃ t, exec i s = .next t ∧
      Stands i (pre.length + 6) s t { b with rstate := .disablingWaitFrame, frameDoneFlag := false }
        (l ++ disableAccesses ++ [.stayed]) := by
  obtain ⟨u, e, hu, hpc⟩ := exec_stays (ls := pre ++ (disableSeq fun s => w s.blk.arg).take 6)
    (x := onlyIf (fun s => w s.blk.arg && isV2 s) (blockTest .frameDone fun _ => frameDoneTimeoutMs))
    (rest := (disableSeq fun s => w s.blk.arg).drop 7 ++ rest) (f := State.dropDraw) hs
    (by rw [hlines, List.append_assoc]; rfl) hlen
    (run_append hpre fun _ hu => run_disableArmed hu w hw hfree)
    fun u hu => (onlyIf_stay ..).mpr ⟨hu.waits_eq hw, (blockTest_stay ..).mpr
      (.inr ⟨by rw [hu.blk]; exact hfree, by rw [hu.blk]; rfl, by rw [hu.env]; exact hquiet, rfl⟩)⟩
  rw [List.length_append] at hpc
  exact ⟨_, e, hu.stands_dropDraw hpc⟩

/-- With the lock held the turn ends before the arm, the flag not cleared (R42). -/
theorem exec_disableSeq_locked (hlock : b.lock ≠ .free) :
    ∃ t, exec i s = .next t ∧
      Stands i (pre.length + 3) s t { b with rstate := .disablingWaitFrame } (l ++ disableAccesses) := by
  obtain ⟨u, e, hu, hpc⟩ := exec_stays (ls := pre ++ (disableSeq fun s => w s.blk.arg).take 3)
    (x := onlyIf (fun s => w s.blk.arg && isV2 s) acquire)
    (rest := (disableSeq fun s => w s.blk.arg).drop 4 ++ rest) (f := id) hs
    (by rw [hlines, List.append_assoc]; rfl) hlen
    (run_append hpre fun _ hu => run_disableStart hu w hw)
    fun u hu => onlyIf_waits (hu.waits_eq hw) (acquire_waits (by rw [hu.blk]; exact hlock))
  rw [List.length_append] at hpc
  exact ⟨_, e, hu.stands hpc⟩

end

end Sys2Proof.Machine
end

section
/-! DISABLE (R225), and the single steps of `DISABLE_SEQ` wherever `SEQ` runs it (R227). -/

namespace Sys2Proof.Machine

variable {i : Instr} {k : Nat} {s u u' : State} {rest : List Act}

/-! ## The arm on its own -/

theorem guarded_guarded (c d : State → Bool) (ls : List Act) :
    guarded c (guarded d ls) = guarded (fun s => c s && d s) ls := by
  simp only [guarded, List.map_map]
  exact congrArg (List.map · ls) (funext fun y => onlyIf_onlyIf c d y)

/-- A condition that no line of the arm of a disable-wait can change. -/
def IgnoresArm (c : Blk → Bool) : Prop := ∀ b v f, c { b with lock := v, frameDoneFlag := f } = c b

theorem IgnoresArm.kept {c : Blk → Bool} (hc : IgnoresArm c) {y : Act} (hy : y ∈ arm .frameDone) (h : y u = .go u') :
    c u'.blk = c u.blk := by
  simp only [arm, List.mem_cons, List.not_mem_nil, or_false] at hy
  rcases hy with rfl | rfl | rfl
  · unfold acquire at h
    split at h <;> cases h
    exact hc ..
  · cases h
    exact hc ..
  · cases h
    exact hc ..

/-- The three lines of the arm, under the condition of their `DISABLE_SEQ` (R225, R263). -/
theorem disableSeq_arms (s : State) : ∀ e ∈ disableSeqs s, ∃ c : Blk → Bool,
    c s.blk = (!skipsDisable e.1 s && waits s e.2.2) ∧ IgnoresArm c ∧
      (linesOf (some e.1)).drop (e.2.1 + 3) =
        guarded (fun u => c u.blk) (arm .frameDone) ++ (linesOf (some e.1)).drop (e.2.1 + 6) := by
  have halways : IgnoresArm fun b => b.rev == .v2 := fun _ _ _ => rfl
  simp only [disableSeqs, List.forall_mem_cons, List.not_mem_nil, false_implies, implies_true, and_true]
  refine ⟨⟨fun b => b.arg[(0 : Fin 16)].getLsbD 0 && b.rev == .v2, rfl, fun _ _ _ => rfl, rfl⟩,
    ⟨_, rfl, halways, rfl⟩, ⟨fun b => !b.suspended && b.rev == .v2, rfl, fun _ _ _ => rfl, ?detach⟩,
    _, rfl, halways, rfl⟩
  exact congrArg (· ++ _) (guarded_guarded (fun s => !s.blk.suspended) isV2 (arm .frameDone))

/-- The arm run on its own clears the frame-done flag and nothing else: the lock is free before it and after it (R263). -/
theorem exec_arm {c : Blk → Bool} (hp : s.seq.pc = .run (some i) k) (hturn : s.seq.turn = 3)
    (hlines : (linesOf (some i)).drop k = guarded (fun u => c u.blk) (arm .frameDone) ++ rest)
    (hc : c s.blk = true) (hkept : IgnoresArm c) (hfree : s.blk.lock = .free) :
    exec i s = .next (s.stepped i (k + 2) { s.blk with frameDoneFlag := false }) := by
  have hk : k < (linesOf (some i)).length := by
    by_contra hk
    rw [List.drop_eq_nil_of_le (Nat.le_of_not_lt hk)] at hlines
    cases hlines
  have hguard : runAll .seq (guarded (fun u => c u.blk) (arm .frameDone)) s = runAll .seq (arm .frameDone) s := by
    have hrun := runAll_guarded_true (a := .seq) (xs := []) (c := fun u => c u.blk) (I := fun u => c u.blk = true)
      (fun _ hu => hu) (fun y hy u u' hu hgo => by rw [bump_blk, hkept.kept hy hgo, hu]) hc
    rwa [List.append_nil, List.append_nil] at hrun
  have harm : runAll .seq (arm .frameDone) s = s.stepped i (k + 2) { s.blk with frameDoneFlag := false } := by
    simp only [arm, runAll_acquire, if_pos hfree, runAll_assign, runAll_release, runAll_nil]
    simp only [bump, State.onBlk, hp, State.stepped, Blk.setFlag, hfree]
  rw [exec_from hp hk, hlines, hturn, ← harm, ← hguard]
  exact congrArg Host.Outcome.next (runActs_append .seq (guarded (fun u => c u.blk) (arm .frameDone)) rest s)

/-! ## The test step -/

/-- The commands that run `DISABLE_SEQ`, where its test step stands, and whether they ask for the wait (R225, R145). -/
def disableTests (s : State) : List (Instr × Nat × Bool) :=
  [(.disable, 8, s.argBit 0 0), (.suspend, 8, true), (.detach, 7, !s.blk.suspended), (.modeSet, 24, true)]

/-- The test steps of the disable-waits, under the condition of their `DISABLE_SEQ` (R225, R262). -/
theorem disableSeq_tests (s : State) : ∀ e ∈ disableTests s,
    (linesOf (some e.1))[e.2.1]?.map (· s) =
      some (onlyIf (fun _ => waits s e.2.2) (blockTest .frameDone fun _ => frameDoneTimeoutMs) s) := by
  simp only [disableTests, List.forall_mem_cons, List.not_mem_nil, false_implies, implies_true, and_true]
  exact ⟨rfl, rfl, congrArg some (congrFun (onlyIf_onlyIf (fun s => !s.blk.suspended) isV2 _) s), rfl⟩

/-- A disable-wait whose test finds the flag 0 and no timeout stays at its test step (R262). -/
theorem exec_disableSeq_stays {w : Bool} (hm : (i, k, w) ∈ disableTests s) (hw : waits s w = true) (hs : AtLine i k 1 s)
    (hfree : s.blk.lock = .free) (hflag : s.blk.frameDoneFlag = false) (hquiet : s.env.peek.timeout = false) :
    exec i s = .next s.dropDraw :=
  exec_stays_first hs ((disableSeq_tests s _ hm).trans (congrArg some
    ((onlyIf_stay ..).mpr ⟨hw, (blockTest_stay ..).mpr (.inr ⟨hfree, hflag, hquiet, rfl⟩)⟩)))

/-! ## The steps that set the raster state -/

/-- The end of the wait (the last two rows of R227) as a line: a raster state that a decoder activation has moved is kept. -/
theorem leaveWait_go (s : State) :
    onlyIf (fun s => s.blk.rstate == .disablingWaitFrame) (setRState .disabled) s =
      .go { s with blk :=
        { s.blk with rstate := if s.blk.rstate = .disablingWaitFrame then .disabled else s.blk.rstate } } := by
  by_cases h : s.blk.rstate = .disablingWaitFrame
  · rw [if_pos h]
    exact (onlyIf_go ..).mpr (.inl ⟨beq_iff_eq.mpr h, rfl⟩)
  · rw [if_neg h]
    exact (onlyIf_go ..).mpr (.inr ⟨beq_false_of_ne h, rfl⟩)

/-- Rows 3 to 6 of R227, and the arm between them, wherever `SEQ` runs `DISABLE_SEQ`. -/
theorem exec_disableSeq_steps {w : Bool} (hm : (i, k, w) ∈ disableSeqs s) (hruns : skipsDisable i s = false) :
    (waits s w = true →
      (s.seq.pc = .run (some i) (k + 2) → s.seq.turn = 1 →
        exec i s = .next (s.stepped i (k + 2) { s.blk with rstate := .disablingWaitFrame })) ∧
      (s.seq.pc = .run (some i) (k + 3) → s.seq.turn = 3 → s.blk.lock = .free →
        exec i s = .next (s.stepped i (k + 5) { s.blk with frameDoneFlag := false })) ∧
      (s.seq.pc = .run (some i) (k + 8) → s.seq.turn = 1 →
        exec i s = .next (s.stepped i (k + 8)
          { s.blk with rstate := if s.blk.rstate = .disablingWaitFrame then .disabled else s.blk.rstate }))) ∧
    (waits s w = false → s.seq.pc = .run (some i) (k + 9) → s.seq.turn = 1 →
      exec i s = .next (s.stepped i (k + 9) { s.blk with rstate := .disabled })) := by
  obtain ⟨henter, hleave, hnow⟩ := disableSeq_sets s _ hm
  obtain ⟨c, hc, hkept, hlines⟩ := disableSeq_arms s _ hm
  have hcond : ∀ {x : Bool}, x = true → (!skipsDisable i s && x) = true := by
    rintro _ rfl
    rw [hruns]; rfl
  refine ⟨fun hw => ⟨fun hp hturn => ?enter, fun hp hturn hfree => ?arm, fun hp hturn => ?leave⟩, fun hw hp hturn => ?now⟩
  case enter => exact exec_stepped hp hturn (henter.trans (congrArg some (if_pos (hcond hw))))
  case arm => exact exec_arm hp hturn hlines (hc.trans (hcond hw)) hkept hfree
  case leave => exact exec_stepped hp hturn (hleave.trans (congrArg some ((if_pos (hcond hw)).trans (leaveWait_go s))))
  case now => exact exec_stepped hp hturn (hnow.trans (congrArg some (if_pos (hcond (by rw [hw]; rfl)))))

/-! ## The command -/

/-- Whether DISABLE waits for a frame, in the arguments it has latched (R225). -/
def waitPolicy (args : Vector Word 16) : Bool := args[(0 : Fin 16)].getLsbD 0

theorem waits_disable (hbit : s.argBit 0 0 = true) (hv2 : s.blk.rev = .v2) : waits s (waitPolicy s.blk.arg) = true :=
  Bool.and_eq_true_iff.mpr ⟨hbit, (isV2_iff s).mpr hv2⟩

/-- DISABLE that does not wait, or whose wait times out in the first turn. -/
theorem exec_disable_ok (hs : AtStart .disable s) (ha : Awake s) (hruns : disableRuns s (s.argBit 0 0) []) :
    ∃ t, exec .disable s = .next t ∧
      Ended s t (disabledBlk s (s.argBit 0 0)) .ok (disableTimedOut s (s.argBit 0 0)) :=
  exec_sequence_ok (L := s.seq.loc) (ls := disableSeq fun s => s.argBit 0 0) rfl (by decide) hs ha fun _ hu =>
    run_disableSeq hu waitPolicy hruns

/-- A later turn of DISABLE, from its test step, when the test returns. -/
theorem exec_disable_tested (hs : AtLine .disable 8 fullTurn s) (hbit : s.argBit 0 0 = true) (hv2 : s.blk.rev = .v2)
    (hfree : s.blk.lock = .free) (hr : testReturns s) :
    ∃ t, exec .disable s = .next t ∧ Ended s t (testedBlk s) .ok (testAccesses s) := by
  obtain ⟨u, e, hu⟩ := run_disableSeqTested (xs := [finishWith .ok]) waitPolicy (waits_disable hbit hv2) hfree hr
  exact ⟨_, exec_at hs (by decide) (by decide) e, hu.finish .ok⟩

/-- Settles O37: DISABLE is `DISABLE_SEQ` between the preconditions and `finish OK`, so its turns end where those of the
sequence do; the other clauses are the sequence's single steps in every command that runs it. -/
theorem disableResult : Obligations.DisableResult := by
  refine ⟨fun _ => exec_disable_ok, fun s hs ha hbit hv2 => ⟨fun ⟨hfree, hquiet⟩ => ?blocks, fun hlock => ?locked⟩,
    fun s hs hbit hv2 hfree => ?tested, fun _ _ _ _ => exec_disableSeq_stays, fun _ _ _ _ => exec_disableSeq_steps⟩
  case blocks =>
    exact exec_disableSeq_blocks (pre := prologue) (rest := [finishWith .ok]) hs (by decide) rfl
      (fun xs => run_prologue s xs ha) (waits_disable hbit hv2) hfree hquiet
  case locked =>
    exact exec_disableSeq_locked (pre := prologue) (rest := [finishWith .ok]) hs (by decide) rfl
      (fun xs => run_prologue s xs ha) (waits_disable hbit hv2) hlock
  case tested =>
    refine ⟨fun hflag => ?woken, fun hflag htimeout => ?timedOut⟩
    case woken =>
      simpa only [testedBlk, testAccesses, frameDoneTimeoutMs, if_pos hflag] using
        exec_disable_tested hs hbit hv2 hfree (.inl hflag)
    case timedOut =>
      simpa only [testedBlk, testAccesses, frameDoneTimeoutMs, hflag, Bool.false_eq_true, if_false] using
        exec_disable_tested hs hbit hv2 hfree (.inr htimeout)

end Sys2Proof.Machine
end

section
/-! SUSPEND and RESUME (R245, R246), and the two issued twice each (R247). -/

namespace Sys2Proof.Machine

variable {i : Instr} {s s0 : State} {b : Blk} {L : Locals} {l : List Access} {c : State → Bool}

/-! ## `requireAttached; if c: finish OK` -/

/-- Both lines of an attached block in which `c` fails. -/
theorem run_unlessDone (ha : s.blk.attached = true) (hc : ∀ u : State, u.blk = s.blk → c u = false) (xs : List Act) :
    ∃ s', runAll .seq ([requireAttached, finishIf c] ++ xs) s = runAll .seq xs s' ∧ Went .seq s s' s.blk s.seq.loc [] := by
  obtain ⟨u, e, hu⟩ := run_requireAttached s (finishIf c :: xs) ha
  refine ⟨bump .seq u, e.trans ?_, hu.bump⟩
  rw [runAll_finishIf, hc u hu.blk]
  exact if_neg Bool.false_ne_true

/-- A command that starts so ends OK at once, with no other change, when `c` holds. -/
theorem exec_done {ls : List Act} (hl : linesOf (some i) = requireAttached :: finishIf c :: ls)
    (hlen : (linesOf (some i)).length ≤ fullTurn) (hs : AtStart i s) (ha : s.blk.attached = true)
    (hc : ∀ u : State, u.blk = s.blk → c u = true) : exec i s = .next (s.finish .ok) := by
  rw [exec_eq_seqTurn]
  refine exec_of_run hs (by rw [hl]; exact Nat.succ_pos _) hlen ?_
  rw [hl, requireAttached, runAll_raiseIf, ha, runAll_finishIf, hc _ (bump_blk ..), if_pos rfl, bump_finish]
  exact if_neg Bool.false_ne_true

/-! ## SUSPEND -/

/-- SUSPEND after its disable: both power outputs drop, the block is suspended (R245). -/
theorem run_suspendRest (h : Went .seq s0 s b L l) :
    ∃ t, runAll .seq (suspendLines.drop 12) s = t ∧
      Ended s0 t { b with panelPower := false, clkRun := false, suspended := true } .ok l := by
  obtain ⟨s1, e1, h1⟩ := run_onBlk (xs := _) h (fun _ b => { b with panelPower := false }) rfl rfl rfl
  obtain ⟨s2, e2, h2⟩ := run_onBlk (xs := _) h1 (fun _ b => { b with clkRun := false }) rfl rfl rfl
  obtain ⟨s3, e3, h3⟩ := run_onBlk (xs := [finishWith .ok]) h2 (fun _ b => { b with suspended := true }) rfl rfl rfl
  exact ⟨_, e1.trans (e2.trans e3), h3.finish .ok⟩

/-- The lines of SUSPEND before its disable, in an awake block. -/
theorem run_suspendStart (ha : Awake s) (xs : List Act) :
    ∃ s', runAll .seq ([requireAttached, finishIf fun s => s.blk.suspended] ++ xs) s = runAll .seq xs s' ∧
      Went .seq s s' s.blk s.seq.loc [] :=
  run_unlessDone ha.1 (fun u hu => by rw [hu, ha.2]) xs

theorem exec_suspend_suspended (hs : AtStart .suspend s) (ha : s.blk.attached = true) (hsus : s.blk.suspended = true) :
    exec .suspend s = .next (s.finish .ok) :=
  exec_done rfl (by decide) hs ha fun u hu => by rw [hu, hsus]

/-- SUSPEND whose disable does not wait, or whose wait times out in the first turn (R225, R245). -/
theorem exec_suspend_awake (hs : AtStart .suspend s) (ha : Awake s) (hruns : disableRuns s true []) :
    ∃ t, exec .suspend s = .next t ∧
      Ended s t { disabledBlk s true with panelPower := false, clkRun := false, suspended := true } .ok
        (disableTimedOut s true) := by
  obtain ⟨u, e, hu⟩ := run_suspendStart ha (suspendLines.drop 2)
  obtain ⟨u', e', hu'⟩ := run_disableSeq (xs := suspendLines.drop 12) hu (fun _ => true) hruns
  obtain ⟨t, e'', hend⟩ := run_suspendRest hu'
  exact ⟨t, exec_of_run hs (by decide) (by decide) (e.trans (e'.trans e'')), hend⟩

/-- A later turn, from the test step of the disable-wait, when the test returns (R225, R262). -/
theorem exec_suspend_tested (hs : AtLine .suspend 8 fullTurn s) (hv2 : s.blk.rev = .v2) (hfree : s.blk.lock = .free)
    (hr : testReturns s) :
    ∃ t, exec .suspend s = .next t ∧
      Ended s t { testedBlk s with panelPower := false, clkRun := false, suspended := true } .ok (testAccesses s) := by
  obtain ⟨u, e, hu⟩ := run_disableSeqTested (xs := suspendLines.drop 12) (fun _ => true) ((isV2_iff s).mpr hv2) hfree hr
  obtain ⟨t, e', hend⟩ := run_suspendRest hu
  exact ⟨t, exec_at hs (by decide) (by decide) (e.trans e'), hend⟩

/-- Settles O38: SUSPEND is its two checks, `DISABLE_SEQ` with wait and three assignments, so its turns end where those of
the sequence do. -/
theorem suspendResult : Obligations.SuspendResult := by
  refine ⟨fun s hs ha => ⟨exec_suspend_suspended hs ha, fun hsus => exec_suspend_awake hs ⟨ha, hsus⟩,
    fun hsus hv2 => ⟨fun ⟨hfree, hquiet⟩ => ?blocks, fun hlock => ?locked⟩⟩, fun _ => exec_suspend_tested⟩
  case blocks =>
    exact exec_disableSeq_blocks (rest := suspendLines.drop 12) (w := fun _ => true) hs (by decide) rfl
      (run_suspendStart ⟨ha, hsus⟩) ((isV2_iff s).mpr hv2) hfree hquiet
  case locked =>
    exact exec_disableSeq_locked (rest := suspendLines.drop 12) (w := fun _ => true) hs (by decide) rfl
      (run_suspendStart ⟨ha, hsus⟩) ((isV2_iff s).mpr hv2) hlock

/-! ## RESUME -/

theorem exec_resume_awake (hs : AtStart .resume s) (ha : Awake s) : exec .resume s = .next (s.finish .ok) :=
  exec_done rfl (by decide) hs ha.1 fun u hu => by rw [hu, ha.2]; rfl

/-- RESUME of a suspended block: both power outputs, then the whole enable sequence (R220, R246). -/
theorem exec_resume_suspended (hs : AtStart .resume s) (ha : s.blk.attached = true) (hsus : s.blk.suspended = true) :
    ∃ t, exec .resume s = .next t ∧
      Ended s t { s.blk with clkRun := true, panelPower := true, suspended := false, rstate := .enabled } .ok
        (enableAccesses s) := by
  obtain ⟨s1, e1, h1⟩ := run_unlessDone (c := fun s => !s.blk.suspended) ha (fun u hu => by rw [hu, hsus]; rfl)
    (resumeLines.drop 2)
  obtain ⟨s2, e2, h2⟩ := run_onBlk (xs := _) h1 (fun _ b => { b with clkRun := true }) rfl rfl rfl
  obtain ⟨s3, e3, h3⟩ := run_onBlk (xs := _) h2 (fun _ b => { b with panelPower := true }) rfl rfl rfl
  obtain ⟨s4, e4, h4⟩ := run_onBlk (xs := resumeLines.drop 5) h3 (fun _ b => { b with suspended := false }) rfl rfl rfl
  obtain ⟨s5, e5, h5⟩ := run_enableSeq (xs := [finishWith .ok]) h4
  exact ⟨_, exec_of_run hs (by decide) (by decide) (e1.trans (e2.trans (e3.trans (e4.trans e5)))), h5.finish .ok⟩

/-- Settles O39: an awake block ends at the second line, a suspended one runs all of them. -/
theorem resumeResult : Obligations.ResumeResult := fun _ hs ha =>
  ⟨fun hsus => exec_resume_awake hs ⟨ha, hsus⟩, exec_resume_suspended hs ha⟩

/-! ## SUSPEND, SUSPEND, RESUME, RESUME (R247) -/

/-- A command that the host has just issued is at its start (R121). -/
theorem issued_atStart (s : State) (i : Instr) (args : Vector Word 16) : AtStart i (s.issued i args) :=
  ⟨congrArg (SeqPc.run · 0) (congrArg Except.toOption (decodeWord_encode i)), Nat.le_refl _⟩

theorem disabledBlk_attached (s : State) (w : Bool) : (disabledBlk s w).attached = s.blk.attached := by
  unfold disabledBlk; split <;> rfl

theorem disabledBlk_rev (s : State) (w : Bool) : (disabledBlk s w).rev = s.blk.rev := by
  unfold disabledBlk; split <;> rfl

/-- `ENABLE_SEQ` as the last sequence of a command leaves `RASTER_EN` last written 1 (R220). -/
theorem Ended.rasterEn_word {t : State} {c : Code} (h : Ended s t b c (l ++ enableAccesses s))
    (hwf : s.cfg.wellFormed = true) :
    ∃ w, t.lcdc.regs.rasterCtrl = some w ∧ ext w (s.cfg.pos s.blk.rev .rasterEn) = 1 := by
  rw [enableAccesses, ← List.append_assoc] at h
  exact ⟨_, h.rmw_word (m := []) (g := .rasterCtrl) rfl rfl, ext_insFields_required hwf rfl rfl Nat.one_lt_two rfl rfl⟩

/-- The first SUSPEND of an awake block (R245). -/
theorem exec_suspend_issued (args : Vector Word 16) (ha : Awake s) (hruns : disableRuns s true []) :
    ∃ t, exec .suspend (s.issued .suspend args) = .next t ∧
      t.blk.attached = true ∧ t.blk.suspended = true ∧ t.blk.rev = s.blk.rev ∧ t.cfg = s.cfg := by
  obtain ⟨t, e, hend⟩ := exec_suspend_awake (issued_atStart s .suspend args) ha hruns
  exact ⟨t, e, (congrArg Blk.attached hend.blk).trans ((disabledBlk_attached ..).trans ha.1),
    congrArg Blk.suspended hend.blk, (congrArg Blk.rev hend.blk).trans (disabledBlk_rev ..), hend.cfg⟩

/-- A SUSPEND of a suspended block: nothing but acceptance and `finish`. -/
theorem exec_suspend_again (args : Vector Word 16) (ha : s.blk.attached = true) (hsus : s.blk.suspended = true) :
    ∃ t, exec .suspend (s.issued .suspend args) = .next t ∧
      Ended (s.issued .suspend args) t (s.issued .suspend args).blk .ok [] ∧
      t.blk.attached = true ∧ t.blk.suspended = true ∧ t.blk.rev = s.blk.rev ∧ t.cfg = s.cfg :=
  ⟨_, exec_suspend_suspended (issued_atStart s .suspend args) ha hsus, (went_start ..).finish .ok, ha, hsus, rfl, rfl⟩

/-- The first RESUME of a suspended block (R246). -/
theorem exec_resume_issued (args : Vector Word 16) (ha : s.blk.attached = true) (hsus : s.blk.suspended = true)
    (hwf : s.cfg.wellFormed = true) :
    ∃ t, exec .resume (s.issued .resume args) = .next t ∧ Awake t ∧ t.blk.panelPower = true ∧ t.blk.clkRun = true ∧
      ∃ w, t.lcdc.regs.rasterCtrl = some w ∧ ext w (s.cfg.pos s.blk.rev .rasterEn) = 1 := by
  obtain ⟨t, e, hend⟩ := exec_resume_suspended (issued_atStart s .resume args) ha hsus
  exact ⟨t, e, ⟨(congrArg Blk.attached hend.blk).trans ha, congrArg Blk.suspended hend.blk⟩,
    congrArg Blk.panelPower hend.blk, congrArg Blk.clkRun hend.blk, hend.rasterEn_word (l := []) hwf⟩

/-- A RESUME of an awake block: nothing but acceptance and `finish`. -/
theorem exec_resume_again (args : Vector Word 16) (ha : Awake s) :
    ∃ t, exec .resume (s.issued .resume args) = .next t ∧
      Ended (s.issued .resume args) t (s.issued .resume args).blk .ok [] :=
  ⟨_, exec_resume_awake (issued_atStart s .resume args) ha, (went_start ..).finish .ok⟩

/-- Settles O40: the first SUSPEND leaves a suspended block, so the second does nothing and the first RESUME enables; that
leaves an awake block, so the second RESUME does nothing. -/
theorem powerIsSymmetricAndIdempotent : Obligations.PowerIsSymmetricAndIdempotent := by
  intro s args hwf ha hruns
  obtain ⟨t1, e1, hatt1, hsus1, hrev1, hcfg1⟩ := exec_suspend_issued args ha hruns
  obtain ⟨t2, e2, hend2, hatt2, hsus2, hrev2, hcfg2⟩ := exec_suspend_again args hatt1 hsus1
  obtain ⟨t3, e3, ha3, hpanel, hclk, w, hw, hen⟩ := exec_resume_issued args hatt2 hsus2 (hcfg2.trans hcfg1 ▸ hwf)
  obtain ⟨t4, e4, hend4⟩ := exec_resume_again args ha3
  rw [hcfg2, hcfg1, hrev2, hrev1] at hen
  exact ⟨t1, t2, t3, t4, e1, e2, e3, e4, hend2, hend4, hpanel, hclk, ha3.2, w, hw, hen⟩

end Sys2Proof.Machine
end

section
/-! MODE_SET's validation (R239): six checks and NEGOTIATE, one line after the other. -/

namespace Sys2Proof.Machine

variable {s s0 u : State} {b : Blk} {L : Locals} {l : List Access} {xs : List Act}

/-! ## A list of checks (R313) -/

/-- A failing check gives an error code. -/
abbrev Check := (State → Bool) × Code

/-- The lines of a list of checks. -/
def checkLines (cs : List Check) : List Act := cs.map fun p => raiseIf p.1 p.2

/-- Checks that look at nothing but the block. -/
def OfBlk (cs : List Check) : Prop := ∀ p ∈ cs, ∀ u v : State, p.1 { v with blk := u.blk } = p.1 u

theorem OfBlk.eq {cs : List Check} (h : OfBlk cs) {p : Check} (hp : p ∈ cs) {u v : State} (huv : u.blk = v.blk) :
    p.1 u = p.1 v := by
  rw [← h p hp u v, huv]

/-- Checks that raise nothing. -/
theorem run_checkLines_pass {cs : List Check} (hcs : OfBlk cs) (hpass : ∀ p ∈ cs, p.1 s = false) :
    ∀ {u : State}, u.blk = s.blk → Went .seq s0 u b L l →
      ∃ u', runAll .seq (checkLines cs ++ xs) u = runAll .seq xs u' ∧ Went .seq s0 u' b L l := by
  induction cs with
  | nil => exact fun _ h => ⟨_, rfl, h⟩
  | cons p cs ih =>
    intro u hu h
    obtain ⟨-, hrest⟩ := List.forall_mem_cons.mp hcs
    obtain ⟨hfalse, hpass⟩ := List.forall_mem_cons.mp hpass
    obtain ⟨u1, e1, h1⟩ := run_raiseIf_false (xs := checkLines cs ++ xs) h p.1 p.2 ((hcs.eq List.mem_cons_self hu).trans hfalse)
    obtain ⟨u2, e2, h2⟩ := ih hrest hpass (h1.blk.trans (h.blk.symm.trans hu)) h1
    exact ⟨u2, e1.trans e2, h2⟩

/-- The first check that fails ends the command with its code. -/
theorem run_checkLines_fail {cs : List Check} (hcs : OfBlk cs) {k : Nat} {p : Check} (hp : cs[k]? = some p)
    (hpass : ∀ q ∈ cs.take k, q.1 s = false) (hfail : p.1 s = true) (h : Went .seq s u s.blk L l) :
    ∃ t, runAll .seq (checkLines cs ++ xs) u = t ∧ Ended s t s.blk p.2 l := by
  obtain ⟨hk, rfl⟩ := List.getElem?_eq_some_iff.mp hp
  obtain ⟨u1, e1, h1⟩ := run_checkLines_pass (xs := checkLines (cs.drop k) ++ xs)
    (fun q hq => hcs q (List.mem_of_mem_take hq)) hpass h.blk h
  refine ⟨_, ?_, h1.finish _⟩
  have hsplit : checkLines cs = checkLines (cs.take k) ++ checkLines (cs.drop k) := by
    rw [checkLines, checkLines, checkLines, ← List.map_append, List.take_append_drop]
  rw [hsplit, List.append_assoc, e1, List.drop_eq_getElem_cons hk, checkLines, List.map_cons, List.cons_append,
    runAll_raiseIf, hcs.eq (List.getElem_mem hk) h1.blk, hfail, if_pos rfl]

/-! ## The checks of MODE_SET -/

/-- The checks of R239 before NEGOTIATE, whose first line is the last of them. -/
def modeCheckList : List Check :=
  [(fun s => !bppOk (s.argN 2) s.blk.rev, .unsupportedFormat), (fun s => shadeCode (s.arg 3) == 3, .unsupportedFormat),
   (fun s => !modeSizesOk s, .invalidGeometry), (fun s => !modeFrameOk s, .invalidGeometry),
   (fun s => !modeFitsVram s, .invalidGeometry), (fun s => s.argN 4 == 0, .clockError)]

/-- The first phase is these checks and NEGOTIATE (R239). -/
theorem modeChecks_eq : modeChecks = checkLines modeCheckList ++ negotiate fun s => hzOfPs (s.argN 4) := rfl

theorem modeCheckList_ofBlk : OfBlk modeCheckList := by
  simp only [OfBlk, modeCheckList, List.forall_mem_cons, List.not_mem_nil, false_implies, implies_true, and_true]
  exact ⟨fun _ _ => rfl, fun _ _ => rfl, fun _ _ => rfl, fun _ _ => rfl, fun _ _ => rfl, fun _ _ => rfl⟩

/-- Check 1 raises nothing (R177). -/
theorem not_bppOk_eq_false_iff (bpp : Nat) (r : Rev) : (!bppOk bpp r) = false ↔
    (bpp = 1 ∨ bpp = 2 ∨ bpp = 4 ∨ bpp = 8 ∨ bpp = 16 ∨ bpp = 24 ∨ bpp = 32) ∧ ¬(r = .v1 ∧ 16 < bpp) := by
  rw [Bool.not_eq_false', bppOk_iff]

/-- Check 3 raises nothing. -/
theorem not_modeSizesOk_eq_false_iff (s : State) : (!modeSizesOk s) = false ↔
    1 ≤ s.argN 0 ∧ 1 ≤ s.argN 1 ∧ s.argN 0 ≤ askedXresV s ∧ s.argN 1 ≤ askedYresV s := by
  simp only [Bool.not_eq_false', modeSizesOk, Bool.and_eq_true, decide_eq_true_eq, and_assoc]
  rfl

/-- Check 4 raises nothing. -/
theorem not_modeFrameOk_eq_false_iff (s : State) : (!modeFrameOk s) = false ↔ 2 ≤ s.argN 1 * askedLineLen s := by
  rw [Bool.not_eq_false']
  exact decide_eq_true_iff

/-- Check 5 raises nothing. -/
theorem not_modeFitsVram_eq_false_iff (s : State) :
    (!modeFitsVram s) = false ↔ askedYresV s * askedLineLen s ≤ s.blk.vram.size := by
  rw [Bool.not_eq_false']
  exact decide_eq_true_iff

/-- One more check that passes. -/
theorem pass_take_succ {cs : List Check} {k : Nat} {p : Check} (hpass : ∀ q ∈ cs.take k, q.1 s = false)
    (hp : cs[k]? = some p) (h : p.1 s = false) : ∀ q ∈ cs.take (k + 1), q.1 s = false := by
  intro q hq
  rw [List.take_add_one, hp, List.mem_append] at hq
  obtain hq | hq := hq
  · exact hpass q hq
  · rwa [List.mem_singleton.mp hq]

/-- A MODE_SET that passes validation passes each check. -/
theorem ModeValid.checks (hv : ModeValid s) : ∀ p ∈ modeCheckList, p.1 s = false := by
  obtain ⟨⟨hbpp, hrev⟩, hshade, hsizes, hframe, hvram, hps, -⟩ := hv
  simp only [List.mem_cons, List.not_mem_nil, or_false] at hbpp
  simp only [modeCheckList, List.forall_mem_cons, List.not_mem_nil, false_implies, implies_true, and_true,
    not_bppOk_eq_false_iff, not_modeSizesOk_eq_false_iff, not_modeFrameOk_eq_false_iff, not_modeFitsVram_eq_false_iff,
    beq_eq_false_iff_ne]
  exact ⟨⟨hbpp, hrev⟩, hshade, hsizes, hframe, hvram, hps⟩

/-! ## Validation -/

/-- The clock that the arguments of MODE_SET ask for (R162). -/
def hzOfArgs (args : Vector Word 16) : Nat := 10 ^ 12 / args[4].toNat

/-- MODE_SET up to NEGOTIATE, when the checks before it pass. -/
theorem run_modeStart (ha : Awake s) (hpass : ∀ p ∈ modeCheckList, p.1 s = false) (xs : List Act) :
    ∃ u, runAll .seq (prologue ++ checkLines modeCheckList ++ xs) s = runAll .seq xs u ∧
      Went .seq s u s.blk s.seq.loc [] := by
  obtain ⟨u, e, hu⟩ := run_prologue s (checkLines modeCheckList ++ xs) ha
  obtain ⟨u', e', hu'⟩ := run_checkLines_pass (xs := xs) modeCheckList_ofBlk hpass hu.blk hu
  exact ⟨u', e.trans e', hu'⟩

/-- A check before NEGOTIATE that is the first to fail (R239). -/
theorem exec_modeSet_check_fails (hs : AtStart .modeSet s) (ha : Awake s) {k : Nat} {p : Check}
    (hp : modeCheckList[k]? = some p) (hpass : ∀ q ∈ modeCheckList.take k, q.1 s = false) (hfail : p.1 s = true) :
    ∃ t, exec .modeSet s = .next t ∧ Ended s t s.blk p.2 [] := by
  obtain ⟨u, e, hu⟩ := run_prologue s (modeSetLines.drop 2) ha
  obtain ⟨t, e', hend⟩ := run_checkLines_fail (xs := modeSetLines.drop 8) modeCheckList_ofBlk hp hpass hfail hu
  exact ⟨t, exec_of_run hs (by decide) (by decide) (e.trans e'), hend⟩

/-- A clock of 0 Hz is the first line of NEGOTIATE to fail (R162, R163). -/
theorem exec_modeSet_noClock (hs : AtStart .modeSet s) (ha : Awake s) (hpass : ∀ p ∈ modeCheckList, p.1 s = false)
    (hz : askedHz s = 0) : ∃ t, exec .modeSet s = .next t ∧ Ended s t s.blk .clockError [] := by
  obtain ⟨u, e, hu⟩ := run_modeStart ha hpass (modeSetLines.drop 8)
  obtain ⟨hzero, -, -⟩ := run_negotiate (xs := modeSetLines.drop 14) hu hzOfArgs
  exact ⟨_, exec_of_run hs (by decide) (by decide) (e.trans (hzero hz)), hu.finish _⟩

/-- A rejected re-request ends MODE_SET after the exchanges (R163). -/
theorem exec_modeSet_rejected (hs : AtStart .modeSet s) (ha : Awake s) (hpass : ∀ p ∈ modeCheckList, p.1 s = false)
    (hz : askedHz s ≠ 0) (hn : ¬negotiates s (askedHz s)) :
    ∃ t, exec .modeSet s = .next t ∧ Ended s t s.blk .clockError (negotiateAccesses s (askedHz s)) := by
  obtain ⟨u, e, hu⟩ := run_modeStart ha hpass (modeSetLines.drop 8)
  obtain ⟨-, hrejected, -⟩ := run_negotiate (xs := modeSetLines.drop 14) hu hzOfArgs
  obtain ⟨v, _, e', hv⟩ := hrejected hz hn
  exact ⟨_, exec_of_run hs (by decide) (by decide) (e.trans e'), hv.finish .clockError⟩

/-- A request outside the divider's range that the clock source does not answer is rejected with these exchanges (R163). -/
theorem negotiate_unanswered {hz : Nat} (hq : ceilDiv (firstRate s) hz < 2 ∨ 255 < ceilDiv (firstRate s) hz)
    (hans : rerequestAnswer s = none) :
    ¬negotiates s hz ∧
      negotiateAccesses s hz = [.clkRate, .clkRequest (hz * min 255 (max 2 (ceilDiv (firstRate s) hz)))] := by
  have hclamped := (computeDivider_snd_iff hz (firstRate s)).mpr hq
  refine ⟨fun hn => ?_, ?_⟩
  · have hsome := hn.2 hclamped
    rw [hans] at hsome
    cases hsome
  · rw [negotiateAccesses, hclamped, computeDivider_fst]
    rfl

/-- Settles O29: the checks stand in the order of R239, each the negation of its line's condition, and the clock source is
asked only after the sixth. -/
theorem modeSetErrorOrder : Obligations.ModeSetErrorOrder := by
  intro s hs ha width height bpp ps xresV yresV lineLen hz q d check1 check2 check3 check4 check5 endsWith
  have h1 : (!bppOk (s.argN 2) s.blk.rev) = false ↔ check1 := not_bppOk_eq_false_iff ..
  have h2 : (shadeCode (s.arg 3) == 3) = false ↔ check2 := beq_eq_false_iff_ne
  have h3 : (!modeSizesOk s) = false ↔ check3 := not_modeSizesOk_eq_false_iff s
  have h4 : (!modeFrameOk s) = false ↔ check4 := not_modeFrameOk_eq_false_iff s
  have h5 : (!modeFitsVram s) = false ↔ check5 := not_modeFitsVram_eq_false_iff s
  have h6 : (s.argN 4 == 0) = false ↔ ps ≠ 0 := beq_eq_false_iff_ne
  have hfails {x : Bool} {p : Prop} (h : x = false ↔ p) (hp : ¬p) : x = true := Bool.eq_true_of_not_eq_false (mt h.mp hp)
  have pass1 (c1 : check1) := pass_take_succ (cs := modeCheckList) (k := 0) nofun rfl (h1.mpr c1)
  have pass2 (c1 : check1) (c2 : check2) := pass_take_succ (pass1 c1) rfl (h2.mpr c2)
  have pass3 (c1 : check1) (c2 : check2) (c3 : check3) := pass_take_succ (pass2 c1 c2) rfl (h3.mpr c3)
  have pass4 (c1 : check1) (c2 : check2) (c3 : check3) (c4 : check4) := pass_take_succ (pass3 c1 c2 c3) rfl (h4.mpr c4)
  have pass5 (c1 : check1) (c2 : check2) (c3 : check3) (c4 : check4) (c5 : check5) :=
    pass_take_succ (pass4 c1 c2 c3 c4) rfl (h5.mpr c5)
  refine ⟨fun n1 => ?bpp, fun c1 n2 => ?shade, fun c1 c2 n3 => ?sizes, fun c1 c2 c3 n4 => ?frame,
    fun c1 c2 c3 c4 n5 => ?vram, fun c1 c2 c3 c4 c5 hclock => ?clock,
    fun c1 c2 c3 c4 c5 c6 hhz hq hans => ?unanswered⟩
  case bpp => exact exec_modeSet_check_fails (k := 0) hs ha rfl nofun (hfails h1 n1)
  case shade => exact exec_modeSet_check_fails hs ha rfl (pass1 c1) (hfails h2 n2)
  case sizes => exact exec_modeSet_check_fails hs ha rfl (pass2 c1 c2) (hfails h3 n3)
  case frame => exact exec_modeSet_check_fails hs ha rfl (pass3 c1 c2 c3) (hfails h4 n4)
  case vram => exact exec_modeSet_check_fails hs ha rfl (pass4 c1 c2 c3 c4) (hfails h5 n5)
  case clock =>
    by_cases c6 : ps = 0
    · exact exec_modeSet_check_fails hs ha rfl (pass5 c1 c2 c3 c4 c5) (hfails h6 (not_not.mpr c6))
    · exact exec_modeSet_noClock hs ha (pass_take_succ (pass5 c1 c2 c3 c4 c5) rfl (h6.mpr c6)) (hclock.resolve_left c6)
  case unanswered =>
    obtain ⟨hn, hl⟩ := negotiate_unanswered hq hans
    obtain ⟨t, hexec, hend⟩ :=
      exec_modeSet_rejected hs ha (pass_take_succ (pass5 c1 c2 c3 c4 c5) rfl (h6.mpr c6)) hhz hn
    exact ⟨t, hexec, (congrArg (Ended s t s.blk .clockError) hl).mp hend⟩

end Sys2Proof.Machine
end

section
/-! MODE_SET that passes validation (R240, R241): the commit, the register sequence after the disable, and where its turns
end. -/

namespace Sys2Proof.Machine

variable {s u : State} {b : Blk} {L : Locals} {l : List Access}

/-! ## What the mode asks for (R129, R239, R240) -/

/-- The shade that the MODE word asks for (R129). -/
def askedShade (s : State) : Shade :=
  if bitsAt (s.arg 3) 0 2 = 0 then .mono else if bitsAt (s.arg 3) 0 2 = 1 then .tft else .stn

/-- The display mode that the MODE word asks for (R129, R240). -/
def askedMode (s : State) : DisplayMode where
  shade := askedShade s
  mono8 := (s.arg 3).getLsbD 2
  tftAlt := (s.arg 3).getLsbD 3
  stn565 := (s.arg 3).getLsbD 4
  hHigh := (s.arg 3).getLsbD 6
  vHigh := (s.arg 3).getLsbD 7

/-- The format record that the mode asks for (R34, R240). -/
def askedFmt (s : State) : Fmt where
  bpp := s.argN 2
  shade := askedShade s
  mono8 := (s.arg 3).getLsbD 2
  tftAlt := (s.arg 3).getLsbD 3
  stn565 := (s.arg 3).getLsbD 4
  rasterOrder := (s.arg 3).getLsbD 5
  hsyncActiveHigh := (s.arg 3).getLsbD 6
  vsyncActiveHigh := (s.arg 3).getLsbD 7

/-- The divider that NEGOTIATE settles on for the clock the mode asks for (R160, R163). -/
def askedDivider (s : State) : Nat := (computeDivider (askedHz s) (firstRate s)).1

/-- The first byte of the visible frame, from the arguments and the vram region (R240). -/
def frameFirst (_ : Vector Word 16) (v : Vram) : Nat := v.base

/-- The last byte of the visible frame, from the arguments and the vram region (R240). -/
def frameLast (args : Vector Word 16) (v : Vram) : Nat :=
  v.base + args[1].toNat * ((if args[11].toNat ≠ 0 then args[11].toNat else args[0].toNat) * args[2].toNat / 8) - 1

/-- The block after the commit (R240). -/
def committedBlk (s : State) : Blk :=
  { s.blk with
    fmt := askedFmt s, geo := ⟨s.argN 0, s.argN 1, askedXresV s, askedYresV s, askedLineLen s⟩, haveMode := true
    divider := BitVec.ofNat 8 (askedDivider s), srcRate := achieved s (askedHz s) }

/-- The block at the end of phase 3, from the block `b` after the disable and the divider `d` (R240). -/
def programmedBlk (s : State) (b : Blk) (d : Nat) : Blk :=
  { b with
    rstate := .enabled, palCount := palCount (s.argN 2)
    win := some (windowOf (frameFirst s.blk.arg s.blk.vram) (frameLast s.blk.arg s.blk.vram)), xoff := 0, yoff := 0
    res0 := BitVec.ofNat 32 (palCount (s.argN 2)), res1 := BitVec.ofNat 32 d }

/-- The actions of phase 3 after the disable up to the write of `CTRL` (R241). -/
def formatAccesses (s : State) : List Access :=
  displayAccesses s (askedMode s)
    ++ (if askedShade s = .stn then acbAccesses (s.arg 13) (s.arg 14) else [])
    ++ hsyncAccesses s (s.arg 5) (s.arg 6) (s.arg 7) ++ vsyncAccesses s (s.arg 8) (s.arg 9) (s.arg 10)
    ++ geometryAccesses s (s.arg 0) (s.arg 1) (s.argN 2) (s.argBit 3 5)

/-- The window on the visible frame (R200, R241). -/
def frameWinAccesses (s : State) : List Access :=
  setWinAccesses s (BitVec.ofNat 32 (frameFirst s.blk.arg s.blk.vram)) (BitVec.ofNat 32 (frameLast s.blk.arg s.blk.vram))

/-- The actions of phase 3 after the disable (R241). -/
def programAccesses (s : State) (d : Nat) : List Access :=
  formatAccesses s ++ [.write .ctrl (ctrlWord s.cfg s.blk.rev d)] ++ frameWinAccesses s ++ enableAccesses s

/-! ## The shade (R129) -/

theorem displayModeOfMode_arg (hshade : bitsAt (s.arg 3) 0 2 ≠ 3) : displayModeOfMode (s.arg 3) = askedMode s :=
  displayModeOfMode_eq hshade

theorem fmtOf_arg (hshade : bitsAt (s.arg 3) 0 2 ≠ 3) : fmtOf (s.argN 2) (s.arg 3) = askedFmt s := by
  rw [fmtOf, askedFmt, askedShade, ← (DisplayMode.mk.inj (displayModeOfMode_eq hshade)).1]

theorem askedShade_eq_stn_iff (hshade : bitsAt (s.arg 3) 0 2 ≠ 3) : askedShade s = .stn ↔ bitsAt (s.arg 3) 0 2 = 2 := by
  rw [askedShade]
  obtain h | h | h := shadeCode_cases hshade <;> simp [h]

/-- The condition on the AC-bias lines as a line reads it. -/
theorem shadeOf_shadeCode_iff (w : Word) : (shadeOf (shadeCode w) == some .stn) = true ↔ bitsAt w 0 2 = 2 := by
  rw [shadeCode]
  generalize bitsAt w 0 2 = q
  match q with
  | 0 | 1 | 2 => decide
  | n + 3 => simp [shadeOf]

/-! ## The commit -/

/-- The divider and the achieved rate go into the block (R240). -/
theorem run_dividerRecord (h : Went .seq s u b L l) (xs : List Act) :
    ∃ u', runAll .seq (dividerRecordLine :: xs) u = runAll .seq xs u' ∧
      Went .seq s u' { b with divider := BitVec.ofNat 8 L.d, srcRate := L.a } L l := by
  obtain ⟨u', e, hu⟩ := run_onBlk (xs := xs) h
    (fun s b => { b with divider := BitVec.ofNat 8 s.seq.loc.d, srcRate := s.seq.loc.a }) rfl rfl rfl
  rw [h.loc_d, h.loc_a] at hu
  exact ⟨u', e, hu⟩

/-- The geometry record as a line reads it from the arguments (R35, R239). -/
theorem Went.modeGeo_eq (h : Went .seq s u b L l) :
    modeGeo u = ⟨s.argN 0, s.argN 1, askedXresV s, askedYresV s, askedLineLen s⟩ := by
  simp only [modeGeo, modeXresV, modeYresV, modeLineLen, lineLen, askedXresV, askedYresV, askedLineLen, h.argN_eq]

/-- The commit writes the mode and the clock into the block (R240). -/
theorem run_modeCommit (h : Went .seq s u s.blk L l) (hshade : bitsAt (s.arg 3) 0 2 ≠ 3) (hd : L.d = askedDivider s)
    (hrate : L.a = achieved s (askedHz s)) (xs : List Act) :
    ∃ u', runAll .seq (modeCommit ++ xs) u = runAll .seq xs u' ∧ Went .seq s u' (committedBlk s) L l := by
  obtain ⟨s1, e1, h1⟩ := run_onBlk (xs := _) h (fun s b => { b with fmt := fmtOf (s.argN 2) (s.arg 3) }) rfl rfl rfl
  rw [h.argN_eq, h.arg_eq, fmtOf_arg hshade] at h1
  obtain ⟨s2, e2, h2⟩ := run_onBlk (xs := _) h1 (fun s b => { b with geo := modeGeo s }) rfl rfl rfl
  rw [h1.modeGeo_eq] at h2
  obtain ⟨s3, e3, h3⟩ := run_onBlk (xs := _) h2 (fun _ b => { b with haveMode := true }) rfl rfl rfl
  obtain ⟨s4, e4, h4⟩ := run_dividerRecord h3 xs
  rw [hd, hrate] at h4
  exact ⟨s4, e1.trans (e2.trans (e3.trans e4)), h4⟩

/-! ## The register sequence after the disable -/

/-- The AC-bias lines run for a passive panel alone (R190, R241). -/
theorem run_modeAcb (h : Went .seq s u b L l) (hshade : bitsAt (s.arg 3) 0 2 ≠ 3) (xs : List Act) :
    ∃ u', runAll .seq (guarded (fun s => shadeOf (shadeCode (s.arg 3)) == some .stn)
        (acbSeq (fun s => s.arg 13) (fun s => s.arg 14)) ++ xs) u = runAll .seq xs u' ∧
      Went .seq s u' b L (l ++ if askedShade s = .stn then acbAccesses (s.arg 13) (s.arg 14) else []) := by
  have hcond : ∀ v : State, v.blk.arg = s.blk.arg →
      ((shadeOf (shadeCode (v.arg 3)) == some .stn) = true ↔ askedShade s = .stn) := fun v hv => by
    rw [shadeOf_shadeCode_iff, askedShade_eq_stn_iff hshade, arg_eq, hv, arg_eq]
  by_cases hstn : askedShade s = .stn
  · rw [if_pos hstn, runAll_guarded_true (I := fun v => v.blk.arg = s.blk.arg) (fun v hv => (hcond v hv).mpr hstn)
      (fun y hy v v' hv hgo => ?_) (by rw [h.blk, h.arg])]
    · exact run_acbSeq h 13 14
    · rw [bump_blk, ← hv]
      simp only [acbSeq, rmw, List.mem_cons, List.not_mem_nil, or_false] at hy
      obtain rfl | rfl := hy <;> cases hgo <;> rfl
  · rw [if_neg hstn, List.append_nil]
    exact run_guarded_skip _ h (fun v _ hv => Bool.eq_false_iff.mpr (mt (hcond v hv).mp hstn)) _

/-- Phase 3 after the disable up to the write of `CTRL` (R241). -/
theorem run_modeFormat (h : Went .seq s u b L l) (hshade : bitsAt (s.arg 3) 0 2 ≠ 3) :
    ∃ u', runAll .seq (modeSetLines.drop 28) u = runAll .seq (modeSetLines.drop 52) u' ∧
      Went .seq s u' { b with palCount := palCount (s.argN 2) } L (l ++ formatAccesses s) := by
  obtain ⟨s1, e1, h1⟩ := run_displayModeSeq (xs := modeSetLines.drop 33) h fun args => displayModeOfMode args[3]
  obtain ⟨s2, e2, h2⟩ := run_modeAcb h1 hshade (modeSetLines.drop 35)
  obtain ⟨s3, e3, h3⟩ := run_hsyncSeq (xs := modeSetLines.drop 39) h2 5 6 7
  obtain ⟨s4, e4, h4⟩ := run_vsyncSeq (xs := modeSetLines.drop 43) h3 8 9 10
  obtain ⟨s5, e5, h5⟩ := run_geometrySeq (xs := modeSetLines.drop 52) h4 0 1 2 3 5
  refine ⟨s5, e1.trans (e2.trans (e3.trans (e4.trans e5))), ?_⟩
  have hmode : displayModeOfMode s.blk.arg[3] = askedMode s := displayModeOfMode_arg hshade
  simp only [hmode, List.append_assoc] at h5
  simpa only [formatAccesses, List.append_assoc] using h5

/-- The results of MODE_SET and `finish OK` (R240). -/
theorem run_modeResults (h : Went .seq s u b L l) :
    ∃ t, runAll .seq (modeSetLines.drop 72) u = t ∧
      Ended s t { b with res0 := BitVec.ofNat 32 (palCount (s.argN 2)), res1 := BitVec.ofNat 32 L.d } .ok l := by
  obtain ⟨u', e, hu⟩ := run_onBlk (xs := [finishWith .ok]) h
    (fun s b => { b with res0 := BitVec.ofNat 32 (palCount (s.argN 2)), res1 := BitVec.ofNat 32 s.seq.loc.d }) rfl rfl rfl
  rw [h.argN_eq, h.loc_d] at hu
  exact ⟨_, e, hu.finish .ok⟩

/-- Phase 3 from the write of `CTRL` on, and the results (R240, R241). -/
theorem run_modeFinal (h : Went .seq s u b L l) (hfree : b.lock = .free) :
    ∃ t, runAll .seq (modeSetLines.drop 52) u = t ∧
      Ended s t
        { b with
          rstate := .enabled, xoff := 0, yoff := 0
          win := some (windowOf (frameFirst s.blk.arg s.blk.vram) (frameLast s.blk.arg s.blk.vram))
          res0 := BitVec.ofNat 32 (palCount (s.argN 2)), res1 := BitVec.ofNat 32 L.d } .ok
        (l ++ [.write .ctrl (ctrlWord s.cfg s.blk.rev L.d)] ++ frameWinAccesses s ++ enableAccesses s) := by
  obtain ⟨s1, e1, h1⟩ := run_writeReg (xs := modeSetLines.drop 53) h .ctrl fun s => ctrlWord s.cfg s.blk.rev s.seq.loc.d
  rw [h.cfg, h.rev_eq, h.loc_d] at h1
  obtain ⟨s2, e2, h2⟩ := run_setWinSeq (xs := modeSetLines.drop 63) h1 frameFirst frameLast hfree
  obtain ⟨s3, e3, h3⟩ := run_onBlk (xs := modeSetLines.drop 64) h2 (fun _ b => { b with xoff := 0, yoff := 0 }) rfl rfl rfl
  obtain ⟨s4, e4, h4⟩ := run_enableSeq (xs := modeSetLines.drop 72) h3
  obtain ⟨t, e5, hend⟩ := run_modeResults h4
  exact ⟨t, e1.trans (e2.trans (e3.trans (e4.trans e5))), hend⟩

/-- MODE_SET after its disable: the rest of phase 3, the results and `finish OK` (R240, R241). -/
theorem run_modeRest (h : Went .seq s u b L l) (hshade : bitsAt (s.arg 3) 0 2 ≠ 3) (hfree : b.lock = .free) :
    ∃ t, runAll .seq (modeSetLines.drop 28) u = t ∧
      Ended s t (programmedBlk s b L.d) .ok (l ++ programAccesses s L.d) := by
  obtain ⟨u', e, hu⟩ := run_modeFormat h hshade
  obtain ⟨t, e', hend⟩ := run_modeFinal hu hfree
  refine ⟨t, e.trans e', ?_⟩
  simpa only [programmedBlk, programAccesses, List.append_assoc] using hend

/-! ## Up to the disable -/

/-- The commit is done, the exchanges of NEGOTIATE made, and the divider kept for phase 3; `b` and `l` are the block and the
actions by now. -/
def ModeUnderway (s : State) (b : Blk) (l : List Access) (u : State) : Prop :=
  ∃ L, Went .seq s u b L l ∧ L.d = askedDivider s

/-- The lines of MODE_SET before its disable. -/
def modeSetStart : List Act := prologue ++ modeChecks ++ modeCommit

/-- Phases 1 and 2 of a MODE_SET that passes validation (R239, R240). -/
theorem run_modeSetStart (ha : Awake s) (hv : ModeValid s) (xs : List Act) :
    ∃ u, runAll .seq (modeSetStart ++ xs) s = runAll .seq xs u ∧
      ModeUnderway s (committedBlk s) (negotiateAccesses s (askedHz s)) u := by
  have hlines : modeSetStart ++ xs =
      prologue ++ checkLines modeCheckList ++ ((negotiate fun s => hzOfPs (s.argN 4)) ++ (modeCommit ++ xs)) := by
    simp only [modeSetStart, modeChecks_eq, List.append_assoc]
  rw [hlines]
  obtain ⟨u, e, hu⟩ := run_modeStart ha hv.checks ((negotiate fun s => hzOfPs (s.argN 4)) ++ (modeCommit ++ xs))
  obtain ⟨-, -, hok⟩ := run_negotiate (xs := modeCommit ++ xs) hu hzOfArgs
  obtain ⟨u1, L, e1, h1, hd, hrate⟩ := hok hv.clock.2
  obtain ⟨u2, e2, h2⟩ := run_modeCommit h1 hv.shade hd hrate xs
  exact ⟨u2, e.trans (e1.trans e2), L, h2, hd⟩

/-! ## The turns of the command -/

/-- The commit and the disable write different fields. -/
theorem disabledBlk_committedBlk (s : State) (w : Bool) :
    disabledBlk (s.onBlk fun _ => committedBlk s) w =
      { disabledBlk s w with
        fmt := askedFmt s, geo := ⟨s.argN 0, s.argN 1, askedXresV s, askedYresV s, askedLineLen s⟩, haveMode := true
        divider := BitVec.ofNat 8 (askedDivider s), srcRate := achieved s (askedHz s) } := by
  have hwaits : waits (s.onBlk fun _ => committedBlk s) w = waits s w := rfl
  rw [disabledBlk, disabledBlk, hwaits]
  cases waits s w <;> rfl

/-- The whole of MODE_SET in one turn (R240, R241). -/
theorem exec_modeSet_ok (hs : AtStart .modeSet s) (ha : Awake s) (hv : ModeValid s) (hfree : s.blk.lock = .free)
    (hruns : disableRuns s true (negotiateAccesses s (askedHz s))) :
    ∃ t, exec .modeSet s = .next t ∧
      Ended s t (programmedBlk s (disabledBlk (s.onBlk fun _ => committedBlk s) true) (askedDivider s)) .ok
        (negotiateAccesses s (askedHz s) ++ disableTimedOut s true ++ programAccesses s (askedDivider s)) := by
  obtain ⟨u, e, L, hu, hd⟩ := run_modeSetStart ha hv ((disableSeq fun _ => true) ++ modeSetLines.drop 28)
  obtain ⟨u1, e1, h1⟩ := run_disableSeq (xs := modeSetLines.drop 28) hu (fun _ => true) hruns
  obtain ⟨t, e2, hend⟩ := run_modeRest h1 hv.shade (by split <;> exact hfree)
  rw [hd] at hend
  exact ⟨t, exec_of_run hs (by decide) (by decide) (e.trans (e1.trans e2)), hend⟩

/-- The first turn of a disable-wait that stays blocked ends at the test step (R225, R262). -/
theorem exec_modeSet_blocks (hs : AtStart .modeSet s) (ha : Awake s) (hv : ModeValid s) (hv2 : s.blk.rev = .v2)
    (hb : disableBlocks s (negotiateAccesses s (askedHz s))) :
    ∃ t, exec .modeSet s = .next t ∧ t.seq.loc.d = askedDivider s ∧
      Stands .modeSet 24 s t { committedBlk s with rstate := .disablingWaitFrame, frameDoneFlag := false }
        (negotiateAccesses s (askedHz s) ++ (disableAccesses ++ [.stayed])) := by
  rw [← List.append_assoc]
  obtain ⟨hfree, hquiet⟩ := hb
  obtain ⟨u, e, ⟨L, hu, hd⟩, hpc⟩ := exec_stays
    (P := ModeUnderway s { committedBlk s with rstate := .disablingWaitFrame, frameDoneFlag := false }
      (negotiateAccesses s (askedHz s) ++ disableAccesses))
    (ls := modeSetStart ++ (disableSeq fun _ => true).take 6) (f := State.dropDraw) hs rfl (by decide)
    (run_append (run_modeSetStart ha hv) fun _ ⟨L, hu, hd⟩ xs => by
      obtain ⟨u', e, hu'⟩ := run_disableArmed hu (fun _ => true) ((isV2_iff s).mpr hv2) hfree xs
      exact ⟨u', e, L, hu', hd⟩)
    fun u ⟨L, hu, _⟩ => (onlyIf_stay ..).mpr ⟨hu.isV2_eq.trans ((isV2_iff s).mpr hv2), (blockTest_stay ..).mpr
      (.inr ⟨by rw [hu.blk]; exact hfree, by rw [hu.blk]; rfl, by rw [hu.env]; exact hquiet, rfl⟩)⟩
  exact ⟨_, e, hu.loc_d.trans hd, hu.stands_dropDraw hpc⟩

/-- With the lock held it ends before the arm (R42, R225). -/
theorem exec_modeSet_locked (hs : AtStart .modeSet s) (ha : Awake s) (hv : ModeValid s) (hv2 : s.blk.rev = .v2)
    (hlock : s.blk.lock ≠ .free) :
    ∃ t, exec .modeSet s = .next t ∧ t.seq.loc.d = askedDivider s ∧
      Stands .modeSet 21 s t { committedBlk s with rstate := .disablingWaitFrame }
        (negotiateAccesses s (askedHz s) ++ disableAccesses) := by
  obtain ⟨u, e, ⟨L, hu, hd⟩, hpc⟩ := exec_stays
    (P := ModeUnderway s { committedBlk s with rstate := .disablingWaitFrame }
      (negotiateAccesses s (askedHz s) ++ disableAccesses))
    (ls := modeSetStart ++ (disableSeq fun _ => true).take 3) (f := id) hs rfl (by decide)
    (run_append (run_modeSetStart ha hv) fun _ ⟨L, hu, hd⟩ xs => by
      obtain ⟨u', e, hu'⟩ := run_disableStart hu (fun _ => true) ((isV2_iff s).mpr hv2) xs
      exact ⟨u', e, L, hu', hd⟩)
    fun u ⟨L, hu, _⟩ => onlyIf_waits (hu.isV2_eq.trans ((isV2_iff s).mpr hv2)) (acquire_waits (by rw [hu.blk]; exact hlock))
  exact ⟨_, e, hu.loc_d.trans hd, hu.stands hpc⟩

/-- A later turn, from the test step of the disable-wait, when the test returns: phase 3 goes on with the divider kept in the
locals (R240, R262). -/
theorem exec_modeSet_tested (hs : AtLine .modeSet 24 fullTurn s) (hshade : bitsAt (s.arg 3) 0 2 ≠ 3) (hv2 : s.blk.rev = .v2)
    (hfree : s.blk.lock = .free) (hr : testReturns s) :
    ∃ t, exec .modeSet s = .next t ∧
      Ended s t (programmedBlk s (testedBlk s) s.seq.loc.d) .ok (testAccesses s ++ programAccesses s s.seq.loc.d) := by
  obtain ⟨u, e, hu⟩ := run_disableSeqTested (xs := modeSetLines.drop 28) (fun _ => true) ((isV2_iff s).mpr hv2) hfree hr
  obtain ⟨t, e', hend⟩ := run_modeRest hu hshade hfree
  exact ⟨t, exec_at hs (by decide) (by decide) (e.trans e'), hend⟩

/-- Settles O30: phases 1 and 2 are one run of lines, phase 3 is the disable and the rest, and a turn ends after them or at a
line of the disable that stays. -/
theorem modeSetResult : Obligations.ModeSetResult := by
  intro s
  refine ⟨fun hs ha hv hfree hruns => ?ends, fun hs ha hv hv2 =>
    ⟨exec_modeSet_blocks hs ha hv hv2, exec_modeSet_locked hs ha hv hv2⟩, exec_modeSet_tested⟩
  case ends =>
    obtain ⟨t, hexec, hend⟩ := exec_modeSet_ok hs ha hv hfree hruns
    rw [disabledBlk_committedBlk] at hend
    exact ⟨t, hexec, hend⟩

end Sys2Proof.Machine
end

section
/-! The register accesses of MODE_SET as the port records them (R68, R241). -/

namespace Sys2Proof.Machine

variable {s : State}

/-! ## What an action adds to the port record -/

/-- The register accesses of an action: a read or a write and an offset each (R68). -/
def Access.shape (s : State) : Access → List (Bool × Nat)
  | .read g => [(false, s.off g)]
  | .write g _ => writeShape s g
  | .readAt o => [(false, o)]
  | .writeAt o _ => [(true, o)]
  | .rmw g _ => rmwShape s g
  | _ => []

/-- Offsets depend on the parameters and the revision. -/
theorem Access.shape_congr {u v : State} (hcfg : u.cfg = v.cfg) (hrev : u.blk.rev = v.blk.rev) (x : Access) :
    x.shape u = x.shape v := by
  have hoff : ∀ g, u.off g = v.off g := fun g => by rw [off_eq, off_eq, hcfg, hrev]
  cases x <;> simp only [Access.shape, writeShape, rmwShape, hoff]

/-- One action. -/
theorem perform_port (a : Agent) (s : State) (x : Access) :
    ∃ evs, (s.perform a x).port = s.port ++ evs ∧ evs.filterMap access? = x.shape s := by
  cases x with
  | rmw g e => exact ⟨[_, _], List.append_assoc .., rfl⟩
  | stayed => exact ⟨[], (List.append_nil _).symm, rfl⟩
  | _ => exact ⟨[_], rfl, rfl⟩

/-- A list of actions. -/
theorem does_port (a : Agent) (l : List Access) : ∀ s : State,
    ∃ evs, (s.does a l).port = s.port ++ evs ∧ evs.filterMap access? = l.flatMap (Access.shape s) := by
  induction l with
  | nil => exact fun s => ⟨[], (List.append_nil _).symm, rfl⟩
  | cons x xs ih =>
    intro s
    obtain ⟨evs, hport, hshape⟩ := perform_port a s x
    obtain ⟨evs', hport', hshape'⟩ := ih (s.perform a x)
    refine ⟨evs ++ evs', by rw [does_cons, hport', hport, List.append_assoc], ?_⟩
    have hsame : Access.shape (s.perform a x) = Access.shape s :=
      funext (Access.shape_congr (perform_cfg ..) (by rw [perform_blk]))
    rw [List.filterMap_append, hshape, hshape', hsame, List.flatMap_cons]

/-! ## The sequences of MODE_SET -/

theorem whenB_shape (s : State) (c : Bool) (l : List Access) :
    (whenB c l).flatMap (Access.shape s) = shapeIf c (l.flatMap (Access.shape s)) := by cases c <;> rfl

theorem write_shape (s : State) (g : LReg) (v : Word) : [Access.write g v].flatMap (Access.shape s) = writeShape s g :=
  List.flatMap_singleton ..

/-- NEGOTIATE accesses no register (R163). -/
theorem negotiateAccesses_shape (s : State) (hz : Nat) : (negotiateAccesses s hz).flatMap (Access.shape s) = [] := by
  rw [negotiateAccesses, List.flatMap_append, whenB_shape]
  cases (computeDivider hz (firstRate s)).2 <;> rfl

theorem disableTimedOut_shape (s : State) (w : Bool) :
    (disableTimedOut s w).flatMap (Access.shape s) = rmwShape s .rasterCtrl := by
  rw [disableTimedOut, List.flatMap_append, whenB_shape]
  cases waits s w <;> rfl

theorem displayAccesses_shape (s : State) (m : DisplayMode) :
    (displayAccesses s m).flatMap (Access.shape s) =
      rmwShape s .rasterCtrl ++ shapeIf (isV2 s) (writeShape s .intEnSet) ++ rmwShape s .timing2 := by
  rw [displayAccesses, List.flatMap_append, List.flatMap_append, whenB_shape]
  rfl

theorem hsyncAccesses_shape (s : State) (bp pw fp : Word) :
    (hsyncAccesses s bp pw fp).flatMap (Access.shape s) =
      rmwShape s .timing0 ++ shapeIf (isV2 s) (rmwShape s .timing2) := by
  rw [hsyncAccesses, List.flatMap_append, whenB_shape]
  rfl

theorem vsyncAccesses_shape (s : State) (bp pw fp : Word) :
    (vsyncAccesses s bp pw fp).flatMap (Access.shape s) =
      rmwShape s .timing1 ++ shapeIf (hasVertHi s) (rmwShape s .timing2) := by
  rw [vsyncAccesses, List.flatMap_append, whenB_shape]
  rfl

theorem geometryAccesses_shape (s : State) (width height : Word) (bpp : Nat) (order : Bool) :
    (geometryAccesses s width height bpp order).flatMap (Access.shape s) =
      rmwShape s .timing0 ++ rmwShape s .timing1 ++ shapeIf (isV2 s) (rmwShape s .timing2) ++ rmwShape s .rasterCtrl := by
  rw [geometryAccesses, List.flatMap_append, List.flatMap_append, whenB_shape]
  rfl

theorem setWinAccesses_shape (s : State) (first last : Word) :
    (setWinAccesses s first last).flatMap (Access.shape s) =
      writeShape s .fb0Base ++ writeShape s .fb0Ceil ++ writeShape s .fb1Base ++ writeShape s .fb1Ceil ++
        rmwShape s .dmaCtrl ++ shapeIf (isV2 s) (writeShape s .intEnSet) := by
  rw [setWinAccesses, List.flatMap_append, whenB_shape]
  rfl

theorem enableAccesses_shape (s : State) :
    (enableAccesses s).flatMap (Access.shape s) =
      shapeIf (isV2 s) (writeShape s .clkReset ++ writeShape s .clkReset) ++ rmwShape s .rasterCtrl := by
  rw [enableAccesses, List.flatMap_append, whenB_shape]
  rfl

/-- The AC-bias lines, for a passive panel alone (R190). -/
theorem acbIf_shape (hshade : bitsAt (s.arg 3) 0 2 ≠ 3) (freq ipt : Word) :
    (if askedShade s = .stn then acbAccesses freq ipt else []).flatMap (Access.shape s) =
      shapeIf (bitsAt (s.arg 3) 0 2 == 2) (rmwShape s .timing2) := by
  simp only [askedShade_eq_stn_iff hshade, shapeIf, beq_iff_eq]
  split <;> rfl

/-- Phase 3 (R241). -/
theorem programAccesses_shape (hshade : bitsAt (s.arg 3) 0 2 ≠ 3) (d : Nat) :
    rmwShape s .rasterCtrl ++ (programAccesses s d).flatMap (Access.shape s) = modeShape s := by
  simp only [programAccesses, formatAccesses, frameWinAccesses, List.flatMap_append, displayAccesses_shape,
    acbIf_shape hshade, hsyncAccesses_shape, vsyncAccesses_shape, geometryAccesses_shape, write_shape,
    setWinAccesses_shape, enableAccesses_shape]
  unfold modeShape
  simp only [List.append_assoc]
  rfl

/-- Settles O31: the port gains what each action of the whole command adds, sequence by sequence. -/
theorem modeSetAccessOrder : Obligations.ModeSetAccessOrder := by
  intro s t hs ha hv hfree hruns hexec
  obtain ⟨t', hexec', hend⟩ := exec_modeSet_ok hs ha hv hfree hruns
  obtain rfl : t = t' := Host.Outcome.next.inj (hexec.symm.trans hexec')
  obtain ⟨evs, hport, hshape⟩ := does_port .seq
    (negotiateAccesses s (askedHz s) ++ disableTimedOut s true ++ programAccesses s (askedDivider s)) s
  refine ⟨evs, hend.port.trans hport, ?_⟩
  rw [hshape, List.flatMap_append, List.flatMap_append, negotiateAccesses_shape, disableTimedOut_shape, List.nil_append,
    programAccesses_shape hv.shade]

end Sys2Proof.Machine
end

section
/-! What MODE_SET leaves in the LCDC (R242). -/

namespace Sys2Proof.Machine

variable {s t : State} {b : Blk} {c : Code}

/-- At the end of a command a register holds the last word written to it (R45). -/
theorem Ended.write_word {l m : List Access} {g : LReg} {v : Word} (h : Ended s t b c (l ++ .write g v :: m))
    (hg : LReg.holdsWord g = true) (hm : m.any (Access.mayWrite g) = false) : t.lcdc.regs.get g = some v := by
  rw [h.lcdc, List.append_cons, does_append, does_get_of_not_mayWrite _ _ hm, does_write_get_same _ _ _ _ hg]

theorem any_whenB (p : Access → Bool) (x : Bool) (l : List Access) : (whenB x l).any p = (x && l.any p) := by
  cases x <;> rfl

/-- `ENABLE_SEQ` writes `CLK_RESET` and `RASTER_CTRL` alone (R220). -/
theorem enableAccesses_mayWrite (s : State) {g : LReg} (hreset : LReg.clkReset ≠ g) (hraster : LReg.rasterCtrl ≠ g) :
    (enableAccesses s).any (Access.mayWrite g) = false := by
  simp [enableAccesses, softResetAccesses, any_whenB, Access.mayWrite, hreset, hraster]

/-- `SETWIN_SEQ` does not write `CTRL` (R200). -/
theorem setWinAccesses_mayWrite_ctrl (s : State) (first last : Word) :
    (setWinAccesses s first last).any (Access.mayWrite .ctrl) = false := by
  rw [setWinAccesses, List.any_append, any_whenB]
  exact Bool.and_false _

/-- `SETWIN_SEQ` leaves the window in both slots (R200). -/
theorem does_setWin_slots (a : Agent) (u s : State) (first last : Word) :
    let regs := (u.does a (setWinAccesses s first last)).lcdc.regs
    regs.fb0Base = some first ∧ regs.fb1Base = some first ∧ regs.fb0Ceil = some last ∧ regs.fb1Ceil = some last := by
  rw [setWinAccesses]
  cases isV2 s <;> exact ⟨rfl, rfl, rfl, rfl⟩

/-- So do `SETWIN_SEQ` and `ENABLE_SEQ` at the end of a command (R200, R220). -/
theorem Ended.slot_words {l : List Access} {first last : Word}
    (h : Ended s t b c (l ++ setWinAccesses s first last ++ enableAccesses s)) :
    t.lcdc.regs.fb0Base = some first ∧ t.lcdc.regs.fb1Base = some first ∧
      t.lcdc.regs.fb0Ceil = some last ∧ t.lcdc.regs.fb1Ceil = some last := by
  have hkept {g : LReg} (hreset : LReg.clkReset ≠ g) (hraster : LReg.rasterCtrl ≠ g) :
      t.lcdc.regs.get g = (((s.does .seq l).does .seq (setWinAccesses s first last)).lcdc.regs).get g := by
    rw [h.lcdc, does_append, does_append, does_get_of_not_mayWrite _ _ (enableAccesses_mayWrite s hreset hraster)]
  obtain ⟨hbase0, hbase1, hceil0, hceil1⟩ := does_setWin_slots .seq (s.does .seq l) s first last
  exact ⟨(hkept (g := .fb0Base) nofun nofun).trans hbase0, (hkept (g := .fb1Base) nofun nofun).trans hbase1,
    (hkept (g := .fb0Ceil) nofun nofun).trans hceil0, (hkept (g := .fb1Ceil) nofun nofun).trans hceil1⟩

/-- After the write of `CTRL`, `SETWIN_SEQ` and `ENABLE_SEQ` at the end of a command, `CTRL` holds the word (R91). -/
theorem Ended.ctrl_word {l : List Access} {w first last : Word}
    (h : Ended s t b c (l ++ [.write .ctrl w] ++ setWinAccesses s first last ++ enableAccesses s)) :
    t.lcdc.regs.ctrl = some w := by
  rw [List.append_assoc, List.append_assoc] at h
  have hrest : (setWinAccesses s first last ++ enableAccesses s).any (Access.mayWrite .ctrl) = false := by
    rw [List.any_append, setWinAccesses_mayWrite_ctrl, enableAccesses_mayWrite (g := .ctrl) s nofun nofun, Bool.or_false]
  exact h.write_word (g := .ctrl) rfl hrest

/-- Settles O32: phase 3 ends with the writes of `CTRL`, the slots and `RASTER_EN`, and none of these registers is written
again. -/
theorem modeSetLeavesTheRasterRunning : Obligations.ModeSetLeavesTheRasterRunning := by
  intro s t hs ha hwf hv hfree hruns hexec xresV first last
  obtain ⟨t', hexec', hend⟩ := exec_modeSet_ok hs ha hv hfree hruns
  obtain rfl : t = t' := Host.Outcome.next.inj (hexec.symm.trans hexec')
  rw [programAccesses, ← List.append_assoc, ← List.append_assoc, ← List.append_assoc] at hend
  obtain ⟨hbase0, hbase1, hceil0, hceil1⟩ := hend.slot_words
  exact ⟨congrArg Blk.rstate hend.blk, congrArg Blk.win hend.blk, hbase0, hbase1, hceil0, hceil1, hend.rasterEn_word hwf,
    _, hend.ctrl_word, ext_ctrlWord hwf _ (computeDivider_bounds ..).2⟩

end Sys2Proof.Machine
end

section
/-! WAIT_VSYNC and WAIT_PALETTE (R260 to R263): one body for the two flags, up to its test step and from there to its end. -/

namespace Sys2Proof.Machine

variable {i : Instr} {e : WaitEvent} {d : State → Nat} {dflt : Nat} {s s0 : State} {b : Blk} {L : Locals} {l : List Access}

/-! ## The bound -/

/-- The bound of a wait: its argument, or the default for an argument of 0 (R260, R261). -/
def waitBound (s : State) (dflt : Nat) : Nat := if s.argN 0 = 0 then dflt else s.argN 0

/-- The bound in the locals of a run. -/
theorem Went.loc_bound (h : Went .seq s0 s b L l) : s.seq.loc.bound = L.bound := by rw [h.loc]

theorem run_boundLine (h : Went .seq s0 s b L l) (hd : d s = dflt) (xs : List Act) :
    ∃ s', runAll .seq (boundLine d :: xs) s = runAll .seq xs s' ∧
      Went .seq s0 s' b { L with bound := waitBound s0 dflt } l := by
  have hbound : (if s.argN 0 ≠ 0 then s.argN 0 else d s) = waitBound s0 dflt := by
    rw [ite_not, hd, h.argN_eq, waitBound]
  have hw := h.onLoc fun l => { l with bound := waitBound s0 dflt }
  have hloc := congrArg (fun x : Locals => { x with bound := waitBound s0 dflt }) h.loc
  refine ⟨_, ?_, Went.bump { hw with loc := hloc }⟩
  rw [boundLine, runAll_assign, hbound]

/-! ## The two parts of the body -/

/-- Up to the test step: the bound is set and the flag cleared (R263). -/
theorem run_waitArmed (hd : ∀ u : State, u.cfg = s.cfg → d u = dflt) (ha : s.blk.attached = true)
    (hfree : s.blk.lock = .free) (xs : List Act) :
    ∃ s', runAll .seq ([requireAttached, boundLine d] ++ arm e ++ xs) s = runAll .seq xs s' ∧
      Went .seq s s' (s.blk.setFlag e false) { s.seq.loc with bound := waitBound s dflt } [] := by
  obtain ⟨s1, e1, h1⟩ := run_requireAttached s (boundLine d :: (arm e ++ xs)) ha
  obtain ⟨s2, e2, h2⟩ := run_boundLine h1 (hd s1 h1.cfg) (arm e ++ xs)
  obtain ⟨s3, e3, h3⟩ := run_arm (xs := xs) h2 e hfree
  exact ⟨s3, e1.trans (e2.trans e3), h3⟩

/-- From a test step that times out (R262). -/
theorem run_waitExpires (h : Went .seq s0 s b L l) (hfree : b.lock = .free) (hflag : b.flag e = false)
    (htimeout : (s0.does .seq l).env.peek.timeout = true) :
    ∃ t, runAll .seq ((waitLines e d).drop 5) s = t ∧ Ended s0 t b .timeout (l ++ [.expire e L.bound]) := by
  obtain ⟨s1, e1, htimed, h1⟩ := run_block_expire (xs := (waitLines e d).drop 6) h e (fun s => s.seq.loc.bound) hfree hflag
    htimeout
  have hraise : runAll .seq ((waitLines e d).drop 6) s1 = s1.finish .timeout := (runAll_raiseIf ..).trans (if_pos htimed)
  rw [h.loc_bound] at h1
  exact ⟨_, e1.trans hraise, h1.finish .timeout⟩

/-- From a test step that finds its flag 1 (R262). -/
theorem run_waitWakes (h : Went .seq s0 s b L l) (hfree : b.lock = .free) (hflag : b.flag e = true) :
    ∃ t, runAll .seq ((waitLines e d).drop 5) s = t ∧ Ended s0 t b .ok (l ++ [.wake e L.bound]) := by
  obtain ⟨s1, e1, htimed, h1⟩ := run_block_wake (xs := (waitLines e d).drop 6) h e (fun s => s.seq.loc.bound) hfree hflag
  obtain ⟨s2, e2, h2⟩ := run_raiseIf_false (xs := [finishWith .ok]) h1 (fun s => s.seq.loc.timedOut) .timeout htimed
  rw [h.loc_bound] at h2
  exact ⟨_, e1.trans e2, h2.finish .ok⟩

/-! ## The turns of a wait command -/

theorem waitLines_length_le (e : WaitEvent) (d : State → Nat) : (waitLines e d).length ≤ fullTurn := by
  change 8 ≤ 200; decide

/-- The test step is line 5 of the body (R260, R261). -/
theorem waitTest_lt_length (e : WaitEvent) (d : State → Nat) : 5 < (waitLines e d).length := by
  change 5 < 8; decide

section
variable (hl : linesOf (some i) = waitLines e d)
include hl

/-- A wait whose test step times out in the first turn. -/
theorem exec_wait_expires (hd : ∀ u : State, u.cfg = s.cfg → d u = dflt) (hs : AtStart i s) (ha : s.blk.attached = true)
    (hfree : s.blk.lock = .free) (htimeout : s.env.peek.timeout = true) :
    ∃ t, exec i s = .next t ∧ Ended s t (s.blk.setFlag e false) .timeout [.expire e (waitBound s dflt)] := by
  obtain ⟨u, e1, hu⟩ := run_waitArmed hd ha hfree ((waitLines e d).drop 5)
  obtain ⟨t, e2, hend⟩ := run_waitExpires hu ((setFlag_lock ..).trans hfree) (setFlag_flag ..) htimeout
  rw [exec_eq_seqTurn, hl]
  exact ⟨t, exec_of_run hs (Nat.succ_pos _) (waitLines_length_le ..) (e1.trans e2), hend⟩

/-- A wait that stays blocked in the first turn. -/
theorem exec_wait_blocks (hd : ∀ u : State, u.cfg = s.cfg → d u = dflt) (hs : AtStart i s) (ha : s.blk.attached = true)
    (hfree : s.blk.lock = .free) (hquiet : s.env.peek.timeout = false) :
    ∃ t, exec i s = .next t ∧ Stands i 5 s t (s.blk.setFlag e false) [.stayed] ∧ t.seq.loc.bound = waitBound s dflt := by
  obtain ⟨u, e1, hu, hpc⟩ := exec_stays (ls := [requireAttached, boundLine d] ++ arm e) (f := State.dropDraw) hs hl
    (by rw [hl]; exact waitLines_length_le ..) (run_waitArmed hd ha hfree) fun u hu => (blockTest_stay ..).mpr
      (.inr ⟨by rw [hu.blk, setFlag_lock, hfree], by rw [hu.blk, setFlag_flag], by rw [hu.env]; exact hquiet, rfl⟩)
  exact ⟨_, e1, hu.stands_dropDraw hpc, hu.loc_bound⟩

/-- A later turn whose test finds the flag 1. -/
theorem exec_waitTest_wakes (hs : AtLine i 5 fullTurn s) (hfree : s.blk.lock = .free) (hflag : s.blk.flag e = true) :
    ∃ t, exec i s = .next t ∧ Ended s t s.blk .ok [.wake e s.seq.loc.bound] := by
  obtain ⟨t, e1, hend⟩ := run_waitWakes (went_start .seq s) hfree hflag
  rw [exec_eq_seqTurn, hl]
  exact ⟨t, exec_at hs (waitTest_lt_length ..) (waitLines_length_le ..) e1, hend⟩

/-- A later turn whose test finds the flag 0 and times out. -/
theorem exec_waitTest_expires (hs : AtLine i 5 fullTurn s) (hfree : s.blk.lock = .free) (hflag : s.blk.flag e = false)
    (htimeout : s.env.peek.timeout = true) :
    ∃ t, exec i s = .next t ∧ Ended s t s.blk .timeout [.expire e s.seq.loc.bound] := by
  obtain ⟨t, e1, hend⟩ := run_waitExpires (went_start .seq s) hfree hflag htimeout
  rw [exec_eq_seqTurn, hl]
  exact ⟨t, exec_at hs (waitTest_lt_length ..) (waitLines_length_le ..) e1, hend⟩

/-- A later turn whose test finds the flag 0 and stays blocked. -/
theorem exec_waitTest_blocks (hs : AtLine i 5 fullTurn s) (hfree : s.blk.lock = .free) (hflag : s.blk.flag e = false)
    (hquiet : s.env.peek.timeout = false) : exec i s = .next s.dropDraw := by
  obtain ⟨hpc, hturn⟩ := hs
  refine exec_stays_first ⟨hpc, Nat.le_trans (by decide) hturn⟩ ?_
  rw [hl]
  exact congrArg some ((blockTest_stay ..).mpr (.inr ⟨hfree, hflag, hquiet, rfl⟩))

/-- A later turn that finds the lock held. -/
theorem exec_waitTest_locked (hs : AtLine i 5 fullTurn s) (hlock : s.blk.lock ≠ .free) : exec i s = .next s :=
  exec_of_stay hs.1 (by rw [hl]; rfl) (blockTest_waits e (fun s => s.seq.loc.bound) hlock)

end

/-- The two wait commands have the lines of R260 and R261, and each its default bound. -/
theorem waitLines_of_wait (h : (i, e, dflt) = (Instr.waitVsync, WaitEvent.vsync, 200) ∨
      (i, e, dflt) = (Instr.waitPalette, WaitEvent.palDone, s.cfg.paletteTimeoutMs)) :
    ∃ d, linesOf (some i) = waitLines e d ∧ ∀ u : State, u.cfg = s.cfg → d u = dflt := by
  obtain h | h := h <;> cases h
  · exact ⟨fun _ => vsyncTimeoutMs, rfl, fun _ _ => rfl⟩
  · exact ⟨fun s => s.cfg.paletteTimeoutMs, rfl, fun _ hu => congrArg Params.paletteTimeoutMs hu⟩

/-- Settles O41: both commands run one body, so each clause is a turn of that body, from its first line or from its test
step. -/
theorem waitsAreArmedAndSingleShot : Obligations.WaitsAreArmedAndSingleShot := by
  intro s i e dflt h
  obtain ⟨d, hl, hd⟩ := waitLines_of_wait h
  refine ⟨exec_wait_expires hl hd, fun hs ha hfree hquiet => ?blocks, exec_waitTest_wakes hl,
    fun hs hfree hflag => ⟨exec_waitTest_expires hl hs hfree hflag, exec_waitTest_blocks hl hs hfree hflag⟩,
    exec_waitTest_locked hl⟩
  case blocks =>
    obtain ⟨t, hexec, hst, hbound⟩ := exec_wait_blocks hl hd hs ha hfree hquiet
    exact ⟨t, hexec, hst.pc, hst.blk, hst.lcdc, hst.port, hst.env, hst.irqd, hst.cfg, hst.busData, hbound⟩

end Sys2Proof.Machine
end

section
/-! The callback slot (R265, R266): REGISTER_CB and UNREGISTER_CB are one section under the lock, and what follows for
commands issued one after the other (R268). -/

namespace Sys2Proof.Machine

variable {i : Instr} {s t : State} {b : Blk} {code : Code} {l : List Access}

/-! ## The section under the lock -/

theorem cbLines_length_le (c : State → Bool) (e : Code) (f : State → Blk → Blk) : (cbLines c e f).length ≤ fullTurn := by
  change 6 ≤ 200; decide

/-- Releasing a lock that was free at the start leaves the block as it was (R42). -/
theorem released_eq (hfree : b.lock = .free) : { b with lock := .free } = b := by rw [← hfree]

section
variable {rejects : Blk → Bool} {put : Blk → Option (Word × Word)}
  (hl : linesOf (some i) = cbLines (fun u => rejects u.blk) code fun u b => { b with cb := put u.blk })
  (hs : AtStart i s) (hfree : s.blk.lock = .free)
include hl hs hfree

/-- The condition holds, lock or no lock: the section ends with the code of the command, the slot as it was. -/
theorem exec_cb_rejected (hrej : ∀ o, rejects { s.blk with lock := o } = true) :
    ∃ t, exec i s = .next t ∧ Ended s t s.blk code [] := by
  obtain ⟨s1, e1, h1⟩ := run_acquire (xs := _) (went_start .seq s) hfree
  obtain ⟨s2, e2, h2⟩ := run_release (xs := _) h1
  replace h2 : Went .seq s s2 s.blk s.seq.loc [] := released_eq hfree ▸ h2
  rw [exec_eq_seqTurn, hl]
  refine ⟨s2.finish code, exec_of_run hs (Nat.succ_pos _) (cbLines_length_le ..)
    (e1.trans (Eq.trans ?release (e2.trans ?raise))), h2.finish code⟩
  case release => exact runAll_onlyIf_true _ _ _ _ _ (by rw [h1.blk]; exact hrej .seq)
  case raise => exact (runAll_raiseIf ..).trans (if_pos (by rw [h2.blk]; exact hrej s.blk.lock))

/-- The condition fails while the lock is held: the section changes the slot. -/
theorem exec_cb_accepted (hrej : rejects { s.blk with lock := .seq } = false)
    (hput : put { s.blk with lock := .seq } = put s.blk) :
    ∃ t, exec i s = .next t ∧ Ended s t { s.blk with cb := put s.blk } .ok [] := by
  obtain ⟨s1, e1, h1⟩ := run_acquire (xs := _) (went_start .seq s) hfree
  obtain ⟨s2, e2, h2⟩ := run_onlyIf_false (xs := _) h1 (fun u => rejects u.blk) release (by rw [h1.blk, hrej])
  obtain ⟨s3, e3, h3⟩ := run_raiseIf_false (xs := _) h2 (fun u => rejects u.blk) code (by rw [h2.blk, hrej])
  obtain ⟨s4, e4, h4⟩ := run_onBlk (xs := _) h3 (fun u b => { b with cb := put u.blk }) rfl rfl rfl
  obtain ⟨s5, e5, h5⟩ := run_release (xs := [finishWith .ok]) h4
  rw [h3.blk, hput] at h5
  replace h5 : Went .seq s s5 { s.blk with cb := put s.blk } s.seq.loc [] :=
    released_eq (b := { s.blk with cb := put s.blk }) hfree ▸ h5
  rw [exec_eq_seqTurn, hl]
  exact ⟨_, exec_of_run hs (Nat.succ_pos _) (cbLines_length_le ..) (e1.trans (e2.trans (e3.trans (e4.trans e5)))),
    h5.finish .ok⟩

end

/-! ## The two commands -/

/-- The pair that a callback command has in its first two arguments (R265, R266). -/
def askedPair (b : Blk) : Word × Word := (b.arg[(0 : Fin 16)], b.arg[(1 : Fin 16)])

theorem linesOf_registerCb : linesOf (some .registerCb) =
    cbLines (fun u => u.blk.cb.isSome) .alreadyRegistered fun u b => { b with cb := some (askedPair u.blk) } := rfl

theorem linesOf_unregisterCb : linesOf (some .unregisterCb) =
    cbLines (fun u => u.blk.cb != some (askedPair u.blk)) .notFound fun _ b => { b with cb := none } := rfl

/-- REGISTER_CB with the slot empty (R265). -/
theorem exec_registerCb_empty (hs : AtStart .registerCb s) (hfree : s.blk.lock = .free) (hcb : s.blk.cb = none) :
    ∃ t, exec .registerCb s = .next t ∧ Ended s t { s.blk with cb := some (s.arg 0, s.arg 1) } .ok [] :=
  exec_cb_accepted (rejects := fun b => b.cb.isSome) (put := fun b => some (askedPair b)) linesOf_registerCb hs hfree
    (Option.isSome_eq_false_iff.mpr (Option.isNone_iff_eq_none.mpr hcb)) rfl

/-- REGISTER_CB with a callback registered (R265). -/
theorem exec_registerCb_taken (hs : AtStart .registerCb s) (hfree : s.blk.lock = .free) (hcb : s.blk.cb ≠ none) :
    ∃ t, exec .registerCb s = .next t ∧ Ended s t s.blk .alreadyRegistered [] :=
  have hrej := Option.isSome_iff_ne_none.mpr hcb
  exec_cb_rejected (rejects := fun b => b.cb.isSome) (put := fun b => some (askedPair b)) linesOf_registerCb hs hfree
    fun _ => hrej

/-- UNREGISTER_CB of the registered pair (R266). -/
theorem exec_unregisterCb_held (hs : AtStart .unregisterCb s) (hfree : s.blk.lock = .free)
    (hcb : s.blk.cb = some (s.arg 0, s.arg 1)) :
    ∃ t, exec .unregisterCb s = .next t ∧ Ended s t { s.blk with cb := none } .ok [] :=
  exec_cb_accepted (rejects := fun b => b.cb != some (askedPair b)) (put := fun _ => none) linesOf_unregisterCb hs hfree
    (bne_eq_false_iff_eq.mpr hcb) rfl

/-- UNREGISTER_CB of another pair, or with the slot empty (R266). -/
theorem exec_unregisterCb_other (hs : AtStart .unregisterCb s) (hfree : s.blk.lock = .free)
    (hcb : s.blk.cb ≠ some (s.arg 0, s.arg 1)) :
    ∃ t, exec .unregisterCb s = .next t ∧ Ended s t s.blk .notFound [] :=
  have hrej := bne_iff_ne.mpr hcb
  exec_cb_rejected (rejects := fun b => b.cb != some (askedPair b)) (put := fun _ => none) linesOf_unregisterCb hs hfree
    fun _ => hrej

/-- Settles O42: the condition of each command's section decides between its two ends. -/
theorem callbackSlotResult : Obligations.CallbackSlotResult := by
  refine ⟨fun s hs hfree => ?register, fun s hs hfree => ?unregister⟩
  case register =>
    by_cases hcb : s.blk.cb = none
    · simpa only [if_pos hcb] using exec_registerCb_empty hs hfree hcb
    · simpa only [if_neg hcb] using exec_registerCb_taken hs hfree hcb
  case unregister =>
    by_cases hcb : s.blk.cb = some (s.arg 0, s.arg 1)
    · simpa only [if_pos hcb] using exec_unregisterCb_held hs hfree hcb
    · simpa only [if_neg hcb] using exec_unregisterCb_other hs hfree hcb

/-! ## Commands issued one after the other (R268) -/

/-- What the next command finds after one that has ended: its code, the slot and the lock. -/
theorem Ended.err_cb_lock (h : Ended s t b code l) :
    t.blk.err = code.num ∧ t.blk.cb = b.cb ∧ t.blk.lock = b.lock := by
  rw [h.blk]
  exact ⟨rfl, rfl, rfl⟩

/-- REGISTER_CB, issued with the slot empty. -/
theorem exec_registerCb_issued (p : Vector Word 16) (hfree : s.blk.lock = .free) (hcb : s.blk.cb = none) :
    ∃ t, exec .registerCb (s.issued .registerCb p) = .next t ∧
      t.blk.err = 0#4 ∧ t.blk.cb = some (p[0], p[1]) ∧ t.blk.lock = .free := by
  obtain ⟨t, hexec, hend⟩ := exec_registerCb_empty (issued_atStart s .registerCb p) hfree hcb
  obtain ⟨herr, hslot, hlock⟩ := hend.err_cb_lock
  exact ⟨t, hexec, herr, hslot, hlock.trans hfree⟩

/-- REGISTER_CB, issued with a callback registered. -/
theorem exec_registerCb_again (q : Vector Word 16) (hfree : s.blk.lock = .free) (hcb : s.blk.cb ≠ none) :
    ∃ t, exec .registerCb (s.issued .registerCb q) = .next t ∧
      t.blk.err = Code.num .alreadyRegistered ∧ t.blk.cb = s.blk.cb ∧ t.blk.lock = .free := by
  obtain ⟨t, hexec, hend⟩ := exec_registerCb_taken (issued_atStart s .registerCb q) hfree hcb
  obtain ⟨herr, hslot, hlock⟩ := hend.err_cb_lock
  exact ⟨t, hexec, herr, hslot, hlock.trans hfree⟩

/-- REGISTER_CB leaves the slot filled, whichever way it ends. -/
theorem exec_registerCb_fills (p : Vector Word 16) (hfree : s.blk.lock = .free) :
    ∃ t, exec .registerCb (s.issued .registerCb p) = .next t ∧ t.blk.lock = .free ∧ t.blk.cb ≠ none ∧
      (s.blk.cb = none → t.blk.err = 0#4 ∧ t.blk.cb = some (p[0], p[1])) := by
  by_cases hcb : s.blk.cb = none
  · obtain ⟨t, hexec, herr, hslot, hlock⟩ := exec_registerCb_issued p hfree hcb
    exact ⟨t, hexec, hlock, by rw [hslot]; nofun, fun _ => ⟨herr, hslot⟩⟩
  · obtain ⟨t, hexec, -, hslot, hlock⟩ := exec_registerCb_again p hfree hcb
    exact ⟨t, hexec, hlock, by rwa [hslot], fun h => absurd h hcb⟩

/-- UNREGISTER_CB, issued with the pair registered. -/
theorem exec_unregisterCb_issued (p : Vector Word 16) (hfree : s.blk.lock = .free) (hcb : s.blk.cb = some (p[0], p[1])) :
    ∃ t, exec .unregisterCb (s.issued .unregisterCb p) = .next t ∧
      t.blk.err = 0#4 ∧ t.blk.cb = none ∧ t.blk.lock = .free := by
  obtain ⟨t, hexec, hend⟩ := exec_unregisterCb_held (issued_atStart s .unregisterCb p) hfree hcb
  obtain ⟨herr, hslot, hlock⟩ := hend.err_cb_lock
  exact ⟨t, hexec, herr, hslot, hlock.trans hfree⟩

/-- UNREGISTER_CB, issued with the slot empty. -/
theorem exec_unregisterCb_empty (p : Vector Word 16) (hfree : s.blk.lock = .free) (hcb : s.blk.cb = none) :
    ∃ t, exec .unregisterCb (s.issued .unregisterCb p) = .next t ∧ t.blk.err = Code.num .notFound := by
  obtain ⟨t, hexec, hend⟩ := exec_unregisterCb_other (issued_atStart s .unregisterCb p) hfree
    fun h => nomatch hcb.symm.trans h
  exact ⟨t, hexec, hend.err_cb_lock.1⟩

/-- Settles O43: each command leaves the lock free and the slot as the next one needs it. -/
theorem callbackProperties : Obligations.CallbackProperties := by
  refine fun s p q hfree => ⟨?again, fun hcb => ?round, exec_unregisterCb_empty p hfree⟩
  case again =>
    obtain ⟨t1, e1, hlock1, htaken, hfirst⟩ := exec_registerCb_fills p hfree
    obtain ⟨t2, e2, herr2, hslot2, -⟩ := exec_registerCb_again q hlock1 htaken
    exact ⟨t1, t2, e1, e2, herr2, hslot2, hfirst⟩
  case round =>
    obtain ⟨t1, e1, herr1, hslot1, hlock1⟩ := exec_registerCb_issued p hfree hcb
    obtain ⟨t2, e2, herr2, hslot2, hlock2⟩ := exec_unregisterCb_issued p hlock1 hslot1
    obtain ⟨t3, e3, herr3, hslot3, -⟩ := exec_registerCb_issued q hlock2 hslot2
    exact ⟨t1, t2, t3, e1, herr1, e2, herr2, e3, herr3, hslot3⟩

end Sys2Proof.Machine
end

section
/-! A whole activation of the decoder, run from its entry to its exit without another agent between its steps (R280 to R292):
the V1 body in its two cases, the V2 body in its three, and the EOI write that ends every V2 activation. -/

namespace Sys2Proof.Machine

variable {s s0 u : State} {b b' : Blk} {L : Locals} {l m : List Access} {xs ys : List Act} {g : LReg}

/-! ## Lines under a condition on the status word -/

/-- Lines under a condition on the status word: they run if it holds, and do nothing else (R284, R290, R293). -/
theorem run_onWord (h : Went .irqd s0 s b L l) (f : Params → Rev → Word → Bool) (hk : ∀ y ∈ ys, KeepsWord y)
    (hrun : ∃ s', runAll .irqd (ys ++ xs) s = runAll .irqd xs s' ∧ Went .irqd s0 s' b' L (l ++ m)) :
    ∃ s', runAll .irqd (guarded (readsWord f) ys ++ xs) s = runAll .irqd xs s' ∧
      Went .irqd s0 s' (if f s0.cfg s0.blk.rev s0.irqd.s then b' else b) L
        (l ++ whenB (f s0.cfg s0.blk.rev s0.irqd.s) m) := by
  cases hf : f s0.cfg s0.blk.rev s0.irqd.s with
  | true =>
    rw [run_word_true h f hf hk]
    exact hrun
  | false =>
    obtain ⟨s', e, hs'⟩ := run_word_false (xs := xs) f hf ys h
    exact ⟨s', e, by simpa using hs'⟩

/-- The case that the status word selects runs (R293). -/
theorem run_inCase (h : Went .irqd s0 s b L l) {body : Rev} {c : IrqCase}
    (hc : irqCase s0.cfg s0.blk.rev body s0.irqd.s = c) (hk : ∀ y ∈ ys, KeepsWord y) :
    runAll .irqd (inCase body c ys ++ xs) s = runAll .irqd (ys ++ xs) s :=
  run_word_true h (fun p r w => irqCase p r body w == c) (beq_iff_eq.mpr hc) hk

/-- Every other case is skipped (R293). -/
theorem run_otherCase (h : Went .irqd s0 s b L l) {body : Rev} {c : IrqCase}
    (hc : irqCase s0.cfg s0.blk.rev body s0.irqd.s ≠ c) (ys xs : List Act) :
    ∃ s', runAll .irqd (inCase body c ys ++ xs) s = runAll .irqd xs s' ∧ Went .irqd s0 s' b L l :=
  run_word_false (fun p r w => irqCase p r body w == c) (beq_eq_false_iff_ne.mpr hc) ys h

/-! ## From the entry to the exit -/

/-- The five conditions of R280. -/
theorem mayActivate_iff (s : State) : mayActivate s = true ↔
    s.blk.attached = true ∧ s.blk.suspended = false ∧ s.lcdc.irq = true ∧ s.blk.irqActive = false ∧ s.blk.lock = .free := by
  simp only [mayActivate, Bool.and_eq_true, Bool.not_eq_true', beq_iff_eq, and_assoc]

/-- The block of a running activation (R280). -/
def Blk.serving (b : Blk) : Blk := { b with irqActive := true, lock := .irqd }

theorem entered_blk (s : State) (g : LReg) : (entered s g).blk = s.blk.serving := rfl

theorem entered_status (s : State) (g : LReg) : (entered s g).irqd.s = nextStatus s := rfl

/-- The exit gives the block back to the values that the entry found (R280, R292). -/
theorem Blk.serving_exit (hact : b.irqActive = false) (hfree : b.lock = .free) :
    { b.serving with irqActive := false, lock := .free } = b := by
  cases b
  cases hact
  cases hfree
  rfl

/-- An activation whose lines between the read of the status word and the exit run through. -/
theorem irqdTurn_serves (hm : mayActivate s = true) (hp : s.irqd.pc = .idle) (hg : g = .stat ∨ g = .maskedStat)
    (hbody : irqBody s.blk.rev = readStatus g :: (ys ++ [exitLine])) (hact : b.irqActive = false) (hfree : b.lock = .free)
    (hrun : ∀ u, Went .irqd (entered s g) u s.blk.serving (entered s g).seq.loc [] → ∃ u',
      runAll .irqd (ys ++ [exitLine]) u = runAll .irqd [exitLine] u' ∧ Went .irqd (entered s g) u' b.serving L l) :
    ∃ t, irqdTurn fullTurn s = .next t ∧ Served s t b (.read g :: l) := by
  obtain ⟨u', e, hu'⟩ := hrun _ (went_start .irqd (entered s g))
  obtain ⟨t, et, ht⟩ := served_of_went hu'
  rw [Blk.serving_exit hact hfree] at ht
  exact ⟨t, by rw [irqdTurn_start hm hp, hbody, runAll_readStatus s hg, e, et], ht⟩

/-! ## The slots -/

/-- The block after `RELATCH` for each EOF bit, 0 before 1 (R284, R285). -/
def relatchedBlk (b : Blk) (e0 e1 : Bool) : Blk :=
  { b with lastDone := lastDoneAfter e0 e1 b.lastDone, vsyncFlag := b.vsyncFlag || e0 || e1 }

/-- A bit of the status word that the run started with. -/
def wordBit (s : State) (f : Fld) : Bool := statusBit s.cfg s.blk.rev s.irqd.s f

/-- The slot writes for the EOF bits of that word. -/
def eofAccesses (s : State) (b : Blk) : List Access :=
  whenB (wordBit s .eof0) (relatchAccesses b .fb0Base .fb0Ceil) ++
    whenB (wordBit s .eof1) (relatchAccesses b .fb1Base .fb1Ceil)

/-! ## V1 -/

/-- The V1 fault case (R283). -/
theorem run_v1Fault (h : Went .irqd s0 s b L l) :
    ∃ s', runAll .irqd (v1Fault ++ xs) s = runAll .irqd xs s' ∧
      Went .irqd s0 s' { b with rstate := .disabled, palDoneFlag := true } L
        (l ++ [.rmw .rasterCtrl [(.rasterEn, 0)], .write .stat s0.irqd.s, .rmw .rasterCtrl [(.v1PlIntEn, 0)]]) := by
  simp only [v1Fault, List.append_assoc]
  obtain ⟨s1, e1, h1⟩ := run_disableNow (xs := _) h
  obtain ⟨s2, e2, h2⟩ := run_writeReg (xs := _) h1 .stat fun s => s.irqd.s
  obtain ⟨s3, e3, h3⟩ := run_rmw (xs := _) h2 .rasterCtrl (fun _ => [(.v1PlIntEn, 0)]) _ rfl
  obtain ⟨s4, e4, h4⟩ := run_onBlk (xs := xs) h3 (fun _ b => { b with palDoneFlag := true }) rfl rfl rfl
  refine ⟨s4, e1.trans (e2.trans (e3.trans e4)), ?_⟩
  rw [h1.status] at h4
  simpa [disableAccesses] using h4

/-- The V1 frame case (R284). -/
theorem run_v1Frame (h : Went .irqd s0 s b L l) :
    ∃ s', runAll .irqd (v1Frame ++ xs) s = runAll .irqd xs s' ∧
      Went .irqd s0 s' (relatchedBlk b (wordBit s0 .eof0) (wordBit s0 .eof1)) L
        (l ++ .write .stat s0.irqd.s :: eofAccesses s0 b) := by
  simp only [v1Frame, List.append_assoc]
  obtain ⟨s1, e1, h1⟩ := run_writeReg (xs := _) h .stat fun s => s.irqd.s
  obtain ⟨s2, e2, h2⟩ := run_onWord (xs := _) h1 (fun p r w => statusBit p r w .eof0) (keepsWord_relatch _ _ _)
    (run_relatch h1 .fb0Base .fb0Ceil .s0)
  obtain ⟨s3, e3, h3⟩ := run_onWord (xs := xs) h2 (fun p r w => statusBit p r w .eof1) (keepsWord_relatch _ _ _)
    (run_relatch h2 .fb1Base .fb1Ceil .s1)
  refine ⟨s3, e1.trans (e2.trans e3), ?_⟩
  simp only [h.status] at h3
  unfold eofAccesses wordBit
  cases hb0 : statusBit s0.cfg s0.blk.rev s0.irqd.s .eof0 <;>
    cases hb1 : statusBit s0.cfg s0.blk.rev s0.irqd.s .eof1 <;>
      simpa [hb0, hb1, relatchedBlk, lastDoneAfter, relatchAccesses] using h3

/-- The V1 case select on the bits of R282. -/
theorem irqCase_v1 (s : State) (hv1 : s.blk.rev = .v1) : irqCase s.cfg .v1 .v1 (nextStatus s) =
    if nextBit s .syncLost = true ∧ nextBit s .fifoUfl = true then .fault else .frame := by
  simp only [irqCase, nextBit_eq, hv1, Bool.and_eq_true]

/-- Settles O46: the case select skips the lines of the other case, and those of the selected one are one called sequence
after the other. -/
theorem v1Activation : Obligations.V1Activation := by
  intro s hm hp hv1
  obtain ⟨-, -, -, hact, hfree⟩ := (mayActivate_iff s).mp hm
  have hbody : irqBody s.blk.rev =
      readStatus .stat :: ((inCase .v1 .fault v1Fault ++ inCase .v1 .frame v1Frame) ++ [exitLine]) := by rw [hv1]; rfl
  have hcase : irqCase (entered s .stat).cfg (entered s .stat).blk.rev .v1 (entered s .stat).irqd.s =
      if nextBit s .syncLost = true ∧ nextBit s .fifoUfl = true then .fault else .frame := by
    rw [← irqCase_v1 s hv1, entered_blk, ← hv1]; rfl
  refine ⟨fun hfault => ?fault, fun hnofault => ?frame⟩
  case fault =>
    rw [if_pos hfault] at hcase
    refine irqdTurn_serves (b := { s.blk with rstate := .disabled, palDoneFlag := true }) (L := (entered s .stat).seq.loc)
      hm hp (.inl rfl) hbody hact hfree fun u hu => ?_
    rw [List.append_assoc, run_inCase hu hcase keepsWord_v1Fault]
    obtain ⟨s1, e1, h1⟩ := run_v1Fault (xs := _) hu
    obtain ⟨s2, e2, h2⟩ := run_otherCase h1 (c := .frame) (by rw [hcase]; nofun) v1Frame [exitLine]
    exact ⟨s2, e1.trans e2, h2⟩
  case frame =>
    rw [if_neg hnofault] at hcase
    refine irqdTurn_serves (b := relatchedBlk s.blk (nextBit s .eof0) (nextBit s .eof1)) (L := (entered s .stat).seq.loc)
      hm hp (.inl rfl) hbody hact hfree fun u hu => ?_
    obtain ⟨s1, e1, h1⟩ := run_otherCase hu (c := .fault) (by rw [hcase]; nofun) v1Fault (inCase .v1 .frame v1Frame ++ [exitLine])
    obtain ⟨s2, e2, h2⟩ := run_v1Frame (xs := [exitLine]) h1
    rw [List.append_assoc]
    exact ⟨s2, e1.trans ((run_inCase h1 hcase keepsWord_v1Frame).trans e2), h2⟩

/-! ## V2 -/

/-- The actions of `DISABLE_SEQ(NoWait)` and the write-back, by which the fault case and the palette case begin (R288,
R289). -/
def acknowledgeAccesses (s : State) : List Access :=
  [.rmw .rasterCtrl [(.rasterEn, 0)], .write .maskedStat s.irqd.s]

theorem run_acknowledge (h : Went .irqd s0 s b L l) :
    ∃ s', runAll .irqd (disableNow .irqd ++ clearStatus .maskedStat :: xs) s = runAll .irqd xs s' ∧
      Went .irqd s0 s' { b with rstate := .disabled } L (l ++ acknowledgeAccesses s0) := by
  obtain ⟨s1, e1, h1⟩ := run_disableNow (xs := clearStatus .maskedStat :: xs) h
  obtain ⟨s2, e2, h2⟩ := run_writeReg (xs := xs) h1 .maskedStat fun s => s.irqd.s
  rw [h1.status] at h2
  exact ⟨s2, e1.trans e2, by simpa [disableAccesses, acknowledgeAccesses] using h2⟩

/-- The V2 fault case (R288). -/
theorem run_v2Fault (h : Went .irqd s0 s b L l) :
    ∃ s', runAll .irqd (v2Fault ++ xs) s = runAll .irqd xs s' ∧
      Went .irqd s0 s' { b with rstate := .enabled } L (l ++ (acknowledgeAccesses s0 ++ enableAccesses s0)) := by
  simp only [v2Fault, List.append_assoc]
  obtain ⟨s1, e1, h1⟩ := run_acknowledge (xs := _) h
  obtain ⟨s2, e2, h2⟩ := run_enableSeq (xs := xs) h1
  exact ⟨s2, e1.trans e2, by simpa using h2⟩

/-- The V2 palette case (R289). -/
theorem run_v2Palette (h : Went .irqd s0 s b L l) :
    ∃ s', runAll .irqd (v2Palette ++ xs) s = runAll .irqd xs s' ∧
      Went .irqd s0 s' { b with rstate := .enabled, palDoneFlag := true } L
        (l ++ (acknowledgeAccesses s0 ++ .write .intEnClr (paletteEnable s0.cfg s0.blk.rev) :: enableAccesses s0)) := by
  simp only [v2Palette, List.append_assoc]
  obtain ⟨s1, e1, h1⟩ := run_acknowledge (xs := _) h
  obtain ⟨s2, e2, h2⟩ := run_writeReg (xs := _) h1 .intEnClr fun s => paletteEnable s.cfg s.blk.rev
  obtain ⟨s3, e3, h3⟩ := run_onBlk (xs := _) h2 (fun _ b => { b with palDoneFlag := true }) rfl rfl rfl
  obtain ⟨s4, e4, h4⟩ := run_enableSeq (xs := xs) h3
  rw [h1.cfg, h1.rev_eq] at h4
  exact ⟨s4, e1.trans (e2.trans (e3.trans e4)), by simpa using h4⟩

/-- `RELATCH(k)` and the callback (R290). -/
theorem run_relatchCallback (h : Went .irqd s0 s b L l) (base ceil : LReg) (k : LastDone) :
    ∃ s', runAll .irqd (relatch base ceil k ++ [callbackLine] ++ xs) s = runAll .irqd xs s' ∧
      Went .irqd s0 s' { b with lastDone := k, vsyncFlag := true, out := b.out ++ callbackEvents b } L
        (l ++ relatchAccesses b base ceil) := by
  rw [List.append_assoc]
  obtain ⟨s1, e1, h1⟩ := run_relatch (xs := _) h base ceil k
  obtain ⟨s2, e2, h2⟩ := run_callback (xs := xs) h1
  exact ⟨s2, e1.trans e2, h2⟩

theorem keepsWord_relatchCallback (base ceil : LReg) (k : LastDone) :
    ∀ y ∈ relatch base ceil k ++ [callbackLine], KeepsWord y :=
  keepsWord_append (keepsWord_relatch _ _ _) (keepsWord_cons keepsWord_callbackLine keepsWord_nil)

/-- The block after the V2 frame case: a callback event per EOF bit, and the frame-done flag (R290). -/
def frameDoneBlk (b : Blk) (e0 e1 fd : Bool) : Blk :=
  { relatchedBlk b e0 e1 with
    frameDoneFlag := b.frameDoneFlag || fd
    out := b.out ++ (if e0 then callbackEvents b else []) ++ (if e1 then callbackEvents b else []) }

/-- The V2 frame case (R290). -/
theorem run_v2Frame (h : Went .irqd s0 s b L l) :
    ∃ s', runAll .irqd (v2Frame ++ xs) s = runAll .irqd xs s' ∧
      Went .irqd s0 s' (frameDoneBlk b (wordBit s0 .eof0) (wordBit s0 .eof1) (wordBit s0 .frameDone)) L
        (l ++ .write .maskedStat s0.irqd.s :: eofAccesses s0 b) := by
  simp only [v2Frame, List.append_assoc]
  obtain ⟨s1, e1, h1⟩ := run_writeReg (xs := _) h .maskedStat fun s => s.irqd.s
  obtain ⟨s2, e2, h2⟩ := run_onWord (xs := _) h1 (fun p r w => statusBit p r w .eof0) (keepsWord_relatchCallback _ _ _)
    (run_relatchCallback h1 .fb0Base .fb0Ceil .s0)
  obtain ⟨s3, e3, h3⟩ := run_onWord (xs := _) h2 (fun p r w => statusBit p r w .eof1) (keepsWord_relatchCallback _ _ _)
    (run_relatchCallback h2 .fb1Base .fb1Ceil .s1)
  obtain ⟨s4, e4, h4⟩ := run_onWord (xs := xs) (ys := [markFrameDone]) (m := []) h3
    (fun p r w => statusBit p r w .frameDone)
    (keepsWord_cons (keepsWord_assign fun _ => ⟨rfl, rfl, rfl⟩) keepsWord_nil)
    (by rw [List.append_nil]; exact run_onBlk h3 (fun _ b => { b with frameDoneFlag := true }) rfl rfl rfl)
  refine ⟨s4, e1.trans (e2.trans (e3.trans e4)), ?_⟩
  simp only [h.status] at h4
  unfold eofAccesses wordBit frameDoneBlk relatchedBlk
  cases hb0 : statusBit s0.cfg s0.blk.rev s0.irqd.s .eof0 <;>
    cases hb1 : statusBit s0.cfg s0.blk.rev s0.irqd.s .eof1 <;>
      cases hb2 : statusBit s0.cfg s0.blk.rev s0.irqd.s .frameDone <;>
        simpa [hb0, hb1, hb2, lastDoneAfter, relatchAccesses, callbackEvents] using h4

/-- The lines of a case of the V2 body (R293). -/
def v2CaseLines : IrqCase → List Act
  | .fault => v2Fault
  | .palette => v2Palette
  | .frame => v2Frame

/-- A whole V2 activation whose status word selects the case `c`: the read, the lines of that case, the write of `EOI`. -/
theorem irqdTurn_v2 {c : IrqCase} (hm : mayActivate s = true) (hp : s.irqd.pc = .idle) (hv2 : s.blk.rev = .v2)
    (hc : irqCase s.cfg .v2 .v2 (nextStatus s) = c) (hact : b.irqActive = false) (hfree : b.lock = .free)
    (hrun : ∀ u, Went .irqd (entered s .maskedStat) u s.blk.serving (entered s .maskedStat).seq.loc [] → ∀ xs, ∃ u',
      runAll .irqd (v2CaseLines c ++ xs) u = runAll .irqd xs u' ∧
        Went .irqd (entered s .maskedStat) u' b.serving (entered s .maskedStat).seq.loc l) :
    ∃ t, irqdTurn fullTurn s = .next t ∧ Served s t b (.read .maskedStat :: l ++ [.write .eoi 0#32]) := by
  have hbody : irqBody s.blk.rev = readStatus .maskedStat :: ((inCase .v2 .fault v2Fault ++ inCase .v2 .palette v2Palette ++
      inCase .v2 .frame v2Frame ++ [writeReg .irqd .eoi fun _ => 0#32]) ++ [exitLine]) := by rw [hv2]; rfl
  have hcase : irqCase (entered s .maskedStat).cfg (entered s .maskedStat).blk.rev .v2 (entered s .maskedStat).irqd.s = c := by
    rw [← hc, entered_blk, ← hv2]; rfl
  refine irqdTurn_serves (L := (entered s .maskedStat).seq.loc) hm hp (.inr rfl) hbody hact hfree fun u hu => ?_
  simp only [List.append_assoc]
  cases c with
  | fault =>
    obtain ⟨s1, e1, h1⟩ := hrun u hu _
    obtain ⟨s2, e2, h2⟩ := run_otherCase h1 (c := .palette) (by rw [hcase]; nofun) v2Palette _
    obtain ⟨s3, e3, h3⟩ := run_otherCase h2 (c := .frame) (by rw [hcase]; nofun) v2Frame _
    obtain ⟨s4, e4, h4⟩ := run_writeReg (xs := [exitLine]) h3 .eoi fun _ => 0#32
    exact ⟨s4, (run_inCase hu hcase keepsWord_v2Fault).trans (e1.trans (e2.trans (e3.trans e4))), h4⟩
  | palette =>
    obtain ⟨s1, e1, h1⟩ := run_otherCase hu (c := .fault) (by rw [hcase]; nofun) v2Fault _
    obtain ⟨s2, e2, h2⟩ := hrun s1 h1 _
    obtain ⟨s3, e3, h3⟩ := run_otherCase h2 (c := .frame) (by rw [hcase]; nofun) v2Frame _
    obtain ⟨s4, e4, h4⟩ := run_writeReg (xs := [exitLine]) h3 .eoi fun _ => 0#32
    exact ⟨s4, e1.trans ((run_inCase h1 hcase keepsWord_v2Palette).trans (e2.trans (e3.trans e4))), h4⟩
  | frame =>
    obtain ⟨s1, e1, h1⟩ := run_otherCase hu (c := .fault) (by rw [hcase]; nofun) v2Fault _
    obtain ⟨s2, e2, h2⟩ := run_otherCase h1 (c := .palette) (by rw [hcase]; nofun) v2Palette _
    obtain ⟨s3, e3, h3⟩ := hrun s2 h2 _
    obtain ⟨s4, e4, h4⟩ := run_writeReg (xs := [exitLine]) h3 .eoi fun _ => 0#32
    exact ⟨s4, e1.trans (e2.trans ((run_inCase h2 hcase keepsWord_v2Frame).trans (e3.trans e4))), h4⟩

/-- The V2 case select on the bits of R287. -/
theorem irqCase_v2_next (hv2 : s.blk.rev = .v2) : irqCase s.cfg .v2 .v2 (nextStatus s) =
    if nextBit s .syncLost = true ∧ nextBit s .fifoUfl = true then .fault
    else if nextBit s .plDone = true then .palette else .frame := by
  simp only [irqCase, nextBit_eq, hv2, Bool.and_eq_true]

/-- The actions of an activation's enable sequence on V2 (R220, R221). -/
theorem enableAccesses_entered (hv2 : s.blk.rev = .v2) (g : LReg) : enableAccesses (entered s g) =
    [.write .clkReset (ins 0#32 (s.cfg.pos .v2 .mainReset) 1), .hold 1, .write .clkReset 0#32, .hold 1,
     .rmw .rasterCtrl [(.rasterEn, 1)]] :=
  (enableAccesses_eq (entered s g)).trans (if_pos hv2)

/-- A V2 activation in case 1 (R288). -/
theorem irqdTurn_v2_fault (hm : mayActivate s = true) (hp : s.irqd.pc = .idle) (hv2 : s.blk.rev = .v2)
    (hc : irqCase s.cfg .v2 .v2 (nextStatus s) = .fault) : ∃ t, irqdTurn fullTurn s = .next t ∧
      Served s t { s.blk with rstate := .enabled } (.read .maskedStat ::
        (acknowledgeAccesses (entered s .maskedStat) ++ enableAccesses (entered s .maskedStat)) ++ [.write .eoi 0#32]) := by
  obtain ⟨-, -, -, hact, hfree⟩ := (mayActivate_iff s).mp hm
  exact irqdTurn_v2 (b := { s.blk with rstate := .enabled }) hm hp hv2 hc hact hfree fun u hu xs => run_v2Fault hu

/-- A V2 activation in case 2 (R289). -/
theorem irqdTurn_v2_palette (hm : mayActivate s = true) (hp : s.irqd.pc = .idle) (hv2 : s.blk.rev = .v2)
    (hc : irqCase s.cfg .v2 .v2 (nextStatus s) = .palette) : ∃ t, irqdTurn fullTurn s = .next t ∧
      Served s t { s.blk with rstate := .enabled, palDoneFlag := true } (.read .maskedStat ::
        (acknowledgeAccesses (entered s .maskedStat) ++ .write .intEnClr (paletteEnable s.cfg s.blk.rev) ::
          enableAccesses (entered s .maskedStat)) ++ [.write .eoi 0#32]) := by
  obtain ⟨-, -, -, hact, hfree⟩ := (mayActivate_iff s).mp hm
  exact irqdTurn_v2 (b := { s.blk with rstate := .enabled, palDoneFlag := true }) hm hp hv2 hc hact hfree
    fun u hu xs => run_v2Palette hu

/-- A V2 activation in case 3 (R290). -/
theorem irqdTurn_v2_frame (hm : mayActivate s = true) (hp : s.irqd.pc = .idle) (hv2 : s.blk.rev = .v2)
    (hc : irqCase s.cfg .v2 .v2 (nextStatus s) = .frame) : ∃ t, irqdTurn fullTurn s = .next t ∧
      Served s t (frameDoneBlk s.blk (nextBit s .eof0) (nextBit s .eof1) (nextBit s .frameDone))
        (.read .maskedStat :: (.write .maskedStat (nextStatus s) :: frameAccesses s) ++ [.write .eoi 0#32]) := by
  obtain ⟨-, -, -, hact, hfree⟩ := (mayActivate_iff s).mp hm
  exact irqdTurn_v2 (b := frameDoneBlk s.blk (nextBit s .eof0) (nextBit s .eof1) (nextBit s .frameDone)) hm hp hv2 hc
    hact hfree fun u hu xs => run_v2Frame hu

/-- Settles O47: case 1 of the V2 body. -/
theorem v2FaultRecovery : Obligations.V2FaultRecovery := by
  intro s hm hp hv2 hsync hufl
  have hserved := irqdTurn_v2_fault hm hp hv2 ((irqCase_v2_next hv2).trans (if_pos ⟨hsync, hufl⟩))
  rw [enableAccesses_entered hv2] at hserved
  exact hserved

/-- Settles O48: case 2 of the V2 body. -/
theorem v2PaletteDone : Obligations.V2PaletteDone := by
  intro s hm hp hv2 hnofault hpl
  have hserved := irqdTurn_v2_palette hm hp hv2 ((irqCase_v2_next hv2).trans ((if_neg hnofault).trans (if_pos hpl)))
  rw [enableAccesses_entered hv2, paletteEnable_eq, hv2] at hserved
  exact hserved

/-- Settles O49: case 3 of the V2 body. -/
theorem v2FrameCompletion : Obligations.V2FrameCompletion := fun s hm hp hv2 hnofault hnopl =>
  irqdTurn_v2_frame hm hp hv2 ((irqCase_v2_next hv2).trans ((if_neg hnofault).trans (if_neg (by rw [hnopl]; nofun))))

/-- An activation whose last action is the write of `EOI` ends with that entry in the port record (R68). -/
theorem Served.port_eoi {t : State} (h : Served s t b (l ++ [.write .eoi 0#32])) :
    ∃ evs, t.port = s.port ++ evs ++ [.write .irqd (s.off .eoi) 0#32] := by
  obtain ⟨evs, hport, -⟩ := does_port .irqd l s
  refine ⟨evs, ?_⟩
  rw [h.port, does_append, ← hport, off_eq, ← does_cfg .irqd s l, ← does_blk .irqd s l]
  rfl

/-- Settles O50: whichever case the status word selects, the lines of the case are followed by the EOI write and the exit. -/
theorem v2EndsWithEoi : Obligations.V2EndsWithEoi := by
  intro s hm hp hv2
  obtain ⟨t, b, l, hexec, hserved⟩ : ∃ t b l, irqdTurn fullTurn s = .next t ∧ Served s t b (l ++ [.write .eoi 0#32]) := by
    cases hc : irqCase s.cfg .v2 .v2 (nextStatus s) with
    | fault => exact (irqdTurn_v2_fault hm hp hv2 hc).imp fun _ h => ⟨_, _, h⟩
    | palette => exact (irqdTurn_v2_palette hm hp hv2 hc).imp fun _ h => ⟨_, _, h⟩
    | frame => exact (irqdTurn_v2_frame hm hp hv2 hc).imp fun _ h => ⟨_, _, h⟩
  obtain ⟨evs, hport⟩ := hserved.port_eoi
  exact ⟨t, evs, hexec, hserved.pc, hport⟩

end Sys2Proof.Machine
end

section
/-! What a turn of the decoder may change, of whatever length and from whatever line (R295, R312, R317), which of its lines move
the raster state (R227), and that no line of an activation waits, so that each activation reaches its exit (R292). -/

namespace Sys2Proof.Machine

variable {s t u u' : State} {r : Rev} {k k0 n : Nat} {y : Act} {l : List Act} {g : LReg}

/-! ## The frame of the decoder -/

/-- The LCDC registers that no line of the decoder writes (R295). -/
def decoderKeeps : List LReg := [.ctrl, .timing0, .timing1, .timing2, .dmaCtrl, .intEnSet, .clkEn]

/-- What the decoder leaves: the sequencer, the parameters, the host's read data, the block but for the raster state, the flags,
the slot recorded, the output, the lock and `irqActive`, the registers of `decoderKeeps` and the line. It clears no flag, and
adds only callback events to the output (R267, R317). -/
structure DecoderFrame (s t : State) : Prop where
  seq : t.seq = s.seq := by rfl
  cfg : t.cfg = s.cfg := by rfl
  busData : t.busData = s.busData := by rfl
  blk : ∃ r v f p d o h a, t.blk =
    { s.blk with rstate := r, vsyncFlag := v, frameDoneFlag := f, palDoneFlag := p, lastDone := d, out := o
                 lock := h, irqActive := a } := by
    exact ⟨_, _, _, _, _, _, _, _, rfl⟩
  flag : ∀ e, s.blk.flag e = true → t.blk.flag e = true := by exact fun _ h => h
  out : ∃ evs, t.blk.out = s.blk.out ++ evs ∧ ∀ ev ∈ evs, ∃ fn ctx, ev = .vsyncCallback fn ctx := by
    exact ⟨[], (List.append_nil _).symm, nofun⟩
  regs : ∀ g ∈ decoderKeeps, t.lcdc.regs.get g = s.lcdc.regs.get g := by exact fun _ _ => rfl
  irq : t.lcdc.irq = s.lcdc.irq := by rfl

theorem DecoderFrame.trans (h : DecoderFrame s t) (h' : DecoderFrame t u) : DecoderFrame s u where
  seq := h'.seq.trans h.seq
  cfg := h'.cfg.trans h.cfg
  busData := h'.busData.trans h.busData
  blk := by
    obtain ⟨_, _, _, _, _, _, _, _, e⟩ := h.blk
    obtain ⟨_, _, _, _, _, _, _, _, e'⟩ := h'.blk
    rw [e', e]
    exact ⟨_, _, _, _, _, _, _, _, rfl⟩
  flag e he := h'.flag e (h.flag e he)
  out := by
    obtain ⟨evs, e, hevs⟩ := h.out
    obtain ⟨evs', e', hevs'⟩ := h'.out
    exact ⟨evs ++ evs', by rw [e', e, List.append_assoc], List.forall_mem_append.mpr ⟨hevs, hevs'⟩⟩
  regs g hg := (h'.regs g hg).trans (h.regs g hg)
  irq := h'.irq.trans h.irq

theorem DecoderFrame.bump (h : DecoderFrame s t) : DecoderFrame s (bump .irqd t) where
  seq := by rw [bump_irqd_seq, h.seq]
  cfg := by rw [bump_cfg, h.cfg]
  busData := by rw [bump_busData, h.busData]
  blk := by rw [bump_blk]; exact h.blk
  flag := by rw [bump_blk]; exact h.flag
  out := by rw [bump_blk]; exact h.out
  regs := by rw [bump_lcdc]; exact h.regs
  irq := by rw [bump_lcdc, h.irq]

/-- A field of the block that the decoder does not write. -/
theorem DecoderFrame.kept {α : Type} (h : DecoderFrame s t) (field : Blk → α)
    (hfield : ∀ b r v f p d o k a, field { b with rstate := r, vsyncFlag := v, frameDoneFlag := f, palDoneFlag := p
                                                  lastDone := d, out := o, lock := k, irqActive := a } = field b := by
      exact fun _ _ _ _ _ _ _ _ _ => rfl) : field t.blk = field s.blk := by
  obtain ⟨_, _, _, _, _, _, _, _, e⟩ := h.blk
  rw [e]
  exact hfield ..

/-! ## The lines -/

/-- The steps of the decoder that move the raster state, by the line before them (R227, R283, R288, R289). -/
def rasterRows : List (IrqPc × RState) :=
  [(.run .v1 3, .disabled), (.run .v2 3, .disabled), (.run .v2 5, .enabling), (.run .v2 12, .enabled),
   (.run .v2 15, .disabled), (.run .v2 19, .enabling), (.run .v2 26, .enabled)]

/-- Line `k` of a body keeps to the frame and moves the raster state only as `rasterRows` says. -/
structure DecoderLine (r : Rev) (k : Nat) (y : Act) : Prop where
  frame : ∀ u, DecoderFrame u (after .irqd (y u))
  raster : ∀ u, (after .irqd (y u)).blk.rstate = u.blk.rstate ∨ (.run r k, (after .irqd (y u)).blk.rstate) ∈ rasterRows

/-- The lines `l` of a body, the first of which has number `k0`. -/
abbrev Decodes (r : Rev) (k0 : Nat) (l : List Act) : Prop := EachLine (DecoderLine r) k0 l

theorem decoderLine_assign {f : State → State} (hf : ∀ u, DecoderFrame u (f u))
    (hr : ∀ u, (f u).blk.rstate = u.blk.rstate := by exact fun _ => rfl) : DecoderLine r k (assign f) :=
  ⟨fun u => (hf u).bump, fun u => .inl ((congrArg Blk.rstate (bump_blk .irqd (f u))).trans (hr u))⟩

theorem decoderLine_setRState {x : RState} (h : (.run r k, x) ∈ rasterRows) : DecoderLine r k (setRState x) where
  frame u := DecoderFrame.bump (t := u.onBlk fun b => { b with rstate := x }) {}
  raster u := .inr (by rw [show (after .irqd (setRState x u)).blk.rstate = x from congrArg Blk.rstate (bump_blk ..)]; exact h)

theorem decoderLine_exitLine : DecoderLine r k exitLine := ⟨fun _ => {}, fun _ => .inl rfl⟩

theorem decoderLine_onlyIf {c : State → Bool} (h : DecoderLine r k y) : DecoderLine r k (onlyIf c y) := by
  refine ⟨fun u => ?_, fun u => ?_⟩ <;> unfold onlyIf <;> split
  · exact h.frame u
  · exact DecoderFrame.bump (s := u) (t := u) {}
  · exact h.raster u
  · exact .inl (congrArg Blk.rstate (bump_blk .irqd u))

theorem decodes_guarded {c : State → Bool} : ∀ {l : List Act} {k0 : Nat}, Decodes r k0 l → Decodes r k0 (guarded c l)
  | [], _, _ => trivial
  | _ :: _, _, h => ⟨decoderLine_onlyIf h.1, decodes_guarded h.2⟩

theorem decoderLine_writeReg (v : State → Word) (hg : g ∉ decoderKeeps) : DecoderLine r k (writeReg .irqd g v) :=
  decoderLine_assign fun _ => { regs := fun _ hg' => get_put_other _ _ fun e => hg (e ▸ hg') }

theorem decoderLine_delay (ms : Nat) : DecoderLine r k (delay .irqd ms) := decoderLine_assign fun _ => {}

theorem decodes_rmw (e : State → List (Fld × Nat)) (hg : g ∉ decoderKeeps) : Decodes r k0 (rmw .irqd g e) :=
  .cons (decoderLine_assign (f := fun s => (s.afterRead .irqd g).setTmp .irqd (s.readVal g)) fun _ => {})
    (.single (decoderLine_writeReg _ hg))

theorem decodes_disableNow (hrow : (.run r (k0 + 2), .disabled) ∈ rasterRows) : Decodes r k0 (disableNow .irqd) :=
  (decodes_rmw _ (by decide)).append (.single (decoderLine_setRState hrow))

theorem decodes_enableSeq (hfirst : (.run r k0, .enabling) ∈ rasterRows)
    (hlast : (.run r (k0 + 7), .enabled) ∈ rasterRows) : Decodes r k0 (enableSeq .irqd) :=
  ((EachLine.append (.single (decoderLine_setRState hfirst)) <| decodes_guarded <|
    .cons (decoderLine_writeReg _ (by decide)) <| .cons (decoderLine_delay _) <|
      .cons (decoderLine_writeReg _ (by decide)) <| .single (decoderLine_delay _)).append (decodes_rmw _ (by decide))).append
    (.single (decoderLine_setRState hlast))

/-- Raising a flag, as the decoder does (R30, R283 to R290). -/
theorem decoderLine_raise (e : WaitEvent) : DecoderLine r k (assign fun s => s.onBlk fun b => b.setFlag e true) := by
  have hkept : ∀ (u : State) e', u.blk.flag e' = true → (u.blk.setFlag e true).flag e' = true := by
    intro u e'
    cases e <;> cases e' <;> simp [Blk.flag, Blk.setFlag]
  refine decoderLine_assign (fun u => ?_) fun u => ?_
  · cases e <;> exact { flag := hkept u }
  · cases e <;> rfl

theorem decodes_relatch {base ceil : LReg} (x : LastDone) (hb : base ∉ decoderKeeps) (hc : ceil ∉ decoderKeeps) :
    Decodes r k0 (relatch base ceil x) :=
  (EachLine.append (.single (decoderLine_assign fun _ => {})) <| decodes_guarded <|
    .cons (decoderLine_writeReg _ hb) (.single (decoderLine_writeReg _ hc))).append <|
    .cons (decoderLine_assign fun _ => {}) (.single (decoderLine_raise .vsync))

theorem decoderLine_callbackLine : DecoderLine r k callbackLine :=
  decoderLine_assign
    (fun u => by
      split
      · next fn ctx hcb => exact { out := ⟨_, rfl, List.forall_mem_singleton.mpr ⟨fn, ctx, rfl⟩⟩ }
      · exact {})
    fun u => by split <;> rfl

theorem decodes_relatchCallback {base ceil : LReg} (x : LastDone) (hb : base ∉ decoderKeeps) (hc : ceil ∉ decoderKeeps) :
    Decodes r k0 (relatch base ceil x ++ [callbackLine]) :=
  (decodes_relatch x hb hc).append (.single decoderLine_callbackLine)

/-- Every line of both bodies keeps to the frame and to the rows of R227. -/
theorem decodes_irqBody : ∀ r, Decodes r 0 (irqBody r)
  | .v1 => by
    have hfault : Decodes .v1 1 v1Fault :=
      (((decodes_disableNow (by decide)).append (.single (decoderLine_writeReg _ (by decide)))).append
        (decodes_rmw _ (by decide))).append (.single (decoderLine_raise .palDone))
    have hframe : Decodes .v1 8 v1Frame :=
      (EachLine.append (.single (decoderLine_writeReg _ (by decide)))
        (decodes_guarded (decodes_relatch _ (by decide) (by decide)))).append
        (decodes_guarded (decodes_relatch _ (by decide) (by decide)))
    exact ((EachLine.append (.single (decoderLine_assign fun _ => {})) (decodes_guarded hfault)).append
      (decodes_guarded hframe)).append (.single decoderLine_exitLine)
  | .v2 => by
    have hfault : Decodes .v2 1 v2Fault :=
      ((decodes_disableNow (by decide)).append (.single (decoderLine_writeReg _ (by decide)))).append
        (decodes_enableSeq (by decide) (by decide))
    have hpalette : Decodes .v2 13 v2Palette :=
      ((decodes_disableNow (by decide)).append <| .cons (decoderLine_writeReg _ (by decide)) <|
        .cons (decoderLine_writeReg _ (by decide)) <| .single (decoderLine_raise .palDone)).append
        (decodes_enableSeq (by decide) (by decide))
    have hframe : Decodes .v2 27 v2Frame :=
      ((EachLine.append (.single (decoderLine_writeReg _ (by decide)))
        (decodes_guarded (decodes_relatchCallback _ (by decide) (by decide)))).append
        (decodes_guarded (decodes_relatchCallback _ (by decide) (by decide)))).append
        (decodes_guarded (.single (decoderLine_raise .frameDone)))
    exact (((EachLine.append (.single (decoderLine_assign fun _ => {})) (decodes_guarded hfault)).append
      (decodes_guarded hpalette)).append (decodes_guarded hframe)).append <|
      .cons (decoderLine_writeReg _ (by decide)) (.single decoderLine_exitLine)

theorem line_decodes (hy : (irqBody r)[k]? = some y) : DecoderLine r k y := by
  simpa using (decodes_irqBody r).get hy

/-! ## Turns -/

/-- A turn of a running activation runs the lines of its body from its step pointer. -/
theorem irqdContinue_cases (h : irqdContinue n s = .next t) : (s.irqd.pc = .idle ∧ t = s) ∨
    ∃ r k, s.irqd.pc = .run r k ∧ k < (irqBody r).length ∧ t = runActs .irqd ((irqBody r).drop k) n s := by
  unfold irqdContinue at h
  split at h
  · next hp => cases h; exact .inl ⟨hp, rfl⟩
  · next r k hp => split at h <;> cases h; exact .inr ⟨r, k, hp, by assumption, rfl⟩

theorem decoderFrame_irqdContinue (h : irqdContinue n s = .next t) : DecoderFrame s t := by
  rcases irqdContinue_cases h with ⟨-, rfl⟩ | ⟨r, k, -, -, rfl⟩
  · exact {}
  · refine runActs_keeps (P := DecoderFrame s) (fun y hy u hu => hu.trans ?_) n s {}
    obtain ⟨j, hj⟩ := List.mem_iff_getElem?.mp (List.mem_of_mem_drop hy)
    exact (line_decodes hj).frame u

/-- What a turn of the decoder can answer: it goes on with a running activation, takes no step, or starts an activation. -/
theorem irqdTurn_cases (h : irqdTurn n s = .next t) :
    (s.irqd.pc ≠ .idle ∧ irqdContinue n s = .next t) ∨ (s.irqd.pc = .idle ∧ t = s) ∨
      ∃ m, n = m + 1 ∧ s.irqd.pc = .idle ∧ mayActivate s = true ∧ irqdContinue m (activate s) = .next t := by
  unfold irqdTurn at h
  split at h
  · next hp => exact .inl ⟨by rw [hp]; nofun, h⟩
  · next hp =>
    split at h
    · cases h; exact .inr (.inl ⟨hp, rfl⟩)
    · next m =>
      split at h
      · next hm => exact .inr (.inr ⟨m, rfl, hp, hm, h⟩)
      · cases h; exact .inr (.inl ⟨hp, rfl⟩)

/-- A turn of the decoder, of whatever length and from whatever point. -/
theorem decoderFrame_irqdTurn (h : irqdTurn n s = .next t) : DecoderFrame s t := by
  rcases irqdTurn_cases h with ⟨-, h⟩ | ⟨-, rfl⟩ | ⟨m, -, -, -, h⟩
  · exact decoderFrame_irqdContinue h
  · exact {}
  · exact DecoderFrame.trans (t := activate s) {} (decoderFrame_irqdContinue h)

/-- A turn of one step runs one line. -/
theorem runActs_one {a : Agent} (hk : k < l.length) : runActs a (l.drop k) 1 s = after a (l[k] s) := by
  rw [List.drop_eq_getElem_cons hk]
  simp only [runActs]
  cases l[k] s with
  | go u => exact runActs_zero ..
  | stay u => rfl
  | stop u => rfl

/-- One step of the decoder moves the raster state only as `rasterRows` says. -/
theorem rasterRow_irqdTurn (h : irqdTurn 1 s = .next t) (hne : t.blk.rstate ≠ s.blk.rstate) :
    (s.irqd.pc, t.blk.rstate) ∈ rasterRows := by
  rcases irqdTurn_cases h with ⟨hp, h⟩ | ⟨-, rfl⟩ | ⟨m, hm, -, -, h⟩
  · rcases irqdContinue_cases h with ⟨hidle, -⟩ | ⟨r, k, hrun, hk, rfl⟩
    · exact absurd hidle hp
    · rw [runActs_one hk] at hne ⊢
      rw [hrun]
      exact ((line_decodes (List.getElem?_eq_getElem hk)).raster s).resolve_left hne
  · exact absurd rfl hne
  · obtain rfl : m = 0 := by omega
    rcases irqdContinue_cases h with ⟨-, rfl⟩ | ⟨_, _, -, -, rfl⟩
    · exact absurd rfl hne
    · rw [runActs_zero] at hne
      exact absurd rfl hne

/-- Settles O52: the frame and the rows, line by line, hold of any turn and of any step. -/
theorem decoderTouchesOnlyItsOwn : Obligations.DecoderTouchesOnlyItsOwn := by
  refine ⟨fun s t h hne => rasterRow_irqdTurn h hne, fun n s t h => ?_⟩
  have hf := decoderFrame_irqdTurn h
  exact ⟨hf.seq, hf.cfg, hf.busData, hf.kept Blk.err, hf.kept Blk.busy, hf.kept Blk.res0,
    hf.kept Blk.res1, hf.kept Blk.cmdword, hf.kept Blk.argreg, hf.kept Blk.arg,
    hf.kept Blk.attached, hf.kept Blk.rev, hf.kept Blk.fmt, hf.kept Blk.geo,
    hf.kept Blk.haveMode, hf.kept Blk.vram, hf.kept Blk.cb, hf.kept Blk.divider,
    hf.kept Blk.srcRate, hf.kept Blk.palCount, hf.kept Blk.panelPower, hf.kept Blk.clkRun,
    hf.kept Blk.suspended, hf.kept Blk.win, hf.kept Blk.xoff, hf.kept Blk.yoff, hf.flag, hf.out,
    hf.regs .ctrl (by decide), hf.regs .timing0 (by decide), hf.regs .timing1 (by decide), hf.regs .timing2 (by decide),
    hf.regs .dmaCtrl (by decide), hf.regs .intEnSet (by decide), hf.regs .clkEn (by decide), hf.irq⟩

/-! ## From any line to the exit -/

/-- What a turn leaves of a running activation: it is still inside with both records taken, or it has gone through its exit,
which freed both (R280, R292). -/
def InsideOrLeft (t : State) : Prop :=
  (t.irqd.pc ≠ .idle ∧ t.blk.irqActive = true ∧ t.blk.lock = .irqd) ∨
    (t.irqd.pc = .idle ∧ t.blk.irqActive = false ∧ t.blk.lock = .free)

theorem insideOrLeft_irqdTurn (hp : s.irqd.pc ≠ .idle) (hact : s.blk.irqActive = true) (hlock : s.blk.lock = .irqd)
    (h : irqdTurn n s = .next t) : InsideOrLeft t := by
  rcases irqdTurn_cases h with ⟨-, h⟩ | ⟨hidle, -⟩ | ⟨_, -, hidle, -⟩
  · rcases irqdContinue_cases h with ⟨hidle, -⟩ | ⟨r, k, hrun, -, rfl⟩
    · exact absurd hidle hp
    · have hserves : ∀ j x, ((irqBody r).drop k)[j]? = some x → Serves x := fun j x hx =>
        serves_irqBody r x (List.mem_of_mem_drop (List.mem_of_getElem? hx))
      refine runActs_keeps_indexed (k0 := k)
        (P := fun j u => u.irqd.pc = .run r j ∧ u.blk.irqActive = true ∧ u.blk.lock = .irqd) ?go ?stay ?stop ?rest n s
        ⟨hrun, hact, hlock⟩
      case go =>
        rintro j x u u' hx ⟨hpc, hact, hlock⟩ hgo
        have hframe := (hserves j x hx).go u u' hgo
        obtain ⟨_, _, _, _, _, _, hblk⟩ := hframe.blk
        exact ⟨bump_irqd_pc (hframe.pc.trans hpc), by rw [bump_blk, hblk]; exact hact, by rw [bump_blk, hblk]; exact hlock⟩
      case stay => exact fun j x u u' hx _ hstay => absurd hstay ((hserves j x hx).stay u u')
      case stop =>
        intro j x u u' hx _ hstop
        cases (hserves j x hx).stop u u' hstop
        exact .inr ⟨rfl, rfl, rfl⟩
      case rest => exact fun j u hu => .inl ⟨by rw [hu.1]; nofun, hu.2⟩
  · exact absurd hidle hp
  · exact absurd hidle hp

/-- Lines of a body that end with its exit line run through to it: none of them waits. -/
theorem runAll_reaches_exit : ∀ {l : List Act} {s : State}, (∀ y ∈ l, Serves y) → l.getLast? = some exitLine →
    (runAll .irqd l s).irqd.pc = .idle ∧ (runAll .irqd l s).blk.lock = .free ∧ (runAll .irqd l s).blk.irqActive = false
  | [], _, _, hlast => nomatch hlast
  | y :: ys, s, hserves, hlast => by
    have hy := hserves y List.mem_cons_self
    simp only [runAll]
    cases hr : y s with
    | go u =>
      cases ys with
      | nil => cases hlast; cases hr
      | cons z zs =>
        exact runAll_reaches_exit (fun x hx => hserves x (List.mem_cons_of_mem _ hx)) ((List.getLast?_cons_cons ..).symm.trans hlast)
    | stay u => exact absurd hr (hy.stay s u)
    | stop u => cases hy.stop s u hr; exact ⟨rfl, rfl, rfl⟩

theorem irqBody_length_le (r : Rev) : (irqBody r).length ≤ fullTurn := by cases r <;> decide

/-- Settles O51: no line of a body waits and the last one is the exit, so a turn that covers the body reaches it; a shorter
turn ends inside, or after the exit. -/
theorem everyActivationReachesItsExit : Obligations.EveryActivationReachesItsExit := by
  refine ⟨fun s r k hp hk => ?reaches, fun n s t hp hact hlock h => ?turn⟩
  case reaches =>
    refine ⟨runAll .irqd ((irqBody r).drop k) s, ?_, runAll_reaches_exit
      (fun y hy => serves_irqBody r y (List.mem_of_mem_drop hy)) ?_⟩
    · have hlen : ((irqBody r).drop k).length ≤ fullTurn := by
        rw [List.length_drop]
        exact (Nat.sub_le ..).trans (irqBody_length_le r)
      simp only [irqdTurn, irqdContinue, hp, if_pos hk, runActs_eq_runAll _ _ _ _ hlen]
    · rw [List.getLast?_drop, if_neg (by omega), getLast_irqBody]
  case turn =>
    rcases insideOrLeft_irqdTurn hp hact hlock h with hin | ⟨hidle, hfreed, hfree⟩
    · exact .inl hin
    · exact .inr ⟨hidle, hfreed, hfree, fun ha hs hl => (mayActivate_iff t).mpr ⟨ha, hs, hl, hfreed, hfree⟩⟩

/-! ## The entry -/

/-- Settles O45: the entry is guarded by the five conditions, a turn that stays inside a running activation keeps both records,
and a move of the decoder is such a turn. -/
theorem activationEntry : Obligations.ActivationEntry := by
  refine ⟨fun s n hp hcond => ?refused, fun s hp ha hsus hirq hact hfree => ?enters, fun s n t hp hact hlock h hin => ?inside,
    fun s n hwf hm => ?move⟩
  case refused =>
    have hno : mayActivate s = false := by rwa [← Bool.not_eq_true, mayActivate_iff]
    cases n with
    | zero => simp only [irqdTurn, hp]
    | succ n => simp only [irqdTurn, hp, hno, Bool.false_eq_true, if_false]
  case enters =>
    have hm := (mayActivate_iff s).mpr ⟨ha, hsus, hirq, hact, hfree⟩
    have hpc : (activate s).irqd.pc = .run s.blk.rev 0 := rfl
    simp only [irqdTurn, hp, hm, if_true, irqdContinue, hpc, if_pos (irqBody_pos _), runActs_zero]
    rfl
  case inside =>
    rcases insideOrLeft_irqdTurn hp hact hlock h with ⟨-, hrecords⟩ | ⟨hidle, -⟩
    · exact hrecords
    · exact absurd hidle hin
  case move => rw [step_of_wellFormed hwf, hm]; rfl

end Sys2Proof.Machine
end

section
/-! Errors (R310, R313, R314): which codes a command can end with, that its checks come before its first register write, and
what the end of a command leaves. -/

namespace Sys2Proof.Machine

variable {E : Code → Bool} {w : Bool} {i : Instr} {k k0 n : Nat} {y : Act} {l : List Act} {s t u u' : State}

/-! ## What one line can answer -/

/-- What a line that goes on leaves: `ERR`, and the listed answers of the environment but for one. -/
structure Modest (u u' : State) : Prop where
  err : u'.blk.err = u.blk.err := by rfl
  draws : u'.env.draws = u.env.draws ∨ u'.env.draws = u.env.draws.tail := by exact .inl rfl

/-- A line that goes on within `Modest`, and without touching the LCDC unless `w`; that stays only with the lock held or while
the environment lets a wait stand (R42, R262); and that ends the command only with a code of `E` (R313). -/
structure Answers (E : Code → Bool) (w : Bool) (y : Act) : Prop where
  go : ∀ u u', y u = .go u' → Modest u u'
  silent : w = false → ∀ u u', y u = .go u' → u'.lcdc = u.lcdc
  stay : ∀ u u', y u = .stay u' → u.blk.lock ≠ .free ∨ u.env.peek.timeout = false
  stop : ∀ u u', y u = .stop u' → ∃ c, E c = true ∧ u' = u.finish c

/-- All lines of a list answer so. -/
abbrev AllAnswer (E : Code → Bool) (w : Bool) (k0 : Nat) (l : List Act) : Prop := EachLine (fun _ y => Answers E w y) k0 l

theorem drop_draws (e : Env) : e.drop.draws = e.draws.tail := by
  unfold Env.drop
  split
  · next h => rw [h]; rfl
  · next h => rw [h]; rfl

theorem answers_assign {f : State → State} (hf : ∀ u, Modest u (f u)) (hl : ∀ u, (f u).lcdc = u.lcdc := by exact fun _ => rfl) :
    Answers E w (assign f) where
  go u _ e := by cases e; exact hf u
  silent _ u _ e := by cases e; exact hl u
  stay _ _ e := nomatch e
  stop _ _ e := nomatch e

theorem answers_assign_writes {f : State → State} (hf : ∀ u, Modest u (f u)) : Answers E true (assign f) where
  go u _ e := by cases e; exact hf u
  silent h := nomatch h
  stay _ _ e := nomatch e
  stop _ _ e := nomatch e

theorem answers_onBlk {f : State → Blk → Blk} (h : ∀ u, (f u u.blk).err = u.blk.err := by exact fun _ => rfl) :
    Answers E w (assign fun s => s.onBlk (f s)) := answers_assign fun u => { err := h u }

theorem answers_onLoc (f : State → Locals → Locals) : Answers E w (assign fun s => s.onLoc (f s)) :=
  answers_assign fun _ => {}

theorem answers_writeReg (g : LReg) (v : State → Word) : Answers E true (writeReg .seq g v) :=
  answers_assign_writes fun _ => {}

theorem answers_readTo (g : LReg) : Answers E w (readTo .seq g) :=
  answers_assign (f := fun s => (s.afterRead .seq g).setTmp .seq (s.readVal g)) fun _ => { draws := .inr (drop_draws _) }

theorem answers_delay (ms : Nat) : Answers E w (delay .seq ms) := answers_assign fun _ => {}

theorem answers_setRState (r : RState) : Answers E w (setRState r) := answers_onBlk

theorem answers_release : Answers E w release := answers_onBlk

theorem answers_onlyIf {c : State → Bool} (h : Answers E w y) : Answers E w (onlyIf c y) := by
  constructor <;> intros <;> rename_i e <;> unfold onlyIf at e <;> split at e
  · exact h.go _ _ e
  · cases e; exact {}
  · exact h.silent (by assumption) _ _ e
  · cases e; rfl
  · exact h.stay _ _ e
  · cases e
  · exact h.stop _ _ e
  · cases e

theorem answers_guarded {c : State → Bool} : ∀ {l : List Act} {k0 : Nat}, AllAnswer E w k0 l → AllAnswer E w k0 (guarded c l)
  | [], _, _ => trivial
  | _ :: _, _, h => ⟨answers_onlyIf h.1, answers_guarded h.2⟩

theorem answers_raiseIf (c : State → Bool) {e : Code} (h : E e = true) : Answers E w (raiseIf c e) := by
  constructor <;> intros <;> rename_i r <;> unfold raiseIf at r <;> split at r <;> cases r
  · exact {}
  · rfl
  · exact ⟨e, h, rfl⟩

theorem answers_finishIf (c : State → Bool) (h : E .ok = true) : Answers E w (finishIf c) := answers_raiseIf c h

theorem answers_finishWith {c : Code} (h : E c = true) : Answers E w (finishWith c) where
  go _ _ e := nomatch e
  silent _ _ _ e := nomatch e
  stay _ _ e := nomatch e
  stop _ _ e := by cases e; exact ⟨c, h, rfl⟩

theorem answers_acquire : Answers E w acquire := by
  constructor <;> intros <;> rename_i r <;> unfold acquire at r <;> split at r <;> cases r
  · exact {}
  · rfl
  · next h => exact .inl h

theorem answers_blockTest (e : WaitEvent) (b : State → Nat) : Answers E w (blockTest e b) := by
  constructor <;> intros <;> rename_i r <;> unfold blockTest at r <;> (repeat' split at r) <;> cases r
  · exact {}
  · exact { draws := .inr (drop_draws _) }
  · rfl
  · rfl
  · next h => exact .inl h
  · next h => exact .inr (by simpa using h)

/-! ## The called sequences -/

theorem answers_prologue (ha : E .notAttached = true) (hs : E .suspended = true) : AllAnswer E w k0 prologue :=
  .cons (answers_raiseIf _ ha) (.single (answers_raiseIf _ hs))

theorem answers_rmw (g : LReg) (e : State → List (Fld × Nat)) : AllAnswer E true k0 (rmw .seq g e) :=
  .cons (answers_readTo g) (.single (answers_writeReg g _))

theorem answers_write (g : LReg) (v : State → Word) : AllAnswer E true k0 [writeReg .seq g v] := .single (answers_writeReg g v)

theorem answers_finish (h : E .ok = true) : AllAnswer E w k0 [finishWith .ok] := .single (answers_finishWith h)

theorem answers_arm (e : WaitEvent) : AllAnswer E w k0 (arm e) :=
  .cons answers_acquire <| .cons (answers_onBlk fun u => by cases e <;> rfl) (.single answers_release)

theorem answers_enableSeq : AllAnswer E true k0 (enableSeq .seq) :=
  ((EachLine.append (.single (answers_setRState _)) <| answers_guarded <| .cons (answers_writeReg _ _) <|
    .cons (answers_delay _) <| .cons (answers_writeReg _ _) <| .single (answers_delay _)).append (answers_rmw _ _)).append
    (.single (answers_setRState _))

theorem answers_disableSeq (wait : State → Bool) : AllAnswer E true k0 (disableSeq wait) := by
  have hwait : AllAnswer E true (k0 + 2) disableWaitLines :=
    (EachLine.append (.single (answers_setRState _)) (answers_arm _)).append <|
      .cons (answers_blockTest _ _) <|
        .cons (answers_onlyIf (answers_onBlk (f := fun _ b => { b with out := b.out ++ [.logDisableTimeout] }))) <|
          .single (answers_onlyIf (answers_setRState _))
  exact ((answers_rmw _ _).append (answers_guarded hwait)).append (answers_guarded (.single (answers_setRState _)))

theorem answers_hsyncSeq (bp pw fp : State → Word) : AllAnswer E true k0 (hsyncSeq bp pw fp) :=
  (answers_rmw _ _).append (answers_guarded (answers_rmw _ _))

theorem answers_vsyncSeq (bp pw fp : State → Word) : AllAnswer E true k0 (vsyncSeq bp pw fp) :=
  (answers_rmw _ _).append (answers_guarded (answers_rmw _ _))

theorem answers_geometrySeq (a h : State → Word) (bpp : State → Nat) (o : State → Bool) :
    AllAnswer E true k0 (geometrySeq a h bpp o) :=
  ((((answers_rmw _ _).append (answers_rmw _ _)).append (answers_guarded (answers_rmw _ _))).append (answers_rmw _ _)).append
    (.single answers_onBlk)

theorem answers_displayModeSeq (m : State → DisplayMode) : AllAnswer E true k0 (displayModeSeq m) :=
  ((answers_rmw _ _).append (answers_guarded (answers_write _ _))).append (answers_rmw _ _)

theorem answers_setWinSeq (f g : State → Nat) : AllAnswer E true k0 (setWinSeq f g) :=
  ((EachLine.cons answers_acquire <| .cons answers_onBlk <| .cons (answers_writeReg _ _) <| .cons (answers_writeReg _ _) <|
    .cons (answers_writeReg _ _) <| .cons (answers_writeReg _ _) <| .single answers_release).append (answers_rmw _ _)).append
    (answers_guarded (answers_write _ _))

theorem answers_negotiate (hz : State → Nat) (h : E .clockError = true) : AllAnswer E w k0 (negotiate hz) :=
  .cons (answers_raiseIf _ h) <| .cons (answers_assign fun _ => { draws := .inr (drop_draws _) }) <|
    .cons (answers_onLoc _) <| .cons (answers_onlyIf (answers_assign fun _ => { draws := .inr (drop_draws _) })) <|
      .cons (answers_raiseIf _ h) (.single (answers_onLoc _))

theorem answers_panSlot (g h : LReg) : AllAnswer E true k0 (panSlot g h) := (answers_write g _).append (answers_write h _)

/-! ## The commands -/

/-- The codes that a command without a requirement cannot end with are left out (R314). -/
def mayRaise (i : Instr) (c : Code) : Bool :=
  (c != .notAttached || needsAttached i) && (c != .suspended || needsAwake i)

/-- The only code that a command ends with once it has written a register (R315). -/
def okOnly (c : Code) : Bool := c == .ok

/-- The lines of a command are checks, which write no register, and then work, which ends the command only with OK. -/
def ChecksThenWork (i : Instr) : Prop :=
  ∃ checks work, linesOf (some i) = checks ++ work ∧ AllAnswer (mayRaise i) false 0 checks ∧
    AllAnswer okOnly true checks.length work

theorem checksThenWork_attach : ChecksThenWork .attach := by
  refine ⟨attachLines, [], (List.append_nil _).symm, ?_, trivial⟩
  have hdetect : Answers (mayRaise .attach) false detectLine :=
    answers_assign (fun u => by split <;> exact {}) fun u => by split <;> rfl
  exact .cons (answers_raiseIf _ rfl) <| .cons answers_onBlk <|
    .cons (answers_assign fun _ => { draws := .inr (drop_draws _) }) <| .cons hdetect <|
    .cons (answers_assign fun _ => { draws := .inr (drop_draws _) }) <| .cons (answers_onlyIf answers_onBlk) <|
    .cons (answers_raiseIf _ rfl) <| .cons answers_onBlk <| .cons answers_onBlk <| .cons (answers_setRState _) <|
    .cons answers_onBlk <| .cons answers_onBlk <| .cons answers_onBlk <| .cons answers_onBlk <| .cons answers_onBlk <|
    .cons answers_onBlk <| .cons answers_onBlk (answers_finish rfl)

theorem checksThenWork_detach : ChecksThenWork .detach :=
  ⟨[requireAttached], _, rfl, .single (answers_raiseIf _ rfl),
    EachLine.append (answers_guarded (answers_disableSeq _)) <| .cons (answers_assign fun _ => {}) <| .cons answers_onBlk <|
      .cons answers_onBlk <| .cons answers_onBlk <| .cons answers_onBlk (answers_finish rfl)⟩

theorem checksThenWork_regRead : ChecksThenWork .regRead :=
  ⟨regReadLines, [], rfl, (answers_prologue rfl rfl).append <| .cons (answers_raiseIf _ rfl) <|
    .cons (answers_assign fun _ => { draws := .inr (drop_draws _) }) <| .cons answers_onBlk (answers_finish rfl), trivial⟩

theorem checksThenWork_regWrite : ChecksThenWork .regWrite := by
  have hwrite : Answers okOnly true (assign fun s => s.regWriteAt (s.argN 0) (s.arg 1)) :=
    answers_assign_writes fun u => by unfold State.regWriteAt; split <;> exact {}
  exact ⟨prologue ++ [raiseIf badOffset .illegalCommand], _, rfl,
    (answers_prologue rfl rfl).append (.single (answers_raiseIf _ rfl)), .cons hwrite (answers_finish rfl)⟩

theorem checksThenWork_setClock : ChecksThenWork .setClock :=
  ⟨prologue ++ negotiate fun s => s.argN 0, _, rfl, (answers_prologue rfl rfl).append (answers_negotiate _ rfl),
    .cons (answers_writeReg _ _) <| .cons answers_onBlk <| .cons answers_onBlk (answers_finish rfl)⟩

theorem checksThenWork_modeSet : ChecksThenWork .modeSet := by
  refine ⟨prologue ++ modeChecks, modeCommit ++ modeProgram ++ _, by simp only [linesOf, modeSetLines, List.append_assoc]; rfl, ?_, ?_⟩
  · exact (answers_prologue rfl rfl).append <|
      (EachLine.cons (answers_raiseIf _ rfl) <| .cons (answers_raiseIf _ rfl) <| .cons (answers_raiseIf _ rfl) <|
        .cons (answers_raiseIf _ rfl) <| .cons (answers_raiseIf _ rfl) <| .single (answers_raiseIf _ rfl)).append
        (answers_negotiate _ rfl)
  · have hcommit : AllAnswer okOnly true 14 modeCommit :=
      .cons answers_onBlk <| .cons answers_onBlk <| .cons answers_onBlk <| .single answers_onBlk
    have hprogram : AllAnswer okOnly true 18 modeProgram :=
      (((((((((answers_disableSeq _).append (answers_displayModeSeq _)).append (answers_guarded (answers_rmw _ _))).append
        (answers_hsyncSeq _ _ _)).append (answers_vsyncSeq _ _ _)).append (answers_geometrySeq _ _ _ _)).append
        (.single (answers_writeReg _ _))).append (answers_setWinSeq _ _)).append (.single answers_onBlk)).append
        answers_enableSeq
    exact (EachLine.append hcommit hprogram).append (.cons answers_onBlk (answers_finish rfl))

theorem checksThenWork_pan : ChecksThenWork .pan :=
  ⟨prologue ++ [raiseIf (fun s => !s.blk.haveMode) .invalidGeometry, panCompute,
      raiseIf (fun s => !validWin s.blk s.seq.loc.ws s.seq.loc.we) .invalidGeometry], _, rfl,
    (answers_prologue rfl rfl).append <| .cons (answers_raiseIf _ rfl) <| .cons (answers_onLoc _) <|
      .single (answers_raiseIf _ rfl),
    ((((EachLine.cons answers_acquire <| .single answers_onBlk).append (answers_guarded (answers_panSlot _ _))).append
      (answers_guarded (answers_panSlot _ _))).append
      (answers_guarded ((answers_panSlot _ _).append (answers_panSlot _ _)))).append <|
      .cons answers_release <| .cons answers_onBlk (answers_finish rfl)⟩

/-- A command whose checks are its preconditions and at most one more check. -/
theorem checksThenWork_of_prologue {checks work : List Act} (hl : linesOf (some i) = prologue ++ checks ++ work)
    (ha : mayRaise i .notAttached = true) (hs : mayRaise i .suspended = true) (hc : AllAnswer (mayRaise i) false 2 checks)
    (hw : AllAnswer okOnly true (prologue ++ checks).length work) : ChecksThenWork i :=
  ⟨prologue ++ checks, work, hl, (answers_prologue ha hs).append hc, hw⟩

theorem allAnswer_waitLines (e : WaitEvent) (d : State → Nat) (ha : E .notAttached = true) (ht : E .timeout = true)
    (hok : E .ok = true) : AllAnswer E w 0 (waitLines e d) :=
  (EachLine.append (.cons (answers_raiseIf _ ha) <| .single (answers_onLoc _)) (answers_arm e)).append <|
    .cons (answers_blockTest _ _) <| .cons (answers_raiseIf _ ht) (answers_finish hok)

theorem allAnswer_cbLines (c : State → Bool) {e : Code} (f : State → Option (Word × Word)) (he : E e = true)
    (hok : E .ok = true) : AllAnswer E w 0 (cbLines c e fun s b => { b with cb := f s }) :=
  .cons answers_acquire <| .cons (answers_onlyIf answers_release) <| .cons (answers_raiseIf _ he) <|
    .cons answers_onBlk <| .cons answers_release (answers_finish hok)

/-- Every command checks before it writes (R315). -/
theorem checksThenWork : ∀ i, ChecksThenWork i
  | .attach => checksThenWork_attach
  | .detach => checksThenWork_detach
  | .regRead => checksThenWork_regRead
  | .regWrite => checksThenWork_regWrite
  | .setClock => checksThenWork_setClock
  | .programHsync => checksThenWork_of_prologue (checks := []) rfl rfl rfl trivial
      ((answers_hsyncSeq _ _ _).append (answers_finish rfl))
  | .programVsync => checksThenWork_of_prologue (checks := []) rfl rfl rfl trivial
      ((answers_vsyncSeq _ _ _).append (answers_finish rfl))
  | .programFrameGeometry => checksThenWork_of_prologue (checks := [_]) rfl rfl rfl (.single (answers_raiseIf _ rfl))
      ((answers_geometrySeq _ _ _ _).append (.cons answers_onBlk (answers_finish rfl)))
  | .programDisplayMode => checksThenWork_of_prologue (checks := [_]) rfl rfl rfl (.single (answers_raiseIf _ rfl))
      ((answers_displayModeSeq _).append (answers_finish rfl))
  | .programAcBias => checksThenWork_of_prologue (checks := []) rfl rfl rfl trivial
      ((answers_rmw _ _).append (answers_finish rfl))
  | .modeSet => checksThenWork_modeSet
  | .setWindow => checksThenWork_of_prologue (checks := [_]) rfl rfl rfl (.single (answers_raiseIf _ rfl))
      ((answers_setWinSeq _ _).append (answers_finish rfl))
  | .pan => checksThenWork_pan
  | .enable => checksThenWork_of_prologue (checks := []) rfl rfl rfl trivial
      (answers_enableSeq.append (answers_finish rfl))
  | .disable => checksThenWork_of_prologue (checks := []) rfl rfl rfl trivial
      ((answers_disableSeq _).append (answers_finish rfl))
  | .waitVsync => ⟨waitVsyncLines, [], rfl, allAnswer_waitLines _ _ rfl rfl rfl, trivial⟩
  | .waitPalette => ⟨waitPaletteLines, [], rfl, allAnswer_waitLines _ _ rfl rfl rfl, trivial⟩
  | .registerCb => ⟨registerCbLines, [], rfl, allAnswer_cbLines _ _ rfl rfl, trivial⟩
  | .unregisterCb => ⟨unregisterCbLines, [], rfl, allAnswer_cbLines _ _ rfl rfl, trivial⟩
  | .suspend => ⟨[requireAttached, finishIf fun s => s.blk.suspended], _, rfl,
      .cons (answers_raiseIf _ rfl) (.single (answers_finishIf _ rfl)),
      (answers_disableSeq _).append (.cons answers_onBlk <| .cons answers_onBlk <| .cons answers_onBlk (answers_finish rfl))⟩
  | .resume => ⟨[requireAttached, finishIf fun s => !s.blk.suspended], _, rfl,
      .cons (answers_raiseIf _ rfl) (.single (answers_finishIf _ rfl)),
      EachLine.append (.cons answers_onBlk <| .cons answers_onBlk <| .single answers_onBlk)
        (answers_enableSeq.append (answers_finish rfl))⟩

end Sys2Proof.Machine
end

section
/-! How a command ends (R310, R313, R314): from its start, with which code and what it has written by then. -/

namespace Sys2Proof.Machine

variable {i : Instr} {c d : Code} {k n : Nat} {y : Act} {s t u u' : State}

/-! ## One line -/

/-- A line of a command is a check, or a line of the work that follows the checks. -/
theorem checksThenWork_line {checks work : List Act} (hl : linesOf (some i) = checks ++ work)
    (hc : AllAnswer (mayRaise i) false 0 checks) (hw : AllAnswer okOnly true checks.length work)
    (hy : (linesOf (some i))[k]? = some y) :
    (k < checks.length ∧ Answers (mayRaise i) false y) ∨ (checks.length ≤ k ∧ Answers okOnly true y) := by
  rw [hl] at hy
  rcases Nat.lt_or_ge k checks.length with hk | hk
  · rw [List.getElem?_append_left hk] at hy
    exact .inl ⟨hk, hc.get hy⟩
  · rw [List.getElem?_append_right hk] at hy
    exact .inr ⟨hk, hw.get hy⟩

theorem mayRaise_ok (i : Instr) : mayRaise i .ok = true := by cases i <;> rfl

theorem line_modest (hy : (linesOf (some i))[k]? = some y) (hgo : y u = .go u') : Modest u u' := by
  obtain ⟨checks, work, hl, hc, hw⟩ := checksThenWork i
  rcases checksThenWork_line hl hc hw hy with ⟨-, h⟩ | ⟨-, h⟩ <;> exact h.go u u' hgo

theorem line_stay (hy : (linesOf (some i))[k]? = some y) (hstay : y u = .stay u') :
    u.blk.lock ≠ .free ∨ u.env.peek.timeout = false := by
  obtain ⟨checks, work, hl, hc, hw⟩ := checksThenWork i
  rcases checksThenWork_line hl hc hw hy with ⟨-, h⟩ | ⟨-, h⟩ <;> exact h.stay u u' hstay

/-! ## A turn from the start -/

/-- What a part of a command leaves of the records that `finish` uses: the command word, `ERR`, and the events emitted. -/
structure Follows (s u : State) : Prop where
  cmdword : u.blk.cmdword = s.blk.cmdword := by rfl
  err : u.blk.err = s.blk.err := by rfl
  out : s.blk.out <+: u.blk.out := by exact List.prefix_refl _

theorem Follows.trans (h : Follows s t) (h' : Follows t u) : Follows s u :=
  ⟨h'.cmdword.trans h.cmdword, h'.err.trans h.err, h.out.trans h'.out⟩

theorem follows_line (hy : (linesOf (some i))[k]? = some y) (hgo : y u = .go u') : Follows u (bump .seq u') := by
  have hframe := ((line_writes hy).go u u' hgo).1
  exact ⟨by rw [bump_blk, hframe.cmdword], by rw [bump_blk, (line_modest hy hgo).err], by rw [bump_blk]; exact hframe.out⟩

/-- A command that started in `s` and whose turn has ended in `t`: it is still underway, or it has ended with a code it may
raise, and if that is an error no register is written (R313, R314). -/
def RanFromStart (i : Instr) (s t : State) : Prop :=
  (t.seq.pc ≠ .idle ∧ t.blk.err = s.blk.err) ∨
    ∃ u c, t = u.finish c ∧ Follows s u ∧ mayRaise i c = true ∧ (c = .ok ∨ u.lcdc = s.lcdc)

theorem ranFromStart_exec (hp : s.seq.pc = .run (some i) 0) (h : exec i s = .next t) : RanFromStart i s t := by
  rw [exec_from hp (linesOf_pos _), List.drop_zero] at h
  cases h
  obtain ⟨checks, work, hl, hc, hw⟩ := checksThenWork i
  refine runActs_keeps_indexed (k0 := 0)
    (P := fun k u => u.seq.pc = .run (some i) k ∧ Follows s u ∧ (k ≤ checks.length → u.lcdc = s.lcdc)) ?go ?stay ?stop ?rest
    _ s ⟨hp, {}, fun _ => rfl⟩
  case go =>
    simp only [Nat.zero_add]
    rintro k y u u' hy ⟨hpc, hf, hlcdc⟩ hgo
    have hpc' := ((line_writes hy).go u u' hgo).1.pc
    refine ⟨bump_seq_pc (hpc'.trans hpc), hf.trans (follows_line hy hgo), fun hk => ?_⟩
    rcases checksThenWork_line hl hc hw hy with ⟨-, hcheck⟩ | ⟨hlater, -⟩
    · rw [bump_lcdc, hcheck.silent rfl u u' hgo, hlcdc (by omega)]
    · omega
  case stay =>
    simp only [Nat.zero_add]
    rintro k y u u' hy ⟨hpc, hf, -⟩ hstay
    rcases (line_writes hy).stay u u' hstay with rfl | rfl <;> exact .inl ⟨by simp [hpc], hf.err⟩
  case stop =>
    simp only [Nat.zero_add]
    rintro k y u u' hy ⟨-, hf, hlcdc⟩ hstop
    rcases checksThenWork_line hl hc hw hy with ⟨hk, hcheck⟩ | ⟨-, hwork⟩
    · obtain ⟨c, hmay, rfl⟩ := hcheck.stop u u' hstop
      exact .inr ⟨u, c, rfl, hf, hmay, .inr (hlcdc (by omega))⟩
    · obtain ⟨c, hok, rfl⟩ := hwork.stop u u' hstop
      obtain rfl : c = .ok := by simpa [okOnly] using hok
      exact .inr ⟨u, .ok, rfl, hf, mayRaise_ok i, .inl rfl⟩
  case rest => exact fun k u hu => .inl ⟨by rw [hu.1]; nofun, hu.2.1.err⟩

/-! ## The preconditions (R314) -/

theorem Code.num_injective : Function.Injective Code.num := by
  intro c d
  cases c <;> cases d <;> first | exact fun _ => rfl | exact fun h => nomatch h

/-- A code that a command may not raise is in `ERR` after a turn only if it was there before. -/
theorem err_of_not_mayRaise (hp : s.seq.pc = .run (some i) 0) (hno : mayRaise i c = false) (h : exec i s = .next t)
    (ht : t.blk.err = c.num) : s.blk.err = c.num := by
  rcases ranFromStart_exec hp h with ⟨-, herr⟩ | ⟨u, d, rfl, -, hmay, -⟩
  · rw [← herr, ht]
  · obtain rfl : d = c := Code.num_injective ht
    rw [hno] at hmay
    cases hmay

theorem linesOf_requireAttached (h : needsAttached i = true) : ∃ ls, linesOf (some i) = requireAttached :: ls := by
  cases i <;> first | exact ⟨_, rfl⟩ | cases h

theorem linesOf_prologue (h : needsAwake i = true) :
    ∃ ls, linesOf (some i) = requireAttached :: requireAwake :: ls := by
  cases i <;> first | exact ⟨_, rfl⟩ | cases h

/-- A turn whose first line raises. -/
theorem exec_raises {cond : State → Bool} {ls : List Act} (hp : s.seq.pc = .run (some i) 0) (hn : 1 ≤ s.seq.turn)
    (hl : linesOf (some i) = raiseIf cond c :: ls) (hc : cond s = true) : exec i s = .next (s.finish c) := by
  obtain ⟨m, hm⟩ := Nat.exists_eq_add_of_le' hn
  rw [exec_from hp (linesOf_pos _), List.drop_zero, hl, hm, runActs_stop ((raiseIf_stop ..).mpr ⟨hc, rfl⟩)]

/-- Settles O18: the first lines of a command are its requirements, and no line raises the code of another. -/
theorem preconditionsComeFirst : Obligations.PreconditionsComeFirst := by
  intro i s hp hturn
  refine ⟨fun hneed hdet => ?detached, fun hneed hawake hatt hsus => ?suspended, fun hi hatt => ?attach,
    fun hno t h => err_of_not_mayRaise hp (by simp [mayRaise, hno]) h,
    fun hno t h => err_of_not_mayRaise hp (by simp [mayRaise, hno]) h⟩
  case detached =>
    obtain ⟨ls, hl⟩ := linesOf_requireAttached hneed
    exact exec_raises hp (by omega) hl (by simp [hdet])
  case suspended =>
    obtain ⟨ls, hl⟩ := linesOf_prologue hawake
    obtain ⟨m, hm⟩ := Nat.exists_eq_add_of_le' hturn
    have hpass : requireAttached s = .go s := (raiseIf_go ..).mpr ⟨by simp [hatt], rfl⟩
    have hraise : requireAwake (bump .seq s) = .stop ((bump .seq s).finish .suspended) :=
      (raiseIf_stop ..).mpr ⟨by simp [hsus], rfl⟩
    rw [exec_from hp (linesOf_pos _), List.drop_zero, hl, hm, runActs_go hpass, runActs_stop hraise, bump_finish]
  case attach =>
    subst hi
    exact exec_raises hp (by omega) rfl hatt

/-! ## The end of a command (R313) -/

/-- Settles O19: `finish` is its definition, and an error is raised by a check, before the first register write. -/
theorem errorsWriteNoRegister : Obligations.ErrorsWriteNoRegister := by
  have hopc : ∀ v : Word, v.extractLsb' 0 8 = BitVec.ofNat 8 v.toNat := fun v => by simp [BitVec.extractLsb']
  refine ⟨fun b c => ?finish, fun _ _ => rfl, by decide, fun i s t hs h hidle herr => ?error⟩
  case finish => rw [hopc]; rfl
  case error =>
    rcases ranFromStart_exec hs.1 h with ⟨hrun, -⟩ | ⟨u, c, rfl, hf, -, hlcdc⟩
    · exact absurd hidle hrun
    · have hc : c ≠ .ok := by rintro rfl; exact herr rfl
      obtain ⟨evs, hout⟩ := hf.out
      refine ⟨hlcdc.resolve_left hc, if_neg hc, if_neg hc, rfl, c, rfl, evs, ?_⟩
      rw [finish_blk, finish_out, hout, hf.cmdword]

end Sys2Proof.Machine
end

section
/-! Every command ends, and so does every activation (R365): in one long enough turn whose waits time out, and in every run whose
moves are weakly fair. -/

namespace Sys2Proof.Machine

variable {i : Instr} {c : Option Instr} {k n : Nat} {y : Act} {s t u u' : State}

/-! ## One long enough turn -/

/-- A command stands before line `k` in a state that keeps the lock discipline, the lock is not the decoder's, and every listed
answer lets a wait time out; there are enough of them for the lines to come. -/
structure Unhindered (i : Instr) (k : Nat) (s : State) : Prop where
  pc : s.seq.pc = .run (some i) k
  inv : LockInv s
  lock : s.blk.lock ≠ .irqd
  draws : fullTurn ≤ s.env.draws.length + k
  timeouts : ∀ d ∈ s.env.draws, d.timeout = true

theorem linesOf_length_le (i : Instr) : (linesOf (some i)).length ≤ fullTurn := by cases i <;> decide

/-- No section is open before a `Block` (R262, R263). -/
theorem block_unlocked (u : State) : ∀ e ∈ blockLines, holdsLock e.1 u e.2.1 = false := by simp [blockLines, holdsLock]

/-- At a line that stays the sequencer holds no lock; so here the lock is free, and no line stays. -/
theorem Unhindered.not_stay (h : Unhindered i k s) (hy : (linesOf (some i))[k]? = some y) : y s ≠ .stay u := by
  intro hstay
  have hk : k < fullTurn := (List.getElem?_eq_some_iff.mp hy).1.trans_le (linesOf_length_le i)
  have hout : holdsLock i s k = false := by
    obtain ⟨j, hj, hline⟩ := line_stays hy hstay
    cases hj
    rcases hline with ⟨hacq, -⟩ | ⟨e, hblock, -⟩
    · exact acquire_unlocked s _ hacq
    · exact block_unlocked s _ hblock
  have hfree : s.blk.lock = .free := by
    have hseq : s.blk.lock ≠ .seq := fun hl => by
      rw [h.inv.seq, seqHolds_run h.pc, hout] at hl
      cases hl
    have hirqd := h.lock
    generalize s.blk.lock = o at *
    cases o <;> first | rfl | contradiction
  rcases line_stay hy hstay with hlock | hwait
  · exact hlock hfree
  · have hdraws := h.draws
    match hd : s.env.draws with
    | [] => rw [hd, List.length_nil] at hdraws; omega
    | d :: ds =>
      rw [Env.peek, hd] at hwait
      exact absurd (h.timeouts d (by rw [hd]; exact List.mem_cons_self)) (by rw [hwait]; nofun)

theorem Unhindered.go (h : Unhindered i k s) (hy : (linesOf (some i))[k]? = some y) (hgo : y s = .go u) :
    Unhindered i (k + 1) (bump .seq u) where
  pc := bump_seq_pc (((line_writes hy).go s u hgo).1.pc.trans h.pc)
  inv := stepInv_lockInv.seqGo hy h.pc hgo h.inv
  lock := by
    have hsec := h.inv.seq
    rw [seqHolds_run h.pc] at hsec
    rw [bump_blk, ne_eq, (lock_go hy hgo hsec).2]
    exact h.lock
  draws := by
    have hdraws := h.draws
    rw [bump_env]
    rcases (line_modest hy hgo).draws with e | e
    · rw [e]; omega
    · rw [e, List.length_tail]; omega
  timeouts := by
    rw [bump_env]
    rcases (line_modest hy hgo).draws with e | e
    · rw [e]; exact h.timeouts
    · rw [e]; exact fun d hd => h.timeouts d (List.mem_of_mem_tail hd)

/-- The lines from line `k` on run to the end of the command. -/
theorem Unhindered.ends {l : List Act} : ∀ {k s}, Unhindered i k s → l = (linesOf (some i)).drop k → l ≠ [] →
    ∃ u c, runAll .seq l s = u.finish c ∧ Follows s u := by
  induction l with
  | nil => exact fun _ _ h => absurd rfl h
  | cons y ys ih =>
    intro k s h hl _
    have hk : k < (linesOf (some i)).length := by
      by_contra hge
      rw [List.drop_eq_nil_of_le (by omega)] at hl
      cases hl
    rw [List.drop_eq_getElem_cons hk] at hl
    obtain ⟨rfl, rfl⟩ := List.cons.inj hl
    have hy := List.getElem?_eq_getElem hk
    simp only [runAll]
    cases hr : (linesOf (some i))[k] s with
    | go u =>
      have hnext := succ_lt_of_ne_last hy (getLast_linesOf i) (by intro e; rw [e] at hr; cases hr)
      obtain ⟨v, c, e, hv⟩ := ih (h.go hy hr) rfl (by rw [ne_eq, List.drop_eq_nil_iff]; omega)
      exact ⟨v, c, e, (follows_line hy hr).trans hv⟩
    | stay u => exact absurd hr (h.not_stay hy)
    | stop u => obtain ⟨c, rfl⟩ := (line_writes hy).stop s u hr; exact ⟨s, c, rfl, {}⟩

/-- From any of its lines a command that nothing hinders ends in one turn that is long enough. -/
theorem Unhindered.exec_ends (h : Unhindered i k s) (hk : k < (linesOf (some i)).length) (hturn : fullTurn ≤ s.seq.turn) :
    ∃ t c, exec i s = .next t ∧ t.seq.pc = .idle ∧ t.blk.busy = false ∧ t.blk.err = Code.num c ∧
      ∃ evs, t.blk.out = s.blk.out ++ evs ++ [.done (BitVec.ofNat 8 s.blk.cmdword.toNat) (Code.num c)] := by
  have hlen : ((linesOf (some i)).drop k).length ≤ s.seq.turn := by
    rw [List.length_drop]
    exact ((Nat.sub_le ..).trans (linesOf_length_le i)).trans hturn
  obtain ⟨u, c, e, hf⟩ := h.ends rfl (by rw [ne_eq, List.drop_eq_nil_iff]; omega)
  obtain ⟨evs, hout⟩ := hf.out
  refine ⟨u.finish c, c, by rw [exec_from h.pc hk, runActs_eq_runAll _ _ _ _ hlen, e], rfl, rfl, rfl, evs, ?_⟩
  rw [finish_blk, finish_out, hout, hf.cmdword]

/-! ## The step pointers in a run -/

/-- A step with `m` as the next move is that move. -/
theorem applyMove_of_step {m : Move} (h : step (s.withMove m) = .next t) : applyMove m s = .next t := by
  unfold step stepMove at h
  split at h
  · exact h
  · cases h

/-- What a move does to the step pointer of a sequencer that runs a command of a busy block: the command ends, or the pointer
stays, or it goes to a later line. -/
theorem seqPc_applyMove {m : Move} (hp : s.seq.pc = .run c k) (hbusy : s.blk.busy = true) (h : applyMove m s = .next t) :
    t.seq.pc = .idle ∨ t.seq.pc = s.seq.pc ∨ (k < (linesOf c).length ∧ ∃ j, k < j ∧ t.seq.pc = .run c j) := by
  cases m with
  | seq n =>
    change seqMove n s = .next t at h
    rw [seqMove_run n hp] at h
    obtain ⟨hk, hmoved, -⟩ := seqTurn_pc (s := { s with seq := { s.seq with turn := n } }) hp h
    rcases hmoved with hidle | ⟨j, hj, hpc⟩
    · exact .inl hidle
    · rcases Nat.lt_or_eq_of_le hj with hlt | rfl
      · exact .inr (.inr ⟨hk, j, hlt, hpc⟩)
      · exact .inr (.inl (hpc.trans hp.symm))
  | irqd n => exact .inr (.inl (congrArg Seq.pc (decoderFrame_irqdTurn h).seq))
  | line b => cases h; exact .inr (.inl rfl)
  | busWrite a n v =>
    change busWrite s a n v = .next t at h
    unfold busWrite at h
    split at h <;> cases h
    unfold hostWriteAt
    rw [hbusy]
    split
    · exact .inr (.inl rfl)
    · split <;> exact .inr (.inl rfl)
  | busRead a n =>
    change busRead s a n = .next t at h
    unfold busRead at h
    split at h <;> cases h
    exact .inr (.inl rfl)
  | rst => cases h; exact .inl rfl

/-- A move of the sequencer for an enabled step moves its step pointer. -/
theorem seqPc_moves (hen : seqEnabled s) (h : applyMove (.seq (n + 1)) s = .next t) : t.seq.pc ≠ s.seq.pc := by
  change seqMove (n + 1) s = .next t at h
  match hp : s.seq.pc with
  | .idle => exact absurd hp hen.1
  | .run c k =>
    rw [seqMove_run _ hp] at h
    obtain ⟨-, -, hpast⟩ := seqTurn_pc (s := { s with seq := { s.seq with turn := n + 1 } }) hp h
    rcases hpast (Nat.succ_pos n) hen with hidle | ⟨j, hj, hpc⟩
    · rw [hidle]; nofun
    · rw [hpc]
      intro e
      cases e
      omega

/-- A turn of a running activation from line `k` leaves it or comes to line `k` or a later one. -/
theorem runActs_irqdPc {b : Rev} {l : List Act} (hl : ∀ y ∈ l, Serves y) (hp : s.irqd.pc = .run b k) :
    (runActs .irqd l n s).irqd.pc = .idle ∨ ∃ j, k ≤ j ∧ (runActs .irqd l n s).irqd.pc = .run b j := by
  refine runActs_keeps_indexed (k0 := k) (P := fun j u => k ≤ j ∧ u.irqd.pc = .run b j)
    (Q := fun t => t.irqd.pc = .idle ∨ ∃ j, k ≤ j ∧ t.irqd.pc = .run b j) ?go ?stay ?stop ?rest n s ⟨Nat.le_refl k, hp⟩
  case go =>
    rintro j y u u' hy ⟨hj, hpc⟩ hgo
    exact ⟨by omega, bump_irqd_pc (((hl y (List.mem_of_getElem? hy)).go u u' hgo).pc.trans hpc)⟩
  case stay => exact fun j y u u' hy _ hstay => absurd hstay ((hl y (List.mem_of_getElem? hy)).stay u u')
  case stop =>
    intro j y u u' hy _ hstop
    cases (hl y (List.mem_of_getElem? hy)).stop u u' hstop
    exact .inl rfl
  case rest => exact fun j u hu => .inr ⟨j, hu⟩

/-- A turn of at least one step leaves the line it began at. -/
theorem irqdTurn_moves {b : Rev} (hp : s.irqd.pc = .run b k) (h : irqdTurn (n + 1) s = .next t) :
    k < (irqBody b).length ∧ (t.irqd.pc = .idle ∨ ∃ j, k < j ∧ t.irqd.pc = .run b j) := by
  simp only [irqdTurn, irqdContinue, hp] at h
  split at h <;> cases h
  next hk =>
    have hserves : ∀ y ∈ (irqBody b).drop k, Serves y := fun y hy => serves_irqBody b y (List.mem_of_mem_drop hy)
    rw [List.drop_eq_getElem_cons hk] at hserves ⊢
    obtain ⟨hfirst, hrest⟩ := List.forall_mem_cons.mp hserves
    refine ⟨hk, ?_⟩
    simp only [runActs]
    cases hr : (irqBody b)[k] s with
    | go u => exact runActs_irqdPc hrest (bump_irqd_pc ((hfirst.go s u hr).pc.trans hp))
    | stay u => exact absurd hr (hfirst.stay s u)
    | stop u => cases hfirst.stop s u hr; exact .inl rfl

theorem seqMove_irqd (h : seqMove n s = .next t) : t.irqd = s.irqd := by
  match hp : s.seq.pc with
  | .idle => simp only [seqMove, hp] at h; cases h; rfl
  | .run none k =>
    simp only [seqMove, hp, seqTurn] at h
    split at h <;> cases h
    next hk =>
      obtain rfl : k = 0 := Nat.lt_one_iff.mp hk
      cases n <;> rfl
  | .run (some i) k => simp only [seqMove, hp] at h; exact (turnFrame_exec h).irqd

/-- What a move does to the step pointer of a decoder that runs an activation: the activation ends, or the pointer stays, or it
goes to a later line. -/
theorem irqdPc_applyMove {m : Move} {b : Rev} (hp : s.irqd.pc = .run b k) (h : applyMove m s = .next t) :
    t.irqd.pc = .idle ∨ t.irqd.pc = s.irqd.pc ∨ (k < (irqBody b).length ∧ ∃ j, k < j ∧ t.irqd.pc = .run b j) := by
  cases m with
  | seq n => exact .inr (.inl (congrArg Irqd.pc (seqMove_irqd h)))
  | irqd n =>
    cases n with
    | zero =>
      change irqdTurn 0 s = .next t at h
      simp only [irqdTurn, irqdContinue, hp, runActs_zero] at h
      split at h <;> cases h
      exact .inr (.inl rfl)
    | succ n =>
      obtain ⟨hk, hidle | hlater⟩ := irqdTurn_moves hp h
      · exact .inl hidle
      · exact .inr (.inr ⟨hk, hlater⟩)
  | line b => cases h; exact .inr (.inl rfl)
  | busWrite a n v =>
    change busWrite s a n v = .next t at h
    unfold busWrite at h
    split at h <;> cases h
    unfold hostWriteAt
    (repeat' split) <;> exact .inr (.inl rfl)
  | busRead a n =>
    change busRead s a n = .next t at h
    unfold busRead at h
    split at h <;> cases h
    exact .inr (.inl rfl)
  | rst => cases h; exact .inl rfl

/-! ## Weakly fair runs (R365) -/

/-- A sequence each of whose changes lowers a number stands still from some point on. -/
theorem eventually_constant {α : Type} (f : Nat → α) (μ : α → Nat) (n : Nat)
    (h : ∀ m, n ≤ m → f (m + 1) = f m ∨ μ (f (m + 1)) < μ (f m)) : ∃ N, n ≤ N ∧ ∀ m, N ≤ m → f m = f N := by
  obtain ⟨N, hN, hmin⟩ : ∃ N, n ≤ N ∧ ∀ m, n ≤ m → μ (f N) ≤ μ (f m) :=
    ⟨n + Function.argmin fun j => μ (f (n + j)), Nat.le_add_right .., fun m hm => by
      obtain ⟨j, rfl⟩ := Nat.exists_eq_add_of_le hm
      exact Function.argmin_le (fun j => μ (f (n + j))) j⟩
  refine ⟨N, hN, fun m hm => ?_⟩
  induction m, hm using Nat.le_induction with
  | base => rfl
  | succ m hm ih =>
    rcases h m (hN.trans hm) with e | hlt
    · rw [e, ih]
    · have := hmin (m + 1) (by omega)
      rw [ih] at hlt
      omega

/-- How many lines the command at a step pointer has left. -/
def SeqPc.left : SeqPc → Nat
  | .idle => 0
  | .run c k => (linesOf c).length - k

/-- How many lines the activation at a step pointer has left. -/
def IrqPc.left : IrqPc → Nat
  | .idle => 0
  | .run b k => (irqBody b).length - k

variable {r : Nat → State} {mv : Nat → Move}

/-- In a fair run the step pointer of the sequencer does not stand at one line for ever: an `Acquire` succeeds, a `Block`
returns, and any other step is taken. -/
theorem WeaklyFair.seqPc_not_constant (hrun : Run r mv) (hfair : WeaklyFair r mv) (hp : (r n).seq.pc ≠ .idle) :
    ¬ ∀ m, n ≤ m → (r m).seq.pc = (r n).seq.pc := by
  intro hconst
  have hmoves : ¬ ∃ m, n ≤ m ∧ (r m).seq.pc ≠ (r n).seq.pc := fun ⟨m, hm, hne⟩ => hne (hconst m hm)
  have hacq : ¬ atAcquire (r n) := fun h => hmoves (hfair.acquired n h)
  have hblock : ∀ e, ¬ atBlock (r n) e := by
    intro e hat
    by_cases hflag : ∃ m, n ≤ m ∧ (r m).blk.flag e = true
    · obtain ⟨m, hm, hf⟩ := hflag
      have hat' : atBlock (r m) e := by unfold atBlock; rw [hconst m hm]; exact hat
      obtain ⟨m', hm', hne⟩ := hfair.woken m e hat' hf
      exact hmoves ⟨m', hm.trans hm', by rwa [hconst m hm] at hne⟩
    · exact hmoves (hfair.timedOut n e hat fun m hm => by simpa using fun hf => hflag ⟨m, hm, hf⟩)
  have henabled : ∀ m, n ≤ m → seqEnabled (r m) := by
    intro m hm
    unfold seqEnabled atAcquire atBlock
    rw [hconst m hm]
    exact ⟨hp, fun h => absurd h hacq, fun e h => absurd h (hblock e)⟩
  obtain ⟨m, j, hm, hmv⟩ := hfair.seqStep n henabled
  have hstep := applyMove_of_step (hrun m)
  rw [hmv] at hstep
  exact seqPc_moves (henabled m hm) hstep ((hconst (m + 1) (by omega)).trans (hconst m hm).symm)

/-- In a fair run the step pointer of the decoder does not stand at one line for ever (R292). -/
theorem WeaklyFair.irqdPc_not_constant (hrun : Run r mv) (hfair : WeaklyFair r mv) (hp : (r n).irqd.pc ≠ .idle) :
    ¬ ∀ m, n ≤ m → (r m).irqd.pc = (r n).irqd.pc := by
  intro hconst
  obtain ⟨m, j, hm, hmv⟩ := hfair.irqdStep n fun m hm => by rw [hconst m hm]; exact hp
  have hstep := applyMove_of_step (hrun m)
  rw [hmv] at hstep
  match hpc : (r n).irqd.pc with
  | .idle => exact hp hpc
  | .run b k =>
    have hnext : (r (m + 1)).irqd.pc = .run b k := (hconst (m + 1) (by omega)).trans hpc
    rcases (irqdTurn_moves ((hconst m hm).trans hpc) hstep).2 with hidle | ⟨l, hl, hlater⟩
    · rw [hnext] at hidle; cases hidle
    · rw [hnext] at hlater
      cases hlater
      omega

/-- In a fair run the sequencer becomes idle. -/
theorem WeaklyFair.seq_idle (hrun : Run r mv) (hfair : WeaklyFair r mv) (hinv : ∀ n, LockInv (r n)) (n : Nat) :
    ∃ m, n ≤ m ∧ (r m).seq.pc = .idle := by
  by_contra hnever
  have hbusy : ∀ m, n ≤ m → (r m).seq.pc ≠ .idle := fun m hm h => hnever ⟨m, hm, h⟩
  obtain ⟨N, hN, hconst⟩ := eventually_constant (fun m => (r m).seq.pc) SeqPc.left n fun m hm => by
    match hp : (r m).seq.pc with
    | .idle => exact absurd hp (hbusy m hm)
    | .run c k =>
      have hmove := seqPc_applyMove hp ((hinv m).busy.mpr (hbusy m hm)) (applyMove_of_step (hrun m))
      rcases hmove with hidle | hsame | ⟨hk, j, hj, hlater⟩
      · exact absurd hidle (hbusy (m + 1) (by omega))
      · exact .inl (hsame.trans hp)
      · rw [hlater]; exact .inr (Nat.sub_lt_sub_left hk hj)
  exact hfair.seqPc_not_constant hrun (hbusy N hN) hconst

/-- In a fair run the decoder becomes idle. -/
theorem WeaklyFair.irqd_idle (hrun : Run r mv) (hfair : WeaklyFair r mv) (n : Nat) :
    ∃ m, n ≤ m ∧ (r m).irqd.pc = .idle := by
  by_contra hnever
  have hactive : ∀ m, n ≤ m → (r m).irqd.pc ≠ .idle := fun m hm h => hnever ⟨m, hm, h⟩
  obtain ⟨N, hN, hconst⟩ := eventually_constant (fun m => (r m).irqd.pc) IrqPc.left n fun m hm => by
    match hp : (r m).irqd.pc with
    | .idle => exact absurd hp (hactive m hm)
    | .run b k =>
      rcases irqdPc_applyMove hp (applyMove_of_step (hrun m)) with hidle | hsame | ⟨hk, j, hj, hlater⟩
      · exact absurd hidle (hactive (m + 1) (by omega))
      · exact .inl (hsame.trans hp)
      · rw [hlater]; exact .inr (Nat.sub_lt_sub_left hk hj)
  exact hfair.irqdPc_not_constant hrun (hactive N hN) hconst

/-- Settles O56: a command that nothing hinders runs through its lines; in a fair run neither step pointer can stand still, and
each change of one brings its agent nearer to its end. -/
theorem everyCommandEnds : Obligations.EveryCommandEnds := by
  refine ⟨fun i k s hp hk hturn hinv hlock hdraws htimeouts => ?turn, fun r mv hrun hfair hinv n => ⟨?seq, ?irqd⟩⟩
  case turn => exact Unhindered.exec_ends ⟨hp, hinv, hlock, by omega, htimeouts⟩ hk hturn
  case seq =>
    obtain ⟨m, hm, hidle⟩ := hfair.seq_idle hrun hinv n
    exact ⟨m, hm, hidle, by simpa [hidle] using (hinv m).busy⟩
  case irqd =>
    obtain ⟨m, hm, hidle⟩ := hfair.irqd_idle hrun n
    exact ⟨m, hm, hidle, by simpa [hidle] using (hinv m).active⟩

end Sys2Proof.Machine
end

section
/-! Power-on and reset (R49, R350, R351), the word placed by `withFetchWord` (log 6), the quiescent state (R365), the lost update
(R361) and the window read back (R98, R200). -/

namespace Sys2Proof.Machine

variable {s t : State} {n : Nat}

/-! ## Power-on and reset (R350, R351) -/

/-- The power-on values do not speak of the events emitted. -/
theorem powerOnBlk_reset (evs : List Event) : PowerOnBlk { Blk.reset with out := evs } where
  attached := rfl
  rev := rfl
  rstate := rfl
  flags := ⟨rfl, rfl, rfl⟩
  lastDone := rfl
  win := rfl
  offsets := ⟨rfl, rfl⟩
  haveMode := rfl
  cb := rfl
  clock := ⟨rfl, rfl⟩
  palCount := rfl
  power := ⟨rfl, rfl, rfl⟩
  lock := rfl
  irqActive := rfl
  busy := rfl
  results := ⟨rfl, rfl, rfl⟩
  cmdword := rfl
  args _ := ⟨Vector.getElem_replicate .., Vector.getElem_replicate ..⟩

/-- A register that nothing has written reads as the draw (R45). -/
theorem regValue_reset (p : Params) (r : Rev) {g : LReg} (w : Word) (hg : g ≠ .id) :
    regValue p r Lcdc.reset g w = w := by
  cases g
  case id => exact absurd rfl hg
  all_goals rfl

/-- Settles O10: each clause is read off `State.reset`. -/
theorem powerOnState : Obligations.PowerOnState := by
  refine ⟨powerOnBlk_reset [], rfl, rfl, rfl, by decide, rfl, rfl, fun i => ?args, fun s hs => ?quiet,
    fun r g w hg => regValue_reset _ r w hg⟩
  case args => rw [hostReadAt_arg]; exact Vector.getElem_replicate ..
  case quiet => simp only [mayActivate, hs]; rfl

/-- Settles O11: the step is `assertReset`. -/
theorem resetInput : Obligations.ResetInput := by
  intro s hwf hm
  refine ⟨assertReset { s with env := s.env.dropMove }, by rw [step_of_wellFormed hwf, hm]; rfl, powerOnBlk_reset s.blk.out,
    rfl, rfl, rfl, rfl, rfl, rfl, rfl, rfl⟩

/-- The default parameters are well formed (R104, R105). -/
theorem capsOk_default : capsOk Params.default = true := by decide

/-- Settles O60: at reset both step pointers are idle, the lock is free, and nothing is attached. -/
theorem invariantsHoldAtReset : Obligations.InvariantsHoldAtReset := by
  have hpc : PcInv State.reset := stepInv_pcInv.view (stepInv_pcInv.reset State.reset) rfl rfl rfl rfl
  have hlock : LockInv State.reset := stepInv_lockInv.view (stepInv_lockInv.reset State.reset) rfl rfl rfl rfl
  have hwin : WindowInv State.reset := stepInv_windowInv.view (stepInv_windowInv.reset State.reset) rfl rfl rfl rfl
  exact ⟨hpc, hlock, hwin, capsOk_default⟩

/-! ## The word placed by `withFetchWord` (log 6) -/

/-- A table word that decodes is the command's word (R63, R130). -/
theorem tableWord_eq_encode {nbits w : Nat} {i : Instr} (h : decodeTableWord nbits w = some i) :
    tableWord nbits w = encode i := by
  have hbytes : decodeBytes (bytesOfWord (tableWord nbits w)) = .ok i := by
    unfold decodeTableWord at h
    cases hd : decodeBytes (bytesOfWord (tableWord nbits w)) with
    | ok j => rw [hd] at h; cases h; rfl
    | error e => rw [hd] at h; cases h
  rw [decodeBytes_eq_ok_iff, encodeBytes, eq_comm] at hbytes
  exact (((eq_bytesOfWord_iff ..).mp rfl).symm.trans ((eq_bytesOfWord_iff ..).mp hbytes)).symm

/-- Settles O5: the next move is the full turn that `withFetchWord` puts before the others. -/
theorem fetchWordRunsItsCommand : Obligations.FetchWordRunsItsCommand := by
  intro s nbits w i hwf hd
  have hdec : decode? (tableWord nbits w) = some i := by
    rw [tableWord_eq_encode hd, decode?, decodeWord_encode]; rfl
  let u := accept s (tableWord nbits w)
  have hpc : u.seq.pc = .run (some i) 0 := congrArg (SeqPc.run · 0) hdec
  refine ⟨{ u with seq := { u.seq with turn := fullTurn } }, ⟨hpc, Nat.le_refl _⟩, ?_, rfl, rfl, rfl, rfl, rfl, rfl⟩
  rw [step_of_wellFormed (s := s.withFetchWord nbits w) hwf]
  exact (seqMove_run fullTurn hpc).trans (exec_eq_seqTurn i _).symm

/-! ## The quiescent state (R365) -/

/-- In a quiescent state that keeps the lock discipline no command and no activation runs, and none starts. -/
theorem Quiescent.idle (hq : Quiescent s) (hinv : LockInv s) :
    s.seq.pc = .idle ∧ s.irqd.pc = .idle ∧ mayActivate s = false := by
  obtain ⟨hbusy, hact, -, hirq⟩ := hq
  exact ⟨by simpa [hbusy] using hinv.busy, by simpa [hact] using hinv.active, by simp [mayActivate, hirq]⟩

/-- Settles O55: an idle sequencer takes no step, a decoder that may not start takes none, and the line is low already. -/
theorem quiescentStatesStay : Obligations.QuiescentStatesStay := by
  intro s hwf hinv hq hm
  obtain ⟨hseq, hirqd, hno⟩ := hq.idle hinv
  rw [step_of_wellFormed hwf]
  rcases hm with ⟨n, hm⟩ | ⟨n, hm⟩ | hm <;> rw [hm]
  · refine ⟨{ s with env := s.env.dropMove, seq := { s.seq with turn := n } }, ?_, rfl, rfl, rfl, rfl, rfl⟩
    simp only [applyMove, seqMove, hseq]
  · refine ⟨{ s with env := s.env.dropMove }, ?_, rfl, rfl, rfl, rfl, rfl⟩
    have hno' : mayActivate { s with env := s.env.dropMove } = false := hno
    cases n with
    | zero => simp only [applyMove, irqdTurn, hirqd]
    | succ n => simp only [applyMove, irqdTurn, hirqd, hno', Bool.false_eq_true, if_false]
  · obtain ⟨-, -, -, hirq⟩ := hq
    exact ⟨_, rfl, rfl, by rw [← hirq], rfl, rfl, rfl⟩

/-! ## The lost update (R361) -/

/-- Settles O54: line 4 of PROGRAM_DISPLAY_MODE writes the edited word of the read half, and no edit names `RASTER_EN`. -/
theorem rasterCtrlUpdateCanBeLost : Obligations.RasterCtrlUpdateCanBeLost := by
  rintro s ⟨hp, -⟩ hturn hwf
  let w := insFields s.cfg s.blk.rev s.seq.loc.t (displayFields s.blk.rev (displayModeOfWords (s.arg 0) (s.arg 1)))
  have hexec : exec .programDisplayMode s = .next (bump .seq (s.regWrite .seq .rasterCtrl w)) := by
    rw [exec_from hp (by decide), hturn]
    exact congrArg Host.Outcome.next (runActs_one (by decide))
  exact ⟨_, w, hexec, by rw [bump_lcdc]; rfl, bump_blk .., rfl, ext_displayFields_rasterEn hwf ..⟩

/-! ## The window read back (log 9) -/

/-- A slot register reads back whole, because the LCDC drives no bit of it (log 9). -/
theorem regValue_slot {p : Params} (hwf : p.wellFormed = true) (r : Rev) {l : Lcdc} {g : LReg} {v : Word} (w : Word)
    (hg : g ∈ [LReg.fb0Base, .fb0Ceil, .fb1Base, .fb1Ceil]) (hv : l.regs.get g = some v) : regValue p r l g w = v := by
  have hmask := List.all_eq_true.mp (wellFormed_hwBitsApart hwf r) g (LReg.mem_all g)
  obtain ⟨hword, hzero⟩ : LReg.holdsWord g = true ∧ p.hwMask r g = 0#32 := by
    simp only [List.mem_cons, List.not_mem_nil, or_false] at hg
    rcases hg with rfl | rfl | rfl | rfl <;> exact ⟨rfl, beq_iff_eq.mp hmask⟩
  rw [regValue_holdsWord p r l w hword, hv, hzero]
  simp only [BitVec.not_zero, BitVec.and_allOnes, BitVec.and_zero, BitVec.or_zero]

/-- Settles O34: SET_WINDOW leaves the arguments in the slots, and those read back. -/
theorem setWindowReadsBack : Obligations.SetWindowReadsBack := by
  intro s t hs ha hwf hmode hlt hsize hbase hlast hfree hexec
  have hvalid : validWin s.blk (s.argN 0) (s.argN 1) = true := (validWin_iff ..).mpr ⟨hmode, hlt, hsize, hbase, hlast⟩
  obtain ⟨t', hexec', hend⟩ := exec_setWindow_ok hs ha hvalid hfree
  obtain rfl : t = t' := Host.Outcome.next.inj (hexec.symm.trans hexec')
  have hslots := does_setWin_slots .seq s s (s.arg 0) (s.arg 1)
  rw [← hend.lcdc] at hslots
  obtain ⟨hbase0, hbase1, hceil0, hceil1⟩ := hslots
  have hreads {g : LReg} {v : Word} (hg : g ∈ [LReg.fb0Base, .fb0Ceil, .fb1Base, .fb1Ceil])
      (hv : t.lcdc.regs.get g = some v) : t.readVal g = v := regValue_slot (by rw [hend.cfg]; exact hwf) _ _ hg hv
  exact ⟨hreads (by decide) hbase0, hreads (by decide) hceil0, hreads (by decide) hbase1, hreads (by decide) hceil1⟩

end Sys2Proof.Machine
end
